-- ==== Sys2Proof/Word.lean ====
section
/-! DEFINITION. The plain words of the controller: bytes, audio samples, event sets, and a group of four like things. -/

namespace Sys2Proof

/-- One byte of a message or of a table. -/
abbrev Byte := BitVec 8

/-- A 16-bit data part of a slot (01 R1); an audio sample reads it as two's complement. -/
abbrev Sample := BitVec 16

/-- A set of the 24 event kinds (02 R24): kind number n is bit n - 1. -/
abbrev EventSet := BitVec 24

/-- Four like things: the sources or destinations of the mixer (09 R138), the exception counters (02 R26). -/
structure Four (α : Type) where
  x0 : α
  x1 : α
  x2 : α
  x3 : α
  deriving DecidableEq, Repr

/-- The same thing four times. -/
def Four.all {α : Type} (a : α) : Four α := ⟨a, a, a, a⟩

/-- A function applied to each of four things. -/
def Four.map {α β : Type} (f : α → β) (v : Four α) : Four β := ⟨f v.x0, f v.x1, f v.x2, f v.x3⟩

/-- A function applied to two groups of four, place by place. -/
def Four.zip {α β γ : Type} (f : α → β → γ) (v : Four α) (w : Four β) : Four γ :=
  ⟨f v.x0 w.x0, f v.x1 w.x1, f v.x2 w.x2, f v.x3 w.x3⟩

/-- The four things in order. -/
def Four.toList {α : Type} (v : Four α) : List α := [v.x0, v.x1, v.x2, v.x3]

/-- A saturating sum (00, Conventions): it stops at the cap. -/
def satAdd (cap a b : Nat) : Nat := min cap (a + b)

end Sys2Proof
end

