-- ==== Sys2Proof/Config.lean ====
section
/-! DEFINITION. The fixed sizes and limits the manual gives the controller. The manual leaves no value of an operation open, so there is no free value here. -/

namespace Sys2Proof.Config

/-- Places of the inbound queue (01 R13). -/
abbrev inboundCap : Nat := 8
/-- Places of the outbound queue (01 R14). -/
abbrev outboundCap : Nat := 16
/-- The longest payload (01 R5). -/
abbrev payloadMax : Nat := 56
/-- The idle code of an answer word (01 R8). -/
abbrev idleCode : BitVec 16 := 42330#16
/-- Consecutive misses that make a station ABSENT (01 R12). -/
abbrev missLimit : Nat := 8
/-- Frames in a tick (04 R52). -/
abbrev framesPerTick : Nat := 800
/-- Ticks in a fare second (04 R52). -/
abbrev ticksPerSecond : Nat := 10
/-- Seconds in a day (04 R53). -/
abbrev daySeconds : Nat := 86400
/-- Minutes in a week (00, Conventions). -/
abbrev weekMinutes : Nat := 10080
/-- Day numbers (04 R53). -/
abbrev dayCount : Nat := 65536
/-- The unknown zone (04 R60). -/
abbrev zoneUnknown : Nat := 31
/-- The largest 16-bit count. -/
abbrev max16 : Nat := 65535
/-- The largest 32-bit count. -/
abbrev max32 : Nat := 4294967295
/-- The largest fare (06 R99). -/
abbrev fareMax : Nat := 999999
/-- The largest trip distance in metres (06 R83). -/
abbrev tripDistanceMax : Nat := 9999999
/-- Ticks of the emergency debounce (08 R129). -/
abbrev debounceTicks : Nat := 20
/-- Fare seconds between SIGN SET refreshes (08 R128). -/
abbrev refreshSeconds : Nat := 5
/-- Fare seconds of the talk hold limit (09 R147). -/
abbrev holdSeconds : Nat := 30
/-- Fare seconds of a PIN entry (09 R152). -/
abbrev pinSeconds : Nat := 60
/-- Entries of the late list (10 R166). -/
abbrev lateCap : Nat := 4
/-- Entries of the deferred queue (10 R169). -/
abbrev deferredCap : Nat := 16
/-- Entries of the trip journal (11 R182). -/
abbrev journalCap : Nat := 48
/-- Reports of the report store (11 R188). -/
abbrev reportCap : Nat := 4
/-- Bytes of a record's page (11 R184). -/
abbrev pageBytes : Nat := 44

end Sys2Proof.Config
end

