-- ==== Sys2Proof/Syntax.lean ====
section
/-! DEFINITION. The commands of the controller: one constructor of Instr for each row of spec/opcode_table.json. -/

namespace Sys2Proof

/-- The six stations of the cab link (00, Station addresses). -/
inductive Station where
  | meterHead | roofSign | cardTerminal | fleetModem | passengerA | passengerB
  deriving DecidableEq, Repr

/-- A slot of a link frame: its valid mark and its 16 data bits (01 R1). -/
structure Slot where
  valid : Bool
  data : BitVec 16
  deriving DecidableEq, Repr

/-- What the stations drive on the up line in one frame, slot by slot (01 R1). -/
structure UpFrame where
  /-- Slot 0, the answer word. -/
  answer : Slot
  /-- Slot 1, the up message lane. -/
  message : Slot
  /-- Slot 2, the driver microphone. -/
  driver : Slot
  /-- Slot 3, the passenger A microphone. -/
  passengerA : Slot
  /-- Slot 4, the passenger B microphone. -/
  passengerB : Slot
  /-- Slot 5, the modem voice-in. -/
  modem : Slot
  deriving DecidableEq, Repr

/-- The commands. A message command carries the station that sends it and its payload bytes; for a key of the meter head,
the bytes after the key code (07 R107). The rows of events inside the controller carry nothing. -/
inductive Instr where
  /-- One link frame; `cal` is the level of the calibration line during it. -/
  | frame (up : UpFrame) (cal : Bool)
  | tick
  | fareSecond
  | odometerPulse
  | distanceExpiry
  | timeExpiry
  | wallClockSecond
  | boundaryAlarm
  | emergencyLineAssert
  | emergencyLineRelease
  | emergencyDebounceComplete
  | signRefreshDue
  | brightnessStep
  | talkHoldExpiry
  | pinEntryTimeout
  | authTimerExpiry
  /-- The late entry at this position of the late list, oldest first. -/
  | lateEntryExpiry (position : Nat)
  | captureExpiry
  | captureWaitEnd
  | hire (src : Station) (args : List Byte)
  | stop (src : Station) (args : List Byte)
  | resume (src : Station) (args : List Byte)
  | cash (src : Station) (args : List Byte)
  | unpaid (src : Station) (args : List Byte)
  | prompt (src : Station) (args : List Byte)
  | onCallKey (src : Station) (args : List Byte)
  | cancelCall (src : Station) (args : List Byte)
  | offDutyKey (src : Station) (args : List Byte)
  | onDuty (src : Station) (args : List Byte)
  | extra (src : Station) (args : List Byte)
  | passengers (src : Station) (args : List Byte)
  | luggage (src : Station) (args : List Byte)
  | talkDownKey (src : Station) (args : List Byte)
  | talkUpKey (src : Station) (args : List Byte)
  | openToggle (src : Station) (args : List Byte)
  | shiftOpen (src : Station) (payload : List Byte)
  | shiftClose (src : Station) (payload : List Byte)
  | dispatch (src : Station) (payload : List Byte)
  | statusRead (src : Station) (payload : List Byte)
  | noticeMask (src : Station) (payload : List Byte)
  | flagsClear (src : Station) (payload : List Byte)
  | tableWrite (src : Station) (payload : List Byte)
  | tableClear (src : Station) (payload : List Byte)
  | tableRead (src : Station) (payload : List Byte)
  | tableActivate (src : Station) (payload : List Byte)
  /-- CALIBRATE; `cal` is the level of the calibration line when the message comes. -/
  | calibrate (src : Station) (cal : Bool) (payload : List Byte)
  | clockSet (src : Station) (payload : List Byte)
  | emergencyClear (src : Station) (payload : List Byte)
  | payRequest (src : Station) (payload : List Byte)
  | payCancel (src : Station) (payload : List Byte)
  | deferredRead (src : Station) (payload : List Byte)
  | journalRead (src : Station) (payload : List Byte)
  | reportRead (src : Station) (payload : List Byte)
  | reportRelease (src : Station) (payload : List Byte)
  | snapshotTake (src : Station) (payload : List Byte)
  | snapshotRead (src : Station) (payload : List Byte)
  | snapshotRelease (src : Station) (payload : List Byte)
  /-- A message whose kind code is no kind of 02 R18. -/
  | unknownKind (src : Station) (kind : Byte) (payload : List Byte)
  | signStatus (src : Station) (payload : List Byte)
  | pinState (src : Station) (payload : List Byte)
  | modemStatus (src : Station) (payload : List Byte)
  | zoneUpdate (src : Station) (payload : List Byte)
  | authResponse (src : Station) (payload : List Byte)
  | captureResponse (src : Station) (payload : List Byte)
  | talkDownReport (src : Station) (payload : List Byte)
  | talkUpReport (src : Station) (payload : List Byte)
  | call (src : Station) (payload : List Byte)
  | mainSupplyLoss
  | coldStart
  | warmStart
  /-- A message from a station whose kind only the controller sends (02 R21). -/
  | controllerKindDiscard (src : Station) (kind : Byte) (payload : List Byte)
  deriving DecidableEq, Repr

end Sys2Proof
end

