-- ==== Sys2Proof/Machine/State.lean ====
section
/-! DEFINITION. Everything the manual gives the controller, as plain data, block by block, and the machine right after a cold start. -/

namespace Sys2Proof.Machine

/-- Presence of a station (01 R12). -/
inductive Presence where
  | unknown | present | absent
  deriving DecidableEq, Repr

/-- The station table record of one station (01 R12). -/
structure StationRecord where
  presence : Presence
  /-- Consecutive misses, 0-8. -/
  misses : Nat
  checkFailures : Nat
  truncations : Nat
  missTotal : Nat
  deriving DecidableEq, Repr

/-- The station table (01 R12). -/
structure StationTable where
  meterHead : StationRecord
  roofSign : StationRecord
  cardTerminal : StationRecord
  fleetModem : StationRecord
  passengerA : StationRecord
  passengerB : StationRecord
  deriving DecidableEq, Repr

/-- A good message of the inbound queue; its destination is the controller (01 R9, R13). -/
structure Inbound where
  src : Station
  kind : Byte
  payload : List Byte
  deriving DecidableEq, Repr

/-- A message from the controller; its source is 0 (01 R14). -/
structure Outbound where
  dest : Station
  kind : Byte
  payload : List Byte
  deriving DecidableEq, Repr

/-- A message being received (01 R9). -/
structure Reception where
  station : Station
  bytes : List Byte
  deriving DecidableEq, Repr

/-- What the controller drives on the down line in one frame (01 R1, R2, R4, R16). -/
structure DownFrame where
  header : BitVec 16
  message : Slot
  driver : Slot
  passengerA : Slot
  passengerB : Slot
  modem : Slot
  deriving DecidableEq, Repr

/-- The link controller (01). -/
structure LinkState where
  stations : StationTable
  /-- The last station granted (R7). -/
  grantPointer : Station
  /-- The rotation number, mod 16 (R7). -/
  rotation : Nat
  /-- The frame count that the next header carries, mod 16 (R2). -/
  frameNumber : Nat
  reception : Option Reception
  inbound : List Inbound
  outbound : List Outbound
  /-- The hold line (R14). -/
  held : List Outbound
  displayPlace : Option Outbound
  signPlace : Option Outbound
  /-- The bytes still to be sent of the message on the down lane (R16). -/
  sending : Option (List Byte)
  /-- The mixer's outputs from the previous frame (R4). -/
  mixed : Option (Four Sample)
  /-- The last frame driven on the down line. -/
  lastFrame : Option DownFrame
  deriving DecidableEq, Repr

/-- The event kinds in the order of their numbers 1 to 24 (02 R24). -/
inductive Event where
  | stateChange | tripClosed | fareLimit | extraCap | tariffChange | selectFallback | selectDepth | tariffListFull
  | odoClamp | stationLost | stationFound | linkCheck | messageTruncated | lampFault | audioClip | emergency
  | authTimeout | offlineApproval | lateVoid | captureDeclined | journalOverwrite | powerBreak | activationDone
  | passengerCall
  deriving DecidableEq, Repr

/-- The request dispatcher's event machinery (02 R25, R27). -/
structure DispatcherState where
  flags : EventSet
  headMask : EventSet
  modemMask : EventSet
  headPending : EventSet
  modemPending : EventSet
  deriving DecidableEq, Repr

/-- The contents of one written field group of a table; the key names table, entry and group. -/
structure GroupCell where
  key : Nat
  bytes : List Byte
  deriving DecidableEq, Repr

/-- A bank: the written groups, keys strictly rising (03 R32). -/
abbrev Bank := List GroupCell

/-- The table store (03). -/
structure TableState where
  active : Bank
  standby : Bank
  unbanked : Bank
  activeVersion : Nat
  /-- The version a pending activation will set; its timing is AT TRIP END (R41). -/
  pendingActivation : Option Nat
  deriving DecidableEq, Repr

/-- The day type (04 R56). -/
inductive DayType where
  | weekday | saturday | sunday | holiday
  deriving DecidableEq, Repr

/-- A clock time written in a record (00, Conventions). -/
structure ClockTime where
  day : Nat
  second : Nat
  deriving DecidableEq, Repr

/-- The timebase (04). -/
structure TimeState where
  k : Nat
  lifetime : Nat
  windowK : Nat
  budget : Nat
  accepted : Nat
  clampMark : Bool
  speed : Nat
  divFrames : Nat
  divTicks : Nat
  day : Nat
  second : Nat
  /-- The sub-second phase in cycles of the retention oscillator (R53). -/
  subSecond : Nat
  clockUnset : Bool
  calendarFlags : BitVec 8
  dayType : DayType
  alarmDay : Nat
  alarmSecond : Nat
  zone : Nat
  deriving DecidableEq, Repr

/-- The meter state (07 R106). -/
inductive MeterState where
  | closed | vacant | onCall | hired | settling | offDuty
  deriving DecidableEq, Repr

/-- A tariff period of a trip (05 R73). -/
structure Period where
  tariff : Nat
  label : Nat
  start : ClockTime
  fare : Nat
  deriving DecidableEq, Repr

/-- The kind of a tender (07 R119). -/
inductive TenderKind where
  | cash | cardOnline | cardOffline | unpaid
  deriving DecidableEq, Repr

/-- The state of a tender (07 R119). -/
inductive TenderState where
  | settled | declinedLate
  deriving DecidableEq, Repr

/-- A tender; its reference is its trip's shift and trip number with this index (07 R119, 11 R181). -/
structure Tender where
  kind : TenderKind
  farePart : Nat
  tip : Nat
  index : Nat
  state : TenderState
  deriving DecidableEq, Repr

/-- The phase of the distance or the time side (06 R81). -/
inductive Phase where
  | allowance | stepping
  deriving DecidableEq, Repr

/-- The two sides of the meter (06 R88). -/
inductive Side where
  | distance | time
  deriving DecidableEq, Repr

/-- The trip record (07 R114) with the fare fields (06 R81). -/
structure Trip where
  tripNumber : Nat
  shiftNumber : Nat
  startTime : ClockTime
  endTime : Option ClockTime
  tariff : Nat
  tariffKey : Nat
  periods : List Period
  tariffListFull : Bool
  bankVersion : Nat
  pulses : Nat
  /-- The distance counter DC; none when inactive. -/
  dc : Option Nat
  /-- The time counter TC; none when inactive. -/
  tc : Option Nat
  distancePhase : Phase
  timePhase : Phase
  segment : Nat
  distanceDrops : Nat
  timeDrops : Nat
  dropsTotal : Nat
  flagDrop : Nat
  surcharge : Nat
  stepAdd : Nat
  extrasTotal : Nat
  /-- The press counts of extra items 1 to 8. -/
  pressCounts : List Nat
  fareDue : Option Nat
  roundingDiff : Int
  fareLimit : Bool
  extraCap : Bool
  passengers : Nat
  luggage : Nat
  zoneAtHire : Nat
  tenders : List Tender
  promptMark : Bool
  calls : Nat
  openFlag : Bool
  powerBreak : Bool
  hiredSeconds : Nat
  deriving DecidableEq, Repr

/-- The sign controller (08). -/
structure SignState where
  /-- The start time while the emergency is active. -/
  emergency : Option ClockTime
  /-- The debounce count in ticks; none when idle. -/
  debounce : Option Nat
  level : Nat
  ambient : Option Nat
  /-- FOR HIRE lamp bit 0, legend lamp bit 1, emergency lamp bit 2. -/
  lampFaults : BitVec 3
  lastLegend : Option Nat
  refresh : Nat
  stepping : Nat
  deriving DecidableEq, Repr

/-- The parties of the talk floor (09 R144). -/
inductive Party where
  | driver | passengerA | passengerB
  deriving DecidableEq, Repr

/-- The floor holder with its hold count (09 R144). -/
structure FloorHold where
  party : Party
  count : Nat
  deriving DecidableEq, Repr

/-- The displayed modes (09 R140). -/
inductive ShownMode where
  | privateMode | driverTalk | passengerTalk | openMode
  deriving DecidableEq, Repr

/-- The intercom mixer (09). -/
structure IntercomState where
  floor : Option FloorHold
  waitA : Bool
  waitB : Bool
  /-- The count of fare seconds while PIN entry is ON. -/
  pin : Option Nat
  clipCounts : Four Nat
  clipMarks : Four Bool
  shownMode : ShownMode
  deriving DecidableEq, Repr

/-- The reference of a card payment (10 R159). -/
structure Reference where
  shift : Nat
  trip : Nat
  index : Nat
  deriving DecidableEq, Repr

/-- The pending authorization (10 R160). -/
structure Auth where
  number : Nat
  ref : Reference
  issuer : Nat
  cls : Nat
  farePart : Nat
  tip : Nat
  token : List Byte
  cancelled : Bool
  count : Nat
  timeout : Nat
  deriving DecidableEq, Repr

/-- How a late entry's authorization ended (10 R166). -/
inductive Ending where
  | endedOffline | endedDeclined | cancelled | warmStart
  deriving DecidableEq, Repr

/-- An entry of the late list (10 R166). -/
structure LateEntry where
  number : Nat
  ref : Reference
  farePart : Nat
  tip : Nat
  ending : Ending
  count : Nat
  holdTime : Nat
  deriving DecidableEq, Repr

/-- An entry of the deferred queue (10 R169). -/
structure DeferredEntry where
  ref : Reference
  issuer : Nat
  cls : Nat
  farePart : Nat
  tip : Nat
  token : List Byte
  time : ClockTime
  deriving DecidableEq, Repr

/-- The capture state (10 R170, R172). -/
inductive CaptureState where
  | idle
  | inFlight (ref : Reference) (count timeout : Nat)
  | waiting (count interval : Nat)
  deriving DecidableEq, Repr

/-- The payment controller (10). -/
structure PaymentState where
  bearerUp : Bool
  auth : Option Auth
  nextAuth : Nat
  late : List LateEntry
  deferred : List DeferredEntry
  capture : CaptureState
  deriving DecidableEq, Repr

/-- The shift record; total and paid distance are computed, not held (11 R177). -/
structure ShiftRecord where
  number : Nat
  driver : Nat
  openTime : ClockTime
  bankVersion : Nat
  activations : Nat
  lifetimeAtOpen : Nat
  kAtOpen : Nat
  offlineCap : Nat
  trips : Nat
  totalPulses : Nat
  paidPulses : Nat
  hiredSeconds : Nat
  distanceDrops : Nat
  timeDrops : Nat
  fareTotal : Nat
  extrasTotal : Nat
  surchargeTotal : Nat
  roundingTotal : Int
  tipsTotal : Nat
  cashTotal : Nat
  cardOnlineTotal : Nat
  offlineCount : Nat
  offlineAmount : Nat
  unpaidCount : Nat
  unpaidAmount : Nat
  resolvedCount : Nat
  declinedCount : Nat
  declinedAmount : Nat
  voids : Nat
  lampFaults : Nat
  emergencies : Nat
  stationsLost : Nat
  exceptions : Four Nat
  deriving DecidableEq, Repr

/-- A journal entry: the trip record at its close, with the trip distance computed then (11 R181). -/
structure JournalEntry where
  trip : Trip
  distance : Nat
  deriving DecidableEq, Repr

/-- A closed shift's report (11 R187). -/
structure Report where
  record : ShiftRecord
  closeTime : ClockTime
  lifetimeAtClose : Nat
  deferredCount : Nat
  deferredTotal : Nat
  versionAtClose : Nat
  deriving DecidableEq, Repr

/-- The snapshot; its taker is the meter head or the fleet modem (11 R191). -/
structure Snapshot where
  record : ShiftRecord
  time : ClockTime
  taker : Station
  deriving DecidableEq, Repr

/-- The shift accounting unit (11). -/
structure ShiftState where
  record : Option ShiftRecord
  nextShift : Nat
  /-- Newest first. -/
  journal : List JournalEntry
  /-- Oldest first. -/
  reports : List Report
  snapshot : Option Snapshot
  deriving DecidableEq, Repr

/-- The controller. -/
structure State where
  /-- The commands that are waiting, first in, first out. -/
  pending : List Instr
  /-- The main supply is present and reset is released (01 R1). -/
  running : Bool
  /-- The level of the emergency line (08 R129). -/
  emgLine : Bool
  /-- The level of the calibration line (04 R47). -/
  calLine : Bool
  link : LinkState
  disp : DispatcherState
  tables : TableState
  time : TimeState
  meter : MeterState
  trip : Option Trip
  sign : SignState
  intercom : IntercomState
  pay : PaymentState
  shifts : ShiftState
  deriving DecidableEq, Repr

/-- No condition of the manual stops the controller (02 R23: a refusal is a REPLY), so no command raises a fault. -/
inductive Fault where
  deriving DecidableEq, Repr

/-- Why a command has no answer. -/
inductive Refusal where
  /-- Raised by an arm of exec that has no meaning yet; safe, since no state follows. No arm raises it. -/
  | notModelled (mnemonic : String)
  deriving DecidableEq, Repr

/-- A station's record after a start (01 R17). -/
def StationRecord.start : StationRecord :=
  { presence := .unknown, misses := 0, checkFailures := 0, truncations := 0, missTotal := 0 }

/-- The station table after a start (01 R17). -/
def StationTable.start : StationTable :=
  { meterHead := .start, roofSign := .start, cardTerminal := .start, fleetModem := .start, passengerA := .start
    passengerB := .start }

/-- The link after a start, before any message is placed (01 R17). -/
def LinkState.start : LinkState :=
  { stations := .start, grantPointer := .passengerB, rotation := 15, frameNumber := 0, reception := none, inbound := []
    outbound := [], held := [], displayPlace := none, signPlace := none, sending := none, mixed := none
    lastFrame := none }

/-- The dispatcher after a cold start (02 R31). -/
def DispatcherState.cold : DispatcherState :=
  { flags := 0#24, headMask := 0xFFFFFF#24, modemMask := 0xFFFFFF#24, headPending := 0#24, modemPending := 0#24 }

/-- The table store after a cold start (03 R44, R45). -/
def TableState.cold : TableState :=
  { active := [], standby := [], unbanked := [], activeVersion := 0, pendingActivation := none }

/-- The timebase after a cold start (04 R61). -/
def TimeState.cold : TimeState :=
  { k := 0, lifetime := 0, windowK := 0, budget := 0, accepted := 0, clampMark := false, speed := 0, divFrames := 0
    divTicks := 0, day := 0, second := 0, subSecond := 0, clockUnset := true, calendarFlags := 0#8, dayType := .weekday
    alarmDay := 1, alarmSecond := 0, zone := 31 }

/-- The sign controller after a cold start, before its first SIGN SET (08 R136). -/
def SignState.cold : SignState :=
  { emergency := none, debounce := none, level := 15, ambient := none, lampFaults := 0#3, lastLegend := none
    refresh := 0, stepping := 0 }

/-- The mixer after a start (09 R153). -/
def IntercomState.start : IntercomState :=
  { floor := none, waitA := false, waitB := false, pin := none, clipCounts := .all 0, clipMarks := .all false
    shownMode := .privateMode }

/-- The payment controller after a cold start (10 R175). -/
def PaymentState.cold : PaymentState :=
  { bearerUp := false, auth := none, nextAuth := 1, late := [], deferred := [], capture := .idle }

/-- The shift accounting unit after a cold start (11 R194). -/
def ShiftState.cold : ShiftState :=
  { record := none, nextShift := 1, journal := [], reports := [], snapshot := none }

/-- The machine right after a cold start has completed (log 12): each block as its chapter says, the DISPLAY of 07 R124
and the SIGN SET of 08 R136 in their refresh places. -/
def State.reset : State :=
  { pending := [], running := true, emgLine := false, calLine := false
    link :=
      { LinkState.start with
        displayPlace := some
          { dest := .meterHead, kind := 66#8
            payload := [0#8, 0#8, 0#8, 0#8, 0#8, 0#8, 0#8, 0#8, 0#8, 0#8, 1#8, 0#8] }
        signPlace := some { dest := .roofSign, kind := 67#8, payload := [0#8, 0#8, 15#8, 1#8] } }
    disp := .cold, tables := .cold, time := .cold, meter := .closed, trip := none
    sign := { SignState.cold with lastLegend := some 0 }
    intercom := .start, pay := .cold, shifts := .cold }

end Sys2Proof.Machine
end

