-- ==== Sys2Proof/Machine/Encoding.lean ====
section
/-! DEFINITION. How values are carried: bytes, codes, message kinds, the message and its check (01 R5, R6), the frame (01 R1, R2). -/

namespace Sys2Proof.Machine

/-- A value in n bytes, high byte first (03 R34). -/
def beBytes : Nat → Nat → List Byte
  | 0, _ => []
  | n + 1, v => BitVec.ofNat 8 (v / 256 ^ n) :: beBytes n v

/-- The value of bytes sent high byte first (03 R34). -/
def beNat (l : List Byte) : Nat := l.foldl (fun a b => a * 256 + b.toNat) 0

/-- The value of the `len` bytes from offset `off`. -/
def fieldAt (l : List Byte) (off len : Nat) : Nat := beNat ((l.drop off).take len)

/-- A signed value in n bytes of two's complement (11 R177). -/
def signedBytes (n : Nat) (v : Int) : List Byte := beBytes n (v % (256 ^ n : Nat)).toNat

/-- YES is 1 and NO is 0; set is 1 and clear is 0 (00, Codes). -/
def boolByte (b : Bool) : Byte := if b then 1#8 else 0#8

/-- A set of event kinds in three bytes (00, Codes; 02 R24). -/
def eventSetBytes (v : EventSet) : List Byte := beBytes 3 v.toNat

/-- Day number in two bytes, second of day in three (11 R177). -/
def clockBytes (t : ClockTime) : List Byte := beBytes 2 t.day ++ beBytes 3 t.second

/-- A card payment's reference in five bytes (10 R162). -/
def refBytes (r : Reference) : List Byte := beBytes 2 r.shift ++ beBytes 2 r.trip ++ beBytes 1 r.index

/-- The fixed address of a station (00, Station addresses). -/
def stationAddress : Station → Nat
  | .meterHead => 1
  | .roofSign => 2
  | .cardTerminal => 3
  | .fleetModem => 4
  | .passengerA => 5
  | .passengerB => 6

/-- The number of an event kind (02 R24). -/
def Event.number : Event → Nat
  | .stateChange => 1
  | .tripClosed => 2
  | .fareLimit => 3
  | .extraCap => 4
  | .tariffChange => 5
  | .selectFallback => 6
  | .selectDepth => 7
  | .tariffListFull => 8
  | .odoClamp => 9
  | .stationLost => 10
  | .stationFound => 11
  | .linkCheck => 12
  | .messageTruncated => 13
  | .lampFault => 14
  | .audioClip => 15
  | .emergency => 16
  | .authTimeout => 17
  | .offlineApproval => 18
  | .lateVoid => 19
  | .captureDeclined => 20
  | .journalOverwrite => 21
  | .powerBreak => 22
  | .activationDone => 23
  | .passengerCall => 24

/-- The set that holds one kind (02 R24). -/
def Event.only (e : Event) : EventSet := 1#24 <<< (e.number - 1)

/-- Whether a set holds a kind (02 R24). -/
def Event.isIn (e : Event) (v : EventSet) : Bool := v.getLsbD (e.number - 1)

/-- Code of a presence, in the order of 01's station table. -/
def Presence.code : Presence → Byte
  | .unknown => 0#8
  | .present => 1#8
  | .absent => 2#8

/-- Code of a meter state, in the order of 07 R106. -/
def MeterState.code : MeterState → Byte
  | .closed => 0#8
  | .vacant => 1#8
  | .onCall => 2#8
  | .hired => 3#8
  | .settling => 4#8
  | .offDuty => 5#8

/-- Code of a displayed mode, in the order of 09 R149. -/
def ShownMode.code : ShownMode → Byte
  | .privateMode => 0#8
  | .driverTalk => 1#8
  | .passengerTalk => 2#8
  | .openMode => 3#8

/-- Code of the floor holder, in the order of 09 R149. -/
def floorCode : Option FloorHold → Byte
  | none => 0#8
  | some ⟨.driver, _⟩ => 1#8
  | some ⟨.passengerA, _⟩ => 2#8
  | some ⟨.passengerB, _⟩ => 3#8

/-- Code of a tender's kind, in the order of 07 R119. -/
def TenderKind.code : TenderKind → Byte
  | .cash => 0#8
  | .cardOnline => 1#8
  | .cardOffline => 2#8
  | .unpaid => 3#8

/-- Code of a tender's state, in the order of 07 R119. -/
def TenderState.code : TenderState → Byte
  | .settled => 0#8
  | .declinedLate => 1#8

/-- Code of the capture state, in the order of 10 R170. -/
def CaptureState.code : CaptureState → Byte
  | .idle => 0#8
  | .inFlight _ _ _ => 1#8
  | .waiting _ _ => 2#8

/-- Code of a snapshot's taker: the meter head 0, the fleet modem 1 (11 R191). -/
def takerCode : Station → Byte
  | .meterHead => 0#8
  | _ => 1#8

/-- The result codes (02 R23). -/
inductive Result where
  | ok | refusedState | refusedPermission | unknownKind | badValue | badTable | notReady | noTariff | busy | capReached
  | amountExcess | tipLimit | splitLimit | reportFull | notFound | calibrationLocked
  deriving DecidableEq, Repr

/-- The number of a result code (02 R23). -/
def Result.code : Result → Byte
  | .ok => 0#8
  | .refusedState => 1#8
  | .refusedPermission => 2#8
  | .unknownKind => 3#8
  | .badValue => 4#8
  | .badTable => 5#8
  | .notReady => 6#8
  | .noTariff => 7#8
  | .busy => 8#8
  | .capReached => 9#8
  | .amountExcess => 10#8
  | .tipLimit => 11#8
  | .splitLimit => 12#8
  | .reportFull => 13#8
  | .notFound => 14#8
  | .calibrationLocked => 15#8

/-- The requests of 02 R18. -/
inductive Request where
  | key | shiftOpen | shiftClose | dispatch | statusRead | noticeMask | flagsClear | tableWrite | tableClear | tableRead
  | tableActivate | calibrate | clockSet | emergencyClear | payRequest | payCancel | deferredRead | journalRead
  | reportRead | reportRelease | snapshotTake | snapshotRead | snapshotRelease
  deriving DecidableEq, Repr

/-- The reports of 02 R18. -/
inductive ReportKind where
  | signStatus | pinState | modemStatus | zoneUpdate | authResponse | captureResponse | talkDown | talkUp | call
  deriving DecidableEq, Repr

/-- The class of a message from a station (02 R18, R19). -/
inductive KindClass where
  | request (r : Request)
  | report (r : ReportKind)
  | controllerOnly
  | unknown
  deriving DecidableEq, Repr

/-- The code of a request (02 R18). -/
def Request.code : Request → Byte
  | .key => 1#8
  | .shiftOpen => 2#8
  | .shiftClose => 3#8
  | .dispatch => 4#8
  | .statusRead => 5#8
  | .noticeMask => 6#8
  | .flagsClear => 7#8
  | .tableWrite => 8#8
  | .tableClear => 9#8
  | .tableRead => 10#8
  | .tableActivate => 11#8
  | .calibrate => 12#8
  | .clockSet => 13#8
  | .emergencyClear => 14#8
  | .payRequest => 15#8
  | .payCancel => 16#8
  | .deferredRead => 17#8
  | .journalRead => 18#8
  | .reportRead => 19#8
  | .reportRelease => 20#8
  | .snapshotTake => 21#8
  | .snapshotRead => 22#8
  | .snapshotRelease => 23#8

/-- The code of a report (02 R18). -/
def ReportKind.code : ReportKind → Byte
  | .signStatus => 32#8
  | .pinState => 33#8
  | .modemStatus => 34#8
  | .zoneUpdate => 35#8
  | .authResponse => 36#8
  | .captureResponse => 37#8
  | .talkDown => 38#8
  | .talkUp => 39#8
  | .call => 40#8

/-- The class of a kind code (02 R18). -/
def classify (kind : Byte) : KindClass :=
  match kind.toNat with
  | 1 => .request .key
  | 2 => .request .shiftOpen
  | 3 => .request .shiftClose
  | 4 => .request .dispatch
  | 5 => .request .statusRead
  | 6 => .request .noticeMask
  | 7 => .request .flagsClear
  | 8 => .request .tableWrite
  | 9 => .request .tableClear
  | 10 => .request .tableRead
  | 11 => .request .tableActivate
  | 12 => .request .calibrate
  | 13 => .request .clockSet
  | 14 => .request .emergencyClear
  | 15 => .request .payRequest
  | 16 => .request .payCancel
  | 17 => .request .deferredRead
  | 18 => .request .journalRead
  | 19 => .request .reportRead
  | 20 => .request .reportRelease
  | 21 => .request .snapshotTake
  | 22 => .request .snapshotRead
  | 23 => .request .snapshotRelease
  | 32 => .report .signStatus
  | 33 => .report .pinState
  | 34 => .report .modemStatus
  | 35 => .report .zoneUpdate
  | 36 => .report .authResponse
  | 37 => .report .captureResponse
  | 38 => .report .talkDown
  | 39 => .report .talkUp
  | 40 => .report .call
  | 64 => .controllerOnly
  | 65 => .controllerOnly
  | 66 => .controllerOnly
  | 67 => .controllerOnly
  | 68 => .controllerOnly
  | 69 => .controllerOnly
  | 70 => .controllerOnly
  | 71 => .controllerOnly
  | 72 => .controllerOnly
  | _ => .unknown

/-- The kinds that only the controller sends (02 R18). -/
abbrev kindReply : Byte := 64#8
abbrev kindNotice : Byte := 65#8
abbrev kindDisplay : Byte := 66#8
abbrev kindSignSet : Byte := 67#8
abbrev kindPayPrompt : Byte := 68#8
abbrev kindPayResult : Byte := 69#8
abbrev kindAuthRequest : Byte := 70#8
abbrev kindCapture : Byte := 71#8
abbrev kindVoid : Byte := 72#8

/-- The requests a station may send (02 R20). -/
def mayRequest : Station → Request → Bool
  | .meterHead, r =>
    r ∈ [.key, .shiftOpen, .shiftClose, .statusRead, .tableRead, .journalRead, .snapshotTake, .snapshotRead,
      .snapshotRelease, .calibrate]
  | .cardTerminal, r => r ∈ [.payRequest, .payCancel]
  | .fleetModem, r =>
    r ∈ [.tableWrite, .tableClear, .tableRead, .tableActivate, .clockSet, .calibrate, .dispatch, .emergencyClear,
      .noticeMask, .statusRead, .flagsClear, .snapshotTake, .snapshotRead, .snapshotRelease, .reportRead,
      .reportRelease, .journalRead, .deferredRead]
  | .roofSign, _ | .passengerA, _ | .passengerB, _ => false

/-- The reports a station may send (02 R20). -/
def mayReport : Station → ReportKind → Bool
  | .roofSign, r => r = .signStatus
  | .cardTerminal, r => r = .pinState
  | .fleetModem, r => r ∈ [.modemStatus, .zoneUpdate, .authResponse, .captureResponse]
  | .passengerA, r | .passengerB, r => r ∈ [.talkDown, .talkUp, .call]
  | .meterHead, _ => false

/-! The check of a message (01 R6). -/

/-- One bit of the division by x^16 + x^12 + x^5 + 1: shift left, and subtract the generator when a one leaves. -/
def crcShift (r : BitVec 16) : BitVec 16 := if r.msb then (r <<< 1) ^^^ 4129#16 else r <<< 1

/-- The register after one byte, most significant bit first. -/
def crcByte (r : BitVec 16) (b : Byte) : BitVec 16 :=
  crcShift (crcShift (crcShift (crcShift (crcShift (crcShift (crcShift (crcShift (r ^^^ (b.setWidth 16 <<< 8)))))))))

/-- The check over bytes, from all ones. -/
def crc16 (l : List Byte) : BitVec 16 := l.foldl crcByte 65535#16

/-- The two check bytes, high byte first (01 R5). -/
def crcBytes (l : List Byte) : List Byte := [(crc16 l >>> 8).setWidth 8, (crc16 l).setWidth 8]

/-- The bytes of a message before its check (01 R5). -/
def messageHead (dest src kind : Byte) (payload : List Byte) : List Byte :=
  [dest, src, kind, BitVec.ofNat 8 payload.length] ++ payload

/-- The whole message, check included (01 R5). -/
def messageBytes (dest src kind : Byte) (payload : List Byte) : List Byte :=
  messageHead dest src kind payload ++ crcBytes (messageHead dest src kind payload)

/-- A message from the controller as its bytes on the down lane (01 R5). -/
def Outbound.bytes (m : Outbound) : List Byte := messageBytes (BitVec.ofNat 8 (stationAddress m.dest)) 0#8 m.kind m.payload

/-- Two bytes in a message lane slot: the earlier in bits 15-8 (01 R1). -/
def lanePair (hi lo : Byte) : BitVec 16 := hi ++ lo

/-! The frame (01 R1, R2). -/

/-- The frame header: grant address, frame count, last mark (01 R2). -/
def frameHeader (grant : Option Station) (frameNumber : Nat) (last : Bool) : BitVec 16 :=
  BitVec.ofNat 16 ((match grant with | none => 0 | some st => stationAddress st) * 8192 + frameNumber % 16 * 512 +
    (if last then 256 else 0))

/-- The bits of a word, most significant first. -/
def msbFirst (v : BitVec 16) : List Bool :=
  [v.getLsbD 15, v.getLsbD 14, v.getLsbD 13, v.getLsbD 12, v.getLsbD 11, v.getLsbD 10, v.getLsbD 9, v.getLsbD 8,
    v.getLsbD 7, v.getLsbD 6, v.getLsbD 5, v.getLsbD 4, v.getLsbD 3, v.getLsbD 2, v.getLsbD 1, v.getLsbD 0]

/-- The 20 bit times of a slot on the down line: valid mark, data, guard of zeros (01 R1). -/
def slotBits (x : Slot) : List Bool := x.valid :: msbFirst x.data ++ [false, false, false]

/-- The sync pattern (01 R1). -/
def syncBits : List Bool := [false, true, true, true, true, true, true, false]

/-- The 128 bits of a frame on LDO (01 R1). -/
def DownFrame.bits (f : DownFrame) : List Bool :=
  syncBits ++ slotBits ⟨true, f.header⟩ ++ slotBits f.message ++ slotBits f.driver ++ slotBits f.passengerA ++
    slotBits f.passengerB ++ slotBits f.modem

/-- The level of LFS in each of the 128 bit times of a frame (01 R1). -/
def lfsBits : List Bool := List.replicate 8 true ++ List.replicate 120 false

end Sys2Proof.Machine
end

