-- ==== Sys2Proof/Machine/Operands.lean ====
section
/-! DEFINITION. The sixteen tables: their entries, groups, fields and ranges (03 R32 to R34), a bank's storage, and the reading
of table fields by the blocks that use them. -/

namespace Sys2Proof.Machine

/-! Formats. -/

/-- The values a field may take at a write (03 R36). -/
inductive FieldRange where
  | within (lo hi : Nat)
  | oneOf (values : List Nat)
  deriving DecidableEq, Repr

/-- A field of a group: its bytes (03 R34) and its range. -/
structure FieldFormat where
  bytes : Nat
  range : FieldRange
  deriving DecidableEq, Repr

/-- A table: its first index, its number of entries, and the fields of each group in mask order (03 R32, R33). -/
structure TableFormat where
  first : Nat
  count : Nat
  groups : List (List FieldFormat)
  deriving DecidableEq, Repr

/-- The tariff header (06 R78). -/
def headerFormat : List FieldFormat :=
  [⟨1, .within 0 99⟩, ⟨1, .within 0 1⟩, ⟨3, .within 0 99999⟩, ⟨2, .within 0 65535⟩, ⟨2, .within 0 65535⟩,
    ⟨1, .within 1 4⟩, ⟨3, .within 0 999999⟩, ⟨1, .oneOf [1, 2, 5, 10, 20, 50, 100]⟩]

/-- A tariff segment (06 R79). -/
def segmentFormat : List FieldFormat :=
  [⟨3, .within 0 999999⟩, ⟨2, .within 1 9999⟩, ⟨2, .within 0 9999⟩, ⟨2, .within 0 65535⟩, ⟨2, .within 0 9999⟩]

/-- The match group of a selection entry (05 R63). -/
def matchFormat : List FieldFormat :=
  [⟨1, .within 1 3⟩, ⟨1, .within 0 16⟩, ⟨1, .within 0 255⟩, ⟨1, .within 0 255⟩, ⟨1, .within 0 15⟩, ⟨1, .within 0 31⟩,
    ⟨1, .within 0 31⟩, ⟨1, .within 1 8⟩, ⟨1, .within 1 8⟩, ⟨1, .within 0 5⟩]

/-- The action group (05 R64); `groupInRange` adds the relation of operand and action. -/
def actionFormat : List FieldFormat := [⟨1, .within 1 2⟩, ⟨1, .within 0 16⟩]

/-- The format of each table (03 R32, R33, R34, and the users' chapters). -/
def tableFormat : Nat → Option TableFormat
  | 1 => some ⟨1, 16,
      [headerFormat, segmentFormat, segmentFormat, segmentFormat, segmentFormat, [⟨1, .within 0 3⟩, ⟨1, .within 0 31⟩]]⟩
  | 2 => some ⟨0, 64, [matchFormat, actionFormat]⟩
  | 3 => some ⟨0, 4, [actionFormat]⟩
  | 4 => some ⟨0, 8, [[⟨2, .within 0 65535⟩, ⟨2, .within 0 65535⟩]]⟩
  | 5 => some ⟨0, 16, [[⟨2, .within 0 65535⟩]]⟩
  | 6 => some ⟨0, 256, [[⟨2, .within 0 9999⟩, ⟨2, .within 0 999⟩, ⟨2, .within 0 9999⟩]]⟩
  | 7 => some ⟨0, 32, [[⟨1, .within 0 7⟩]]⟩
  | 8 => some ⟨1, 8, [[⟨2, .within 1 9999⟩, ⟨1, .within 1 15⟩]]⟩
  | 9 => some ⟨0, 7, [[⟨1, .within 0 15⟩, ⟨1, .within 0 3⟩]]⟩
  | 10 => some ⟨0, 8, [[⟨1, .within 0 255⟩, ⟨1, .within 0 31⟩]]⟩
  | 11 => some ⟨0, 5, [List.replicate 16 ⟨1, .within 0 255⟩]⟩
  | 12 => some ⟨0, 16, [[⟨3, .within 0 999999⟩, ⟨3, .within 0 999999⟩, ⟨1, .within 0 7⟩]]⟩
  | 13 => some ⟨0, 8, [[⟨1, .within 0 2⟩, ⟨3, .within 0 99999⟩, ⟨3, .within 0 999999⟩]]⟩
  | 14 => some ⟨0, 1,
      [[⟨1, .within 0 100⟩, ⟨1, .within 5 120⟩, ⟨2, .within 60 3600⟩, ⟨2, .within 10 600⟩, ⟨3, .within 0 9999999⟩]]⟩
  | 15 => some ⟨0, 1, [[⟨2, .within 1 400⟩]]⟩
  | 16 => some ⟨0, 4, [[⟨3, .within 0 16777215⟩]]⟩
  | _ => none

/-- Tables 1 to 8 are banked (03 R32). -/
def isBanked (table : Nat) : Bool := 1 ≤ table && table ≤ 8

/-- The length of a group in bytes (03 R34). -/
def groupBytes (fields : List FieldFormat) : Nat := (fields.map (·.bytes)).sum

/-- Whether a value lies in a field's range. -/
def FieldRange.holds (v : Nat) : FieldRange → Bool
  | .within lo hi => lo ≤ v && v ≤ hi
  | .oneOf values => values.contains v

/-- Each field of a group's bytes against its own range (03 R36). -/
def fieldsInRange : List FieldFormat → List Byte → Bool
  | [], _ => true
  | f :: fs, l => f.range.holds (beNat (l.take f.bytes)) && fieldsInRange fs (l.drop f.bytes)

/-- An action's operand lies in the range of its action: TARIFF 1-16, NEXT 0-15 (05 R64). -/
def actionInRange (l : List Byte) : Bool :=
  match fieldAt l 0 1 with
  | 1 => 1 ≤ fieldAt l 1 1 && fieldAt l 1 1 ≤ 16
  | 2 => fieldAt l 1 1 ≤ 15
  | _ => false

/-- The range test of a group at a write (03 R36). -/
def groupInRange (table group : Nat) (fields : List FieldFormat) (l : List Byte) : Bool :=
  fieldsInRange fields l && (if (table = 2 ∧ group = 1) ∨ table = 3 then actionInRange l else true)

/-! Storage. -/

/-- The key of a group: table, entry index below 256, group below 8. -/
def cellKey (table index group : Nat) : Nat := (table * 256 + index) * 8 + group

/-- The contents of a written group. -/
def Bank.find (k : Nat) : Bank → Option (List Byte)
  | [] => none
  | c :: cs => if c.key = k then some c.bytes else Bank.find k cs

/-- Writing a group, keys kept rising. -/
def Bank.put (k : Nat) (l : List Byte) : Bank → Bank
  | [] => [⟨k, l⟩]
  | c :: cs =>
    if k < c.key then ⟨k, l⟩ :: c :: cs
    else if k = c.key then ⟨k, l⟩ :: cs
    else c :: Bank.put k l cs

/-- Removing the groups whose keys a test names. -/
def Bank.clear (p : Nat → Bool) (b : Bank) : Bank := b.filter (fun c => !p c.key)

/-- The canonical form: keys strictly rising. -/
def Bank.wf : Bank → Bool
  | [] => true
  | [_] => true
  | c :: d :: cs => decide (c.key < d.key) && Bank.wf (d :: cs)

/-- The key of a group of the named entries of a table. -/
def keyInEntries (table first last : Nat) (k : Nat) : Bool :=
  cellKey table first 0 ≤ k && k < cellKey table (last + 1) 0

/-- The groups of a table. -/
def tableGroups (table : Nat) : List (List FieldFormat) :=
  match tableFormat table with
  | none => []
  | some f => f.groups

/-- The length of a group of a table. -/
def groupLength (table group : Nat) : Nat := groupBytes ((tableGroups table).getD group [])

/-- The default contents of an entry of an unbanked table that always holds a value (03 R44; 02 R26). -/
def defaultEntry (table index : Nat) : List Byte :=
  match table, index with
  | 9, 6 => [15#8, 3#8]
  | 14, _ => [20#8, 30#8] ++ beBytes 2 600 ++ beBytes 2 60 ++ beBytes 3 0
  | 15, _ => beBytes 2 250
  | 16, 0 => eventSetBytes (Event.linkCheck.only ||| Event.messageTruncated.only ||| Event.stationLost.only)
  | 16, 1 =>
    eventSetBytes (Event.authTimeout.only ||| Event.offlineApproval.only ||| Event.lateVoid.only |||
      Event.captureDeclined.only)
  | 16, 2 =>
    eventSetBytes (Event.odoClamp.only ||| Event.selectFallback.only ||| Event.selectDepth.only |||
      Event.tariffListFull.only)
  | 16, _ => eventSetBytes (Event.lampFault.only ||| Event.emergency.only ||| Event.powerBreak.only)
  | t, _ => List.replicate (groupLength t 0) 0#8

/-- Tables 10 and 12 have entries that may be absent (03 R33). -/
def mayBeAbsent (table : Nat) : Bool := table = 10 || table = 12

/-- The contents of a group; zeros when it is not in the written-group set (03 R39). -/
def Bank.group (b : Bank) (table index group : Nat) : List Byte :=
  match Bank.find (cellKey table index group) b with
  | some l => l
  | none => List.replicate (groupLength table group) 0#8

/-- Whether a group is in the written-group set of an entry (03 R32). -/
def Bank.written (b : Bank) (table index group : Nat) : Bool :=
  (Bank.find (cellKey table index group) b).isSome

/-- An entry of a banked table is valid when every group of its table is written (03 R32). -/
def Bank.valid (b : Bank) (table index : Nat) : Bool :=
  (List.range (tableGroups table).length).all fun g => b.written table index g

/-- The written-group set of an entry as one-bit members (00, Codes; 03 R39). -/
def Bank.writtenSet (b : Bank) (table index : Nat) : Nat :=
  ((List.range (tableGroups table).length).map fun g => if b.written table index g then 2 ^ g else 0).sum

/-- The contents of an entry of an unbanked table, its default when it holds that (03 R33, R44). -/
def unbankedEntry (b : Bank) (table index : Nat) : List Byte :=
  match Bank.find (cellKey table index 0) b with
  | some l => l
  | none => defaultEntry table index

/-- Whether an entry of an unbanked table is valid (03 R33). -/
def unbankedValid (b : Bank) (table index : Nat) : Bool :=
  !mayBeAbsent table || b.written table index 0

/-- A write of an entry of an unbanked table; a default written back is not listed, so that equal tables are equal data. -/
def unbankedPut (table index : Nat) (l : List Byte) (b : Bank) : Bank :=
  if !mayBeAbsent table && l = defaultEntry table index then Bank.clear (· == cellKey table index 0) b
  else Bank.put (cellKey table index 0) l b

/-! Fields, as the blocks read them. -/

/-- A tariff's header (06 R78). -/
structure TariffHeader where
  label : Nat
  double : Bool
  flagDrop : Nat
  d0 : Nat
  t0 : Nat
  segments : Nat
  extrasCap : Nat
  unit : Nat
  deriving DecidableEq, Repr

/-- A tariff's segment (06 R79). -/
structure Segment where
  start : Nat
  d : Nat
  ad : Nat
  t : Nat
  at_ : Nat
  deriving DecidableEq, Repr

/-- The header of a tariff (06 R78). -/
def tariffHeader (b : Bank) (tariff : Nat) : TariffHeader :=
  let l := b.group 1 tariff 0
  { label := fieldAt l 0 1, double := fieldAt l 1 1 == 1, flagDrop := fieldAt l 2 3, d0 := fieldAt l 5 2
    t0 := fieldAt l 7 2, segments := fieldAt l 9 1, extrasCap := fieldAt l 10 3, unit := fieldAt l 13 1 }

/-- Segment 1 to 4 of a tariff (06 R79). -/
def tariffSegment (b : Bank) (tariff segment : Nat) : Segment :=
  let l := b.group 1 tariff segment
  { start := fieldAt l 0 3, d := fieldAt l 3 2, ad := fieldAt l 5 2, t := fieldAt l 7 2, at_ := fieldAt l 9 2 }

/-- The surcharge key kind of a tariff: 0 NONE, 1 PASSENGERS, 2 LUGGAGE, 3 ZONE (06 R79). -/
def surchargeKind (b : Bank) (tariff : Nat) : Nat := fieldAt (b.group 1 tariff 5) 0 1

/-- The surcharge base row of a tariff (06 R79). -/
def surchargeBase (b : Bank) (tariff : Nat) : Nat := fieldAt (b.group 1 tariff 5) 1 1

/-- An action: TARIFF t or NEXT g (05 R64). -/
inductive Action where
  | tariff (t : Nat)
  | next (g : Nat)
  deriving DecidableEq, Repr

/-- The action that an action group holds (05 R64). -/
def readAction (l : List Byte) : Action :=
  if fieldAt l 0 1 = 1 then .tariff (fieldAt l 1 1) else .next (fieldAt l 1 1)

/-- The fallback tariff when it is available (05 R64). -/
def fallbackTariff (b : Bank) : Option Nat :=
  if b.valid 3 3 then
    match readAction (b.group 3 3 0) with
    | .tariff t => if b.valid 1 t then some t else none
    | .next _ => none
  else none

/-- The sign legend and pattern of a sign state (08 R127). -/
def signLegend (b : Bank) (state : Nat) : Byte × Byte :=
  let l := unbankedEntry b 9 state
  (l.getD 0 0#8, l.getD 1 0#8)

/-- The gain of source i into destination d under a mode: byte 4 i + d + 1 of the entry (09 R139). -/
def routingGain (b : Bank) (mode i d : Nat) : Nat := ((unbankedEntry b 11 mode).getD (4 * i + d) 0#8).toNat

/-- The tip percent (10 R155). -/
def tipPercent (b : Bank) : Nat := fieldAt (unbankedEntry b 14 0) 0 1
/-- The auth timeout in seconds (10 R155). -/
def authTimeoutSetting (b : Bank) : Nat := fieldAt (unbankedEntry b 14 0) 1 1
/-- The late hold time in seconds (10 R155). -/
def lateHoldSetting (b : Bank) : Nat := fieldAt (unbankedEntry b 14 0) 2 2
/-- The capture retry interval in seconds (10 R155). -/
def retrySetting (b : Bank) : Nat := fieldAt (unbankedEntry b 14 0) 4 2
/-- The shift offline cap in units (10 R155). -/
def offlineCapSetting (b : Bank) : Nat := fieldAt (unbankedEntry b 14 0) 6 3
/-- Vmax in km/h (04 R48). -/
def vmaxSetting (b : Bank) : Nat := fieldAt (unbankedEntry b 15 0) 0 2

/-- The policy of a card class: 0 REFUSE, 1 ONLINE, 2 ONLINE OR OFFLINE (10 R157). -/
def classPolicy (b : Bank) (cls : Nat) : Nat := fieldAt (unbankedEntry b 13 cls) 0 1
/-- The offline floor of a card class (10 R157). -/
def classFloor (b : Bank) (cls : Nat) : Nat := fieldAt (unbankedEntry b 13 cls) 1 3
/-- The maximum of a card class (10 R157). -/
def classMaximum (b : Bank) (cls : Nat) : Nat := fieldAt (unbankedEntry b 13 cls) 4 3

/-- The class of an issuer number: the first valid range that holds it, else 0 (10 R156). -/
def issuerClass (b : Bank) (issuer : Nat) : Nat :=
  let hit := (List.range 16).find? fun i =>
    unbankedValid b 12 i && fieldAt (unbankedEntry b 12 i) 0 3 ≤ issuer && issuer ≤ fieldAt (unbankedEntry b 12 i) 3 3
  match hit with
  | some i => fieldAt (unbankedEntry b 12 i) 6 1
  | none => 0

/-- The kind set of an exception counter (02 R26). -/
def exceptionKinds (b : Bank) (counter : Nat) : EventSet := BitVec.ofNat 24 (beNat (unbankedEntry b 16 counter))

/-- The target level for an ambient value: the level of the valid band with the greatest threshold at or below it, of
greater index when two share it; none when there is no such band (08 R133). -/
def bandTarget (b : Bank) (ambient : Nat) : Option Nat :=
  let step := fun (best : Option (Nat × Nat)) (i : Nat) =>
    let threshold := fieldAt (unbankedEntry b 10 i) 0 1
    if unbankedValid b 10 i && threshold ≤ ambient then
      match best with
      | some (t, lv) => if t ≤ threshold then some (threshold, fieldAt (unbankedEntry b 10 i) 1 1) else some (t, lv)
      | none => some (threshold, fieldAt (unbankedEntry b 10 i) 1 1)
    else best
  ((List.range 8).foldl step none).map Prod.snd

end Sys2Proof.Machine
end

