-- ==== Sys2Proof/Machine/Ops.lean ====
section
/-! DEFINITION. The named operations over the state that every block uses: the station table, the queues and refresh places
(01 R14, R15), the REPLY (02 R23), the amounts of a trip (06 R99, 07 R114) and the DISPLAY (07 R123). -/

namespace Sys2Proof.Machine

/-! The station table (01 R12). -/

/-- A station's record. -/
def StationTable.get (t : StationTable) : Station → StationRecord
  | .meterHead => t.meterHead
  | .roofSign => t.roofSign
  | .cardTerminal => t.cardTerminal
  | .fleetModem => t.fleetModem
  | .passengerA => t.passengerA
  | .passengerB => t.passengerB

/-- The table with a station's record replaced. -/
def StationTable.set (t : StationTable) (st : Station) (r : StationRecord) : StationTable :=
  match st with
  | .meterHead => { t with meterHead := r }
  | .roofSign => { t with roofSign := r }
  | .cardTerminal => { t with cardTerminal := r }
  | .fleetModem => { t with fleetModem := r }
  | .passengerA => { t with passengerA := r }
  | .passengerB => { t with passengerB := r }

/-- Whether a station is PRESENT. -/
def isPresent (s : State) (st : Station) : Bool := (s.link.stations.get st).presence = .present

/-! Messages (01 R14, R15; 02 R23). -/

/-- A message offered to the outbound queue: it joins the tail, or the hold line when the queue is full (01 R14). -/
def offer (m : Outbound) (s : State) : State :=
  if s.link.outbound.length < Config.outboundCap then
    { s with link := { s.link with outbound := s.link.outbound ++ [m] } }
  else { s with link := { s.link with held := s.link.held ++ [m] } }

/-- A REPLY to a request (02 R23). -/
def reply (dest : Station) (kind : Byte) (r : Result) (data : List Byte) (s : State) : State :=
  offer ⟨dest, kindReply, [kind, r.code] ++ data⟩ s

/-- A refusal without data (02 R22). -/
def refuse (dest : Station) (kind : Byte) (r : Result) (s : State) : State := reply dest kind r [] s

/-! The amounts of a trip. -/

/-- The exact sum of the four components (06 R99). -/
def Trip.fareSum (tr : Trip) : Nat := tr.flagDrop + tr.dropsTotal + tr.surcharge + tr.extrasTotal

/-- The running fare (06 R99). -/
def Trip.runningFare (tr : Trip) : Nat := min Config.fareMax tr.fareSum

/-- What the tenders have paid of the fare (07 R114). -/
def Trip.paid (tr : Trip) : Nat := (tr.tenders.map (·.farePart)).sum

/-- The remaining due; it exists while the fare due is present (07 R114). -/
def Trip.remaining (tr : Trip) : Nat := tr.fareDue.getD 0 - tr.paid

/-- The trip's tips so far (07 R114). -/
def Trip.tips (tr : Trip) : Nat := (tr.tenders.map (·.tip)).sum

/-- A change of the open trip record; nothing without a trip. -/
def withTrip (f : Trip → Trip) (s : State) : State := { s with trip := s.trip.map f }

/-- The wall clock as it stands (04 R53). -/
def clockNow (s : State) : ClockTime := ⟨s.time.day, s.time.second⟩

/-! The DISPLAY (07 R123). -/

/-- The notice-pending indicator: the meter head's pending set holds a kind other than EMERGENCY (07 R123). -/
def noticeIndicator (pending : EventSet) : Bool := pending &&& ~~~Event.emergency.only != 0#24

/-- The amount shown: in HIRED the running fare, in SETTLING the fare due and the remaining due (07 R123). -/
def shownAmounts (s : State) : List Byte :=
  match s.meter, s.trip with
  | .hired, some tr => beBytes 3 tr.runningFare
  | .settling, some tr => beBytes 3 (tr.fareDue.getD 0) ++ beBytes 3 tr.remaining
  | _, _ => []

/-- The tariff label of the open trip's current tariff (07 R123). -/
def shownLabel (s : State) : List Byte :=
  match s.trip with
  | some tr => beBytes 1 (tariffHeader s.tables.active tr.tariff).label
  | none => []

/-- The extras total of the open trip (07 R123). -/
def shownExtras (s : State) : List Byte :=
  match s.trip with
  | some tr => beBytes 3 tr.extrasTotal
  | none => []

/-- The open flag; clear when no trip is open (07 R123, 09 R149). -/
def openFlagNow (s : State) : Bool :=
  match s.trip with
  | some tr => tr.openFlag
  | none => false

/-- The payload of a DISPLAY from the values that stand (07 R123); an absent field takes no byte (log 9). -/
def displayPayload (s : State) : List Byte :=
  [s.meter.code] ++ shownLabel s ++ shownAmounts s ++ shownExtras s ++ beBytes 2 s.time.speed ++
    [s.intercom.shownMode.code, boolByte (openFlagNow s), boolByte (noticeIndicator s.disp.headPending)] ++
    beBytes 2 s.time.day ++ beBytes 2 (s.time.second / 60) ++
    [boolByte s.time.clockUnset, s.sign.lampFaults.setWidth 8]

/-- A DISPLAY placed in its refresh place (01 R15, 07 R123). -/
def placeDisplay (s : State) : State :=
  { s with link := { s.link with displayPlace := some ⟨.meterHead, kindDisplay, displayPayload s⟩ } }

end Sys2Proof.Machine
end

