-- ==== Sys2Proof/Machine/Flags.lean ====
section
/-! DEFINITION. Events: the sticky flags, the shift's counts and the notices that one occurrence of an event makes (02 R25, R27). -/

namespace Sys2Proof.Machine

/-- A change of the open shift record; nothing when no shift is open (11 R179). -/
def withShift (f : ShiftRecord → ShiftRecord) (s : State) : State :=
  { s with shifts := { s.shifts with record := s.shifts.record.map f } }

/-- A 16-bit count of the shift raised by 1 (11 R177). -/
def up16 (n : Nat) : Nat := satAdd Config.max16 n 1

/-- A 32-bit count or amount raised (11 R177). -/
def up32 (n by_ : Nat) : Nat := satAdd Config.max32 n by_

/-- The kind sets of the four exception counters (02 R26). -/
def exceptionMap (b : Bank) : Four EventSet :=
  ⟨exceptionKinds b 0, exceptionKinds b 1, exceptionKinds b 2, exceptionKinds b 3⟩

/-- What one occurrence raises in the open shift (02 R25 step 2). -/
def countEvent (map : Four EventSet) (e : Event) (r : ShiftRecord) : ShiftRecord :=
  { r with
    exceptions := Four.zip (fun kinds n => if e.isIn kinds then up16 n else n) map r.exceptions
    stationsLost := if e = .stationLost then up16 r.stationsLost else r.stationsLost
    emergencies := if e = .emergency then up16 r.emergencies else r.emergencies }

/-- A kind joins the meter head's pending set; the NOTICE when the set was empty, and the DISPLAY when the
notice-pending indicator changes (02 R27). -/
def notifyHead (e : Event) (s : State) : State :=
  if e.isIn s.disp.headMask then
    let before := s.disp.headPending
    let after := before ||| e.only
    let s1 := { s with disp := { s.disp with headPending := after } }
    let s2 := if before = 0#24 then offer ⟨.meterHead, kindNotice, eventSetBytes after⟩ s1 else s1
    if noticeIndicator before != noticeIndicator after then placeDisplay s2 else s2
  else s

/-- A kind joins the modem's pending set; the NOTICE when the set was empty (02 R27). -/
def notifyModem (e : Event) (s : State) : State :=
  if e.isIn s.disp.modemMask then
    let before := s.disp.modemPending
    let after := before ||| e.only
    let s1 := { s with disp := { s.disp with modemPending := after } }
    if before = 0#24 then offer ⟨.fleetModem, kindNotice, eventSetBytes after⟩ s1 else s1
  else s

/-- One occurrence of an event (02 R25): its flag, the open shift's counts, then the two notice destinations. -/
def raise (e : Event) (s : State) : State :=
  let s1 := { s with disp := { s.disp with flags := s.disp.flags ||| e.only } }
  let s2 := withShift (countEvent (exceptionMap s.tables.unbanked) e) s1
  notifyModem e (notifyHead e s2)

/-- An event occurs when a condition holds. -/
def raiseIf (c : Bool) (e : Event) (s : State) : State := if c then raise e s else s

end Sys2Proof.Machine
end

