-- ==== Sys2Proof/Machine/Sign.lean ====
section
/-! DEFINITION. The sign controller (08): the commanded sign state, SIGN SET, the emergency, lamps and brightness. -/

namespace Sys2Proof.Machine

/-- The index of the commanded sign state in table 9 (08 R126). -/
def commandedSign (s : State) : Nat :=
  match s.sign.emergency with
  | some _ => 6
  | none => s.meter.code.toNat

/-- A SIGN SET built and placed: legend, pattern, drive level, restart mark; the last legend sent and the refresh count
follow (08 R128). -/
def placeSign (s : State) : State :=
  let entry := signLegend s.tables.unbanked (commandedSign s)
  let restart := s.sign.lastLegend != some entry.1.toNat
  { s with
    link := { s.link with
      signPlace := some ⟨.roofSign, kindSignSet, [entry.1, entry.2, BitVec.ofNat 8 s.sign.level, boolByte restart]⟩ }
    sign := { s.sign with lastLegend := some entry.1.toNat, refresh := 0 } }

/-- The refresh count falls due (08 R128). -/
def signRefreshDue (s : State) : State := placeSign s

/-- The refresh count at a fare second (08 R128). -/
def refreshSecond (s : State) : State :=
  if Config.refreshSeconds ≤ s.sign.refresh + 1 then signRefreshDue s
  else { s with sign := { s.sign with refresh := s.sign.refresh + 1 } }

/-- The drive level one step toward a target (08 R134). -/
def stepToward (level target : Nat) : Nat :=
  if level < target then level + 1 else if target < level then level - 1 else level

/-- The target of the ambient value held (08 R133). -/
def brightnessTarget (s : State) : Option Nat :=
  match s.sign.ambient with
  | none => none
  | some a => bandTarget s.tables.unbanked a

/-- A due step: the count becomes 0, and with the sign PRESENT and no emergency the level moves by 1 toward its target,
placing a SIGN SET when it changes (08 R134). -/
def brightnessStep (s : State) : State :=
  let s1 := { s with sign := { s.sign with stepping := 0 } }
  if isPresent s .roofSign ∧ s.sign.emergency = none then
    match brightnessTarget s with
    | none => s1
    | some target =>
      let level := stepToward s.sign.level target
      if level = s.sign.level then s1
      else placeSign { s1 with sign := { s1.sign with level := level } }
  else s1

/-- The stepping count at a fare second (08 R134). -/
def steppingSecond (s : State) : State :=
  if 2 ≤ s.sign.stepping + 1 then brightnessStep s
  else { s with sign := { s.sign with stepping := s.sign.stepping + 1 } }

/-- The meter controller tells of a change of meter state: a SIGN SET unless the emergency is active (08 R126). -/
def signMeterChanged (s : State) : State :=
  match s.sign.emergency with
  | none => placeSign s
  | some _ => s

/-- An assertion of the line, with the emergency inactive and the count idle (08 R129). -/
def lineAsserted (s : State) : State :=
  if s.sign.emergency = none ∧ s.sign.debounce = none then
    { s with sign := { s.sign with debounce := some 0 } }
  else s

/-- A release of the line: an active count becomes idle (08 R129). -/
def lineReleased (s : State) : State := { s with sign := { s.sign with debounce := none } }

/-- The debounce completes: the emergency becomes active (08 R130). The mixer's effective mode follows from the emergency
itself (09 R140). -/
def emergencyBegins (s : State) : State :=
  let s1 := { s with sign := { s.sign with emergency := some (clockNow s), debounce := none } }
  let s2 := raise .emergency s1
  placeSign { s2 with sign := { s2.sign with level := 31 } }

/-- A tick at the debounce count (08 R129). -/
def debounceTick (s : State) : State :=
  match s.sign.emergency, s.sign.debounce with
  | none, some n =>
    if s.emgLine then
      if Config.debounceTicks ≤ n + 1 then emergencyBegins s
      else { s with sign := { s.sign with debounce := some (n + 1) } }
    else s
  | _, _ => s

/-- The emergency is cleared: a SIGN SET of the meter state's sign state, and a fresh debounce when the line is
asserted (08 R131). -/
def emergencyEnds (s : State) : State :=
  let s1 := placeSign { s with sign := { s.sign with emergency := none } }
  { s1 with sign := { s1.sign with debounce := if s1.emgLine then some 0 else none } }

/-- A lamp newly failed: the event and the shift's count (08 R132, 11 R179). -/
def lampNewlyFailed (s : State) : State :=
  withShift (fun r => { r with lampFaults := up16 r.lampFaults }) (raise .lampFault s)

/-- One lamp of a report: newly failed when it is reported and not held (08 R132). -/
def checkLamp (held reported : BitVec 3) (lamp : Nat) (s : State) : State :=
  if reported.getLsbD lamp && !held.getLsbD lamp then lampNewlyFailed s else s

/-- A SIGN STATUS at its owner (08 R132). -/
def signStatusTaken (ambient : Nat) (reported : BitVec 3) (s : State) : State :=
  let held := s.sign.lampFaults
  let s1 := { s with sign := { s.sign with ambient := some ambient } }
  let s2 := checkLamp held reported 2 (checkLamp held reported 1 (checkLamp held reported 0 s1))
  let s3 := { s2 with sign := { s2.sign with lampFaults := reported } }
  if held = reported then s3 else placeDisplay s3

end Sys2Proof.Machine
end

