-- ==== Sys2Proof/Machine/Timebase.lean ====
section
/-! DEFINITION. The timebase (04): the odometer window, the wall clock, the calendar state and the boundary alarm. -/

namespace Sys2Proof.Machine

/-! The odometer window (04 R48 to R50). -/

/-- The window budget for Vmax and the window K (04 R48). -/
def windowBudget (vmax k : Nat) : Nat := if k = 0 then 0 else (vmax * k + 3599) / 3600

/-- A new window begins: K and budget captured, count 0, clamp mark clear (04 R48). -/
def beginWindow (s : State) : State :=
  { s with time := { s.time with
    windowK := s.time.k, budget := windowBudget (vmaxSetting s.tables.unbanked) s.time.k, accepted := 0
    clampMark := false } }

/-- The speed of the window that ends (04 R50). -/
def windowSpeed (t : TimeState) : Nat := if t.windowK = 0 then 0 else t.accepted * 3600 / t.windowK

/-- The end of a window: its speed is handed to the meter controller, which places a DISPLAY when it differs from the one
shown, and the next window begins (04 R50, 07 R123). -/
def windowEnds (s : State) : State :=
  let speed := windowSpeed s.time
  let s1 := { s with time := { s.time with speed := speed } }
  beginWindow (if speed = s.time.speed then s1 else placeDisplay s1)

/-! The calendar state (04 R55 to R57). -/

/-- The day of week, 0 for Monday (00, Conventions). -/
def dayOfWeek (day : Nat) : Nat := day % 7

/-- The minute of week (00, Conventions). -/
def minuteOfWeek (day second : Nat) : Nat := dayOfWeek day * 1440 + second / 60

/-- The first minute of a calendar range (04 R55). -/
def rangeFirst (b : Bank) (r : Nat) : Nat := fieldAt (b.group 4 r 0) 0 2
/-- The last minute of a calendar range (04 R55). -/
def rangeLast (b : Bank) (r : Nat) : Nat := fieldAt (b.group 4 r 0) 2 2

/-- Whether a range of bounds first and last holds minute m, wrapping past the end of the week (04 R55). -/
def rangeHolds (first last m : Nat) : Bool :=
  if first ≤ last then first ≤ m && m ≤ last else first ≤ m || m ≤ last

/-- Calendar flag r (04 R55). -/
def calendarFlag (b : Bank) (m r : Nat) : Bool := b.valid 4 r && rangeHolds (rangeFirst b r) (rangeLast b r) m

/-- The eight calendar flags as a set (04 R55). -/
def calendarFlagsOf (b : Bank) (m : Nat) : BitVec 8 :=
  BitVec.ofNat 8 (((List.range 8).map fun r => if calendarFlag b m r then 2 ^ r else 0).sum)

/-- Whether a day is a valid entry of the holiday list (04 R56). -/
def isHoliday (b : Bank) (day : Nat) : Bool :=
  (List.range 16).any fun i => b.valid 5 i && fieldAt (b.group 5 i 0) 0 2 = day

/-- The day type of a day (04 R56). -/
def dayTypeOf (b : Bank) (day : Nat) : DayType :=
  if isHoliday b day then .holiday
  else if dayOfWeek day ≤ 4 then .weekday
  else if dayOfWeek day = 5 then .saturday
  else .sunday

/-! The boundary alarm (04 R58). -/

/-- How far ahead the start of minute c next lies from minute m, 1 to 10,080 (04 R58). -/
def boundaryDistance (m c : Nat) : Nat := (c + (Config.weekMinutes - 1) - m) % Config.weekMinutes + 1

/-- The candidates: each valid range's first minute and the minute after its last, and the next midnight (04 R58). -/
def boundaryCandidates (b : Bank) (day : Nat) : List Nat :=
  ((List.range 8).flatMap fun r =>
    if b.valid 4 r then [rangeFirst b r, (rangeLast b r + 1) % Config.weekMinutes] else []) ++
    [(dayOfWeek day + 1) % 7 * 1440]

/-- The smallest distance of a candidate (04 R58). -/
def nearestBoundary (m : Nat) (candidates : List Nat) : Nat :=
  candidates.foldl (fun best c => min best (boundaryDistance m c)) Config.weekMinutes

/-- The second, counted from the start of the present day, at which the alarm falls (04 R58). -/
def alarmOffset (b : Bank) (day second : Nat) : Nat :=
  second / 60 * 60 + 60 * nearestBoundary (minuteOfWeek day second) (boundaryCandidates b day)

/-- The calendar state and the boundary alarm recomputed from the clock and the ACTIVE tables (04 R57, R58). -/
def recomputeCalendar (s : State) : State :=
  let b := s.tables.active
  let offset := alarmOffset b s.time.day s.time.second
  { s with time := { s.time with
    calendarFlags := calendarFlagsOf b (minuteOfWeek s.time.day s.time.second)
    dayType := dayTypeOf b s.time.day
    alarmDay := (s.time.day + offset / Config.daySeconds) % Config.dayCount
    alarmSecond := offset % Config.daySeconds } }

/-! The wall clock (04 R53). -/

/-- One wall-clock second later (04 R53). -/
def clockAdvanced (t : TimeState) : TimeState :=
  if Config.daySeconds ≤ t.second + 1 then
    { t with second := 0, day := (t.day + 1) % Config.dayCount, subSecond := 0 }
  else { t with second := t.second + 1, subSecond := 0 }

/-- A DISPLAY when the minute of day or the CLOCK UNSET mark differs from an earlier clock (07 R123). -/
def displayIfClockShown (before : TimeState) (s : State) : State :=
  if before.second / 60 = s.time.second / 60 ∧ before.clockUnset = s.time.clockUnset then s else placeDisplay s

end Sys2Proof.Machine
end

