-- ==== Sys2Proof/Machine/Tables.lean ====
section
/-! DEFINITION. The table store (03): addressing, writing, clearing, reading, validation and activation. -/

namespace Sys2Proof.Machine

/-! Addressing (03 R37). -/

/-- The position of the j-th entry of a write from position p, within p's aligned group of four (03 R37). -/
def wrapPosition (p j : Nat) : Nat := p / 4 * 4 + (p % 4 + j) % 4

/-- The entries that a write or read names, in order (03 R37, R39). -/
def namedEntries (f : TableFormat) (first count : Nat) : List Nat :=
  (List.range count).map fun j => f.first + wrapPosition (first - f.first) j

/-- Whether an index is an index of the table (03 R32, R33). -/
def isIndex (f : TableFormat) (i : Nat) : Bool := f.first ≤ i && i < f.first + f.count

/-- The groups that a mask names, in mask order (03 R35). -/
def maskGroups (f : TableFormat) (mask : Nat) : List Nat :=
  (List.range f.groups.length).filter fun g => mask / 2 ^ g % 2 = 1

/-- The tests common to a write and a read: count, first index, wrapped indices, mask (03 R36, R39). -/
def namesExist (f : TableFormat) (first count mask : Nat) : Bool :=
  1 ≤ count && count ≤ 4 && isIndex f first && (namedEntries f first count).all (isIndex f) && mask < 2 ^ f.groups.length

/-- The length of the groups that a mask names (03 R36). -/
def maskLength (f : TableFormat) (mask : Nat) : Nat :=
  ((maskGroups f mask).map fun g => groupBytes (f.groups.getD g [])).sum

/-! Writing (03 R35 to R37). -/

/-- One group of a write. -/
structure WriteItem where
  index : Nat
  group : Nat
  bytes : List Byte
  deriving DecidableEq, Repr

/-- The contents of a write cut into its groups, entry by entry and in mask order (03 R35). -/
def cutItems (f : TableFormat) : List (Nat × Nat) → List Byte → List WriteItem
  | [], _ => []
  | (i, g) :: rest, l =>
    let n := groupBytes (f.groups.getD g [])
    ⟨i, g, l.take n⟩ :: cutItems f rest (l.drop n)

/-- The groups written, in the order of writing (03 R37). -/
def writeItems (f : TableFormat) (first count mask : Nat) (l : List Byte) : List WriteItem :=
  cutItems f ((namedEntries f first count).flatMap fun i => (maskGroups f mask).map fun g => (i, g)) l

/-- A checked TABLE WRITE: its table, mask and groups. -/
structure CheckedWrite where
  table : Nat
  mask : Nat
  items : List WriteItem
  deriving DecidableEq, Repr

/-- The whole check of a TABLE WRITE's payload (03 R36). -/
def checkWrite (payload : List Byte) : Option CheckedWrite :=
  let table := fieldAt payload 0 1
  let bank := fieldAt payload 1 1
  let first := fieldAt payload 2 1
  let count := fieldAt payload 3 1
  let mask := fieldAt payload 4 1
  match tableFormat table with
  | none => none
  | some f =>
    let items := writeItems f first count mask (payload.drop 5)
    if 5 ≤ payload.length && bank = (if isBanked table then 1 else 0) && namesExist f first count mask &&
        payload.length = 5 + count * maskLength f mask &&
        items.all (fun w => groupInRange table w.group (f.groups.getD w.group []) w.bytes) then
      some ⟨table, mask, items⟩
    else none

/-- The groups of a write put into STANDBY or into the unbanked tables (03 R37). -/
def putItems (table : Nat) (items : List WriteItem) (t : TableState) : TableState :=
  if isBanked table then
    { t with standby := items.foldl (fun b w => Bank.put (cellKey table w.index w.group) w.bytes b) t.standby }
  else { t with unbanked := items.foldl (fun b w => unbankedPut table w.index w.bytes b) t.unbanked }

/-- Whether a change of a table cancels the pending activation (03 R37, R38, R43). -/
def cancels (t : TableState) (banked changes : Bool) : Bool := banked && changes && t.pendingActivation.isSome

/-- The pending record removed when a change cancels it (03 R43). -/
def cancelActivation (c : Bool) (t : TableState) : TableState :=
  if c then { t with pendingActivation := none } else t

/-- A write or clear of table 9 places a SIGN SET (08 R127). -/
def signAfterTable (table : Nat) (s : State) : State := if table = 9 then placeSign s else s

/-- TABLE WRITE at the table store (03 R36, R37). -/
def takeTableWrite (src : Station) (payload : List Byte) (s : State) : State :=
  match checkWrite payload with
  | none => refuse src Request.tableWrite.code .badValue s
  | some w =>
    let c := cancels s.tables (isBanked w.table) (w.mask != 0)
    let s1 := reply src Request.tableWrite.code .ok [boolByte c] s
    signAfterTable w.table { s1 with tables := cancelActivation c (putItems w.table w.items s1.tables) }

/-! Clearing (03 R38). -/

/-- The entries of a banked table cleared in STANDBY (03 R38). -/
def clearStandby (table first last : Nat) (t : TableState) : TableState :=
  { t with standby := Bank.clear (keyInEntries table first last) t.standby }

/-- A whole unbanked table back at its defaults (03 R38, R44). -/
def clearUnbanked (table : Nat) (t : TableState) : TableState :=
  { t with unbanked := Bank.clear (keyInEntries table 0 255) t.unbanked }

/-- Whether a TABLE CLEAR's fields pass (03 R38). -/
def clearPasses (f : TableFormat) (table bank first last : Nat) : Bool :=
  if isBanked table then bank = 1 && isIndex f first && isIndex f last && first ≤ last else bank = 0

/-- TABLE CLEAR at the table store (03 R38). -/
def takeTableClear (src : Station) (payload : List Byte) (s : State) : State :=
  let table := fieldAt payload 0 1
  let bank := fieldAt payload 1 1
  let first := fieldAt payload 2 1
  let last := fieldAt payload 3 1
  match tableFormat table with
  | none => refuse src Request.tableClear.code .badValue s
  | some f =>
    if payload.length = 4 ∧ clearPasses f table bank first last then
      let c := cancels s.tables (isBanked table) true
      let s1 := reply src Request.tableClear.code .ok [boolByte c] s
      if isBanked table then
        { s1 with tables := cancelActivation c (clearStandby table first last s1.tables) }
      else signAfterTable table { s1 with tables := clearUnbanked table s1.tables }
    else refuse src Request.tableClear.code .badValue s

/-! Reading (03 R39). -/

/-- The bank that a TABLE READ names. -/
def readBank (t : TableState) (bank : Nat) : Bank := if bank = 2 then t.active else t.standby

/-- One entry of a TABLE READ: its validity byte and the groups of the mask (03 R39). -/
def readEntry (t : TableState) (f : TableFormat) (table bank mask i : Nat) : List Byte :=
  if isBanked table then
    let b := readBank t bank
    beBytes 1 (b.writtenSet table i) ++ (maskGroups f mask).flatMap fun g => b.group table i g
  else
    [boolByte (unbankedValid t.unbanked table i)] ++
      if mask = 0 then [] else unbankedEntry t.unbanked table i

/-- The data of a TABLE READ: the active version for ACTIVE, then the entries (03 R39). -/
def readData (t : TableState) (f : TableFormat) (table bank first count mask : Nat) : List Byte :=
  (if bank = 2 then beBytes 2 t.activeVersion else []) ++
    (namedEntries f first count).flatMap (readEntry t f table bank mask)

/-- The length of a TABLE READ's data (03 R39). -/
def readLength (f : TableFormat) (bank count mask : Nat) : Nat :=
  (if bank = 2 then 2 else 0) + count * (1 + maskLength f mask)

/-- TABLE READ at the table store (03 R39). -/
def takeTableRead (src : Station) (payload : List Byte) (s : State) : State :=
  let table := fieldAt payload 0 1
  let bank := fieldAt payload 1 1
  let first := fieldAt payload 2 1
  let count := fieldAt payload 3 1
  let mask := fieldAt payload 4 1
  match tableFormat table with
  | none => refuse src Request.tableRead.code .badValue s
  | some f =>
    if payload.length = 5 ∧ (if isBanked table then bank = 1 ∨ bank = 2 else bank = 0) ∧ namesExist f first count mask ∧
        readLength f bank count mask ≤ 54 then
      reply src Request.tableRead.code .ok (readData s.tables f table bank first count mask) s
    else refuse src Request.tableRead.code .badValue s

/-! Validation (03 R40). -/

/-- Whether segment starts, first to last, begin at 0 and rise strictly (03 R40). -/
def startsInOrder : List Nat → Bool
  | [] => true
  | [_] => true
  | a :: b :: rest => decide (a < b) && startsInOrder (b :: rest)

/-- Whether a valid tariff passes validation (03 R40 test 1). -/
def tariffPasses (b : Bank) (t : Nat) : Bool :=
  let starts := (List.range (tariffHeader b t).segments).map fun i => (tariffSegment b t (i + 1)).start
  starts.head? = some 0 && startsInOrder starts && (surchargeKind b t ≠ 3 || surchargeBase b t + 3 ≤ 31)

/-- Whether an action names a valid tariff when it is TARIFF (03 R40 tests 2 and 3). -/
def actionPasses (b : Bank) (l : List Byte) : Bool :=
  match readAction l with
  | .tariff t => b.valid 1 t
  | .next _ => true

/-- Whether the fallback is valid and names a valid tariff (03 R40 test 4). -/
def fallbackPasses (b : Bank) : Bool := (fallbackTariff b).isSome

/-- The failing entry of one test, the first in ascending index (03 R40). -/
def firstFailing (b : Bank) (table first count : Nat) (passes : Nat → Bool) : Option (Nat × Nat) :=
  (((List.range count).map (first + ·)).find? fun i => b.valid table i && !passes i).map fun i => (table, i)

/-- Validation of a bank: the first failing table and index (03 R40). -/
def validate (b : Bank) : Option (Nat × Nat) :=
  (firstFailing b 1 1 16 (tariffPasses b)).or
    ((firstFailing b 2 0 64 fun i => actionPasses b (b.group 2 i 1)).or
      ((firstFailing b 3 0 3 fun i => actionPasses b (b.group 3 i 0)).or
        ((if fallbackPasses b then none else some (3, 3)).or
          (firstFailing b 4 0 8 fun i =>
            rangeFirst b i < Config.weekMinutes && rangeLast b i < Config.weekMinutes))))

/-! Activation (03 R41 to R43). -/

/-- STANDBY copied into ACTIVE with a version (03 R42). -/
def copyBank (version : Nat) (t : TableState) : TableState :=
  { t with active := t.standby, activeVersion := version }

/-- An activation performed: the copy, the shift's count, ACTIVATION DONE, the calendar state (03 R42). -/
def performActivation (version : Nat) (s : State) : State :=
  let s1 := { s with tables := copyBank version s.tables }
  let s2 := withShift (fun r => { r with activations := up16 r.activations }) s1
  recomputeCalendar (raise .activationDone s2)

/-- A trip's close handed to the table store: a pending activation is performed and removed (03 R43). -/
def activationAtClose (s : State) : State :=
  match s.tables.pendingActivation with
  | none => s
  | some v => performActivation v { s with tables := { s.tables with pendingActivation := none } }

/-- A trip is running: HIRED or SETTLING (03 R41). -/
def inTrip (s : State) : Bool := s.meter = .hired || s.meter = .settling

/-- TABLE ACTIVATE at the table store (03 R41). Data DONE is 0 and PENDING is 1. -/
def takeTableActivate (src : Station) (payload : List Byte) (s : State) : State :=
  let version := fieldAt payload 0 2
  let timing := fieldAt payload 2 1
  let k := Request.tableActivate.code
  if payload.length ≠ 3 ∨ 1 < timing then refuse src k .badValue s
  else
    match validate s.tables.standby with
    | some (table, index) => reply src k .badTable (beBytes 1 table ++ beBytes 1 index) s
    | none =>
      if inTrip s then
        if timing = 0 then refuse src k .refusedState s
        else
          let s1 := reply src k .ok [1#8] s
          { s1 with tables := { s1.tables with pendingActivation := some version } }
      else performActivation version (reply src k .ok [0#8] s)

end Sys2Proof.Machine
end

