-- ==== Sys2Proof/Machine/Shift.lean ====
section
/-! DEFINITION. The shift accounting unit (11): the shift record, the journal, the reports, the snapshot and reading by page. -/

namespace Sys2Proof.Machine

/-- A distance in metres of pulses at K, saturating at a cap (06 R83, 11 R177). -/
def metresOf (cap pulses k : Nat) : Nat := min cap (pulses * 1000 / k)

/-- The trip distance (06 R83). -/
def tripDistance (s : State) (tr : Trip) : Nat := metresOf Config.tripDistanceMax tr.pulses s.time.k

/-! Numbers that wrap from 65,535 to 1 (11 R178, 10 R160). -/

/-- The number after n. -/
def nextNumber (n : Nat) : Nat := if Config.max16 ≤ n then 1 else n + 1

/-! The shift record (11 R177 to R180). -/

/-- A new shift record (11 R178). -/
def newShift (s : State) (driver : Nat) : ShiftRecord :=
  { number := s.shifts.nextShift, driver := driver, openTime := clockNow s, bankVersion := s.tables.activeVersion
    activations := 0, lifetimeAtOpen := s.time.lifetime, kAtOpen := s.time.k
    offlineCap := offlineCapSetting s.tables.unbanked, trips := 0, totalPulses := 0, paidPulses := 0, hiredSeconds := 0
    distanceDrops := 0, timeDrops := 0, fareTotal := 0, extrasTotal := 0, surchargeTotal := 0, roundingTotal := 0
    tipsTotal := 0, cashTotal := 0, cardOnlineTotal := 0, offlineCount := 0, offlineAmount := 0, unpaidCount := 0
    unpaidAmount := 0, resolvedCount := 0, declinedCount := 0, declinedAmount := 0, voids := 0, lampFaults := 0
    emergencies := 0, stationsLost := 0, exceptions := .all 0 }

/-- An accepted pulse counted in the open shift (11 R179). -/
def shiftPulse (s : State) : State :=
  let hired := s.meter = .hired
  withShift (fun r => { r with
    totalPulses := up32 r.totalPulses 1
    paidPulses := if hired then up32 r.paidPulses 1 else r.paidPulses }) s

/-- A charged drop counted in the open shift (11 R179). -/
def shiftDrop (side : Side) (s : State) : State :=
  withShift (fun r => match side with
    | .distance => { r with distanceDrops := up32 r.distanceDrops 1 }
    | .time => { r with timeDrops := up32 r.timeDrops 1 }) s

/-- The signed rounding total moved within its saturation (11 R177). -/
def roundingAdd (total diff : Int) : Int := max (-2147483648) (min 2147483647 (total + diff))

/-- A tender added to the shift's totals (11 R180 step 4). -/
def addTender (r : ShiftRecord) (t : Tender) : ShiftRecord :=
  match t.kind with
  | .cash => { r with cashTotal := up32 r.cashTotal t.farePart }
  | .unpaid => { r with unpaidCount := up16 r.unpaidCount, unpaidAmount := up32 r.unpaidAmount t.farePart }
  | .cardOnline =>
    { r with cardOnlineTotal := up32 r.cardOnlineTotal (t.farePart + t.tip), tipsTotal := up32 r.tipsTotal t.tip }
  | .cardOffline => { r with tipsTotal := up32 r.tipsTotal t.tip }

/-- A closed trip's figures added to the shift record (11 R180 steps 1 to 4). -/
def addTrip (tr : Trip) (r : ShiftRecord) : ShiftRecord :=
  tr.tenders.foldl addTender
    { r with
      trips := up32 r.trips 1
      hiredSeconds := up32 r.hiredSeconds tr.hiredSeconds
      fareTotal := up32 r.fareTotal (tr.fareDue.getD 0)
      extrasTotal := up32 r.extrasTotal tr.extrasTotal
      surchargeTotal := up32 r.surchargeTotal tr.surcharge
      roundingTotal := roundingAdd r.roundingTotal tr.roundingDiff }

/-- A journal entry placed at position 0; a full journal loses its oldest entry with JOURNAL OVERWRITE (11 R182). -/
def journalPlace (e : JournalEntry) (s : State) : State :=
  if Config.journalCap ≤ s.shifts.journal.length then
    let s1 := { s with shifts := { s.shifts with journal := e :: s.shifts.journal.take (Config.journalCap - 1) } }
    raise .journalOverwrite s1
  else { s with shifts := { s.shifts with journal := e :: s.shifts.journal } }

/-- A closed trip handed to the unit (11 R180). -/
def shiftTripClosed (tr : Trip) (s : State) : State :=
  journalPlace ⟨tr, tripDistance s tr⟩ (withShift (addTrip tr) s)

/-- An offline approval counted (11 R179, 10 R164). -/
def shiftOfflineApproval (amount : Nat) (s : State) : State :=
  withShift (fun r => { r with offlineCount := up16 r.offlineCount, offlineAmount := up32 r.offlineAmount amount }) s

/-- A deferred entry resolved (11 R179). -/
def shiftResolved (s : State) : State := withShift (fun r => { r with resolvedCount := up16 r.resolvedCount }) s

/-- A deferred entry declined at capture (11 R179). -/
def shiftDeclined (amount : Nat) (s : State) : State :=
  withShift (fun r => { r with
    declinedCount := up16 r.declinedCount, declinedAmount := up32 r.declinedAmount amount }) s

/-- A VOID counted (11 R179, 10 R168). -/
def shiftVoid (s : State) : State := withShift (fun r => { r with voids := up16 r.voids }) s

/-- A CARD OFFLINE tender of an index marked DECLINED LATE (11 R183). -/
def markTender (index : Nat) (t : Tender) : Tender :=
  if t.index = index ∧ t.kind = .cardOffline then { t with state := .declinedLate } else t

/-- The newest entry with a reference's shift and trip numbers gets its tender marked (11 R183). -/
def markJournal (ref : Reference) : List JournalEntry → List JournalEntry
  | [] => []
  | e :: es =>
    if e.trip.shiftNumber = ref.shift ∧ e.trip.tripNumber = ref.trip then
      { e with trip := { e.trip with tenders := e.trip.tenders.map (markTender ref.index) } } :: es
    else e :: markJournal ref es

/-- A capture decline handed to the unit (11 R183). -/
def shiftMarkDeclined (ref : Reference) (s : State) : State :=
  { s with shifts := { s.shifts with journal := markJournal ref s.shifts.journal } }

/-! Encoded forms (11 R177, R181, R184, R187, R191). -/

/-- The 119 bytes of a shift record (11 R177). -/
def shiftBytes (r : ShiftRecord) : List Byte :=
  beBytes 2 r.number ++ beBytes 3 r.driver ++ clockBytes r.openTime ++ beBytes 2 r.bankVersion ++
    beBytes 2 r.activations ++ beBytes 4 r.lifetimeAtOpen ++ beBytes 2 r.kAtOpen ++ beBytes 3 r.offlineCap ++
    beBytes 4 r.trips ++ beBytes 4 r.totalPulses ++ beBytes 4 r.paidPulses ++
    beBytes 4 (metresOf Config.max32 r.totalPulses r.kAtOpen) ++
    beBytes 4 (metresOf Config.max32 r.paidPulses r.kAtOpen) ++ beBytes 4 r.hiredSeconds ++
    beBytes 4 r.distanceDrops ++ beBytes 4 r.timeDrops ++ beBytes 4 r.fareTotal ++ beBytes 4 r.extrasTotal ++
    beBytes 4 r.surchargeTotal ++ signedBytes 4 r.roundingTotal ++ beBytes 4 r.tipsTotal ++ beBytes 4 r.cashTotal ++
    beBytes 4 r.cardOnlineTotal ++ beBytes 2 r.offlineCount ++ beBytes 4 r.offlineAmount ++
    beBytes 2 r.unpaidCount ++ beBytes 4 r.unpaidAmount ++ beBytes 2 r.resolvedCount ++ beBytes 2 r.declinedCount ++
    beBytes 4 r.declinedAmount ++ beBytes 2 r.voids ++ beBytes 2 r.lampFaults ++ beBytes 2 r.emergencies ++
    beBytes 2 r.stationsLost ++ r.exceptions.toList.flatMap (beBytes 2)

/-- The 135 bytes of a report (11 R187). -/
def reportBytes (r : Report) : List Byte :=
  shiftBytes r.record ++ clockBytes r.closeTime ++ beBytes 4 r.lifetimeAtClose ++ beBytes 1 r.deferredCount ++
    beBytes 4 r.deferredTotal ++ beBytes 2 r.versionAtClose

/-- The 124 bytes of a snapshot (11 R191). -/
def snapshotBytes (x : Snapshot) : List Byte := shiftBytes x.record ++ clockBytes x.time

/-- The 10 bytes of a tariff period (11 R181). -/
def periodBytes (p : Period) : List Byte :=
  beBytes 1 p.tariff ++ beBytes 1 p.label ++ clockBytes p.start ++ beBytes 3 p.fare

/-- The 9 bytes of a tender (11 R181). -/
def tenderBytes (t : Tender) : List Byte :=
  [t.kind.code] ++ beBytes 3 t.farePart ++ beBytes 3 t.tip ++ beBytes 1 t.index ++ [t.state.code]

/-- Slots of a list in a record, those beyond its members 0 (11 R181). -/
def slotsOf {α : Type} (enc : α → List Byte) (width slots : Nat) (l : List α) : List Byte :=
  (l.take slots).flatMap enc ++ List.replicate ((slots - (l.take slots).length) * width) 0#8

/-- The trip flags as one-bit members (11 R181). -/
def tripFlags (tr : Trip) : Byte :=
  BitVec.ofNat 8 ((if tr.fareLimit then 1 else 0) + (if tr.tariffListFull then 2 else 0) + (if tr.extraCap then 4 else 0) +
    (if tr.powerBreak then 8 else 0) + (if tr.openFlag then 16 else 0))

/-- The 146 bytes of a journal entry (11 R181). -/
def journalBytes (e : JournalEntry) : List Byte :=
  let tr := e.trip
  beBytes 2 tr.tripNumber ++ beBytes 2 tr.shiftNumber ++ clockBytes tr.startTime ++
    clockBytes (tr.endTime.getD ⟨0, 0⟩) ++ beBytes 2 tr.bankVersion ++ beBytes 1 tr.tariffKey ++ beBytes 1 tr.tariff ++
    beBytes 1 tr.periods.length ++ slotsOf periodBytes 10 4 tr.periods ++ beBytes 4 tr.pulses ++ beBytes 4 e.distance ++
    beBytes 4 tr.distanceDrops ++ beBytes 4 tr.timeDrops ++ beBytes 4 tr.dropsTotal ++ beBytes 3 tr.flagDrop ++
    beBytes 2 tr.surcharge ++ beBytes 3 tr.extrasTotal ++ slotsOf (beBytes 1) 1 8 tr.pressCounts ++
    beBytes 3 (tr.fareDue.getD 0) ++ signedBytes 1 tr.roundingDiff ++ beBytes 1 tr.passengers ++ beBytes 1 tr.luggage ++
    beBytes 1 tr.zoneAtHire ++ beBytes 1 tr.tenders.length ++ slotsOf tenderBytes 9 4 tr.tenders ++ beBytes 2 tr.calls ++
    [tripFlags tr] ++ beBytes 4 tr.hiredSeconds

/-- Page p of a record's encoded form (11 R184). -/
def pageOf (l : List Byte) (p : Nat) : List Byte := (l.drop (Config.pageBytes * p)).take Config.pageBytes

/-- The pages of a record of L bytes (11 R184). -/
def pageCount (bytes : Nat) : Nat := (bytes + (Config.pageBytes - 1)) / Config.pageBytes

end Sys2Proof.Machine
end

