-- ==== Sys2Proof/Machine/Fare.lean ====
section
/-! DEFINITION. The fare engine (06): step lengths, expiries, tariff change, surcharges, extras and the fare due. -/

namespace Sys2Proof.Machine

/-- The pulses of a length of m metres, at least 1 (06 R80). -/
def pulsesFor (k m : Nat) : Nat := max 1 ((k * m + 500) / 1000)

/-- A step time as a load of the time counter: none for 0 (06 R80). -/
def timeLoad (t : Nat) : Option Nat := if t = 0 then none else some t

/-- The header of the trip's current tariff, from the ACTIVE bank (06 R78). -/
def currentHeader (s : State) (tr : Trip) : TariffHeader := tariffHeader s.tables.active tr.tariff

/-- The segment in force of the trip's current tariff (06 R79). -/
def currentSegment (s : State) (tr : Trip) : Segment := tariffSegment s.tables.active tr.tariff tr.segment

/-! The running fare (06 R99, R100). -/

/-- The fare limit test: the flag and FARE LIMIT at the first sum above the limit (06 R100). -/
def testFareLimit (s : State) : State :=
  match s.trip with
  | some tr =>
    if Config.fareMax < tr.fareSum ∧ tr.fareLimit = false then
      raise .fareLimit (withTrip (fun tr => { tr with fareLimit := true }) s)
    else s
  | none => s

/-- A change of a component: the limit is tested and the running fare handed to the meter controller (06 R99, R100). -/
def fareChanged (s : State) : State := placeDisplay (testFareLimit s)

/-! Segments (06 R83). -/

/-- The last segment, from 1 to the count, whose start is at or below a distance; 1 when none is (06 R83). -/
def segmentAt (b : Bank) (tariff distance : Nat) : Nat :=
  (List.range (tariffHeader b tariff).segments).foldl
    (fun best i => if (tariffSegment b tariff (i + 1)).start ≤ distance then i + 1 else best) 1

/-- The segment in force re-evaluated (06 R83). -/
def reevaluateSegment (s : State) : State :=
  withTrip (fun tr => { tr with segment := segmentAt s.tables.active tr.tariff (tripDistance s tr) }) s

/-- DC loaded from the segment in force (06 R82). -/
def loadDc (s : State) : State :=
  withTrip (fun tr => { tr with dc := some (pulsesFor s.time.k (currentSegment s tr).d) }) s

/-- TC loaded from the segment in force, or made inactive (06 R82). -/
def loadTc (s : State) : State :=
  withTrip (fun tr => { tr with tc := timeLoad (currentSegment s tr).t }) s

/-! Drops and expiries (06 R88 to R91). -/

/-- The phase of a side. -/
def Trip.phase (tr : Trip) : Side → Phase
  | .distance => tr.distancePhase
  | .time => tr.timePhase

/-- The amount of a drop of a side: the segment's amount plus the step add (06 R88). -/
def dropAmount (s : State) (tr : Trip) (side : Side) : Nat :=
  (match side with
    | .distance => (currentSegment s tr).ad
    | .time => (currentSegment s tr).at_) + tr.stepAdd

/-- The trip with a drop of an amount counted and added (06 R88). -/
def Trip.withDrop (tr : Trip) (side : Side) (amount : Nat) : Trip :=
  match side with
  | .distance =>
    { tr with dropsTotal := satAdd Config.max32 tr.dropsTotal amount, distanceDrops := satAdd Config.max32 tr.distanceDrops 1 }
  | .time =>
    { tr with dropsTotal := satAdd Config.max32 tr.dropsTotal amount, timeDrops := satAdd Config.max32 tr.timeDrops 1 }

/-- A drop charged: counted in the trip and in the shift, the limit tested, the running fare handed on (06 R88). -/
def chargeDrop (side : Side) (s : State) : State :=
  fareChanged (shiftDrop side (withTrip (fun tr => tr.withDrop side (dropAmount s tr side)) s))

/-- A side's phase becomes STEPPING. -/
def Trip.step (tr : Trip) : Side → Trip
  | .distance => { tr with distancePhase := .stepping }
  | .time => { tr with timePhase := .stepping }

/-- Step 1 of an expiry: nothing in ALLOWANCE, the drop in STEPPING (06 R89, R90). -/
def chargeIfStepping (side : Side) (tr : Trip) (s : State) : State :=
  match tr.phase side with
  | .allowance => s
  | .stepping => chargeDrop side s

/-- An expiry under SINGLE (06 R89). -/
def expireSingle (side : Side) (tr : Trip) (s : State) : State :=
  let s1 := chargeIfStepping side tr s
  let s2 := withTrip (fun tr => { tr with distancePhase := .stepping, timePhase := .stepping }) s1
  loadTc (loadDc (reevaluateSegment s2))

/-- The time side adjusted to the segment in force (06 R91). -/
def adjustTimeSide (s : State) : State :=
  withTrip (fun tr =>
    match tr.timePhase, tr.tc, timeLoad (currentSegment s tr).t with
    | .stepping, none, some t => { tr with tc := some t }
    | .stepping, some _, none => { tr with tc := none }
    | _, _, _ => tr) s

/-- The segment in force of the open trip. -/
def segmentNow (s : State) : Nat :=
  match s.trip with
  | some tr => tr.segment
  | none => 1

/-- An expiry under DOUBLE (06 R90). -/
def expireDouble (side : Side) (tr : Trip) (s : State) : State :=
  let s1 := withTrip (fun tr => tr.step side) (chargeIfStepping side tr s)
  let s2 := reevaluateSegment s1
  match side with
  | .distance =>
    let s3 := loadDc s2
    if segmentNow s2 = tr.segment then s3 else adjustTimeSide s3
  | .time => loadTc s2

/-- An expiry of a side under the current tariff's mode (06 R89, R90). -/
def expire (side : Side) (s : State) : State :=
  match s.trip with
  | none => s
  | some tr => if (currentHeader s tr).double then expireDouble side tr s else expireSingle side tr s

/-- A pulse arrival at the fare engine (06 R86). -/
def farePulse (s : State) : State :=
  match s.meter, s.trip with
  | .hired, some tr =>
    let s1 := withTrip (fun tr => { tr with pulses := satAdd Config.max32 tr.pulses 1 }) s
    match tr.dc with
    | none => s1
    | some n =>
      if n ≤ 1 then expire .distance s1
      else withTrip (fun tr => { tr with dc := some (n - 1) }) s1
  | _, _ => s

/-- A tick arrival at the fare engine (06 R87). -/
def fareTick (s : State) : State :=
  match s.meter, s.trip with
  | .hired, some tr =>
    match tr.tc with
    | none => s
    | some n =>
      if n ≤ 1 then expire .time s
      else withTrip (fun tr => { tr with tc := some (n - 1) }) s
  | _, _ => s

/-! Surcharges (06 R93 to R95). -/

/-- The row and entry of a surcharge lookup: none for key kind NONE (06 R94). -/
def surchargePlace (s : State) (tr : Trip) : Option (Nat × Nat) :=
  let base := surchargeBase s.tables.active tr.tariff
  match surchargeKind s.tables.active tr.tariff with
  | 1 => some (base, tr.passengers - 1)
  | 2 => some (base, min 7 tr.luggage)
  | 3 => some (base + s.time.zone / 8, s.time.zone % 8)
  | _ => none

/-- The three amounts of a map entry that count: flag add, step add, flat extra (06 R93). -/
def surchargeAmounts (b : Bank) (row entry : Nat) : Nat × Nat × Nat :=
  let i := row * 8 + entry
  if b.valid 6 i && b.valid 7 row then
    let l := b.group 6 i 0
    let on := BitVec.ofNat 8 (fieldAt (b.group 7 row 0) 0 1)
    ((if on.getLsbD 0 then fieldAt l 0 2 else 0), (if on.getLsbD 1 then fieldAt l 2 2 else 0),
      (if on.getLsbD 2 then fieldAt l 4 2 else 0))
  else (0, 0, 0)

/-- The surcharge component and the step add that a lookup finds (06 R94). -/
def surchargeFound (s : State) (tr : Trip) : Nat × Nat :=
  match surchargePlace s tr with
  | none => (0, 0)
  | some (row, entry) =>
    let a := surchargeAmounts s.tables.active row entry
    (a.1 + a.2.2, a.2.1)

/-- The surcharge component and the step add replaced (06 R94). -/
def applySurcharge (s : State) : State :=
  withTrip (fun tr =>
    { tr with surcharge := (surchargeFound s tr).1, stepAdd := (surchargeFound s tr).2 }) s

/-- A surcharge lookup: when the sum or the step add changes, the limit is tested and the fare handed on (06 R94). -/
def surchargeLookup (s : State) : State :=
  match s.trip with
  | none => s
  | some tr =>
    if surchargeFound s tr = (tr.surcharge, tr.stepAdd) then s else fareChanged (applySurcharge s)

/-! Opening a trip (06 R84, R85) and a tariff change (06 R92). -/

/-- The distance side at HIRE: phase and DC (06 R85). -/
def openDistance (k : Nat) (h : TariffHeader) (seg : Segment) : Phase × Option Nat :=
  if 0 < h.d0 then (.allowance, some (pulsesFor k h.d0))
  else if h.double || h.t0 = 0 then (.stepping, some (pulsesFor k seg.d))
  else (.allowance, none)

/-- The time side at HIRE: phase and TC (06 R85). -/
def openTime (h : TariffHeader) (seg : Segment) : Phase × Option Nat :=
  if 0 < h.t0 then (.allowance, some h.t0)
  else if h.double || h.d0 = 0 then (.stepping, timeLoad seg.t)
  else (.allowance, none)

/-- A side still in ALLOWANCE with an inactive counter begins to step under DOUBLE (06 R92 step 3). -/
def startWaitingSides (s : State) : State :=
  withTrip (fun tr =>
    if (currentHeader s tr).double then
      let seg := currentSegment s tr
      let tr1 :=
        if tr.distancePhase = .allowance ∧ tr.dc = none then
          { tr with distancePhase := .stepping, dc := some (pulsesFor s.time.k seg.d) }
        else tr
      if tr.timePhase = .allowance ∧ tr.tc = none then { tr1 with timePhase := .stepping, tc := timeLoad seg.t } else tr1
    else tr) s

/-- The fare engine's part of a tariff change, the new tariff being current (06 R92). -/
def fareTariffChange (s : State) : State :=
  fareChanged (applySurcharge (adjustTimeSide (startWaitingSides (reevaluateSegment s))))

/-! Extras (06 R96 to R98) and the fare due (06 R101, R102). -/

/-- The running fare rounded to a unit, within the limit (06 R101). -/
def roundFare (r unit : Nat) : Nat :=
  let q := (r + unit / 2) / unit * unit
  if Config.fareMax < q then q - unit else q

/-- The fare due and the rounding difference fixed from the running fare (06 R101). -/
def fixFareDue (s : State) : State :=
  withTrip (fun tr =>
    let q := roundFare tr.runningFare (currentHeader s tr).unit
    { tr with fareDue := some q, roundingDiff := (q : Int) - (tr.runningFare : Int) }) s

/-- The fare due absent and the rounding difference 0 (06 R102). -/
def dropFareDue (s : State) : State := withTrip (fun tr => { tr with fareDue := none, roundingDiff := 0 }) s

/-- The amount of an extra item (06 R96). -/
def extraAmount (b : Bank) (item : Nat) : Nat := fieldAt (b.group 8 item 0) 0 2
/-- The press limit of an extra item (06 R96). -/
def extraLimit (b : Bank) (item : Nat) : Nat := fieldAt (b.group 8 item 0) 2 1

/-- The press count of an item (06 R81). -/
def Trip.presses (tr : Trip) (item : Nat) : Nat := tr.pressCounts.getD (item - 1) 0

/-- The trip with an extra added (06 R98). -/
def Trip.withExtra (tr : Trip) (item amount : Nat) : Trip :=
  { tr with
    extrasTotal := tr.extrasTotal + amount
    pressCounts := tr.pressCounts.set (item - 1) (tr.presses item + 1) }

/-- An extra added: the limit tested and the fare handed on; in SETTLING the fare due is computed again and handed on
(06 R98). -/
def addExtra (item amount : Nat) (s : State) : State :=
  let s1 := fareChanged (withTrip (fun tr => tr.withExtra item amount) s)
  if s.meter = .settling then placeDisplay (fixFareDue s1) else s1

end Sys2Proof.Machine
end

