-- ==== Sys2Proof/Machine/Intercom.lean ====
section
/-! DEFINITION. The intercom mixer (09): modes, gains, the mix, the talk floor, the open flag, calls and PIN entry. -/

namespace Sys2Proof.Machine

/-! The mode (09 R140). -/

/-- The displayed mode for a floor and an open flag: cases 2 to 5 (09 R140). -/
def shownModeOf (floor : Option FloorHold) (openFlag : Bool) : ShownMode :=
  match floor with
  | some ⟨.driver, _⟩ => .driverTalk
  | some _ => .passengerTalk
  | none => if openFlag then .openMode else .privateMode

/-- The index of the effective mode in the routing table (09 R139, R140). -/
def effectiveMode (s : State) : Nat :=
  match s.sign.emergency with
  | some _ => 4
  | none => (shownModeOf s.intercom.floor (openFlagNow s)).code.toNat

/-- The displayed mode recomputed, with a DISPLAY when it differs (09 R140). -/
def updateShownMode (s : State) : State :=
  let m := shownModeOf s.intercom.floor (openFlagNow s)
  if m = s.intercom.shownMode then s
  else placeDisplay { s with intercom := { s.intercom with shownMode := m } }

/-! The mix (09 R141 to R143). -/

/-- The gain of source i into destination d of a mix: the effective mode's entry with the two forced zeros (09 R141). -/
def mixGain (s : State) (i d : Nat) : Nat :=
  if (effectiveMode s ≠ 4 ∧ d = 3 ∧ i < 3) ∨ (s.intercom.pin.isSome ∧ d = 0 ∧ (i = 1 ∨ i = 2)) then 0
  else routingGain s.tables.unbanked (effectiveMode s) i d

/-- The sum for a destination (09 R142 step 1). -/
def mixSum (s : State) (x : Four Sample) (d : Nat) : Int :=
  x.x0.toInt * mixGain s 0 d + x.x1.toInt * mixGain s 1 d + x.x2.toInt * mixGain s 2 d + x.x3.toInt * mixGain s 3 d

/-- The scaled value: division by 64 rounding toward minus infinity (09 R142 step 2). -/
def mixScale (sum : Int) : Int := (sum + 32) / 64

/-- Whether a scaled value saturates (09 R142 step 3). -/
def mixClips (scaled : Int) : Bool := scaled > 32767 || scaled < -32768

/-- The output of a scaled value (09 R142 step 3). -/
def mixClamp (scaled : Int) : Sample := BitVec.ofInt 16 (max (-32768) (min 32767 scaled))

/-- The output for a destination (09 R142). -/
def mixOutput (s : State) (x : Four Sample) (d : Nat) : Sample := mixClamp (mixScale (mixSum s x d))

/-- Whether a destination saturates (09 R142). -/
def mixSaturates (s : State) (x : Four Sample) (d : Nat) : Bool := mixClips (mixScale (mixSum s x d))

/-- The clip counts and marks after a mix that saturates the named destinations (09 R143). -/
def clipCounted (clip : Four Bool) (ic : IntercomState) : IntercomState :=
  { ic with
    clipCounts := Four.zip (fun c n => if c then satAdd Config.max16 n 1 else n) clip ic.clipCounts
    clipMarks := Four.zip (fun c m => c || m) clip ic.clipMarks }

/-- A mix event: the outputs for the next frame, the clip counts and the AUDIO CLIP events, destinations in order
(09 R138, R142, R143). -/
def mixEvent (x : Four Sample) (s : State) : State :=
  let clip : Four Bool := ⟨mixSaturates s x 0, mixSaturates s x 1, mixSaturates s x 2, mixSaturates s x 3⟩
  let marks := s.intercom.clipMarks
  let s1 := { s with
    link := { s.link with mixed := some ⟨mixOutput s x 0, mixOutput s x 1, mixOutput s x 2, mixOutput s x 3⟩ }
    intercom := clipCounted clip s.intercom }
  raiseIf (clip.x3 && !marks.x3) .audioClip (raiseIf (clip.x2 && !marks.x2) .audioClip
    (raiseIf (clip.x1 && !marks.x1) .audioClip (raiseIf (clip.x0 && !marks.x0) .audioClip s1)))

/-! The talk floor (09 R144 to R148). -/

/-- The passenger whose station is st (09 R145). -/
def partyOf : Station → Party
  | .passengerA => .passengerA
  | .passengerB => .passengerB
  | _ => .driver

/-- The floor granted to a party (09 R144). -/
def grantFloor (p : Party) (ic : IntercomState) : IntercomState := { ic with floor := some ⟨p, 0⟩ }

/-- The floor passes: to A waiting, else to B waiting, else to no one (09 R144). -/
def passFloor (ic : IntercomState) : IntercomState :=
  if ic.waitA then { ic with floor := some ⟨.passengerA, 0⟩, waitA := false }
  else if ic.waitB then { ic with floor := some ⟨.passengerB, 0⟩, waitB := false }
  else { ic with floor := none }

/-- A passenger joins the waiting set; the driver never waits (09 R144). -/
def joinWaiting (p : Party) (ic : IntercomState) : IntercomState :=
  match p with
  | .driver => ic
  | .passengerA => { ic with waitA := true }
  | .passengerB => { ic with waitB := true }

/-- A passenger leaves the waiting set (09 R146). -/
def leaveWaiting (p : Party) (ic : IntercomState) : IntercomState :=
  match p with
  | .driver => ic
  | .passengerA => { ic with waitA := false }
  | .passengerB => { ic with waitB := false }

/-- A request for the floor (09 R145). -/
def requestFloor (p : Party) (ic : IntercomState) : IntercomState :=
  match ic.floor with
  | none => grantFloor p ic
  | some h =>
    if h.party = p then ic
    else
      match p with
      | .driver => grantFloor .driver (joinWaiting h.party ic)
      | _ => joinWaiting p ic

/-- A release of the floor (09 R146). -/
def releaseFloor (p : Party) (ic : IntercomState) : IntercomState :=
  match ic.floor with
  | some h => if h.party = p then passFloor ic else leaveWaiting p ic
  | none => leaveWaiting p ic

/-- A change of the floor, handed to the displayed mode (09 R144). -/
def changeFloor (f : IntercomState → IntercomState) (s : State) : State :=
  updateShownMode { s with intercom := f s.intercom }

/-- The hold limit releases the holder (09 R147). -/
def holdExpires (s : State) : State :=
  match s.intercom.floor with
  | some _ => changeFloor passFloor s
  | none => s

/-- A fare second at the hold count (09 R147). -/
def holdSecond (s : State) : State :=
  match s.intercom.floor with
  | none => s
  | some h =>
    if Config.holdSeconds ≤ h.count + 1 then holdExpires s
    else { s with intercom := { s.intercom with floor := some ⟨h.party, h.count + 1⟩ } }

/-- The loss of a passenger station (09 R148). -/
def passengerLost (p : Party) (s : State) : State := changeFloor (releaseFloor p) s

/-! PIN entry (09 R152). -/

/-- PIN entry becomes OFF (09 R152). -/
def pinOff (s : State) : State := { s with intercom := { s.intercom with pin := none } }

/-- A fare second at the PIN count (09 R152). -/
def pinSecond (s : State) : State :=
  match s.intercom.pin with
  | none => s
  | some n =>
    if Config.pinSeconds ≤ n + 1 then pinOff s
    else { s with intercom := { s.intercom with pin := some (n + 1) } }

/-- A PIN STATE at its owner: BEGIN counts with the terminal PRESENT, END always (09 R152). -/
def pinStateTaken (begin_ : Bool) (s : State) : State :=
  if begin_ then
    if isPresent s .cardTerminal then { s with intercom := { s.intercom with pin := some 0 } } else s
  else pinOff s

/-- The clip marks cleared at a fare second (09 R143). -/
def clearClipMarks (s : State) : State := { s with intercom := { s.intercom with clipMarks := .all false } }

/-! The status, the toggle and the calls (09 R149 to R151). -/

/-- The waiting set as one-bit members (09 R149). -/
def waitingByte (ic : IntercomState) : Byte :=
  BitVec.ofNat 8 ((if ic.waitA then 1 else 0) + (if ic.waitB then 2 else 0))

/-- The 13 bytes of the intercom status of a mixer state and an open flag (09 R149). -/
def intercomStatus (ic : IntercomState) (openFlag : Bool) : List Byte :=
  [floorCode ic.floor, waitingByte ic, (shownModeOf ic.floor openFlag).code, boolByte openFlag, boolByte ic.pin.isSome] ++
    ic.clipCounts.toList.flatMap (beBytes 2)

/-- The open flag set to a value: the meter controller is told when it changes, and the displayed mode is recomputed
(09 R140, R150). -/
def setOpenFlag (v : Bool) (s : State) : State :=
  if openFlagNow s = v then updateShownMode s
  else updateShownMode (placeDisplay (withTrip (fun tr => { tr with openFlag := v }) s))

/-- A CALL at its owner (09 R151). -/
def callTaken (s : State) : State :=
  raise .passengerCall (withTrip (fun tr => { tr with calls := satAdd Config.max16 tr.calls 1 }) s)

end Sys2Proof.Machine
end

