-- ==== Sys2Proof/Machine/Tariff.lean ====
section
/-! DEFINITION. The tariff selector (05): the chained lookup, its result and events, and what a result does to a trip. -/

namespace Sys2Proof.Machine

/-- The five inputs of a run (05 R62). -/
structure SelectionInput where
  flags : BitVec 8
  dayType : DayType
  zone : Nat
  passengers : Nat
  key : Nat
  deriving DecidableEq, Repr

/-- The result of a run with its two marks (05 R66 to R68). -/
structure SelectionResult where
  tariff : Option Nat
  depthMark : Bool
  fallbackMark : Bool
  deriving DecidableEq, Repr

/-- How the stages end (05 R66, R67). -/
inductive StagesEnd where
  | candidate (t : Nat)
  | depth
  | unusableDefault
  deriving DecidableEq, Repr

/-- The member of a day-type set that a day type is, in the order of 05 R63. -/
def DayType.member : DayType → Nat
  | .weekday => 0
  | .saturday => 1
  | .sunday => 2
  | .holiday => 3

/-- Whether a match group's bytes match at a stage with the current group (05 R63, R65). -/
def groupMatches (l : List Byte) (inp : SelectionInput) (stage g : Nat) : Bool :=
  let at_ := fun i => (l.getD i 0#8).toNat
  at_ 0 = stage && (at_ 1 = 16 || at_ 1 = g) && (l.getD 2 0#8 &&& ~~~inp.flags = 0#8) &&
    (l.getD 3 0#8 &&& inp.flags = 0#8) && (l.getD 4 0#8).getLsbD inp.dayType.member && at_ 5 ≤ inp.zone &&
    inp.zone ≤ at_ 6 && at_ 7 ≤ inp.passengers && inp.passengers ≤ at_ 8 && (at_ 9 = 5 || at_ 9 = inp.key)

/-- Whether an ACTIVE selection entry is valid and matches (05 R65). -/
def entryMatches (b : Bank) (inp : SelectionInput) (stage g i : Nat) : Bool :=
  b.valid 2 i && groupMatches (b.group 2 i 0) inp stage g

/-- The action of a stage: of the first matching entry, else of the stage's default; none when that is invalid
(05 R66, R67). -/
def stageAction (b : Bank) (inp : SelectionInput) (stage g : Nat) : Option Action :=
  match (List.range 64).find? (entryMatches b inp stage g) with
  | some i => some (readAction (b.group 2 i 1))
  | none => if b.valid 3 (stage - 1) then some (readAction (b.group 3 (stage - 1) 0)) else none

/-- The stages from one stage on; `left` is how many stages remain after it (05 R66, R67). -/
def runStages (b : Bank) (inp : SelectionInput) : (left stage g : Nat) → StagesEnd
  | left, stage, g =>
    match stageAction b inp stage g with
    | none => .unusableDefault
    | some (.tariff t) => .candidate t
    | some (.next g') =>
      match left with
      | 0 => .depth
      | n + 1 => runStages b inp n (stage + 1) g'

/-- A selection run (05 R66 to R68). -/
def selectionRun (b : Bank) (inp : SelectionInput) : SelectionResult :=
  match runStages b inp 2 1 0 with
  | .candidate t =>
    if b.valid 1 t then ⟨some t, false, false⟩ else ⟨fallbackTariff b, false, true⟩
  | .unusableDefault => ⟨fallbackTariff b, false, true⟩
  | .depth => ⟨fallbackTariff b, true, false⟩

/-- The events of a run: SELECT DEPTH, then SELECT FALLBACK (05 R68). -/
def selectionEvents (r : SelectionResult) (s : State) : State :=
  raiseIf r.fallbackMark .selectFallback (raiseIf r.depthMark .selectDepth s)

/-- The inputs as the state holds them, with a passenger count and a tariff key (05 R62). -/
def selectionInput (s : State) (passengers key : Nat) : SelectionInput :=
  { flags := s.time.calendarFlags, dayType := s.time.dayType, zone := s.time.zone, passengers := passengers, key := key }

/-- The period that begins now under the trip's current tariff (05 R73). -/
def periodNow (s : State) (tr : Trip) : Period :=
  { tariff := tr.tariff, label := (currentHeader s tr).label, start := clockNow s, fare := tr.runningFare }

/-- A period added at a tariff change, or the list found full (05 R72 steps 3 and 4, R73): TARIFF CHANGE occurs, and
TARIFF LIST FULL after it at the change that sets the flag. -/
def addPeriod (s : State) : State :=
  match s.trip with
  | none => s
  | some tr =>
    if tr.periods.length < 4 then
      raise .tariffChange (withTrip (fun tr => { tr with periods := tr.periods ++ [periodNow s tr] }) s)
    else if tr.tariffListFull then raise .tariffChange s
    else raise .tariffListFull (withTrip (fun tr => { tr with tariffListFull := true }) (raise .tariffChange s))

/-- A tariff change of the open trip (05 R72). -/
def changeTariff (t : Nat) (s : State) : State :=
  placeDisplay (addPeriod (fareTariffChange (withTrip (fun tr => { tr with tariff := t }) s)))

/-- A run for the open trip, with its outcome applied (05 R70, R71). -/
def runForTrip (s : State) : State :=
  match s.trip with
  | none => s
  | some tr =>
    let r := selectionRun s.tables.active (selectionInput s tr.passengers tr.tariffKey)
    let s1 := selectionEvents r s
    match r.tariff with
    | none => s1
    | some t => if t = tr.tariff then s1 else changeTariff t s1

/-- An occasion of a run: it is made in HIRED only (05 R70). -/
def selectionOccasion (s : State) : State := if s.meter = .hired then runForTrip s else s

end Sys2Proof.Machine
end

