-- ==== Sys2Proof/Machine/Meter.lean ====
section
/-! DEFINITION. The meter controller (07): the meter state, the payment prompt, tenders, the opening and the close of a trip,
shifts and the keys. -/

namespace Sys2Proof.Machine

/-- A change of meter state: STATE CHANGE, a DISPLAY, and the sign controller told (07 R106). -/
def setMeter (m : MeterState) (s : State) : State :=
  signMeterChanged (placeDisplay (raise .stateChange { s with meter := m }))

/-! The payment prompt (07 R118). -/

/-- The tip cap of a trip: fare due times tip percent div 100 (10 R158). -/
def tipCap (s : State) (tr : Trip) : Nat := tr.fareDue.getD 0 * tipPercent s.tables.unbanked / 100

/-- The payload of a PAY PROMPT DUE (07 R118). -/
def duePayload (s : State) (tr : Trip) : List Byte :=
  [0#8] ++ beBytes 2 tr.shiftNumber ++ beBytes 2 tr.tripNumber ++ beBytes 3 (tr.fareDue.getD 0) ++
    beBytes 3 tr.remaining ++ beBytes 3 (tipCap s tr - tr.tips)

/-- The payload of a PAY PROMPT ENDED (07 R118). -/
def endedPayload (tr : Trip) : List Byte := [1#8] ++ beBytes 2 tr.shiftNumber ++ beBytes 2 tr.tripNumber

/-- A DUE offered, which sets the prompt mark, when the terminal is PRESENT, the meter SETTLING and something remains due
(07 R118). -/
def offerDue (s : State) : State :=
  match s.trip with
  | none => s
  | some tr =>
    if isPresent s .cardTerminal ∧ s.meter = .settling ∧ 0 < tr.remaining then
      withTrip (fun tr => { tr with promptMark := true }) (offer ⟨.cardTerminal, kindPayPrompt, duePayload s tr⟩ s)
    else s

/-- An ENDED offered when the prompt mark is set, and the mark cleared (07 R118). -/
def offerEnded (s : State) : State :=
  match s.trip with
  | none => s
  | some tr =>
    if tr.promptMark then
      withTrip (fun tr => { tr with promptMark := false }) (offer ⟨.cardTerminal, kindPayPrompt, endedPayload tr⟩ s)
    else s

/-! Closing a trip (07 R122). -/

/-- The trip record's end time set to the wall clock (07 R122 step 1). -/
def setEndTime (s : State) : State := withTrip (fun tr => { tr with endTime := some (clockNow s) }) s

/-- The closing record handed to the shift accounting unit (07 R122 step 1). -/
def accountTrip (s : State) : State :=
  match s.trip with
  | none => s
  | some tr => shiftTripClosed tr s

/-- The trip record ceases to exist and the meter becomes VACANT (07 R122 step 5); the mixer recomputes the displayed mode
(09 R140). -/
def endTrip (s : State) : State := setMeter .vacant (updateShownMode { s with trip := none })

/-- A trip closes (07 R122). -/
def closeTrip (s : State) : State :=
  let s1 := activationAtClose (accountTrip (setEndTime s))
  let s2 := endTrip (offerEnded (setOpenFlag false s1))
  placeDisplay (raise .tripClosed s2)

/-! Tenders (07 R119). -/

/-- A tender joins the list; the trip then closes, or a DUE is offered and a DISPLAY placed (07 R119). -/
def recordTender (kind : TenderKind) (farePart tip : Nat) (s : State) : State :=
  match s.trip with
  | none => s
  | some tr =>
    let t : Tender := { kind := kind, farePart := farePart, tip := tip, index := tr.tenders.length + 1, state := .settled }
    let s1 := withTrip (fun tr => { tr with tenders := tr.tenders ++ [t] }) s
    if tr.remaining - farePart = 0 then closeTrip s1 else placeDisplay (offerDue s1)

/-! Opening a trip (07 R113, R114; 06 R84, R85). -/

/-- The shift number and trips count of the open shift. -/
def shiftNumberNow (s : State) : Nat :=
  match s.shifts.record with
  | some r => r.number
  | none => 0

/-- The number of the next trip (07 R114). -/
def nextTripNumber (s : State) : Nat :=
  match s.shifts.record with
  | some r => r.trips % 65535 + 1
  | none => 1

/-- A new trip record under tariff t: the fields of R114 at their opening values, the fare fields of 06 R84 and R85 before
the surcharge lookup, and no period yet. -/
def newTrip (s : State) (t key : Nat) : Trip :=
  let h := tariffHeader s.tables.active t
  let seg := tariffSegment s.tables.active t 1
  let dist := openDistance s.time.k h seg
  let time := openTime h seg
  { tripNumber := nextTripNumber s, shiftNumber := shiftNumberNow s, startTime := clockNow s, endTime := none
    tariff := t, tariffKey := key, periods := [], tariffListFull := false, bankVersion := s.tables.activeVersion
    pulses := 0, dc := dist.2, tc := time.2, distancePhase := dist.1, timePhase := time.1, segment := 1
    distanceDrops := 0, timeDrops := 0, dropsTotal := 0, flagDrop := h.flagDrop, surcharge := 0, stepAdd := 0
    extrasTotal := 0, pressCounts := List.replicate 8 0, fareDue := none, roundingDiff := 0, fareLimit := false
    extraCap := false, passengers := 1, luggage := 0, zoneAtHire := s.time.zone, tenders := [], promptMark := false
    calls := 0, openFlag := false, powerBreak := false, hiredSeconds := 0 }

/-- The first tariff period added, with the running fare that the setup produced (05 R73, 07 R113 step 3). -/
def firstPeriod (s : State) : State := withTrip (fun tr => { tr with periods := [periodNow s tr] }) s

/-- A trip opened under tariff t (07 R113). -/
def openTrip (t key : Nat) (s : State) : State :=
  let s1 := updateShownMode { s with trip := some (newTrip s t key) }
  placeDisplay (setMeter .hired (firstPeriod (applySurcharge s1)))

/-! Keys (07 R107, R108). Each takes the source of the request and the key's argument. -/

/-- The code that a REPLY to a key carries (02 R18). -/
abbrev keyCode : Byte := Request.key.code

/-- Whether a card authorization is pending (10 R160). -/
def authPending (s : State) : Bool := s.pay.auth.isSome

/-- A key whose argument is none is refused with BAD_VALUE when the argument is not 0 (07 R107). -/
def withNoArgument (src : Station) (arg : Byte) (f : State → State) (s : State) : State :=
  if arg = 0#8 then f s else refuse src keyCode .badValue s

/-- HIRE (07 R113, 05 R69). -/
def keyHire (src : Station) (arg : Byte) (s : State) : State :=
  let key := arg.toNat
  if 4 < key then refuse src keyCode .badValue s
  else if s.meter = .vacant ∨ s.meter = .onCall then
    let r := selectionRun s.tables.active (selectionInput s 1 key)
    match r.tariff with
    | none => selectionEvents r (refuse src keyCode .noTariff s)
    | some t =>
      let data := beBytes 2 (nextTripNumber s) ++ beBytes 1 t ++ beBytes 1 (tariffHeader s.tables.active t).label
      openTrip t key (selectionEvents r (reply src keyCode .ok data s))
  else refuse src keyCode .refusedState s

/-- STOP (07 R117). -/
def keyStop (src : Station) (arg : Byte) (s : State) : State :=
  withNoArgument src arg (fun s =>
    match s.meter, s.trip with
    | .hired, some tr =>
      let due := roundFare tr.runningFare (currentHeader s tr).unit
      let s1 := reply src keyCode .ok (beBytes 3 due ++ signedBytes 1 ((due : Int) - (tr.runningFare : Int))) s
      let s2 := setMeter .settling (fixFareDue s1)
      if due = 0 then closeTrip s2 else offerDue s2
    | _, _ => refuse src keyCode .refusedState s) s

/-- RESUME (07 R121). -/
def keyResume (src : Station) (arg : Byte) (s : State) : State :=
  withNoArgument src arg (fun s =>
    match s.meter, s.trip with
    | .settling, some tr =>
      if tr.tenders = [] ∧ authPending s = false then
        let s1 := dropFareDue (reply src keyCode .ok [] s)
        placeDisplay (runForTrip (setMeter .hired (offerEnded s1)))
      else refuse src keyCode .refusedState s
    | _, _ => refuse src keyCode .refusedState s) s

/-- CASH and UNPAID: a tender of the whole remaining due (07 R120). -/
def keyTender (kind : TenderKind) (src : Station) (s : State) : State :=
  match s.meter, s.trip with
  | .settling, some tr =>
    if authPending s then refuse src keyCode .refusedState s
    else
      recordTender kind tr.remaining 0
        (reply src keyCode .ok (beBytes 1 (tr.tenders.length + 1) ++ beBytes 3 tr.remaining) s)
  | _, _ => refuse src keyCode .refusedState s

/-- CASH (07 R120). -/
def keyCash (src : Station) (arg : Byte) (s : State) : State := withNoArgument src arg (keyTender .cash src) s

/-- UNPAID (07 R120). -/
def keyUnpaid (src : Station) (arg : Byte) (s : State) : State := withNoArgument src arg (keyTender .unpaid src) s

/-- PROMPT (07 R118). -/
def keyPrompt (src : Station) (arg : Byte) (s : State) : State :=
  withNoArgument src arg (fun s =>
    if s.meter = .settling then
      if isPresent s .cardTerminal then offerDue (reply src keyCode .ok [] s) else refuse src keyCode .notReady s
    else refuse src keyCode .refusedState s) s

/-- A key that moves the meter from one state to another (07 R111, R112). -/
def keyMove (old new : MeterState) (src : Station) (arg : Byte) (s : State) : State :=
  withNoArgument src arg (fun s =>
    if s.meter = old then setMeter new (reply src keyCode .ok [] s) else refuse src keyCode .refusedState s) s

/-- ON CALL (07 R111). -/
def keyOnCall (src : Station) (arg : Byte) (s : State) : State := keyMove .vacant .onCall src arg s
/-- CANCEL CALL (07 R111). -/
def keyCancelCall (src : Station) (arg : Byte) (s : State) : State := keyMove .onCall .vacant src arg s
/-- OFF DUTY (07 R112). -/
def keyOffDuty (src : Station) (arg : Byte) (s : State) : State := keyMove .vacant .offDuty src arg s
/-- ON DUTY (07 R112). -/
def keyOnDuty (src : Station) (arg : Byte) (s : State) : State := keyMove .offDuty .vacant src arg s

/-- Whether an extra may be tried: HIRED, or SETTLING with no tender and no pending authorization (06 R97). -/
def extraAllowed (s : State) (tr : Trip) : Bool :=
  s.meter = .hired || (s.meter = .settling && tr.tenders.isEmpty && !authPending s)

/-- A refusal by the extras cap: the flag set and EXTRA CAP (06 R97). -/
def extraCapped (s : State) : State := raise .extraCap (withTrip (fun tr => { tr with extraCap := true }) s)

/-- The DUE that follows an extra which raised the fare due (07 R118). -/
def dueIfRaised (before : Trip) (s : State) : State :=
  match s.trip with
  | some tr => if before.fareDue.getD 0 < tr.fareDue.getD 0 then offerDue s else s
  | none => s

/-- EXTRA (06 R97, R98). -/
def keyExtra (src : Station) (arg : Byte) (s : State) : State :=
  let item := arg.toNat
  if item < 1 ∨ 8 < item then refuse src keyCode .badValue s
  else
    match s.trip with
    | none => refuse src keyCode .refusedState s
    | some tr =>
      let amount := extraAmount s.tables.active item
      if extraAllowed s tr = false then refuse src keyCode .refusedState s
      else if s.tables.active.valid 8 item = false then refuse src keyCode .badValue s
      else if extraLimit s.tables.active item ≤ tr.presses item then refuse src keyCode .capReached s
      else if (currentHeader s tr).extrasCap < tr.extrasTotal + amount then
        extraCapped (refuse src keyCode .capReached s)
      else
        let data := beBytes 1 item ++ beBytes 1 (tr.presses item + 1) ++ beBytes 3 (tr.extrasTotal + amount)
        dueIfRaised tr (addExtra item amount (reply src keyCode .ok data s))

/-- PASSENGERS (07 R116, 05 R74). -/
def keyPassengers (src : Station) (arg : Byte) (s : State) : State :=
  let n := arg.toNat
  if n < 1 ∨ 8 < n then refuse src keyCode .badValue s
  else if inTrip s then
    let s1 := withTrip (fun tr => { tr with passengers := n }) (reply src keyCode .ok (beBytes 1 n) s)
    if s.meter = .hired then surchargeLookup (runForTrip s1) else s1
  else refuse src keyCode .refusedState s

/-- LUGGAGE (07 R116). -/
def keyLuggage (src : Station) (arg : Byte) (s : State) : State :=
  let n := arg.toNat
  if 15 < n then refuse src keyCode .badValue s
  else if inTrip s then
    let s1 := withTrip (fun tr => { tr with luggage := n }) (reply src keyCode .ok (beBytes 1 n) s)
    if s.meter = .hired then surchargeLookup s1 else s1
  else refuse src keyCode .refusedState s

/-- A talk key: the floor changes and the intercom status is answered (09 R145, R146, R149). -/
def keyTalk (f : IntercomState → IntercomState) (src : Station) (s : State) : State :=
  changeFloor f (reply src keyCode .ok (intercomStatus (f s.intercom) (openFlagNow s)) s)

/-- TALK DOWN of the driver (09 R145). -/
def keyTalkDown (src : Station) (arg : Byte) (s : State) : State :=
  withNoArgument src arg (keyTalk (requestFloor .driver) src) s

/-- TALK UP of the driver (09 R146). -/
def keyTalkUp (src : Station) (arg : Byte) (s : State) : State :=
  withNoArgument src arg (keyTalk (releaseFloor .driver) src) s

/-- OPEN TOGGLE (09 R150). -/
def keyOpenToggle (src : Station) (arg : Byte) (s : State) : State :=
  withNoArgument src arg (fun s =>
    if inTrip s then
      let v := !openFlagNow s
      setOpenFlag v (reply src keyCode .ok (intercomStatus s.intercom v) s)
    else refuse src keyCode .refusedState s) s

/-- A KEY request: its length, code and argument, and the key's handler (07 R107). -/
def takeKey (src : Station) (payload : List Byte) (s : State) : State :=
  match payload with
  | [code, arg] =>
    match code.toNat with
    | 1 => keyHire src arg s
    | 2 => keyStop src arg s
    | 3 => keyResume src arg s
    | 4 => keyCash src arg s
    | 5 => keyUnpaid src arg s
    | 6 => keyPrompt src arg s
    | 7 => keyOnCall src arg s
    | 8 => keyCancelCall src arg s
    | 9 => keyOffDuty src arg s
    | 10 => keyOnDuty src arg s
    | 11 => keyExtra src arg s
    | 12 => keyPassengers src arg s
    | 13 => keyLuggage src arg s
    | 14 => keyTalkDown src arg s
    | 15 => keyTalkUp src arg s
    | 16 => keyOpenToggle src arg s
    | _ => refuse src keyCode .badValue s
  | _ => refuse src keyCode .badValue s

/-! Shifts and the dispatch request (07 R109 to R111; 11 R178, R186). -/

/-- SHIFT OPEN (07 R109, 11 R178). -/
def takeShiftOpen (src : Station) (payload : List Byte) (s : State) : State :=
  let k := Request.shiftOpen.code
  let driver := fieldAt payload 0 3
  if payload.length ≠ 3 ∨ driver < 1 ∨ 99999 < driver then refuse src k .badValue s
  else if s.meter ≠ .closed then refuse src k .refusedState s
  else if s.time.k = 0 ∨ s.time.clockUnset then refuse src k .notReady s
  else
    let s1 := reply src k .ok (beBytes 2 s.shifts.nextShift) s
    setMeter .vacant
      { s1 with shifts := { s1.shifts with record := some (newShift s driver), nextShift := nextNumber s.shifts.nextShift } }

/-- The deferred total (10 R169). -/
def deferredTotal (l : List DeferredEntry) : Nat := (l.map fun e => e.farePart + e.tip).sum

/-- The report of a shift record (11 R187). -/
def makeReport (s : State) (r : ShiftRecord) : Report :=
  { record := r, closeTime := clockNow s, lifetimeAtClose := s.time.lifetime, deferredCount := s.pay.deferred.length
    deferredTotal := deferredTotal s.pay.deferred, versionAtClose := s.tables.activeVersion }

/-- SHIFT CLOSE (07 R110, 11 R186). -/
def takeShiftClose (src : Station) (payload : List Byte) (s : State) : State :=
  let k := Request.shiftClose.code
  if payload ≠ [] then refuse src k .badValue s
  else if s.meter ≠ .vacant ∧ s.meter ≠ .offDuty then refuse src k .refusedState s
  else
    match s.shifts.record with
    | none => refuse src k .refusedState s
    | some r =>
      if Config.reportCap ≤ s.shifts.reports.length then refuse src k .reportFull s
      else
        let s1 := reply src k .ok (beBytes 2 r.number) s
        setMeter .closed
          { s1 with shifts := { s1.shifts with record := none, reports := s1.shifts.reports ++ [makeReport s r] } }

/-- DISPATCH (07 R111). -/
def takeDispatch (src : Station) (payload : List Byte) (s : State) : State :=
  let k := Request.dispatch.code
  if payload ≠ [] then refuse src k .badValue s
  else if s.meter = .vacant then setMeter .onCall (reply src k .ok [] s)
  else refuse src k .refusedState s

end Sys2Proof.Machine
end

