-- ==== Sys2Proof/Machine/Payments.lean ====
section
/-! DEFINITION. The payment controller (10): payment checks, authorization, the offline decision, the late list, the deferred
queue and its captures. -/

namespace Sys2Proof.Machine

/-! Being online and captures (10 R161, R170 to R172). -/

/-- The controller is online: the modem PRESENT and the bearer UP (10 R161). -/
def isOnline (s : State) : Bool := isPresent s .fleetModem && s.pay.bearerUp

/-- The payload of a CAPTURE of a deferred entry (10 R170). -/
def capturePayload (e : DeferredEntry) : List Byte :=
  refBytes e.ref ++ beBytes 3 e.issuer ++ beBytes 1 e.cls ++ beBytes 3 e.farePart ++ beBytes 3 e.tip ++ clockBytes e.time ++
    beBytes 1 e.token.length ++ e.token

/-- A change of the capture state. -/
def setCapture (c : CaptureState) (s : State) : State := { s with pay := { s.pay with capture := c } }

/-- The check that starts a capture: IDLE, online, and a head entry (10 R170). -/
def captureCheck (s : State) : State :=
  match s.pay.capture, s.pay.deferred with
  | .idle, e :: _ =>
    if isOnline s then
      setCapture (.inFlight e.ref 0 (authTimeoutSetting s.tables.unbanked))
        (offer ⟨.fleetModem, kindCapture, capturePayload e⟩ s)
    else s
  | _, _ => s

/-- Online beginning: a wait ends, and the check follows (10 R161, R172). -/
def onlineBegins (s : State) : State :=
  match s.pay.capture with
  | .waiting _ _ => captureCheck (setCapture .idle s)
  | _ => captureCheck s

/-- Online beginning when the controller was not online in an earlier state and is now (10 R161). -/
def onlineAfter (before : State) (s : State) : State := if !isOnline before && isOnline s then onlineBegins s else s

/-- A MODEM STATUS at its owner (10 R161). -/
def modemStatusTaken (up : Bool) (s : State) : State :=
  onlineAfter s { s with pay := { s.pay with bearerUp := up } }

/-- The expiry of the capture in flight: WAITING with the retry interval (10 R172). -/
def captureExpires (s : State) : State :=
  match s.pay.capture with
  | .inFlight _ _ _ => setCapture (.waiting 0 (retrySetting s.tables.unbanked)) s
  | _ => s

/-- The end of a wait: IDLE, and the check (10 R172). -/
def captureWaitEnds (s : State) : State :=
  match s.pay.capture with
  | .waiting _ _ => captureCheck (setCapture .idle s)
  | _ => s

/-- A fare second at the capture state (10 R170, R172). -/
def captureSecond (s : State) : State :=
  match s.pay.capture with
  | .idle => s
  | .inFlight ref n limit => if limit ≤ n + 1 then captureExpires s else setCapture (.inFlight ref (n + 1) limit) s
  | .waiting n interval => if interval ≤ n + 1 then captureWaitEnds s else setCapture (.waiting (n + 1) interval) s

/-! The offline decision (10 R164). -/

/-- The card offline amount and the offline cap of the open shift. -/
def offlineRoom (s : State) (amount : Nat) : Bool :=
  match s.shifts.record with
  | some r => r.offlineAmount + amount ≤ r.offlineCap
  | none => false

/-- Whether a payment is approved offline (10 R164). -/
def offlineApproves (s : State) (cls amount : Nat) : Bool :=
  classPolicy s.tables.unbanked cls = 2 && amount ≤ classFloor s.tables.unbanked cls &&
    s.pay.deferred.length < Config.deferredCap && offlineRoom s amount

/-- The effects of an offline approval: the deferred entry, the shift's counts, OFFLINE APPROVAL (10 R164). -/
def offlineApprove (ref : Reference) (issuer cls farePart tip : Nat) (token : List Byte) (s : State) : State :=
  let e : DeferredEntry :=
    { ref := ref, issuer := issuer, cls := cls, farePart := farePart, tip := tip, token := token, time := clockNow s }
  let s1 := { s with pay := { s.pay with deferred := s.pay.deferred ++ [e] } }
  raise .offlineApproval (shiftOfflineApproval (farePart + tip) s1)

/-! The end of a payment (10 R165). -/

/-- The outcome of a payment (10 R165). -/
inductive PayOutcome where
  | approved | approvedOffline | declined | timeout
  deriving DecidableEq, Repr

/-- Code of an outcome, in the order of 10 R165. -/
def PayOutcome.code : PayOutcome → Byte
  | .approved => 0#8
  | .approvedOffline => 1#8
  | .declined => 2#8
  | .timeout => 3#8

/-- The remaining due of the open trip. -/
def remainingNow (s : State) : Nat :=
  match s.trip with
  | some tr => tr.remaining
  | none => 0

/-- A PAY RESULT offered (10 R165). -/
def offerPayResult (number : Nat) (ref : Reference) (o : PayOutcome) (farePart tip remaining : Nat) (s : State) : State :=
  offer ⟨.cardTerminal, kindPayResult,
    beBytes 2 number ++ refBytes ref ++ [o.code] ++ beBytes 3 farePart ++ beBytes 3 tip ++ beBytes 3 remaining⟩ s

/-- A payment ends without a tender (10 R165). -/
def payFails (number : Nat) (ref : Reference) (o : PayOutcome) (farePart tip : Nat) (s : State) : State :=
  offerPayResult number ref o farePart tip (remainingNow s) s

/-- A payment ends with a card tender (10 R165). -/
def paySucceeds (number : Nat) (ref : Reference) (o : PayOutcome) (kind : TenderKind) (farePart tip : Nat) (s : State) : State :=
  recordTender kind farePart tip (offerPayResult number ref o farePart tip (remainingNow s - farePart) s)

/-! The late list (10 R166, R167) and VOID (10 R168). -/

/-- A late entry of an authorization (10 R166). -/
def lateOf (a : Auth) (ending : Ending) (hold : Nat) : LateEntry :=
  { number := a.number, ref := a.ref, farePart := a.farePart, tip := a.tip, ending := ending, count := 0, holdTime := hold }

/-- An entry joins the late list's tail; a full list loses its oldest (10 R166). -/
def lateJoin (e : LateEntry) (l : List LateEntry) : List LateEntry :=
  (if Config.lateCap ≤ l.length then l.drop 1 else l) ++ [e]

/-- An ended authorization joins the late list (10 R166). -/
def joinLate (a : Auth) (ending : Ending) (s : State) : State :=
  { s with pay := { s.pay with late := lateJoin (lateOf a ending (lateHoldSetting s.tables.unbanked)) s.pay.late } }

/-- A fare second at the late list: every hold count rises, and an entry at its hold time leaves (10 R166). -/
def lateSecond (s : State) : State :=
  { s with pay := { s.pay with
    late := (s.pay.late.filter fun e => e.count + 1 < e.holdTime).map fun e => { e with count := e.count + 1 } } }

/-- The entry at a position of the late list expires (10 R166). -/
def lateExpires (position : Nat) (s : State) : State :=
  { s with pay := { s.pay with late := s.pay.late.eraseIdx position } }

/-- A VOID offered and counted in the open shift (10 R168). -/
def offerVoid (number : Nat) (ref : Reference) (farePart tip : Nat) (s : State) : State :=
  shiftVoid (offer ⟨.fleetModem, kindVoid, beBytes 2 number ++ refBytes ref ++ beBytes 3 farePart ++ beBytes 3 tip⟩ s)

/-- Whether a reference is the one in flight. -/
def inFlightFor (c : CaptureState) (ref : Reference) : Bool :=
  match c with
  | .inFlight r _ _ => r = ref
  | _ => false

/-- A late approval resolves a deferred entry: it leaves the queue, and a capture in flight for it is forgotten
(10 R167, R172). -/
def resolveDeferred (ref : Reference) (s : State) : State :=
  let s1 := { s with pay := { s.pay with deferred := s.pay.deferred.filter fun e => e.ref ≠ ref } }
  let s2 := shiftResolved s1
  if inFlightFor s.pay.capture ref then captureCheck (setCapture .idle s2) else s2

/-- A response that matches a late entry, already removed (10 R167). -/
def resolveLate (e : LateEntry) (approved : Bool) (s : State) : State :=
  if approved then
    if e.ending = .endedOffline ∧ s.pay.deferred.any (fun d => d.ref = e.ref) then resolveDeferred e.ref s
    else raise .lateVoid (offerVoid e.number e.ref e.farePart e.tip s)
  else s

/-! The pending authorization (10 R160 to R163, R173). -/

/-- The pending authorization ends. -/
def endAuth (s : State) : State := { s with pay := { s.pay with auth := none } }

/-- The expiry of the pending authorization's timer (10 R163); the capture check follows an approval (10 R170). -/
def authExpires (s : State) : State :=
  match s.pay.auth with
  | none => s
  | some a =>
    let s0 := endAuth s
    if a.cancelled then joinLate a .cancelled s0
    else
      let s1 := raise .authTimeout s0
      if offlineApproves s1 a.cls (a.farePart + a.tip) then
        let s2 := offlineApprove a.ref a.issuer a.cls a.farePart a.tip a.token s1
        let s3 := joinLate a .endedOffline s2
        captureCheck (paySucceeds a.number a.ref .approvedOffline .cardOffline a.farePart a.tip s3)
      else payFails a.number a.ref .timeout a.farePart a.tip (joinLate a .endedDeclined s1)

/-- A fare second at the pending authorization's timer (10 R160). -/
def authSecond (s : State) : State :=
  match s.pay.auth with
  | none => s
  | some a =>
    if a.timeout ≤ a.count + 1 then authExpires s
    else { s with pay := { s.pay with auth := some { a with count := a.count + 1 } } }

/-- An AUTH RESPONSE at its owner (10 R162, R167). -/
def authResponseTaken (number : Nat) (ref : Reference) (approved : Bool) (s : State) : State :=
  let late := fun (s : State) =>
    match s.pay.late.find? fun e => e.number = number ∧ e.ref = ref with
    | none => s
    | some e =>
      resolveLate e approved { s with pay := { s.pay with late := s.pay.late.erase e } }
  match s.pay.auth with
  | none => late s
  | some a =>
    if a.number = number ∧ a.ref = ref then
      let s1 := endAuth s
      if a.cancelled then
        if approved then offerVoid a.number a.ref a.farePart a.tip s1 else s1
      else if approved then paySucceeds a.number a.ref .approved .cardOnline a.farePart a.tip s1
      else payFails a.number a.ref .declined a.farePart a.tip s1
    else late s

/-- A CAPTURE RESPONSE at its owner (10 R171). -/
def captureResponseTaken (ref : Reference) (accepted : Bool) (s : State) : State :=
  match s.pay.deferred with
  | [] => s
  | e :: rest =>
    if e.ref = ref then
      let s1 := { s with pay := { s.pay with deferred := rest, capture := .idle } }
      if accepted then captureCheck (shiftResolved s1)
      else captureCheck (shiftMarkDeclined ref (shiftDeclined (e.farePart + e.tip) (raise .captureDeclined s1)))
    else s

/-! The requests (10 R158, R159, R173, R174). -/

/-- A PAY REQUEST's fields (10 R158). -/
structure PayFields where
  issuer : Nat
  farePart : Nat
  tip : Nat
  token : List Byte
  deriving DecidableEq, Repr

/-- The fields of a PAY REQUEST's payload, none when its length or a field is wrong (10 R158). -/
def payFields (payload : List Byte) : Option PayFields :=
  let n := fieldAt payload 9 1
  let f : PayFields :=
    { issuer := fieldAt payload 0 3, farePart := fieldAt payload 3 3, tip := fieldAt payload 6 3, token := payload.drop 10 }
  if 10 ≤ payload.length ∧ payload.length = 10 + n ∧ 8 ≤ n ∧ n ≤ 32 ∧ f.issuer ≤ 999999 ∧ f.farePart ≤ 999999 ∧
      f.tip ≤ 999999 then some f
  else none

/-- The first check of a PAY REQUEST that fails, the meter being SETTLING on a trip (10 R158). -/
def payCheck (s : State) (tr : Trip) (f : PayFields) : Option Result :=
  let cls := issuerClass s.tables.unbanked f.issuer
  if authPending s then some .busy
  else if f.farePart < 1 ∨ tr.remaining < f.farePart then some .amountExcess
  else if tipCap s tr < tr.tips + f.tip then some .tipLimit
  else if 3 ≤ tr.tenders.length ∧ f.farePart < tr.remaining then some .splitLimit
  else if classPolicy s.tables.unbanked cls = 0 then some .refusedPermission
  else if classMaximum s.tables.unbanked cls < f.farePart + f.tip then some .capReached
  else none

/-- The reference of the payment that a trip accepts next (10 R159). -/
def nextReference (s : State) (tr : Trip) : Reference := ⟨shiftNumberNow s, tr.tripNumber, tr.tenders.length + 1⟩

/-- The payload of an AUTH REQUEST (10 R160). -/
def authRequestPayload (a : Auth) : List Byte :=
  beBytes 2 a.number ++ refBytes a.ref ++ beBytes 3 a.issuer ++ beBytes 1 a.cls ++ beBytes 3 a.farePart ++ beBytes 3 a.tip ++
    beBytes 1 a.token.length ++ a.token

/-- The data of an accepted PAY REQUEST's REPLY: reference, authorization number, path (ONLINE 0, OFFLINE 1) (10 R159). -/
def payReplyData (ref : Reference) (number : Nat) (path : Byte) : List Byte := refBytes ref ++ beBytes 2 number ++ [path]

/-- The online path: the pending authorization and its AUTH REQUEST (10 R159, R160). -/
def payOnline (src : Station) (tr : Trip) (f : PayFields) (s : State) : State :=
  let a : Auth :=
    { number := s.pay.nextAuth, ref := nextReference s tr, issuer := f.issuer, cls := issuerClass s.tables.unbanked f.issuer
      farePart := f.farePart, tip := f.tip, token := f.token, cancelled := false, count := 0
      timeout := authTimeoutSetting s.tables.unbanked }
  let s1 := reply src Request.payRequest.code .ok (payReplyData a.ref a.number 0#8) s
  let s2 := { s1 with pay := { s1.pay with auth := some a, nextAuth := nextNumber s1.pay.nextAuth } }
  offer ⟨.fleetModem, kindAuthRequest, authRequestPayload a⟩ s2

/-- The offline path: the decision at once (10 R159, R164, R165). -/
def payOffline (src : Station) (tr : Trip) (f : PayFields) (s : State) : State :=
  let ref := nextReference s tr
  let cls := issuerClass s.tables.unbanked f.issuer
  let s1 := reply src Request.payRequest.code .ok (payReplyData ref 0 1#8) s
  if offlineApproves s1 cls (f.farePart + f.tip) then
    captureCheck (paySucceeds 0 ref .approvedOffline .cardOffline f.farePart f.tip
      (offlineApprove ref f.issuer cls f.farePart f.tip f.token s1))
  else payFails 0 ref .declined f.farePart f.tip s1

/-- PAY REQUEST at the payment controller (10 R158, R159). -/
def takePayRequest (src : Station) (payload : List Byte) (s : State) : State :=
  let k := Request.payRequest.code
  match payFields payload with
  | none => refuse src k .badValue s
  | some f =>
    match s.meter, s.trip with
    | .settling, some tr =>
      match payCheck s tr f with
      | some r => refuse src k r s
      | none => if isOnline s then payOnline src tr f s else payOffline src tr f s
    | _, _ => refuse src k .refusedState s

/-- PAY CANCEL at the payment controller (10 R173). -/
def takePayCancel (src : Station) (payload : List Byte) (s : State) : State :=
  let k := Request.payCancel.code
  if payload ≠ [] then refuse src k .badValue s
  else
    match s.pay.auth with
    | none => refuse src k .notFound s
    | some a =>
      if a.cancelled then refuse src k .notFound s
      else
        let s1 := reply src k .ok (beBytes 2 a.number) s
        payFails a.number a.ref .declined a.farePart a.tip
          { s1 with pay := { s1.pay with auth := some { a with cancelled := true } } }

/-- A deferred entry as DEFERRED READ returns it (10 R174). -/
def deferredBytes (e : DeferredEntry) : List Byte :=
  refBytes e.ref ++ beBytes 1 e.cls ++ beBytes 3 e.farePart ++ beBytes 3 e.tip ++ clockBytes e.time

/-- DEFERRED READ at the payment controller (10 R174). -/
def takeDeferredRead (src : Station) (payload : List Byte) (s : State) : State :=
  let k := Request.deferredRead.code
  let position := fieldAt payload 0 1
  if payload.length ≠ 1 ∨ 15 < position then refuse src k .badValue s
  else
    reply src k .ok
      (beBytes 1 s.pay.deferred.length ++ beBytes 4 (deferredTotal s.pay.deferred) ++ [s.pay.capture.code] ++
        ((s.pay.deferred.drop position).take 2).flatMap deferredBytes) s

end Sys2Proof.Machine
end

