-- ==== Sys2Proof/Machine/Requests.lean ====
section
/-! DEFINITION. The request dispatcher (02): taking a message, permission, report forms, its own requests, and the requests of the
timebase (04), the sign controller (08) and the shift accounting unit (11). -/

namespace Sys2Proof.Machine

/-! The dispatcher's own requests (02 R28 to R30). -/

/-- A station's totals in STATUS READ part 2 (02 R29). -/
def totalsBytes (r : StationRecord) : List Byte :=
  beBytes 2 r.checkFailures ++ beBytes 2 r.truncations ++ beBytes 2 r.missTotal

/-- The six station records in address order. -/
def StationTable.all (t : StationTable) : List StationRecord :=
  [t.meterHead, t.roofSign, t.cardTerminal, t.fleetModem, t.passengerA, t.passengerB]

/-- The pending set of a requester: the meter head's, or the modem's (02 R29). -/
def pendingOf (src : Station) (d : DispatcherState) : EventSet :=
  if src = .meterHead then d.headPending else d.modemPending

/-- The data of STATUS READ part 1 (02 R29). -/
def summaryBytes (src : Station) (s : State) : List Byte :=
  eventSetBytes (pendingOf src s.disp) ++ eventSetBytes s.disp.flags ++ [s.meter.code] ++
    s.link.stations.all.map (·.presence.code) ++ beBytes 2 s.tables.activeVersion ++
    (match s.tables.pendingActivation with
      | some v => beBytes 2 v ++ [1#8]
      | none => []) ++
    clockBytes (clockNow s) ++ [boolByte s.time.clockUnset, boolByte s.sign.emergency.isSome] ++
    beBytes 1 s.pay.deferred.length ++ beBytes 4 (deferredTotal s.pay.deferred)

/-- The requester's pending set emptied, with a DISPLAY when the notice-pending indicator changes (02 R27, R29). -/
def emptyPending (src : Station) (s : State) : State :=
  if src = .meterHead then
    let s1 := { s with disp := { s.disp with headPending := 0#24 } }
    if noticeIndicator s.disp.headPending then placeDisplay s1 else s1
  else { s with disp := { s.disp with modemPending := 0#24 } }

/-- STATUS READ (02 R29). -/
def takeStatusRead (src : Station) (payload : List Byte) (s : State) : State :=
  let k := Request.statusRead.code
  if payload = [1#8] then emptyPending src (reply src k .ok (summaryBytes src s) s)
  else if payload = [2#8] then reply src k .ok (s.link.stations.all.flatMap totalsBytes) s
  else refuse src k .badValue s

/-- The mask after a choice: SET adds the carried kinds, CLEAR removes them (02 R28). -/
def chooseMask (clear : Bool) (mask carried : EventSet) : EventSet :=
  if clear then mask &&& ~~~carried else mask ||| carried

/-- NOTICE MASK (02 R28). -/
def takeNoticeMask (src : Station) (payload : List Byte) (s : State) : State :=
  let k := Request.noticeMask.code
  let dest := fieldAt payload 0 1
  let choice := fieldAt payload 1 1
  let carried : EventSet := BitVec.ofNat 24 (fieldAt payload 2 3)
  if payload.length ≠ 5 ∨ (dest ≠ 1 ∧ dest ≠ 4) ∨ 1 < choice then refuse src k .badValue s
  else if dest = 1 then
    let m := chooseMask (choice == 1) s.disp.headMask carried
    let s1 := reply src k .ok (eventSetBytes m) s
    { s1 with disp := { s1.disp with headMask := m } }
  else
    let m := chooseMask (choice == 1) s.disp.modemMask carried
    let s1 := reply src k .ok (eventSetBytes m) s
    { s1 with disp := { s1.disp with modemMask := m } }

/-- FLAGS CLEAR (02 R30). -/
def takeFlagsClear (src : Station) (payload : List Byte) (s : State) : State :=
  let k := Request.flagsClear.code
  if payload.length ≠ 3 then refuse src k .badValue s
  else
    let flags := s.disp.flags &&& ~~~(BitVec.ofNat 24 (beNat payload))
    let s1 := reply src k .ok (eventSetBytes flags) s
    { s1 with disp := { s1.disp with flags := flags } }

/-! The timebase's requests and report (04 R47, R54, R60). -/

/-- CALIBRATE (04 R47). -/
def takeCalibrate (src : Station) (payload : List Byte) (s : State) : State :=
  let code := Request.calibrate.code
  let k := beNat payload
  if payload.length ≠ 2 then refuse src code .badValue s
  else if s.calLine = false then refuse src code .calibrationLocked s
  else if s.meter ≠ .closed then refuse src code .refusedState s
  else if k < 200 ∨ 50000 < k then refuse src code .badValue s
  else
    let s1 := reply src code .ok (beBytes 2 s.time.k ++ beBytes 4 s.time.lifetime) s
    { s1 with time := { s1.time with k := k } }

/-- CLOCK SET (04 R54). -/
def takeClockSet (src : Station) (payload : List Byte) (s : State) : State :=
  let code := Request.clockSet.code
  let day := fieldAt payload 0 2
  let second := fieldAt payload 2 3
  if payload.length ≠ 5 ∨ Config.daySeconds ≤ second then refuse src code .badValue s
  else if inTrip s then refuse src code .refusedState s
  else
    let s1 := reply src code .ok (clockBytes (clockNow s)) s
    let s2 := { s1 with time := { s1.time with day := day, second := second, subSecond := 0, clockUnset := false } }
    displayIfClockShown s.time (recomputeCalendar s2)

/-- A ZONE UPDATE at its owner (04 R60, 05 R70). -/
def zoneUpdateTaken (zone : Nat) (s : State) : State :=
  if zone = s.time.zone then s else selectionOccasion { s with time := { s.time with zone := zone } }

/-! The sign controller's request (08 R131). -/

/-- EMERGENCY CLEAR (08 R131). -/
def takeEmergencyClear (src : Station) (payload : List Byte) (s : State) : State :=
  let k := Request.emergencyClear.code
  if payload ≠ [] then refuse src k .badValue s
  else
    match s.sign.emergency with
    | none => refuse src k .refusedState s
    | some start => emergencyEnds (reply src k .ok (clockBytes start) s)

/-! The shift accounting unit's requests (11 R185, R189, R190, R192, R193). -/

/-- JOURNAL READ (11 R185). -/
def takeJournalRead (src : Station) (payload : List Byte) (s : State) : State :=
  let k := Request.journalRead.code
  let position := fieldAt payload 0 1
  let page := fieldAt payload 1 1
  if payload.length ≠ 2 ∨ 47 < position ∨ 3 < page then refuse src k .badValue s
  else
    match s.shifts.journal[position]? with
    | none => reply src k .notFound (beBytes 1 s.shifts.journal.length) s
    | some e =>
      reply src k .ok
        (beBytes 1 position ++ beBytes 1 s.shifts.journal.length ++ beBytes 2 e.trip.shiftNumber ++
          beBytes 2 e.trip.tripNumber ++ beBytes 1 page ++ beBytes 1 (pageCount 146) ++ pageOf (journalBytes e) page) s

/-- The shift number of the oldest report, 0 when the store is empty (11 R189). -/
def oldestReport (s : State) : Nat :=
  match s.shifts.reports with
  | r :: _ => r.record.number
  | [] => 0

/-- REPORT READ (11 R189). -/
def takeReportRead (src : Station) (payload : List Byte) (s : State) : State :=
  let k := Request.reportRead.code
  let number := fieldAt payload 0 2
  let page := fieldAt payload 2 1
  if payload.length ≠ 3 ∨ number = 0 ∨ 3 < page then refuse src k .badValue s
  else
    match s.shifts.reports.find? fun r => r.record.number = number with
    | none => reply src k .notFound (beBytes 2 (oldestReport s)) s
    | some r =>
      reply src k .ok
        (beBytes 2 number ++ beBytes 1 page ++ beBytes 1 (pageCount 135) ++ beBytes 1 s.shifts.reports.length ++
          pageOf (reportBytes r) page) s

/-- REPORT RELEASE (11 R190). -/
def takeReportRelease (src : Station) (payload : List Byte) (s : State) : State :=
  let k := Request.reportRelease.code
  if payload.length ≠ 2 then refuse src k .badValue s
  else
    match s.shifts.reports with
    | [] => reply src k .notFound (beBytes 2 0) s
    | r :: rest =>
      if r.record.number = beNat payload then
        let s1 := reply src k .ok (beBytes 1 rest.length) s
        { s1 with shifts := { s1.shifts with reports := rest } }
      else reply src k .notFound (beBytes 2 r.record.number) s

/-- SNAPSHOT TAKE (11 R192). -/
def takeSnapshotTake (src : Station) (payload : List Byte) (s : State) : State :=
  let k := Request.snapshotTake.code
  if payload ≠ [] then refuse src k .badValue s
  else
    match s.shifts.record with
    | none => refuse src k .refusedState s
    | some r =>
      let s1 := reply src k .ok (beBytes 2 r.number ++ clockBytes (clockNow s) ++ beBytes 1 (pageCount 124)) s
      { s1 with shifts := { s1.shifts with snapshot := some ⟨r, clockNow s, src⟩ } }

/-- SNAPSHOT READ (11 R193). -/
def takeSnapshotRead (src : Station) (payload : List Byte) (s : State) : State :=
  let k := Request.snapshotRead.code
  let page := fieldAt payload 0 1
  if payload.length ≠ 1 ∨ 2 < page then refuse src k .badValue s
  else
    match s.shifts.snapshot with
    | none => refuse src k .notFound s
    | some x =>
      reply src k .ok
        (beBytes 2 x.record.number ++ [takerCode x.taker] ++ beBytes 1 page ++ beBytes 1 (pageCount 124) ++
          pageOf (snapshotBytes x) page) s

/-- SNAPSHOT RELEASE (11 R193). -/
def takeSnapshotRelease (src : Station) (payload : List Byte) (s : State) : State :=
  let k := Request.snapshotRelease.code
  if payload ≠ [] then refuse src k .badValue s
  else
    match s.shifts.snapshot with
    | none => refuse src k .notFound s
    | some x =>
      let s1 := reply src k .ok (beBytes 2 x.record.number) s
      { s1 with shifts := { s1.shifts with snapshot := none } }

/-! Reports: their forms (02 R22) and their owners. -/

/-- The reference in five bytes of a payload from an offset. -/
def referenceAt (payload : List Byte) (off : Nat) : Reference :=
  ⟨fieldAt payload off 2, fieldAt payload (off + 2) 2, fieldAt payload (off + 4) 1⟩

/-- Whether a reference lies in its ranges (07 R119). -/
def referenceInRange (r : Reference) : Bool := 1 ≤ r.shift && 1 ≤ r.trip && 1 ≤ r.index && r.index ≤ 4

/-- Whether a report's payload has the form its chapter gives (02 R22; 08 R132, 09 R145, R146, R151, R152, 10 R161, R162,
R171, 04 R60). -/
def reportFormOk (kind : ReportKind) (payload : List Byte) : Bool :=
  match kind with
  | .signStatus => payload.length = 2 && fieldAt payload 1 1 ≤ 7
  | .pinState => payload.length = 1 && fieldAt payload 0 1 ≤ 1
  | .modemStatus => payload.length = 1 && fieldAt payload 0 1 ≤ 1
  | .zoneUpdate => payload.length = 1 && fieldAt payload 0 1 ≤ 31
  | .authResponse =>
    payload.length = 8 && 1 ≤ fieldAt payload 0 2 && referenceInRange (referenceAt payload 2) && fieldAt payload 7 1 ≤ 1
  | .captureResponse => payload.length = 6 && referenceInRange (referenceAt payload 0) && fieldAt payload 5 1 ≤ 1
  | .talkDown => payload.length = 0
  | .talkUp => payload.length = 0
  | .call => payload.length = 0

/-- TALK DOWN of a passenger: handled when its station is PRESENT (09 R145). -/
def talkDownTaken (src : Station) (s : State) : State :=
  if isPresent s src then changeFloor (requestFloor (partyOf src)) s else s

/-- A report of the right form at its owner. -/
def takeReport (src : Station) (kind : ReportKind) (payload : List Byte) (s : State) : State :=
  match kind with
  | .signStatus => signStatusTaken (fieldAt payload 0 1) (BitVec.ofNat 3 (fieldAt payload 1 1)) s
  | .pinState => pinStateTaken (fieldAt payload 0 1 == 1) s
  | .modemStatus => modemStatusTaken (fieldAt payload 0 1 == 1) s
  | .zoneUpdate => zoneUpdateTaken (fieldAt payload 0 1) s
  | .authResponse => authResponseTaken (fieldAt payload 0 2) (referenceAt payload 2) (fieldAt payload 7 1 == 1) s
  | .captureResponse => captureResponseTaken (referenceAt payload 0) (fieldAt payload 5 1 == 1) s
  | .talkDown => talkDownTaken src s
  | .talkUp => changeFloor (releaseFloor (partyOf src)) s
  | .call => callTaken s

/-- A request at its owner (02 R18). -/
def takeRequest (src : Station) (kind : Request) (payload : List Byte) (s : State) : State :=
  match kind with
  | .key => takeKey src payload s
  | .shiftOpen => takeShiftOpen src payload s
  | .shiftClose => takeShiftClose src payload s
  | .dispatch => takeDispatch src payload s
  | .statusRead => takeStatusRead src payload s
  | .noticeMask => takeNoticeMask src payload s
  | .flagsClear => takeFlagsClear src payload s
  | .tableWrite => takeTableWrite src payload s
  | .tableClear => takeTableClear src payload s
  | .tableRead => takeTableRead src payload s
  | .tableActivate => takeTableActivate src payload s
  | .calibrate => takeCalibrate src payload s
  | .clockSet => takeClockSet src payload s
  | .emergencyClear => takeEmergencyClear src payload s
  | .payRequest => takePayRequest src payload s
  | .payCancel => takePayCancel src payload s
  | .deferredRead => takeDeferredRead src payload s
  | .journalRead => takeJournalRead src payload s
  | .reportRead => takeReportRead src payload s
  | .reportRelease => takeReportRelease src payload s
  | .snapshotTake => takeSnapshotTake src payload s
  | .snapshotRead => takeSnapshotRead src payload s
  | .snapshotRelease => takeSnapshotRelease src payload s

/-! Taking a message (02 R19, R21, R22; 01 R13). -/

/-- One message handled to its end (02 R19). -/
def handleMessage (m : Inbound) (s : State) : State :=
  match classify m.kind with
  | .unknown => refuse m.src m.kind .unknownKind s
  | .request r =>
    if mayRequest m.src r then takeRequest m.src r m.payload s else refuse m.src m.kind .refusedPermission s
  | .controllerOnly => raise .linkCheck s
  | .report r =>
    if mayReport m.src r && reportFormOk r m.payload then takeReport m.src r m.payload s else raise .linkCheck s

/-- The dispatcher takes the oldest messages, at most n, for as long as the outbound queue has a free place (01 R13,
02 R19). -/
def drain : Nat → State → State
  | 0, s => s
  | n + 1, s =>
    match s.link.inbound with
    | [] => s
    | m :: rest =>
      if s.link.outbound.length < Config.outboundCap then
        drain n (handleMessage m { s with link := { s.link with inbound := rest } })
      else s

/-- The dispatcher takes what it can of the inbound queue. -/
def dispatchInbound (s : State) : State := drain s.link.inbound.length s

/-- A good message joins the tail of the inbound queue (01 R9, R13). -/
def joinInbound (m : Inbound) (s : State) : State :=
  { s with link := { s.link with inbound := s.link.inbound ++ [m] } }

/-- The inbound queue has a free place beside the one that a message under reception will take (01 R7, R13). -/
def inboundFree (l : LinkState) : Bool :=
  l.inbound.length + (if l.reception.isSome then 1 else 0) < Config.inboundCap

/-- A message completes on the link and the dispatcher takes what it can. With no free place in the inbound queue no station
is granted the lane (01 R7), so no message can complete (log 3). -/
def deliver (m : Inbound) (s : State) : State :=
  if inboundFree s.link then dispatchInbound (joinInbound m s) else s

end Sys2Proof.Machine
end

