-- ==== Sys2Proof/Machine/Events.lean ====
section
/-! DEFINITION. What happens by time and by lines: pulses, ticks, fare seconds, wall-clock seconds, the boundary alarm. -/

namespace Sys2Proof.Machine

/-! Pulses (04 R49). -/

/-- A pulse arrival (04 R49): counted to the lifetime odometer alone when the window K is 0, accepted below the budget, else
rejected with ODO CLAMP at the window's first rejection. -/
def pulseArrives (s : State) : State :=
  let counted := { s with time := { s.time with lifetime := satAdd Config.max32 s.time.lifetime 1 } }
  if s.time.windowK = 0 then counted
  else if s.time.accepted < s.time.budget then
    let s1 := { counted with time := { counted.time with accepted := s.time.accepted + 1 } }
    shiftPulse (farePulse s1)
  else if s.time.clampMark then s
  else raise .odoClamp { s with time := { s.time with clampMark := true } }

/-! Ticks and fare seconds (04 R52). -/

/-- A fare second at the meter controller: hired seconds and a DISPLAY (07 R115). -/
def hiredSecond (s : State) : State :=
  if s.meter = .hired then
    placeDisplay (withTrip (fun tr => { tr with hiredSeconds := satAdd Config.max32 tr.hiredSeconds 1 }) s)
  else s

/-- A fare second at the sign controller (08 R128, R134). -/
def signSecond (s : State) : State := steppingSecond (refreshSecond s)

/-- A fare second at the intercom mixer (09 R143, R147, R152). -/
def intercomSecond (s : State) : State := pinSecond (holdSecond (clearClipMarks s))

/-- A fare second at the payment controller (10 R160, R166, R170, R172). -/
def paymentSecond (s : State) : State := authSecond (lateSecond (captureSecond s))

/-- A fare second: it ends the odometer window and is handed to the meter controller, the sign controller, the intercom mixer
and the payment controller, in that order (04 R52). -/
def fareSecondOccurs (s : State) : State := paymentSecond (intercomSecond (signSecond (hiredSecond (windowEnds s))))

/-- The tick count at a tick (04 R52). -/
def countTick (s : State) : State :=
  if Config.ticksPerSecond ≤ s.time.divTicks + 1 then
    fareSecondOccurs { s with time := { s.time with divTicks := 0 } }
  else { s with time := { s.time with divTicks := s.time.divTicks + 1 } }

/-- A tick: handed to the fare engine and to the emergency debounce, then counted (04 R52, 06 R87, 08 R129). -/
def tickOccurs (s : State) : State := countTick (debounceTick (fareTick s))

/-- The end of a frame at the tick divider (04 R52). -/
def countFrame (s : State) : State :=
  if Config.framesPerTick ≤ s.time.divFrames + 1 then tickOccurs { s with time := { s.time with divFrames := 0 } }
  else { s with time := { s.time with divFrames := s.time.divFrames + 1 } }

/-! The wall clock (04 R53, R59). -/

/-- The boundary alarm fires: the calendar state and a new alarm, and a run in HIRED (04 R59). -/
def boundaryFires (s : State) : State := selectionOccasion (recomputeCalendar s)

/-- Whether the clock stands at the alarm (04 R59). -/
def atAlarm (t : TimeState) : Bool := t.day = t.alarmDay && t.second = t.alarmSecond

/-- A wall-clock second while frames run: the clock, the DISPLAY of a new minute, and the alarm (04 R53, R59, 07 R123). -/
def clockSecondRunning (s : State) : State :=
  let s1 := displayIfClockShown s.time { s with time := clockAdvanced s.time }
  if atAlarm s1.time then boundaryFires s1 else s1

end Sys2Proof.Machine
end

