-- ==== Sys2Proof/Machine/Link.lean ====
section
/-! DEFINITION. The link controller (01): the grant, answers and misses, reception, the down lane and the frame. -/

namespace Sys2Proof.Machine

/-! The grant (01 R7). -/

/-- The station after a station in cyclic order (01 R7). -/
def stationAfter : Station → Station
  | .meterHead => .roofSign
  | .roofSign => .cardTerminal
  | .cardTerminal => .fleetModem
  | .fleetModem => .passengerA
  | .passengerA => .passengerB
  | .passengerB => .meterHead

/-- The rotation number after the step from a station: it counts the step from address 6 to 1 (01 R7). -/
def rotationAfter (st : Station) (rotation : Nat) : Nat :=
  if st = .passengerB then (rotation + 1) % 16 else rotation

/-- Whether a station is eligible under a rotation number (01 R7). -/
def eligible (p : Presence) (rotation : Nat) : Bool :=
  match p with
  | .unknown => true
  | .present => true
  | .absent => rotation = 0

/-- The search from a station for at most n steps: the first eligible station, and the rotation number then (01 R7). -/
def searchGrant (t : StationTable) : (n : Nat) → (st : Station) → (rotation : Nat) → Option Station × Nat
  | 0, _, rotation => (none, rotation)
  | n + 1, st, rotation =>
    let next := stationAfter st
    let r := rotationAfter st rotation
    if eligible (t.get next).presence r then (some next, r) else searchGrant t n next r

/-- The grant of a frame and the arbiter's state after it (01 R7). -/
def chooseGrant (l : LinkState) : Option Station × LinkState :=
  match l.reception with
  | some r => (some r.station, l)
  | none =>
    if Config.inboundCap ≤ l.inbound.length then (none, l)
    else
      match searchGrant l.stations 6 l.grantPointer l.rotation with
      | (some st, r) => (some st, { l with grantPointer := st, rotation := r })
      | (none, r) => (none, { l with rotation := r })

/-! The station table (01 R12). -/

/-- A station's record replaced. -/
def setRecord (st : Station) (r : StationRecord) (s : State) : State :=
  { s with link := { s.link with stations := s.link.stations.set st r } }

/-- What the blocks do when a station has gone to PRESENT (01 R12, 08 R135). -/
def stationFoundActs (st : Station) (s : State) : State :=
  match st with
  | .roofSign => placeSign s
  | _ => s

/-- What the blocks do when a station has gone to ABSENT (01 R12; 09 R148, R152; 10 R161). -/
def stationLostActs (st : Station) (s : State) : State :=
  match st with
  | .cardTerminal => pinOff s
  | .fleetModem => { s with pay := { s.pay with bearerUp := false } }
  | .passengerA => passengerLost .passengerA s
  | .passengerB => passengerLost .passengerB s
  | .meterHead => s
  | .roofSign => s

/-- A station answers its grant: no consecutive misses, and PRESENT with STATION FOUND when it was not (01 R8, R12); online
beginning when the modem's return makes the controller online (10 R161). -/
def stationAnswers (st : Station) (s : State) : State :=
  let r := s.link.stations.get st
  let s1 := setRecord st { r with misses := 0, presence := .present } s
  if r.presence = .present then s1
  else onlineAfter s (stationFoundActs st (raise .stationFound s1))

/-- A station's miss: the totals, and ABSENT at the eighth in a row, with STATION LOST when it was PRESENT (01 R12). -/
def stationMisses (st : Station) (s : State) : State :=
  let r := s.link.stations.get st
  let misses := min Config.missLimit (r.misses + 1)
  let gone := misses = Config.missLimit ∧ r.presence ≠ .absent
  let s1 := setRecord st { r with
    misses := misses, missTotal := up16 r.missTotal, presence := if gone then .absent else r.presence } s
  if gone then stationLostActs st (raiseIf (r.presence = .present) .stationLost s1) else s1

/-- A truncation: its total, a miss, and MESSAGE TRUNCATED (01 R10). -/
def stationTruncates (st : Station) (s : State) : State :=
  let r := s.link.stations.get st
  raise .messageTruncated (stationMisses st (setRecord st { r with truncations := up16 r.truncations } s))

/-- A check failure: its total and LINK CHECK (01 R11). -/
def stationFailsCheck (st : Station) (s : State) : State :=
  let r := s.link.stations.get st
  raise .linkCheck (setRecord st { r with checkFailures := up16 r.checkFailures } s)

/-! Reception (01 R8, R9). -/

/-- The two bytes of a message lane slot, the earlier first (01 R1). -/
def laneBytes (v : BitVec 16) : List Byte := [(v >>> 8).setWidth 8, v.setWidth 8]

/-- The reception under way, set or ended. -/
def setReception (r : Option Reception) (s : State) : State := { s with link := { s.link with reception := r } }

/-- Whether the bytes of a completed message are good from a station: check, destination 0 and its own address as source
(01 R9). -/
def messageGood (st : Station) (l : List Byte) : Bool :=
  crc16 l = 0#16 && l.getD 0 0#8 = 0#8 && l.getD 1 0#8 = BitVec.ofNat 8 (stationAddress st)

/-- The message that good bytes are (01 R5). -/
def inboundOf (st : Station) (l : List Byte) : Inbound :=
  { src := st, kind := l.getD 2 0#8, payload := (l.drop 4).take (l.getD 3 0#8).toNat }

/-- The end of a frame that added its two bytes: reception goes on, or ends too long, bad or good (01 R9). -/
def receptionAdvances (st : Station) (l : List Byte) (s : State) : State :=
  let n := (l.getD 3 0#8).toNat
  if l.length < 4 then setReception (some ⟨st, l⟩) s
  else if Config.payloadMax < n then stationFailsCheck st (setReception none s)
  else if l.length < 6 + n then setReception (some ⟨st, l⟩) s
  else
    let whole := l.take (6 + n)
    if messageGood st whole then joinInbound (inboundOf st whole) (setReception none s)
    else stationFailsCheck st (setReception none s)

/-- The up lane of a frame: the next two bytes or a truncation while a message is received, else the answer of the granted
station; nothing when no station is granted (01 R8, R9, R10). -/
def readUpLane (grant : Option Station) (up : UpFrame) (s : State) : State :=
  match s.link.reception with
  | some r =>
    if up.message.valid then receptionAdvances r.station (r.bytes ++ laneBytes up.message.data) s
    else stationTruncates r.station (setReception none s)
  | none =>
    match grant with
    | none => s
    | some st =>
      if up.message.valid then setReception (some ⟨st, laneBytes up.message.data⟩) (stationAnswers st s)
      else if up.answer.valid && up.answer.data = Config.idleCode then stationAnswers st s
      else stationMisses st s

/-! The down lane (01 R14, R16). -/

/-- The oldest held message joins the outbound queue's tail when the down lane has taken the oldest there (01 R14). -/
def takeOutbound (l : LinkState) : LinkState :=
  match l.held with
  | [] => { l with outbound := l.outbound.drop 1 }
  | h :: hs => { l with outbound := l.outbound.drop 1 ++ [h], held := hs }

/-- The next message of an empty down lane: DISPLAY, then SIGN SET, then the oldest outbound message (01 R16). -/
def chooseMessage (l : LinkState) : LinkState :=
  match l.sending with
  | some _ => l
  | none =>
    match l.displayPlace with
    | some m => { l with displayPlace := none, sending := some m.bytes }
    | none =>
      match l.signPlace with
      | some m => { l with signPlace := none, sending := some m.bytes }
      | none =>
        match l.outbound with
        | [] => l
        | m :: _ => { takeOutbound l with sending := some m.bytes }

/-- The message lane slot of a frame, its last mark, and the bytes left (01 R16): the later byte of an odd final frame is 0
(01 R5). -/
def laneSlot (sending : Option (List Byte)) : Slot × Bool × Option (List Byte) :=
  match sending with
  | none => (⟨false, 0#16⟩, false, none)
  | some [] => (⟨false, 0#16⟩, false, none)
  | some [a] => (⟨true, lanePair a 0#8⟩, true, none)
  | some [a, b] => (⟨true, lanePair a b⟩, true, none)
  | some (a :: b :: rest) => (⟨true, lanePair a b⟩, false, some rest)

/-! Audio (01 R3, R4). -/

/-- A down audio slot: the previous mix's output for a PRESENT station, else invalid and 0 (01 R4). -/
def audioSlot (t : StationTable) (st : Station) (out : Option Sample) : Slot :=
  match out with
  | some v => if (t.get st).presence = .present then ⟨true, v⟩ else ⟨false, 0#16⟩
  | none => ⟨false, 0#16⟩

/-- The sample of an up audio slot: its data when it is valid and its station was PRESENT at the frame's start, else 0
(01 R3). -/
def audioSample (t : StationTable) (st : Station) (x : Slot) : Sample :=
  if x.valid && (t.get st).presence = .present then x.data else 0#16

/-- The four samples handed to the mixer (01 R3). -/
def frameSamples (t : StationTable) (up : UpFrame) : Four Sample :=
  ⟨audioSample t .meterHead up.driver, audioSample t .passengerA up.passengerA, audioSample t .passengerB up.passengerB,
    audioSample t .fleetModem up.modem⟩

/-! The frame (01 R1 to R4, R7 to R9, R16). -/

/-- The down line of a frame (01 R1, R2, R4, R16). -/
def downFrame (grant : Option Station) (l : LinkState) (t : StationTable) : DownFrame :=
  let lane := laneSlot l.sending
  { header := frameHeader grant l.frameNumber lane.2.1, message := lane.1
    driver := audioSlot t .meterHead (l.mixed.map (·.x0)), passengerA := audioSlot t .passengerA (l.mixed.map (·.x1))
    passengerB := audioSlot t .passengerB (l.mixed.map (·.x2)), modem := audioSlot t .fleetModem (l.mixed.map (·.x3)) }

/-- The start of a frame at the link: the grant, the down lane's choice, the frame sent and counted (01 R2, R4, R7, R16). -/
def linkFrameStarts (l : LinkState) : Option Station × LinkState :=
  let g := chooseGrant l
  let l2 := chooseMessage g.2
  (g.1, { l2 with
    lastFrame := some (downFrame g.1 l2 l.stations), sending := (laneSlot l2.sending).2.2
    frameNumber := (l2.frameNumber + 1) % 16 })

/-- One link frame (01 R1): its start; the dispatcher at a place freed by the down lane; the up lane; the mix of its samples; the
dispatcher at a message that joined; the tick divider (log 4). -/
def frameRuns (up : UpFrame) (s : State) : State :=
  let started := linkFrameStarts s.link
  let s1 := dispatchInbound { s with link := started.2 }
  let s2 := readUpLane started.1 up s1
  let s3 := mixEvent (frameSamples s.link.stations up) s2
  countFrame (dispatchInbound s3)

end Sys2Proof.Machine
end

