-- ==== Sys2Proof/Machine/Starts.lean ====
section
/-! DEFINITION. The loss of the main supply and the two starts (01 R17, 02 R31, 03 R45, 04 R61, 07 R124, 08 R136, 09 R153, 10 R175,
11 R194). -/

namespace Sys2Proof.Machine

/-- The link after a start (01 R17). -/
def startLink (s : State) : State := { s with link := .start }

/-- The divider at 0 and 0, the zone unknown, the speed 0, a first window, and the calendar state and alarm (04 R61). -/
def startTimebase (s : State) : State :=
  recomputeCalendar (beginWindow { s with time := { s.time with divFrames := 0, divTicks := 0, zone := 31, speed := 0 } })

/-- The sign controller after a start: the level by the emergency, the debounce by the line (08 R136). -/
def startSign (s : State) : State :=
  { s with sign :=
    { emergency := s.sign.emergency
      debounce := if s.sign.emergency = none ∧ s.emgLine then some 0 else none
      level := if s.sign.emergency = none then 15 else 31
      ambient := none, lampFaults := 0#3, lastLegend := none, refresh := 0, stepping := 0 } }

/-- The last displayed mode computed from the free floor and the open flag as kept (09 R153). -/
def startShownMode (s : State) : State :=
  { s with intercom := { s.intercom with shownMode := shownModeOf none (openFlagNow s) } }

/-- The messages of a start: the DISPLAY once the start's own effects are made, and one SIGN SET (07 R124, 08 R136). -/
def startMessages (s : State) : State := placeSign (placeDisplay s)

/-- The state a cold start begins from: the blocks at their cold-start values, the pins and the command queue as they are. -/
def coldBase (s : State) : State :=
  { pending := s.pending, running := true, emgLine := s.emgLine, calLine := s.calLine, link := .start, disp := .cold
    tables := .cold, time := .cold, meter := .closed, trip := none, sign := .cold, intercom := .start, pay := .cold
    shifts := .cold }

/-- A cold start (03 R45 and the Starts section of each chapter). -/
def coldStarts (s : State) : State := startMessages (startShownMode (startSign (startTimebase (coldBase s))))

/-- A pending authorization becomes a late entry, captures are forgotten and the bearer is DOWN (10 R175). -/
def warmPayment (s : State) : State :=
  let s1 :=
    match s.pay.auth with
    | none => s
    | some a => joinLate a .warmStart (endAuth s)
  { s1 with pay := { s1.pay with capture := .idle, bearerUp := false } }

/-- The blocks as a warm start leaves them, before the events it causes (01 R17, 02 R31, 09 R153, 10 R175, 11 R194, 04 R61,
08 R136). -/
def warmBase (s : State) : State :=
  let s1 := startLink { s with running := true }
  let s2 := { s1 with disp := { s1.disp with headPending := 0#24, modemPending := 0#24 } }
  let s3 := warmPayment { s2 with intercom := .start, shifts := { s2.shifts with snapshot := none } }
  startShownMode (startSign (startTimebase s3))

/-- A trip that the start interrupted is marked, and POWER BREAK occurs (07 R124). -/
def powerBreak (s : State) : State :=
  if inTrip s then raise .powerBreak (withTrip (fun tr => { tr with powerBreak := true }) s) else s

/-- A warm start (07 R124): the blocks, POWER BREAK, the boundary handed to the selector in HIRED (04 R61, 05 R76), the
messages (log 13). -/
def warmStarts (s : State) : State := startMessages (selectionOccasion (powerBreak (warmBase s)))

/-- The main supply fails or reset is asserted: frames stop (01 R1); what is not retained is set by the next start (log 11). -/
def supplyLost (s : State) : State := { s with running := false, link := { s.link with lastFrame := none } }

end Sys2Proof.Machine
end

