-- ==== Sys2Proof/Machine/KeyCommands.lean ====
section
/-! DEFINITION. The meanings of the commands that are key presses of the meter head (07 R107). -/

namespace Sys2Proof.Machine

/-- What a command does while frames run; without the main supply it is lost (01 R1, log 11). -/
def whileRunning (f : State → State) (s : State) : Host.Outcome State Fault Refusal :=
  .next (if s.running then f s else s)

/-- A KEY message: the key code, then the bytes the command carries (07 R107). -/
def keyMessage (src : Station) (code : Byte) (args : List Byte) : Inbound := ⟨src, Request.key.code, code :: args⟩

/-- HIRE (07 R113, 05 R69). -/
def execHire (src : Station) (args : List Byte) : State → Host.Outcome State Fault Refusal :=
  whileRunning (deliver (keyMessage src 1#8 args))

/-- STOP (07 R117). -/
def execStop (src : Station) (args : List Byte) : State → Host.Outcome State Fault Refusal :=
  whileRunning (deliver (keyMessage src 2#8 args))

/-- RESUME (07 R121). -/
def execResume (src : Station) (args : List Byte) : State → Host.Outcome State Fault Refusal :=
  whileRunning (deliver (keyMessage src 3#8 args))

/-- CASH (07 R120). -/
def execCash (src : Station) (args : List Byte) : State → Host.Outcome State Fault Refusal :=
  whileRunning (deliver (keyMessage src 4#8 args))

/-- UNPAID (07 R120). -/
def execUnpaid (src : Station) (args : List Byte) : State → Host.Outcome State Fault Refusal :=
  whileRunning (deliver (keyMessage src 5#8 args))

/-- PROMPT (07 R118). -/
def execPrompt (src : Station) (args : List Byte) : State → Host.Outcome State Fault Refusal :=
  whileRunning (deliver (keyMessage src 6#8 args))

/-- ON_CALL_KEY (07 R111). -/
def execOnCallKey (src : Station) (args : List Byte) : State → Host.Outcome State Fault Refusal :=
  whileRunning (deliver (keyMessage src 7#8 args))

/-- CANCEL_CALL (07 R111). -/
def execCancelCall (src : Station) (args : List Byte) : State → Host.Outcome State Fault Refusal :=
  whileRunning (deliver (keyMessage src 8#8 args))

/-- OFF_DUTY_KEY (07 R112). -/
def execOffDutyKey (src : Station) (args : List Byte) : State → Host.Outcome State Fault Refusal :=
  whileRunning (deliver (keyMessage src 9#8 args))

/-- ON_DUTY (07 R112). -/
def execOnDuty (src : Station) (args : List Byte) : State → Host.Outcome State Fault Refusal :=
  whileRunning (deliver (keyMessage src 10#8 args))

/-- EXTRA (06 R97, R98). -/
def execExtra (src : Station) (args : List Byte) : State → Host.Outcome State Fault Refusal :=
  whileRunning (deliver (keyMessage src 11#8 args))

/-- PASSENGERS (07 R116, 05 R74). -/
def execPassengers (src : Station) (args : List Byte) : State → Host.Outcome State Fault Refusal :=
  whileRunning (deliver (keyMessage src 12#8 args))

/-- LUGGAGE (07 R116). -/
def execLuggage (src : Station) (args : List Byte) : State → Host.Outcome State Fault Refusal :=
  whileRunning (deliver (keyMessage src 13#8 args))

/-- TALK_DOWN_KEY (09 R145). -/
def execTalkDownKey (src : Station) (args : List Byte) : State → Host.Outcome State Fault Refusal :=
  whileRunning (deliver (keyMessage src 14#8 args))

/-- TALK_UP_KEY (09 R146). -/
def execTalkUpKey (src : Station) (args : List Byte) : State → Host.Outcome State Fault Refusal :=
  whileRunning (deliver (keyMessage src 15#8 args))

/-- OPEN_TOGGLE (09 R150). -/
def execOpenToggle (src : Station) (args : List Byte) : State → Host.Outcome State Fault Refusal :=
  whileRunning (deliver (keyMessage src 16#8 args))

end Sys2Proof.Machine
end

