-- ==== Sys2Proof/Machine/MessageCommands.lean ====
section
/-! DEFINITION. The meanings of the commands that are the other messages of the stations (02 R18). -/

namespace Sys2Proof.Machine

/-! Requests. -/

/-- SHIFT_OPEN (07 R109, 11 R178). -/
def execShiftOpen (src : Station) (payload : List Byte) : State → Host.Outcome State Fault Refusal :=
  whileRunning (deliver ⟨src, Request.shiftOpen.code, payload⟩)

/-- SHIFT_CLOSE (07 R110, 11 R186). -/
def execShiftClose (src : Station) (payload : List Byte) : State → Host.Outcome State Fault Refusal :=
  whileRunning (deliver ⟨src, Request.shiftClose.code, payload⟩)

/-- DISPATCH (07 R111). -/
def execDispatch (src : Station) (payload : List Byte) : State → Host.Outcome State Fault Refusal :=
  whileRunning (deliver ⟨src, Request.dispatch.code, payload⟩)

/-- STATUS_READ (02 R29). -/
def execStatusRead (src : Station) (payload : List Byte) : State → Host.Outcome State Fault Refusal :=
  whileRunning (deliver ⟨src, Request.statusRead.code, payload⟩)

/-- NOTICE_MASK (02 R28). -/
def execNoticeMask (src : Station) (payload : List Byte) : State → Host.Outcome State Fault Refusal :=
  whileRunning (deliver ⟨src, Request.noticeMask.code, payload⟩)

/-- FLAGS_CLEAR (02 R30). -/
def execFlagsClear (src : Station) (payload : List Byte) : State → Host.Outcome State Fault Refusal :=
  whileRunning (deliver ⟨src, Request.flagsClear.code, payload⟩)

/-- TABLE_WRITE (03 R36, R37). -/
def execTableWrite (src : Station) (payload : List Byte) : State → Host.Outcome State Fault Refusal :=
  whileRunning (deliver ⟨src, Request.tableWrite.code, payload⟩)

/-- TABLE_CLEAR (03 R38). -/
def execTableClear (src : Station) (payload : List Byte) : State → Host.Outcome State Fault Refusal :=
  whileRunning (deliver ⟨src, Request.tableClear.code, payload⟩)

/-- TABLE_READ (03 R39). -/
def execTableRead (src : Station) (payload : List Byte) : State → Host.Outcome State Fault Refusal :=
  whileRunning (deliver ⟨src, Request.tableRead.code, payload⟩)

/-- TABLE_ACTIVATE (03 R41). -/
def execTableActivate (src : Station) (payload : List Byte) : State → Host.Outcome State Fault Refusal :=
  whileRunning (deliver ⟨src, Request.tableActivate.code, payload⟩)

/-- CLOCK_SET (04 R54). -/
def execClockSet (src : Station) (payload : List Byte) : State → Host.Outcome State Fault Refusal :=
  whileRunning (deliver ⟨src, Request.clockSet.code, payload⟩)

/-- EMERGENCY_CLEAR (08 R131). -/
def execEmergencyClear (src : Station) (payload : List Byte) : State → Host.Outcome State Fault Refusal :=
  whileRunning (deliver ⟨src, Request.emergencyClear.code, payload⟩)

/-- PAY_REQUEST (10 R158, R159). -/
def execPayRequest (src : Station) (payload : List Byte) : State → Host.Outcome State Fault Refusal :=
  whileRunning (deliver ⟨src, Request.payRequest.code, payload⟩)

/-- PAY_CANCEL (10 R173). -/
def execPayCancel (src : Station) (payload : List Byte) : State → Host.Outcome State Fault Refusal :=
  whileRunning (deliver ⟨src, Request.payCancel.code, payload⟩)

/-- DEFERRED_READ (10 R174). -/
def execDeferredRead (src : Station) (payload : List Byte) : State → Host.Outcome State Fault Refusal :=
  whileRunning (deliver ⟨src, Request.deferredRead.code, payload⟩)

/-- JOURNAL_READ (11 R185). -/
def execJournalRead (src : Station) (payload : List Byte) : State → Host.Outcome State Fault Refusal :=
  whileRunning (deliver ⟨src, Request.journalRead.code, payload⟩)

/-- REPORT_READ (11 R189). -/
def execReportRead (src : Station) (payload : List Byte) : State → Host.Outcome State Fault Refusal :=
  whileRunning (deliver ⟨src, Request.reportRead.code, payload⟩)

/-- REPORT_RELEASE (11 R190). -/
def execReportRelease (src : Station) (payload : List Byte) : State → Host.Outcome State Fault Refusal :=
  whileRunning (deliver ⟨src, Request.reportRelease.code, payload⟩)

/-- SNAPSHOT_TAKE (11 R192). -/
def execSnapshotTake (src : Station) (payload : List Byte) : State → Host.Outcome State Fault Refusal :=
  whileRunning (deliver ⟨src, Request.snapshotTake.code, payload⟩)

/-- SNAPSHOT_READ (11 R193). -/
def execSnapshotRead (src : Station) (payload : List Byte) : State → Host.Outcome State Fault Refusal :=
  whileRunning (deliver ⟨src, Request.snapshotRead.code, payload⟩)

/-- SNAPSHOT_RELEASE (11 R193). -/
def execSnapshotRelease (src : Station) (payload : List Byte) : State → Host.Outcome State Fault Refusal :=
  whileRunning (deliver ⟨src, Request.snapshotRelease.code, payload⟩)

/-- CALIBRATE, with the level of the calibration line at its handling (04 R47). -/
def execCalibrate (src : Station) (cal : Bool) (payload : List Byte) (s : State) : Host.Outcome State Fault Refusal :=
  whileRunning (deliver ⟨src, Request.calibrate.code, payload⟩) { s with calLine := cal }

/-- UNKNOWN_KIND (02 R21). -/
def execUnknownKind (src : Station) (kind : Byte) (payload : List Byte) : State → Host.Outcome State Fault Refusal :=
  whileRunning (deliver ⟨src, kind, payload⟩)

/-- CONTROLLER_KIND_DISCARD (02 R21). -/
def execControllerKindDiscard (src : Station) (kind : Byte) (payload : List Byte) : State → Host.Outcome State Fault Refusal :=
  whileRunning (deliver ⟨src, kind, payload⟩)

/-! Reports. -/

/-- SIGN_STATUS (08 R132). -/
def execSignStatus (src : Station) (payload : List Byte) : State → Host.Outcome State Fault Refusal :=
  whileRunning (deliver ⟨src, ReportKind.signStatus.code, payload⟩)

/-- PIN_STATE (09 R152). -/
def execPinState (src : Station) (payload : List Byte) : State → Host.Outcome State Fault Refusal :=
  whileRunning (deliver ⟨src, ReportKind.pinState.code, payload⟩)

/-- MODEM_STATUS (10 R161). -/
def execModemStatus (src : Station) (payload : List Byte) : State → Host.Outcome State Fault Refusal :=
  whileRunning (deliver ⟨src, ReportKind.modemStatus.code, payload⟩)

/-- ZONE_UPDATE (04 R60). -/
def execZoneUpdate (src : Station) (payload : List Byte) : State → Host.Outcome State Fault Refusal :=
  whileRunning (deliver ⟨src, ReportKind.zoneUpdate.code, payload⟩)

/-- AUTH_RESPONSE (10 R162). -/
def execAuthResponse (src : Station) (payload : List Byte) : State → Host.Outcome State Fault Refusal :=
  whileRunning (deliver ⟨src, ReportKind.authResponse.code, payload⟩)

/-- CAPTURE_RESPONSE (10 R171). -/
def execCaptureResponse (src : Station) (payload : List Byte) : State → Host.Outcome State Fault Refusal :=
  whileRunning (deliver ⟨src, ReportKind.captureResponse.code, payload⟩)

/-- TALK_DOWN_REPORT (09 R145). -/
def execTalkDownReport (src : Station) (payload : List Byte) : State → Host.Outcome State Fault Refusal :=
  whileRunning (deliver ⟨src, ReportKind.talkDown.code, payload⟩)

/-- TALK_UP_REPORT (09 R146). -/
def execTalkUpReport (src : Station) (payload : List Byte) : State → Host.Outcome State Fault Refusal :=
  whileRunning (deliver ⟨src, ReportKind.talkUp.code, payload⟩)

/-- CALL (09 R151). -/
def execCall (src : Station) (payload : List Byte) : State → Host.Outcome State Fault Refusal :=
  whileRunning (deliver ⟨src, ReportKind.call.code, payload⟩)

end Sys2Proof.Machine
end

