-- ==== Sys2Proof/Machine/TimedCommands.lean ====
section
/-! DEFINITION. The meanings of the commands of the link, the clocks, the lines and the supply. An event that the controller
causes by itself happens inside the command that causes it; sent as a command of its own, it occurs now if what it acts
on stands (log 2). -/

namespace Sys2Proof.Machine

/-- FRAME, with the level of the calibration line during it (01 R1). -/
def execFrame (up : UpFrame) (cal : Bool) (s : State) : Host.Outcome State Fault Refusal :=
  whileRunning (frameRuns up) { s with calLine := cal }

/-- TICK: the frame count becomes 0 and a tick occurs (04 R52). -/
def execTick : State → Host.Outcome State Fault Refusal :=
  whileRunning fun s => tickOccurs { s with time := { s.time with divFrames := 0 } }

/-- FARE_SECOND: both counts of the divider become 0 and a fare second occurs (04 R52). -/
def execFareSecond : State → Host.Outcome State Fault Refusal :=
  whileRunning fun s => fareSecondOccurs { s with time := { s.time with divFrames := 0, divTicks := 0 } }

/-- ODOMETER_PULSE (04 R49). -/
def execOdometerPulse : State → Host.Outcome State Fault Refusal := whileRunning pulseArrives

/-- An expiry of a side whose counter is active, in HIRED (06 R82, R86, R87). -/
def sideExpires (side : Side) (s : State) : State :=
  match s.meter, s.trip with
  | .hired, some tr =>
    match side with
    | .distance => if tr.dc.isSome then expire .distance s else s
    | .time => if tr.tc.isSome then expire .time s else s
  | _, _ => s

/-- DISTANCE_EXPIRY (06 R89, R90). -/
def execDistanceExpiry : State → Host.Outcome State Fault Refusal := whileRunning (sideExpires .distance)

/-- TIME_EXPIRY (06 R89, R90). -/
def execTimeExpiry : State → Host.Outcome State Fault Refusal := whileRunning (sideExpires .time)

/-- WALL_CLOCK_SECOND: the clock counts also without the main supply (04 R53). -/
def execWallClockSecond (s : State) : Host.Outcome State Fault Refusal :=
  .next (if s.running then clockSecondRunning s else { s with time := clockAdvanced s.time })

/-- BOUNDARY_ALARM (04 R59). -/
def execBoundaryAlarm : State → Host.Outcome State Fault Refusal := whileRunning boundaryFires

/-- EMERGENCY_LINE_ASSERT: the line's level, and the debounce while frames run (08 R129). -/
def execEmergencyLineAssert (s : State) : Host.Outcome State Fault Refusal :=
  whileRunning lineAsserted { s with emgLine := true }

/-- EMERGENCY_LINE_RELEASE (08 R129). -/
def execEmergencyLineRelease (s : State) : Host.Outcome State Fault Refusal :=
  whileRunning lineReleased { s with emgLine := false }

/-- The debounce completes when the count is active and the line asserted, the emergency being inactive (08 R129). -/
def debounceCompletes (s : State) : State :=
  if s.sign.emergency = none ∧ s.sign.debounce.isSome ∧ s.emgLine then emergencyBegins s else s

/-- EMERGENCY_DEBOUNCE_COMPLETE (08 R130). -/
def execEmergencyDebounceComplete : State → Host.Outcome State Fault Refusal := whileRunning debounceCompletes

/-- SIGN_REFRESH_DUE (08 R128). -/
def execSignRefreshDue : State → Host.Outcome State Fault Refusal := whileRunning signRefreshDue

/-- BRIGHTNESS_STEP (08 R134). -/
def execBrightnessStep : State → Host.Outcome State Fault Refusal := whileRunning brightnessStep

/-- TALK_HOLD_EXPIRY (09 R147). -/
def execTalkHoldExpiry : State → Host.Outcome State Fault Refusal := whileRunning holdExpires

/-- PIN_ENTRY_TIMEOUT (09 R152). -/
def execPinEntryTimeout : State → Host.Outcome State Fault Refusal := whileRunning pinOff

/-- AUTH_TIMER_EXPIRY (10 R163). -/
def execAuthTimerExpiry : State → Host.Outcome State Fault Refusal := whileRunning authExpires

/-- LATE_ENTRY_EXPIRY (10 R166). -/
def execLateEntryExpiry (position : Nat) : State → Host.Outcome State Fault Refusal := whileRunning (lateExpires position)

/-- CAPTURE_EXPIRY (10 R172). -/
def execCaptureExpiry : State → Host.Outcome State Fault Refusal := whileRunning captureExpires

/-- CAPTURE_WAIT_END (10 R172). -/
def execCaptureWaitEnd : State → Host.Outcome State Fault Refusal := whileRunning captureWaitEnds

/-- MAIN_SUPPLY_LOSS (01 R1). -/
def execMainSupplyLoss (s : State) : Host.Outcome State Fault Refusal := .next (supplyLost s)

/-- COLD_START (03 R45 and the Starts section of each chapter). -/
def execColdStart (s : State) : Host.Outcome State Fault Refusal := .next (coldStarts s)

/-- WARM_START (07 R124). -/
def execWarmStart (s : State) : Host.Outcome State Fault Refusal := .next (warmStarts s)

end Sys2Proof.Machine
end

