-- ==== Sys2Proof/Machine/Dispatch.lean ====
section
/-! DEFINITION. Which meaning each command has. -/

namespace Sys2Proof.Machine

def exec (i : Instr) (s : State) : Host.Outcome State Fault Refusal :=
  match i with
  | .frame up cal => Sys2Proof.Machine.execFrame up cal s
  | .tick => Sys2Proof.Machine.execTick s
  | .fareSecond => Sys2Proof.Machine.execFareSecond s
  | .odometerPulse => Sys2Proof.Machine.execOdometerPulse s
  | .distanceExpiry => Sys2Proof.Machine.execDistanceExpiry s
  | .timeExpiry => Sys2Proof.Machine.execTimeExpiry s
  | .wallClockSecond => Sys2Proof.Machine.execWallClockSecond s
  | .boundaryAlarm => Sys2Proof.Machine.execBoundaryAlarm s
  | .emergencyLineAssert => Sys2Proof.Machine.execEmergencyLineAssert s
  | .emergencyLineRelease => Sys2Proof.Machine.execEmergencyLineRelease s
  | .emergencyDebounceComplete => Sys2Proof.Machine.execEmergencyDebounceComplete s
  | .signRefreshDue => Sys2Proof.Machine.execSignRefreshDue s
  | .brightnessStep => Sys2Proof.Machine.execBrightnessStep s
  | .talkHoldExpiry => Sys2Proof.Machine.execTalkHoldExpiry s
  | .pinEntryTimeout => Sys2Proof.Machine.execPinEntryTimeout s
  | .authTimerExpiry => Sys2Proof.Machine.execAuthTimerExpiry s
  | .lateEntryExpiry position => Sys2Proof.Machine.execLateEntryExpiry position s
  | .captureExpiry => Sys2Proof.Machine.execCaptureExpiry s
  | .captureWaitEnd => Sys2Proof.Machine.execCaptureWaitEnd s
  | .hire src args => Sys2Proof.Machine.execHire src args s
  | .stop src args => Sys2Proof.Machine.execStop src args s
  | .resume src args => Sys2Proof.Machine.execResume src args s
  | .cash src args => Sys2Proof.Machine.execCash src args s
  | .unpaid src args => Sys2Proof.Machine.execUnpaid src args s
  | .prompt src args => Sys2Proof.Machine.execPrompt src args s
  | .onCallKey src args => Sys2Proof.Machine.execOnCallKey src args s
  | .cancelCall src args => Sys2Proof.Machine.execCancelCall src args s
  | .offDutyKey src args => Sys2Proof.Machine.execOffDutyKey src args s
  | .onDuty src args => Sys2Proof.Machine.execOnDuty src args s
  | .extra src args => Sys2Proof.Machine.execExtra src args s
  | .passengers src args => Sys2Proof.Machine.execPassengers src args s
  | .luggage src args => Sys2Proof.Machine.execLuggage src args s
  | .talkDownKey src args => Sys2Proof.Machine.execTalkDownKey src args s
  | .talkUpKey src args => Sys2Proof.Machine.execTalkUpKey src args s
  | .openToggle src args => Sys2Proof.Machine.execOpenToggle src args s
  | .shiftOpen src payload => Sys2Proof.Machine.execShiftOpen src payload s
  | .shiftClose src payload => Sys2Proof.Machine.execShiftClose src payload s
  | .dispatch src payload => Sys2Proof.Machine.execDispatch src payload s
  | .statusRead src payload => Sys2Proof.Machine.execStatusRead src payload s
  | .noticeMask src payload => Sys2Proof.Machine.execNoticeMask src payload s
  | .flagsClear src payload => Sys2Proof.Machine.execFlagsClear src payload s
  | .tableWrite src payload => Sys2Proof.Machine.execTableWrite src payload s
  | .tableClear src payload => Sys2Proof.Machine.execTableClear src payload s
  | .tableRead src payload => Sys2Proof.Machine.execTableRead src payload s
  | .tableActivate src payload => Sys2Proof.Machine.execTableActivate src payload s
  | .calibrate src cal payload => Sys2Proof.Machine.execCalibrate src cal payload s
  | .clockSet src payload => Sys2Proof.Machine.execClockSet src payload s
  | .emergencyClear src payload => Sys2Proof.Machine.execEmergencyClear src payload s
  | .payRequest src payload => Sys2Proof.Machine.execPayRequest src payload s
  | .payCancel src payload => Sys2Proof.Machine.execPayCancel src payload s
  | .deferredRead src payload => Sys2Proof.Machine.execDeferredRead src payload s
  | .journalRead src payload => Sys2Proof.Machine.execJournalRead src payload s
  | .reportRead src payload => Sys2Proof.Machine.execReportRead src payload s
  | .reportRelease src payload => Sys2Proof.Machine.execReportRelease src payload s
  | .snapshotTake src payload => Sys2Proof.Machine.execSnapshotTake src payload s
  | .snapshotRead src payload => Sys2Proof.Machine.execSnapshotRead src payload s
  | .snapshotRelease src payload => Sys2Proof.Machine.execSnapshotRelease src payload s
  | .unknownKind src kind payload => Sys2Proof.Machine.execUnknownKind src kind payload s
  | .signStatus src payload => Sys2Proof.Machine.execSignStatus src payload s
  | .pinState src payload => Sys2Proof.Machine.execPinState src payload s
  | .modemStatus src payload => Sys2Proof.Machine.execModemStatus src payload s
  | .zoneUpdate src payload => Sys2Proof.Machine.execZoneUpdate src payload s
  | .authResponse src payload => Sys2Proof.Machine.execAuthResponse src payload s
  | .captureResponse src payload => Sys2Proof.Machine.execCaptureResponse src payload s
  | .talkDownReport src payload => Sys2Proof.Machine.execTalkDownReport src payload s
  | .talkUpReport src payload => Sys2Proof.Machine.execTalkUpReport src payload s
  | .call src payload => Sys2Proof.Machine.execCall src payload s
  | .mainSupplyLoss => Sys2Proof.Machine.execMainSupplyLoss s
  | .coldStart => Sys2Proof.Machine.execColdStart s
  | .warmStart => Sys2Proof.Machine.execWarmStart s
  | .controllerKindDiscard src kind payload => Sys2Proof.Machine.execControllerKindDiscard src kind payload s

end Sys2Proof.Machine
end

