-- ==== Sys2Proof/WellFormed.lean ====
section
/-! DEFINITION. Which commands the outside world can send: the checks on a command's operands. -/

namespace Sys2Proof

/-- A payload fits a message (01 R5). -/
def payloadFits (payload : List Byte) : Bool := payload.length ≤ Config.payloadMax

/-- The bytes after a key code fit a message (01 R5, 07 R107). -/
def keyArgsFit (args : List Byte) : Bool := args.length + 1 ≤ Config.payloadMax

/-- The kind codes of 02 R18 that stations send. -/
def isStationKind (kind : Byte) : Bool :=
  (1 ≤ kind.toNat && kind.toNat ≤ 23) || (32 ≤ kind.toNat && kind.toNat ≤ 40)

/-- The kind codes of 02 R18 that only the controller sends. -/
def isControllerKind (kind : Byte) : Bool := 64 ≤ kind.toNat && kind.toNat ≤ 72

/-- The check on a command's operands. -/
def Instr.wellFormed : Instr → Bool
  | .hire _ a | .stop _ a | .resume _ a | .cash _ a | .unpaid _ a | .prompt _ a | .onCallKey _ a | .cancelCall _ a
  | .offDutyKey _ a | .onDuty _ a | .extra _ a | .passengers _ a | .luggage _ a | .talkDownKey _ a | .talkUpKey _ a
  | .openToggle _ a => keyArgsFit a
  | .shiftOpen _ p | .shiftClose _ p | .dispatch _ p | .statusRead _ p | .noticeMask _ p | .flagsClear _ p
  | .tableWrite _ p | .tableClear _ p | .tableRead _ p | .tableActivate _ p | .calibrate _ _ p | .clockSet _ p
  | .emergencyClear _ p | .payRequest _ p | .payCancel _ p | .deferredRead _ p | .journalRead _ p | .reportRead _ p
  | .reportRelease _ p | .snapshotTake _ p | .snapshotRead _ p | .snapshotRelease _ p | .signStatus _ p | .pinState _ p
  | .modemStatus _ p | .zoneUpdate _ p | .authResponse _ p | .captureResponse _ p | .talkDownReport _ p
  | .talkUpReport _ p | .call _ p => payloadFits p
  | .unknownKind _ k p => payloadFits p && !isStationKind k && !isControllerKind k
  | .controllerKindDiscard _ k p => payloadFits p && isControllerKind k
  | .lateEntryExpiry i => i < Config.lateCap
  | .frame _ _ | .tick | .fareSecond | .odometerPulse | .distanceExpiry | .timeExpiry | .wallClockSecond | .boundaryAlarm
  | .emergencyLineAssert | .emergencyLineRelease | .emergencyDebounceComplete | .signRefreshDue | .brightnessStep
  | .talkHoldExpiry | .pinEntryTimeout | .authTimerExpiry | .captureExpiry | .captureWaitEnd | .mainSupplyLoss
  | .coldStart | .warmStart => true

end Sys2Proof
end

