-- ==== Sys2Proof/Safety.lean ====
section
/-! DEFINITION. What statements about the controller speak of: the queues' order, a controller ready to handle a message, the
marks that an occurrence of events leaves, and the invariants of the manual's prose. -/

namespace Sys2Proof.Machine

/-! The link. -/

/-- The messages that wait for the down lane, oldest first: the outbound queue and then the hold line (01 R14). -/
def LinkState.waiting (l : LinkState) : List Outbound := l.outbound ++ l.held

/-- The outbound queue holds at most 16 messages, and it is full while a message is held (01 R14). -/
def LinkState.orderly (l : LinkState) : Prop :=
  l.outbound.length ≤ Config.outboundCap ∧ (l.held ≠ [] → l.outbound.length = Config.outboundCap)

/-- A link a to which the messages ms were offered, in order, and at most the refresh places written: nothing else of it
differs (01 R14, R15). -/
def LinkState.Queued (a b : LinkState) (ms : List Outbound) : Prop :=
  b.waiting = a.waiting ++ ms ∧ b.orderly ∧
    b = { a with outbound := b.outbound, held := b.held, displayPlace := b.displayPlace, signPlace := b.signPlace }

/-- From an orderly link, some messages were offered and at most the refresh places written. -/
def LinkState.Queues (a b : LinkState) : Prop := a.orderly → ∃ ms, a.Queued b ms

/-- The parts of the link that keep their bounds at every command: the outbound queue and hold line (R14), the inbound queue
with the place of a message under reception (R7, R13), no message waiting inbound while an outbound place is free (R13, R19),
the counts of the grant and the frame (R2, R7), and a station ABSENT exactly at 8 consecutive misses (R12). -/
structure LinkState.Sound (l : LinkState) : Prop where
  orderly : l.orderly
  inboundFits : l.inbound.length + (if l.reception.isSome then 1 else 0) ≤ Config.inboundCap
  taken : l.inbound ≠ [] → l.outbound.length = Config.outboundCap
  rotationFits : l.rotation < 16
  frameFits : l.frameNumber < 16
  absent : ∀ st, (l.stations.get st).misses ≤ Config.missLimit ∧
    ((l.stations.get st).presence = .absent ↔ (l.stations.get st).misses = Config.missLimit)

/-- Frames run, no message waits inbound, and the outbound queue has a free place: a message that comes now is handled at
once (01 R13, 02 R19). -/
structure State.Ready (s : State) : Prop where
  running : s.running = true
  inbound : s.link.inbound = []
  held : s.link.held = []
  room : s.link.outbound.length < Config.outboundCap

/-- The place of the grant search after k steps: the address reached and the rotation number then (01 R7 case 3). -/
def LinkState.searched (l : LinkState) : Nat → Station × Nat
  | 0 => (l.grantPointer, l.rotation)
  | k + 1 => (stationAfter (l.searched k).1, rotationAfter (l.searched k).1 (l.searched k).2)

/-- The station reached after k steps of the search is eligible (01 R7 case 3). -/
def LinkState.offers (l : LinkState) (k : Nat) : Bool :=
  eligible (l.stations.get (l.searched k).1).presence (l.searched k).2

/-- What the down lane sends of the bytes it holds in n frames, slot and last mark of each, and what is left then (01 R16). -/
def laneFrames : Nat → Option (List Byte) → List (Slot × Bool) × Option (List Byte)
  | 0, bytes => ([], bytes)
  | n + 1, bytes =>
    let first := laneSlot bytes
    let rest := laneFrames n first.2.2
    ((first.1, first.2.1) :: rest.1, rest.2)

/-- The up lane of frames in a row, each granting the same station (01 R8, R9). -/
def readUpLanes (st : Station) (ups : List UpFrame) (s : State) : State :=
  ups.foldl (fun s up => readUpLane (some st) up s) s

/-- The state after a frame that made no tick, but for its up lane: the frame is sent and counted, the mix's outputs are handed
on, and the divider counts (01 R2, R4, R7, R16; 04 R52; 09 R138). The calibration line's level is log 7. -/
def State.framed (s : State) (cal : Bool) (mixed : Four Sample) : State :=
  { s with
    calLine := cal
    link := { (linkFrameStarts s.link).2 with mixed := some mixed }
    time := { s.time with divFrames := s.time.divFrames + 1 } }

/-- The bytes of a reception once a frame has added its two (01 R9). -/
def receivedBytes (x : Reception) (up : UpFrame) : List Byte :=
  x.bytes ++ [(up.message.data >>> 8).setWidth 8, up.message.data.setWidth 8]

/-- A slot that carries nothing. -/
def emptySlot : Slot := ⟨false, 0#16⟩

/-- The up line of a frame in which the granted station answers with the idle code and no microphone is driven (01 R8). -/
def idleFrame : UpFrame :=
  { answer := ⟨true, Config.idleCode⟩, message := emptySlot, driver := emptySlot, passengerA := emptySlot
    passengerB := emptySlot, modem := emptySlot }

/-! Messages. -/

/-- The message that a message command is; none for the other commands (01 R5, 02 R18, 07 R107). -/
def messageOf : Instr → Option Inbound
  | .hire src args => some (keyMessage src 1#8 args)
  | .stop src args => some (keyMessage src 2#8 args)
  | .resume src args => some (keyMessage src 3#8 args)
  | .cash src args => some (keyMessage src 4#8 args)
  | .unpaid src args => some (keyMessage src 5#8 args)
  | .prompt src args => some (keyMessage src 6#8 args)
  | .onCallKey src args => some (keyMessage src 7#8 args)
  | .cancelCall src args => some (keyMessage src 8#8 args)
  | .offDutyKey src args => some (keyMessage src 9#8 args)
  | .onDuty src args => some (keyMessage src 10#8 args)
  | .extra src args => some (keyMessage src 11#8 args)
  | .passengers src args => some (keyMessage src 12#8 args)
  | .luggage src args => some (keyMessage src 13#8 args)
  | .talkDownKey src args => some (keyMessage src 14#8 args)
  | .talkUpKey src args => some (keyMessage src 15#8 args)
  | .openToggle src args => some (keyMessage src 16#8 args)
  | .shiftOpen src payload => some ⟨src, Request.shiftOpen.code, payload⟩
  | .shiftClose src payload => some ⟨src, Request.shiftClose.code, payload⟩
  | .dispatch src payload => some ⟨src, Request.dispatch.code, payload⟩
  | .statusRead src payload => some ⟨src, Request.statusRead.code, payload⟩
  | .noticeMask src payload => some ⟨src, Request.noticeMask.code, payload⟩
  | .flagsClear src payload => some ⟨src, Request.flagsClear.code, payload⟩
  | .tableWrite src payload => some ⟨src, Request.tableWrite.code, payload⟩
  | .tableClear src payload => some ⟨src, Request.tableClear.code, payload⟩
  | .tableRead src payload => some ⟨src, Request.tableRead.code, payload⟩
  | .tableActivate src payload => some ⟨src, Request.tableActivate.code, payload⟩
  | .clockSet src payload => some ⟨src, Request.clockSet.code, payload⟩
  | .emergencyClear src payload => some ⟨src, Request.emergencyClear.code, payload⟩
  | .payRequest src payload => some ⟨src, Request.payRequest.code, payload⟩
  | .payCancel src payload => some ⟨src, Request.payCancel.code, payload⟩
  | .deferredRead src payload => some ⟨src, Request.deferredRead.code, payload⟩
  | .journalRead src payload => some ⟨src, Request.journalRead.code, payload⟩
  | .reportRead src payload => some ⟨src, Request.reportRead.code, payload⟩
  | .reportRelease src payload => some ⟨src, Request.reportRelease.code, payload⟩
  | .snapshotTake src payload => some ⟨src, Request.snapshotTake.code, payload⟩
  | .snapshotRead src payload => some ⟨src, Request.snapshotRead.code, payload⟩
  | .snapshotRelease src payload => some ⟨src, Request.snapshotRelease.code, payload⟩
  | .calibrate src _ payload => some ⟨src, Request.calibrate.code, payload⟩
  | .unknownKind src kind payload => some ⟨src, kind, payload⟩
  | .controllerKindDiscard src kind payload => some ⟨src, kind, payload⟩
  | .signStatus src payload => some ⟨src, ReportKind.signStatus.code, payload⟩
  | .pinState src payload => some ⟨src, ReportKind.pinState.code, payload⟩
  | .modemStatus src payload => some ⟨src, ReportKind.modemStatus.code, payload⟩
  | .zoneUpdate src payload => some ⟨src, ReportKind.zoneUpdate.code, payload⟩
  | .authResponse src payload => some ⟨src, ReportKind.authResponse.code, payload⟩
  | .captureResponse src payload => some ⟨src, ReportKind.captureResponse.code, payload⟩
  | .talkDownReport src payload => some ⟨src, ReportKind.talkDown.code, payload⟩
  | .talkUpReport src payload => some ⟨src, ReportKind.talkUp.code, payload⟩
  | .call src payload => some ⟨src, ReportKind.call.code, payload⟩
  | .frame _ _ | .tick | .fareSecond | .odometerPulse | .distanceExpiry | .timeExpiry | .wallClockSecond
  | .boundaryAlarm | .emergencyLineAssert | .emergencyLineRelease | .emergencyDebounceComplete | .signRefreshDue
  | .brightnessStep | .talkHoldExpiry | .pinEntryTimeout | .authTimerExpiry | .lateEntryExpiry _ | .captureExpiry
  | .captureWaitEnd | .mainSupplyLoss | .coldStart | .warmStart => none

/-- The state with the level of the calibration line that a command carries (log 7). -/
def sensed : Instr → State → State
  | .calibrate _ cal _, s => { s with calLine := cal }
  | .frame _ cal, s => { s with calLine := cal }
  | _, s => s

/-- A REPLY (02 R23). -/
def replyMessage (dest : Station) (kind : Byte) (r : Result) (data : List Byte) : Outbound :=
  ⟨dest, kindReply, [kind, r.code] ++ data⟩

/-- The state after a REPLY joined the outbound queue and nothing else happened. -/
def State.answered (s : State) (dest : Station) (kind : Byte) (r : Result) (data : List Byte) : State :=
  { s with link := { s.link with outbound := s.link.outbound ++ [replyMessage dest kind r data] } }

/-! Events. -/

/-- The dispatcher after one occurrence: the sticky flag, and the pending sets of the destinations whose mask holds the kind
(02 R25 steps 1 and 3). -/
def DispatcherState.heard (d : DispatcherState) (e : Event) : DispatcherState :=
  { d with
    flags := d.flags ||| e.only
    headPending := if e.isIn d.headMask then d.headPending ||| e.only else d.headPending
    modemPending := if e.isIn d.modemMask then d.modemPending ||| e.only else d.modemPending }

/-- The dispatcher after occurrences in order. -/
def DispatcherState.heardAll (d : DispatcherState) (es : List Event) : DispatcherState := es.foldl DispatcherState.heard d

/-- The NOTICEs of one occurrence: to each destination whose mask holds the kind and whose pending set was empty, naming the
kind (02 R27), the meter head's first (DESIGN CHOICE, log 27). -/
def noticesOf (e : Event) (d : DispatcherState) : List Outbound :=
  (if e.isIn d.headMask && d.headPending = 0#24 then [⟨.meterHead, kindNotice, eventSetBytes e.only⟩] else []) ++
    (if e.isIn d.modemMask && d.modemPending = 0#24 then [⟨.fleetModem, kindNotice, eventSetBytes e.only⟩] else [])

/-- The NOTICEs of occurrences in order. -/
def noticesAll : List Event → DispatcherState → List Outbound
  | [], _ => []
  | e :: es, d => noticesOf e d ++ noticesAll es (d.heard e)

/-- The counts that occurrences in order make in a shift record (02 R25 step 2). -/
def countAll (map : Four EventSet) (es : List Event) (r : ShiftRecord) : ShiftRecord :=
  es.foldl (fun r e => countEvent map e r) r

/-- The shift accounting unit after the counts of occurrences in order; nothing when no shift is open (02 R25 step 2). -/
def State.shiftsCounted (s : State) (es : List Event) : ShiftState :=
  { s.shifts with record := s.shifts.record.map (countAll (exceptionMap s.tables.unbanked) es) }

/-- A state t that differs from s only by the offer of the messages `first`, then by occurrences in order (their flags, pending
sets, counts and NOTICEs), and at most in what the two refresh places hold. -/
structure State.Occurs (s t : State) (first : List Outbound) (es : List Event) : Prop where
  rest : t = { s with link := t.link, disp := s.disp.heardAll es, shifts := s.shiftsCounted es }
  link : s.link.Queued t.link (first ++ noticesAll es s.disp)

/-- A state t that is s but for the messages ms offered, in order, the flags, pending sets and counts of occurrences in order,
and at most what the two refresh places hold. -/
structure State.Sends (s t : State) (es : List Event) (ms : List Outbound) : Prop where
  rest : t = { s with link := t.link, disp := s.disp.heardAll es, shifts := s.shiftsCounted es }
  link : s.link.Queued t.link ms

/-- The events of a selection run in order (05 R68). -/
def SelectionResult.events (r : SelectionResult) : List Event :=
  (if r.depthMark then [.selectDepth] else []) ++ (if r.fallbackMark then [.selectFallback] else [])

/-- The DISPLAY refresh place holds a DISPLAY of the values that stand (07 R123). -/
def State.Shows (s : State) : Prop := s.link.displayPlace = some ⟨.meterHead, kindDisplay, displayPayload s⟩

/-- The SIGN SET refresh place holds a SIGN SET of the commanded sign state and the drive level that stand (08 R128). -/
def State.Signs (s : State) : Prop :=
  ∃ restart, s.link.signPlace = some ⟨.roofSign, kindSignSet,
    [(signLegend s.tables.unbanked (commandedSign s)).1, (signLegend s.tables.unbanked (commandedSign s)).2,
      BitVec.ofNat 8 s.sign.level, boolByte restart]⟩

/-- The refresh places after occurrences alone: the SIGN SET place as before, and the DISPLAY place as before unless the
notice-pending indicator changed, when it holds a DISPLAY of the values that stand (02 R27, 07 R123). -/
def State.PlacesFollow (s t : State) : Prop :=
  t.link.signPlace = s.link.signPlace ∧
    (if noticeIndicator s.disp.headPending = noticeIndicator t.disp.headPending then
      t.link.displayPlace = s.link.displayPlace
    else t.Shows)

/-- The sign controller after a change of the commanded sign state is told: a SIGN SET is placed, unless the emergency is
active (08 R126, R128). -/
def State.signTold (s : State) (m : MeterState) : SignState :=
  match s.sign.emergency with
  | some _ => s.sign
  | none =>
    { s.sign with lastLegend := some (signLegend s.tables.unbanked m.code.toNat).1.toNat, refresh := 0 }

/-! Invariants. -/

/-- A trip record exists exactly in HIRED and SETTLING, its fare due exactly in SETTLING, a shift record exactly outside
CLOSED, and an authorization is pending in SETTLING only (07 R114, 06 R81, 11 R177, 10 R160). -/
structure State.TripSound (s : State) : Prop where
  trip : s.trip.isSome = true ↔ s.meter = .hired ∨ s.meter = .settling
  due : ∀ tr, s.trip = some tr → (tr.fareDue.isSome = true ↔ s.meter = .settling)
  shift : s.shifts.record.isSome = true ↔ s.meter ≠ .closed
  auth : s.pay.auth.isSome = true → s.meter = .settling

/-- The lists within their capacities and the counts within their ranges (10 R166, R169; 11 R182, R188; 04 R48, R52, R53;
08 R128, R129, R134; 09 R147, R152). -/
structure State.WithinBounds (s : State) : Prop where
  late : s.pay.late.length ≤ Config.lateCap
  deferred : s.pay.deferred.length ≤ Config.deferredCap
  journal : s.shifts.journal.length ≤ Config.journalCap
  reports : s.shifts.reports.length ≤ Config.reportCap
  frames : s.time.divFrames < Config.framesPerTick
  ticks : s.time.divTicks < Config.ticksPerSecond
  second : s.time.second < Config.daySeconds
  day : s.time.day < Config.dayCount
  accepted : s.time.accepted ≤ s.time.budget
  debounce : ∀ n, s.sign.debounce = some n → n < Config.debounceTicks
  refresh : s.sign.refresh < Config.refreshSeconds
  stepping : s.sign.stepping < 2
  hold : ∀ h, s.intercom.floor = some h → h.count < Config.holdSeconds
  pin : ∀ n, s.intercom.pin = some n → n < Config.pinSeconds

/-- The canonical form of the table store: keys strictly rising in each bank, and no unbanked entry that always holds a value
is listed at its default (03 R32, R33, R44). -/
structure TableState.Canonical (t : TableState) : Prop where
  active : Bank.wf t.active = true
  standby : Bank.wf t.standby = true
  unbanked : Bank.wf t.unbanked = true
  noDefault : ∀ table index, index < 256 → mayBeAbsent table = false →
    Bank.find (cellKey table index 0) t.unbanked ≠ some (defaultEntry table index)

end Sys2Proof.Machine
end

