-- ==== Sys2Proof/Certificates/Slice0/Obligations.lean ====
section
/-! DEFINITION. The statements for the provers. -/

open Sys2Proof Sys2Proof.Machine

/-! The machine as a whole. -/

/-- One step runs the command at the front of the queue on the state with the rest of the queue; an empty queue idles (log 1). -/
def Obligations.StepRunsFrontCommand : Prop :=
  ∀ s : State,
    (∀ c rest, s.pending = c :: rest → step s = exec c { s with pending := rest }) ∧ (s.pending = [] → step s = .next s)

/-- State.reset: the values that the Starts section of each chapter gives after a cold start, block by block (R17, R31, R45, R61,
R124, R136, R153, R175, R194), with the first DISPLAY and SIGN SET placed (R124, R136); the two input lines and `running` are
the model's choice (log 7, 12). -/
def Obligations.ResetIsColdStart : Prop :=
  let s := State.reset
  (s.link.stations = .start ∧ s.link.grantPointer = .passengerB ∧ s.link.rotation = 15 ∧ s.link.frameNumber = 0 ∧
    s.link.inbound = [] ∧ s.link.outbound = [] ∧ s.link.held = [] ∧ s.link.reception = none ∧ s.link.sending = none) ∧
  (s.disp.flags = 0#24 ∧ s.disp.headMask = BitVec.allOnes 24 ∧ s.disp.modemMask = BitVec.allOnes 24 ∧
    s.disp.headPending = 0#24 ∧ s.disp.modemPending = 0#24) ∧
  (s.tables.active = [] ∧ s.tables.standby = [] ∧ s.tables.unbanked = [] ∧ s.tables.activeVersion = 0 ∧
    s.tables.pendingActivation = none) ∧
  (s.time.k = 0 ∧ s.time.lifetime = 0 ∧ s.time.day = 0 ∧ s.time.second = 0 ∧ s.time.clockUnset = true ∧ s.time.zone = 31 ∧
    s.time.divFrames = 0 ∧ s.time.divTicks = 0 ∧ s.time.speed = 0 ∧ s.time.accepted = 0 ∧ s.time.clampMark = false ∧
    s.time.calendarFlags = 0#8 ∧ s.time.dayType = .weekday ∧ s.time.alarmDay = 1 ∧ s.time.alarmSecond = 0) ∧
  (s.meter = .closed ∧ s.trip = none) ∧
  (s.sign.emergency = none ∧ s.sign.level = 15 ∧ s.sign.ambient = none ∧ s.sign.lampFaults = 0#3 ∧
    s.sign.debounce = none) ∧
  (s.intercom.floor = none ∧ s.intercom.pin = none ∧ s.intercom.clipCounts = .all 0) ∧
  (s.pay.auth = none ∧ s.pay.late = [] ∧ s.pay.deferred = [] ∧ s.pay.capture = .idle ∧ s.pay.bearerUp = false ∧
    s.pay.nextAuth = 1) ∧
  (s.shifts.record = none ∧ s.shifts.nextShift = 1 ∧ s.shifts.journal = [] ∧ s.shifts.reports = [] ∧
    s.shifts.snapshot = none) ∧
  s.Shows ∧ s.Signs ∧ coldStarts s = s

/-- The invariants of this file hold right after a cold start. -/
def Obligations.ResetKeepsInvariants : Prop :=
  State.reset.link.Sound ∧ State.reset.TripSound ∧ State.reset.WithinBounds ∧ State.reset.tables.Canonical

/-- Every command keeps the link's bounds (R2, R7, R12, R13, R14): the queues' capacities, a hold line only behind a full
outbound queue, no message waiting inbound while an outbound place is free, ABSENT exactly at 8 consecutive misses. -/
def Obligations.StepKeepsLinkSound : Prop :=
  ∀ s t : State, s.link.Sound → step s = .next t → t.link.Sound

/-- Every command keeps the agreement of meter state, trip record, fare due, shift record and pending authorization (R114, R81,
R177, R160). -/
def Obligations.StepKeepsTripSound : Prop :=
  ∀ s t : State, s.TripSound → step s = .next t → t.TripSound

/-- Every command keeps the capacities and count ranges of the blocks (R48, R52, R53, R128, R129, R134, R147, R152, R166, R169,
R182, R188). -/
def Obligations.StepKeepsWithinBounds : Prop :=
  ∀ s t : State, s.WithinBounds → step s = .next t → t.WithinBounds

/-- Every command keeps the table store's canonical form (R32, R33, R44). -/
def Obligations.StepKeepsTablesCanonical : Prop :=
  ∀ s t : State, s.tables.Canonical → step s = .next t → t.tables.Canonical

/-- An emergency stays with its start time through every step but a cold start, an EMERGENCY CLEAR of the fleet modem, and a frame
that handles such a message: one that waits in the inbound queue, or one with a good check that the frame's own two bytes
complete (R131). Stated for every state that keeps the link's bounds (StepKeepsLinkSound) and a queue of well-formed
commands. -/
def Obligations.EmergencyEndsOnlyByClear : Prop :=
  ∀ (s t : State) (start : ClockTime), s.link.Sound → (∀ c ∈ s.pending, c.wellFormed = true) →
    s.sign.emergency = some start → step s = .next t →
    t.sign.emergency = some start ∨ ∃ c rest, s.pending = c :: rest ∧
      (c = .coldStart ∨ c = .emergencyClear .fleetModem [] ∨
        ∃ up cal, c = .frame up cal ∧
          ((⟨.fleetModem, 14#8, []⟩ : Inbound) ∈ s.link.inbound ∨
            ∃ x, s.link.reception = some x ∧ x.station = .fleetModem ∧ up.message.valid = true ∧
              (receivedBytes x up).take 4 = [0#8, 4#8, 14#8, 0#8] ∧ 6 ≤ (receivedBytes x up).length ∧
              crc16 ((receivedBytes x up).take 6) = 0#16))

/-! Meter states. -/

/-- ON CALL, CANCEL CALL, OFF DUTY, ON DUTY and DISPATCH: in the one state that allows it the meter moves, the REPLY is OK,
STATE CHANGE occurs, a DISPLAY is placed and the sign is told; in every other state the REPLY is REFUSED_STATE and nothing
else changes; a DISPATCH with a payload is refused with BAD_VALUE in every state (R106, R108, R111, R112, R126). -/
def Obligations.CallAndBreakMoves : Prop :=
  (∀ (s : State) (payload : List Byte), s.Ready → payload ≠ [] →
    exec (.dispatch .fleetModem payload) s = .next (s.answered .fleetModem 4#8 .badValue [])) ∧
  ∀ (s : State) (c : Instr) (src : Station) (kind : Byte) (old new : MeterState), s.Ready →
    (c, src, kind, old, new) ∈
      [(Instr.onCallKey .meterHead [0#8], Station.meterHead, 1#8, MeterState.vacant, MeterState.onCall),
        (.cancelCall .meterHead [0#8], .meterHead, 1#8, .onCall, .vacant),
        (.offDutyKey .meterHead [0#8], .meterHead, 1#8, .vacant, .offDuty),
        (.onDuty .meterHead [0#8], .meterHead, 1#8, .offDuty, .vacant),
        (.dispatch .fleetModem [], .fleetModem, 4#8, .vacant, .onCall)] →
    (s.meter = old → ∃ t, exec c s = .next t ∧
      ({ s with meter := new, sign := s.signTold new } : State).Occurs t [replyMessage src kind .ok []] [.stateChange] ∧
      t.Shows ∧ (s.sign.emergency = none → t.Signs) ∧
      (s.sign.emergency ≠ none → t.link.signPlace = s.link.signPlace)) ∧
    (s.meter ≠ old → exec c s = .next (s.answered src kind .refusedState []))

/-! The link. -/

/-- The grant of a frame (R7): the sender of the message under reception; none with a full inbound queue; else the first
eligible station of the search, which becomes the grant pointer; none when no step finds one. The search steps through the
addresses in cyclic order, each step from 6 to 1 counts in the rotation number, mod 16, and a station is eligible when it is
UNKNOWN or PRESENT, or ABSENT at rotation number 0; the search reaches each station once. A frame's header carries the
grant's address, or 0, and the frame leaves the grant pointer and the rotation number as the search left them. -/
def Obligations.GrantSearch : Prop :=
  (∀ l : LinkState,
    (∀ r, l.reception = some r → chooseGrant l = (some r.station, l)) ∧
    (l.reception = none → Config.inboundCap ≤ l.inbound.length → chooseGrant l = (none, l)) ∧
    (l.reception = none → l.inbound.length < Config.inboundCap →
      (∀ k, 1 ≤ k → k ≤ 6 → l.offers k = true → (∀ j, 1 ≤ j → j < k → l.offers j = false) →
        chooseGrant l =
          (some (l.searched k).1, { l with grantPointer := (l.searched k).1, rotation := (l.searched k).2 })) ∧
      ((∀ k, 1 ≤ k → k ≤ 6 → l.offers k = false) →
        chooseGrant l = (none, { l with rotation := (l.searched 6).2 }))) ∧
    (∀ st, ∃ k, 1 ≤ k ∧ k ≤ 6 ∧ (l.searched k).1 = st ∧ ∀ j, 1 ≤ j → j ≤ 6 → (l.searched j).1 = st → j = k) ∧
    (l.searched 0 = (l.grantPointer, l.rotation) ∧
      ∀ k,
        stationAddress (l.searched (k + 1)).1 =
          (if stationAddress (l.searched k).1 = 6 then 1 else stationAddress (l.searched k).1 + 1) ∧
        (l.searched (k + 1)).2 =
          (if stationAddress (l.searched k).1 = 6 then ((l.searched k).2 + 1) % 16 else (l.searched k).2)) ∧
    (∀ k, l.offers k = true ↔
      (l.stations.get (l.searched k).1).presence = .unknown ∨ (l.stations.get (l.searched k).1).presence = .present ∨
        ((l.stations.get (l.searched k).1).presence = .absent ∧ (l.searched k).2 = 0))) ∧
  (∀ (s : State) (up : UpFrame) (cal : Bool), s.running = true →
    ∃ (t : State) (f : DownFrame), exec (.frame up cal) s = .next t ∧ t.link.lastFrame = some f ∧
      f.header.toNat / 8192 = ((chooseGrant s.link).1.map stationAddress).getD 0 ∧
      t.link.grantPointer = (chooseGrant s.link).2.grantPointer ∧ t.link.rotation = (chooseGrant s.link).2.rotation)

/-- A message is sent whole in (7 + n) div 2 frames: its bytes in order, two a frame, a 0 after an odd last one, the last
mark in the final frame alone. With nothing being sent the lane takes the DISPLAY from its place, else the SIGN SET, else the
oldest message of the outbound queue, whose place the oldest held message then takes at the tail; while a message is being
sent, and with nothing waiting, it takes nothing. A message is offered to the tail of the outbound queue, or to the tail of
the hold line when the queue is full (R5, R14, R16). -/
def Obligations.LaneSendsWholeMessage : Prop :=
  (∀ m : Outbound, m.payload.length ≤ Config.payloadMax →
    let n := (7 + m.payload.length) / 2
    let sent := laneFrames n (some m.bytes)
    sent.2 = none ∧ sent.1.map (fun x => x.1.valid) = List.replicate n true ∧
      sent.1.map (·.2) = List.replicate (n - 1) false ++ [true] ∧
      sent.1.flatMap (fun x => laneBytes x.1.data) =
        m.bytes ++ (if m.payload.length % 2 = 1 then [0#8] else [])) ∧
  (∀ (l : LinkState) (m : Outbound),
    (∀ b, l.sending = some b → chooseMessage l = l) ∧
    (l.sending = none → l.displayPlace = some m →
      chooseMessage l = { l with displayPlace := none, sending := some m.bytes }) ∧
    (l.sending = none → l.displayPlace = none → l.signPlace = some m →
      chooseMessage l = { l with signPlace := none, sending := some m.bytes }) ∧
    (l.sending = none → l.displayPlace = none → l.signPlace = none →
      (l.outbound = [] → chooseMessage l = l) ∧
      ∀ rest, l.outbound = m :: rest →
        (l.held = [] → chooseMessage l = { l with outbound := rest, sending := some m.bytes }) ∧
        ∀ h hs, l.held = h :: hs →
          chooseMessage l = { l with outbound := rest ++ [h], held := hs, sending := some m.bytes })) ∧
  (∀ (m : Outbound) (s : State),
    (s.link.outbound.length < 16 → offer m s = { s with link := { s.link with outbound := s.link.outbound ++ [m] } }) ∧
    (16 ≤ s.link.outbound.length → offer m s = { s with link := { s.link with held := s.link.held ++ [m] } }))

/-- A message that a PRESENT station sends whole, pair by pair, joins the inbound queue with its station, kind and payload, and
sets that station's consecutive misses to 0; what follows an odd last byte is ignored (R5, R6, R8, R9, R12). The dispatcher
handles it as its message command does. In a frame with no microphone driven: a message just completed is handled when an
outbound place is free, before the frame is counted, and else waits; a message that waits when the down lane frees an outbound
place is handled, and the others after it for as long as a place is free, before the up lane is read; with no free place none
is (R13, R19). The frame is then counted, or brings its tick (R52). The order inside a frame is log 4, a message command
log 3. -/
def Obligations.WholeMessageReceived : Prop :=
  (∀ (s : State) (st : Station) (kind : Byte) (payload pad : List Byte) (ups : List UpFrame),
    s.link.reception = none → (s.link.stations.get st).presence = .present → payload.length ≤ Config.payloadMax →
    pad.length = payload.length % 2 → (∀ up ∈ ups, up.message.valid = true) →
    ups.flatMap (fun up => laneBytes up.message.data) =
      messageBytes 0#8 (BitVec.ofNat 8 (stationAddress st)) kind payload ++ pad →
    readUpLanes st ups s =
      joinInbound ⟨st, kind, payload⟩
        { s with link := { s.link with
          stations := s.link.stations.set st { s.link.stations.get st with misses := 0 } } }) ∧
  (∀ (s : State) (c : Instr) (m : Inbound), s.Ready → messageOf c = some m →
    exec c s = .next (handleMessage m (sensed c s))) ∧
  (∀ (s : State) (up : UpFrame) (cal : Bool), s.running = true →
    (up.driver.valid = false ∧ up.passengerA.valid = false ∧ up.passengerB.valid = false ∧ up.modem.valid = false) →
    let begun : State := { s with calLine := cal, link := (linkFrameStarts s.link).2 }
    let silent := some (Four.all (0#16 : Sample))
    let ends := fun t : State =>
      (s.time.divFrames + 1 < 800 →
        exec (.frame up cal) s = .next { t with time := { t.time with divFrames := s.time.divFrames + 1 } }) ∧
      (s.time.divFrames + 1 = 800 → exec (.frame up cal) s = exec .tick t)
    (∀ x kind payload pad, s.link.reception = some x → s.link.inbound = [] → payload.length ≤ 56 →
      pad.length = payload.length % 2 → up.message.valid = true →
      receivedBytes x up =
        messageBytes 0#8 (BitVec.ofNat 8 (stationAddress x.station)) kind payload ++ pad →
      let m : Inbound := ⟨x.station, kind, payload⟩
      let received := fun q : List Inbound =>
        ({ begun with link := { begun.link with reception := none, inbound := q, mixed := silent } } : State)
      (begun.link.outbound.length < 16 → ends (handleMessage m (received []))) ∧
      (16 ≤ begun.link.outbound.length → ends (received [m]))) ∧
    (∀ m rest, s.link.reception = none → s.link.inbound = m :: rest → up.message.valid = false →
      up.answer = ⟨true, Config.idleCode⟩ →
      let t :=
        if begun.link.outbound.length < 16 then
          dispatchInbound (handleMessage m { begun with link := { begun.link with inbound := rest } })
        else begun
      ((chooseGrant s.link).1 = none → ends { t with link := { t.link with mixed := silent } }) ∧
      ∀ st, (chooseGrant s.link).1 = some st → (s.link.stations.get st).presence = .present →
        ends { t with link := { t.link with
          mixed := silent
          stations := s.link.stations.set st { s.link.stations.get st with misses := 0 } } }))

/-- A frame's effect on the station table: an answer, a silence, a truncation, or a message that is too long or bad changes the
record of the one station; a reception that goes on or ends good changes none (R8 to R12). And what a change of presence or
a failed reception brings in a frame with no message waiting, no microphone driven and no tick due: STATION FOUND when the
station was not PRESENT, with a SIGN SET for the roof sign (R135) and, for the modem with the bearer UP, online beginning
and its capture (R161, R170, R172); at the eighth miss STATION LOST when it was PRESENT, PIN entry OFF with the terminal
(R152), the bearer DOWN with the modem (R161), and a passenger off the floor with the displayed mode recomputed (R140, R148);
LINK CHECK at a check failure, of a length, a check, a destination or a source (R9, R11), and MESSAGE TRUNCATED at a
truncation, after what the miss brings when it is the eighth (R10, R12). Nothing else of the frame differs. That the event
comes before the blocks act is log 14, that the miss comes before MESSAGE TRUNCATED log 15; the CAPTURE's bytes are log 9. -/
def Obligations.FrameKeepsStationRecords : Prop :=
  (∀ (s : State) (up : UpFrame) (cal : Bool), s.running = true →
    ∃ t, exec (.frame up cal) s = .next t ∧
      (∀ st, s.link.reception = none → (chooseGrant s.link).1 = some st →
        (up.message.valid = true ∨ up.answer = ⟨true, Config.idleCode⟩ →
          t.link.stations =
            s.link.stations.set st { s.link.stations.get st with misses := 0, presence := .present }) ∧
        (up.message.valid = false → up.answer ≠ ⟨true, Config.idleCode⟩ →
          let r := s.link.stations.get st
          t.link.stations =
            s.link.stations.set st { r with
              misses := min 8 (r.misses + 1), missTotal := min 65535 (r.missTotal + 1)
              presence := if 8 ≤ r.misses + 1 then .absent else r.presence })) ∧
      (∀ x, s.link.reception = some x →
        let r := s.link.stations.get x.station
        let l := receivedBytes x up
        let n := (l.getD 3 0#8).toNat
        let failed := 4 ≤ l.length ∧
          (56 < n ∨ (6 + n ≤ l.length ∧
            ¬(crc16 (l.take (6 + n)) = 0#16 ∧ l.getD 0 0#8 = 0#8 ∧
              l.getD 1 0#8 = BitVec.ofNat 8 (stationAddress x.station))))
        (up.message.valid = false →
          t.link.reception = none ∧ t.link.stations =
            s.link.stations.set x.station { r with
              truncations := min 65535 (r.truncations + 1), misses := min 8 (r.misses + 1)
              missTotal := min 65535 (r.missTotal + 1)
              presence := if 8 ≤ r.misses + 1 then .absent else r.presence }) ∧
        (up.message.valid = true → failed →
          t.link.reception = none ∧ t.link.stations =
            s.link.stations.set x.station { r with checkFailures := min 65535 (r.checkFailures + 1) }) ∧
        (up.message.valid = true → ¬failed → t.link.stations = s.link.stations)) ∧
      (s.link.reception = none → (chooseGrant s.link).1 = none → t.link.stations = s.link.stations)) ∧
  (∀ (s : State) (up : UpFrame) (cal : Bool) (st : Station), s.running = true → s.link.orderly → s.link.inbound = [] →
    (up.driver.valid = false ∧ up.passengerA.valid = false ∧ up.passengerB.valid = false ∧ up.modem.valid = false) →
    s.time.divFrames + 1 < 800 → (chooseGrant s.link).1 = some st →
    let base := s.framed cal (.all 0#16)
    let r := s.link.stations.get st
    let ended := fun (r : StationRecord) (reception : Option Reception) =>
      ({ base with link := { base.link with stations := s.link.stations.set st r, reception := reception } } : State)
    let off := fun p => { releaseFloor p s.intercom with
      shownMode := shownModeOf (releaseFloor p s.intercom).floor (openFlagNow s) }
    let intercom : IntercomState :=
      match st with
      | .cardTerminal => { s.intercom with pin := none }
      | .passengerA => off .passengerA
      | .passengerB => off .passengerB
      | _ => s.intercom
    let pay := if st = .fleetModem then { s.pay with bearerUp := false } else s.pay
    (s.link.reception = none → r.presence ≠ .present → (up.message.valid = true ∨ up.answer = ⟨true, Config.idleCode⟩) →
      let found := ended { r with misses := 0, presence := .present }
        (if up.message.valid then some ⟨st, receivedBytes ⟨st, []⟩ up⟩ else none)
      (st ≠ .roofSign → (st ≠ .fleetModem ∨ s.pay.bearerUp = false) →
        ∃ t, exec (.frame up cal) s = .next t ∧ found.Occurs t [] [.stationFound] ∧ base.PlacesFollow t) ∧
      (st = .roofSign →
        ∃ t, exec (.frame up cal) s = .next t ∧ t.Signs ∧
          ({ found with
            sign := { s.sign with
              lastLegend := some (signLegend s.tables.unbanked (commandedSign s)).1.toNat, refresh := 0 } } : State).Occurs
            t [] [.stationFound]) ∧
      (st = .fleetModem → s.pay.bearerUp = true →
        (∀ ref n limit, s.pay.capture = .inFlight ref n limit →
          ∃ t, exec (.frame up cal) s = .next t ∧ found.Occurs t [] [.stationFound] ∧ base.PlacesFollow t) ∧
        ((s.pay.capture = .idle ∨ ∃ n interval, s.pay.capture = .waiting n interval) →
          (s.pay.deferred = [] →
            ∃ t, exec (.frame up cal) s = .next t ∧ base.PlacesFollow t ∧
              ({ found with pay := { s.pay with capture := .idle } } : State).Occurs t [] [.stationFound]) ∧
          ∀ e rest, s.pay.deferred = e :: rest →
            ∃ t, exec (.frame up cal) s = .next t ∧ base.PlacesFollow t ∧
              ({ found with
                pay := { s.pay with
                  capture := .inFlight e.ref 0 (authTimeoutSetting s.tables.unbanked) } } : State).Sends t [.stationFound]
                (noticesOf .stationFound s.disp ++
                  [⟨.fleetModem, kindCapture,
                    refBytes e.ref ++ beBytes 3 e.issuer ++ beBytes 1 e.cls ++ beBytes 3 e.farePart ++ beBytes 3 e.tip ++
                      (beBytes 2 e.time.day ++ beBytes 3 e.time.second) ++ beBytes 1 e.token.length ++ e.token⟩])))) ∧
    (s.link.reception = none → r.presence ≠ .absent → 8 ≤ r.misses + 1 → up.message.valid = false →
      up.answer ≠ ⟨true, Config.idleCode⟩ →
      let lost := ended
        { r with misses := 8, missTotal := min 65535 (r.missTotal + 1), presence := .absent } none
      ∃ t, exec (.frame up cal) s = .next t ∧
        ({ lost with intercom := intercom, pay := pay } : State).Occurs t []
          (if r.presence = .present then [.stationLost] else []) ∧
        t.link.signPlace = base.link.signPlace ∧
        (if intercom.shownMode = s.intercom.shownMode then base.PlacesFollow t else t.Shows)) ∧
    (∀ x, s.link.reception = some x →
      let cut := { r with
        truncations := min 65535 (r.truncations + 1), misses := min 8 (r.misses + 1)
        missTotal := min 65535 (r.missTotal + 1) }
      let l := receivedBytes x up
      let n := (l.getD 3 0#8).toNat
      let failed := 4 ≤ l.length ∧
        (56 < n ∨ (6 + n ≤ l.length ∧
          ¬(crc16 (l.take (6 + n)) = 0#16 ∧ l.getD 0 0#8 = 0#8 ∧ l.getD 1 0#8 = BitVec.ofNat 8 (stationAddress st))))
      (up.message.valid = false → (r.misses + 1 < 8 ∨ r.presence = .absent) →
        ∃ t, exec (.frame up cal) s = .next t ∧ base.PlacesFollow t ∧
          (ended cut none).Occurs t [] [.messageTruncated]) ∧
      (up.message.valid = false → 8 ≤ r.misses + 1 → r.presence ≠ .absent →
        ∃ t, exec (.frame up cal) s = .next t ∧
          ({ ended { cut with presence := .absent } none with intercom := intercom, pay := pay } : State).Occurs t []
            ((if r.presence = .present then [.stationLost] else []) ++ [.messageTruncated]) ∧
          t.link.signPlace = base.link.signPlace ∧
          (if intercom.shownMode = s.intercom.shownMode then base.PlacesFollow t else t.Shows)) ∧
      (up.message.valid = true → failed →
        ∃ t, exec (.frame up cal) s = .next t ∧ base.PlacesFollow t ∧
          (ended { r with checkFailures := min 65535 (r.checkFailures + 1) } none).Occurs t [] [.linkCheck])))

/-- FRAME on a quiet link: nothing received or waiting, the granted station PRESENT and answering IDLE, no microphone driven. The
frame is sent with its header and the last mix's samples, and counted; the arbiter, the down lane and the station's misses
advance; a mix of silence is handed on; and the divider counts the frame, or, when the frame brings the count to 800, the
tick of exec TICK occurs on that state. Nothing else changes (R1 to R4, R7, R8, R16, R52, R138; the level of the calibration
line is an operand, log 7). -/
def Obligations.QuietFrameCompletes : Prop :=
  ∀ (s : State) (st : Station) (cal : Bool), s.running = true → s.link.inbound = [] → s.link.reception = none →
    (chooseGrant s.link).1 = some st → (s.link.stations.get st).presence = .present →
    let chosen := chooseMessage (chooseGrant s.link).2
    let lane := laneSlot chosen.sending
    let sent : State :=
      { s with
        calLine := cal
        link :=
          { chosen with
            stations := s.link.stations.set st { s.link.stations.get st with misses := 0 }
            sending := lane.2.2, frameNumber := (s.link.frameNumber + 1) % 16, mixed := some (.all 0#16)
            lastFrame := some
              { header := frameHeader (some st) s.link.frameNumber lane.2.1, message := lane.1
                driver := audioSlot s.link.stations .meterHead (s.link.mixed.map (·.x0))
                passengerA := audioSlot s.link.stations .passengerA (s.link.mixed.map (·.x1))
                passengerB := audioSlot s.link.stations .passengerB (s.link.mixed.map (·.x2))
                modem := audioSlot s.link.stations .fleetModem (s.link.mixed.map (·.x3)) } } }
    (s.time.divFrames + 1 < 800 →
      exec (.frame idleFrame cal) s =
        .next { sent with time := { s.time with divFrames := s.time.divFrames + 1 } }) ∧
    (s.time.divFrames + 1 = 800 → exec (.frame idleFrame cal) s = exec .tick sent)

/-! The request dispatcher and events. -/

/-- One occurrence of an event (R25, R27): its flag; in an open shift the exception counters whose map entry holds the kind, the
station-lost and emergencies counts; the pending set of each destination whose mask holds the kind, and a NOTICE to each
whose set was empty, the meter head's first (the model's choice, log 27); a DISPLAY when the notice-pending indicator
changes. Nothing else changes. -/
def Obligations.EventOccurrence : Prop :=
  ∀ (s : State) (e : Event), s.link.orderly →
    s.Occurs (raise e s) [] [e] ∧
    (s.shifts.record = none → (raise e s).shifts = s.shifts) ∧
    (∀ r, s.shifts.record = some r → (raise e s).shifts.record =
      some { r with
        exceptions :=
          ⟨if e.isIn (exceptionKinds s.tables.unbanked 0) then min 65535 (r.exceptions.x0 + 1) else r.exceptions.x0,
            if e.isIn (exceptionKinds s.tables.unbanked 1) then min 65535 (r.exceptions.x1 + 1) else r.exceptions.x1,
            if e.isIn (exceptionKinds s.tables.unbanked 2) then min 65535 (r.exceptions.x2 + 1) else r.exceptions.x2,
            if e.isIn (exceptionKinds s.tables.unbanked 3) then min 65535 (r.exceptions.x3 + 1) else r.exceptions.x3⟩
        stationsLost := if e = .stationLost then min 65535 (r.stationsLost + 1) else r.stationsLost
        emergencies := if e = .emergency then min 65535 (r.emergencies + 1) else r.emergencies }) ∧
    (raise e s).link.signPlace = s.link.signPlace ∧
    (if noticeIndicator s.disp.headPending = noticeIndicator (raise e s).disp.headPending then
      (raise e s).link.displayPlace = s.link.displayPlace
    else (raise e s).Shows)

/-- A message of unknown kind is answered UNKNOWN_KIND, and a request of a source that may not send it REFUSED_PERMISSION,
with no data; nothing else changes (R19, R20, R21). A message of a kind that only the controller sends, a report of a source
that may not send it, and a report whose payload has not its form are discarded: LINK CHECK occurs once, no reply is sent,
and nothing else changes but the DISPLAY of a changed notice-pending indicator (R21, R22). A message command with a full
outbound queue waits at the tail of the inbound queue, and with no free inbound place it has no effect (R13, log 3); the
dispatcher takes the oldest waiting message first, and none while the outbound queue is full (R13, R19). -/
def Obligations.MessagesTurnedAway : Prop :=
  (∀ s : State, s.Ready →
     (∀ src kind payload, classify kind = .unknown →
       exec (.unknownKind src kind payload) s = .next (s.answered src kind .unknownKind [])) ∧
     (∀ (c : Instr) (m : Inbound) (r : Request), messageOf c = some m → classify m.kind = .request r →
       mayRequest m.src r = false →
       exec c s = .next ((sensed c s).answered m.src m.kind .refusedPermission []))) ∧
  (∀ s : State, s.Ready →
     (∀ src kind payload, classify kind = .controllerOnly →
       ∃ t, exec (.controllerKindDiscard src kind payload) s = .next t ∧ s.Occurs t [] [.linkCheck] ∧ s.PlacesFollow t) ∧
     (∀ (c : Instr) (m : Inbound) (r : ReportKind), messageOf c = some m → classify m.kind = .report r →
       (mayReport m.src r = false ∨ reportFormOk r m.payload = false) →
       ∃ t, exec c s = .next t ∧ s.Occurs t [] [.linkCheck] ∧ s.PlacesFollow t)) ∧
  (∀ (s : State) (c : Instr) (m : Inbound), s.running = true → messageOf c = some m →
     let places := s.link.inbound.length + (if s.link.reception.isSome then 1 else 0)
     (16 ≤ s.link.outbound.length → places < 8 →
       exec c s = .next { sensed c s with link := { s.link with inbound := s.link.inbound ++ [m] } }) ∧
     (8 ≤ places → exec c s = .next (sensed c s))) ∧
  (∀ s : State,
     (s.link.outbound.length < 16 → ∀ m rest, s.link.inbound = m :: rest →
       dispatchInbound s = dispatchInbound (handleMessage m { s with link := { s.link with inbound := rest } })) ∧
     (16 ≤ s.link.outbound.length → dispatchInbound s = s))

/-- STATUS READ part 1 answers with the summary and empties the requester's pending set alone, with a DISPLAY when the
notice-pending indicator falls: pending set, flags, meter state, six presences, active version, a pending activation's version
and timing, clock, CLOCK UNSET, emergency, deferred entries and deferred total; part 2 answers with the totals of the six
stations; any other payload is refused with BAD_VALUE. Nothing else changes (R27, R29). The widths of the answers' fields are
log 9. -/
def Obligations.StatusReadAnswers : Prop :=
  ∀ s : State, s.Ready →
    let summary := fun pending : EventSet =>
      eventSetBytes pending ++ eventSetBytes s.disp.flags ++ [s.meter.code] ++
        ([Station.meterHead, .roofSign, .cardTerminal, .fleetModem, .passengerA, .passengerB].map fun st =>
          (s.link.stations.get st).presence.code) ++
        beBytes 2 s.tables.activeVersion ++
        (match s.tables.pendingActivation with
          | some version => beBytes 2 version ++ [1#8]
          | none => []) ++
        beBytes 2 s.time.day ++ beBytes 3 s.time.second ++
        [if s.time.clockUnset then 1#8 else 0#8, if s.sign.emergency.isSome then 1#8 else 0#8] ++
        beBytes 1 s.pay.deferred.length ++ beBytes 4 (s.pay.deferred.map fun e => e.farePart + e.tip).sum
    (∃ t, exec (.statusRead .meterHead [1#8]) s = .next t ∧
      ({ s with disp := { s.disp with headPending := 0#24 } } : State).Occurs t
        [replyMessage .meterHead 5#8 .ok (summary s.disp.headPending)] [] ∧
      t.link.signPlace = s.link.signPlace ∧
      (if noticeIndicator s.disp.headPending then t.Shows else t.link.displayPlace = s.link.displayPlace)) ∧
    exec (.statusRead .fleetModem [1#8]) s = .next
      { s.answered .fleetModem 5#8 .ok (summary s.disp.modemPending) with
        disp := { s.disp with modemPending := 0#24 } } ∧
    ∀ src, src = .meterHead ∨ src = .fleetModem →
      exec (.statusRead src [2#8]) s = .next
        (s.answered src 5#8 .ok
          (s.link.stations.all.flatMap fun r =>
            beBytes 2 r.checkFailures ++ beBytes 2 r.truncations ++ beBytes 2 r.missTotal)) ∧
      ∀ payload, payload ≠ [1#8] → payload ≠ [2#8] →
        exec (.statusRead src payload) s = .next (s.answered src 5#8 .badValue [])

/-- NOTICE MASK of the fleet modem: SET adds the carried kinds to the named destination's mask and CLEAR removes them; the
REPLY carries the resulting mask; another destination, choice or length is refused with BAD_VALUE; the pending sets and all
else stay (R28). FLAGS CLEAR of the fleet modem clears the flags of the carried kinds alone, and the REPLY carries the flags
after the clear; another length is refused with BAD_VALUE; masks, pending sets, counters and all else stay (R30). No other
station may send either (R20 to R22). The one-byte fields and the payload lengths that follow from them are log 9. -/
def Obligations.NoticeMaskAndFlagsClear : Prop :=
  (∀ s : State, s.Ready →
     (∀ b2 b1 b0 : Byte,
       let kinds : EventSet := (b2 ++ b1 ++ b0 : BitVec 24)
       exec (.noticeMask .fleetModem [1#8, 0#8, b2, b1, b0]) s = .next
         { s.answered .fleetModem 6#8 .ok (eventSetBytes (s.disp.headMask ||| kinds)) with
           disp := { s.disp with headMask := s.disp.headMask ||| kinds } } ∧
       exec (.noticeMask .fleetModem [1#8, 1#8, b2, b1, b0]) s = .next
         { s.answered .fleetModem 6#8 .ok (eventSetBytes (s.disp.headMask &&& ~~~kinds)) with
           disp := { s.disp with headMask := s.disp.headMask &&& ~~~kinds } } ∧
       exec (.noticeMask .fleetModem [4#8, 0#8, b2, b1, b0]) s = .next
         { s.answered .fleetModem 6#8 .ok (eventSetBytes (s.disp.modemMask ||| kinds)) with
           disp := { s.disp with modemMask := s.disp.modemMask ||| kinds } } ∧
       exec (.noticeMask .fleetModem [4#8, 1#8, b2, b1, b0]) s = .next
         { s.answered .fleetModem 6#8 .ok (eventSetBytes (s.disp.modemMask &&& ~~~kinds)) with
           disp := { s.disp with modemMask := s.disp.modemMask &&& ~~~kinds } }) ∧
     (∀ payload, (payload.length ≠ 5 ∨ (payload.head? ≠ some 1#8 ∧ payload.head? ≠ some 4#8) ∨
         (payload[1]? ≠ some 0#8 ∧ payload[1]? ≠ some 1#8)) →
       exec (.noticeMask .fleetModem payload) s = .next (s.answered .fleetModem 6#8 .badValue [])) ∧
     (∀ src payload, src ≠ .fleetModem →
       exec (.noticeMask src payload) s = .next (s.answered src 6#8 .refusedPermission []))) ∧
  (∀ s : State, s.Ready →
     (∀ b2 b1 b0 : Byte,
       let flags : EventSet := s.disp.flags &&& ~~~(b2 ++ b1 ++ b0 : BitVec 24)
       exec (.flagsClear .fleetModem [b2, b1, b0]) s = .next
         { s.answered .fleetModem 7#8 .ok (eventSetBytes flags) with disp := { s.disp with flags := flags } }) ∧
     (∀ payload, payload.length ≠ 3 →
       exec (.flagsClear .fleetModem payload) s = .next (s.answered .fleetModem 7#8 .badValue [])) ∧
     (∀ src payload, src ≠ .fleetModem →
       exec (.flagsClear src payload) s = .next (s.answered src 7#8 .refusedPermission [])))

/-! The table store. -/

/-- TABLE WRITE, field by field of its payload: table, bank, first index, count and mask, then the contents (R35). The entries
are count indices from the first, wrapping within its aligned group of four positions; the items are the groups of the mask of
each entry in turn, cut from the contents. When a test of R36 fails, the REPLY is BAD_VALUE and nothing changes. Otherwise
every item replaces that group of STANDBY, or that entry of an unbanked table, which is then valid; no place is named twice;
every other group and entry, ACTIVE and its version stay; a pending activation is cancelled by a write of STANDBY whose mask
is not empty, and the REPLY tells so; table 9 places a SIGN SET (R37, R43, R127). The REPLY's one-byte field is log 9. -/
def Obligations.TableWriteStores : Prop :=
  ∀ s : State, s.Ready →
    let refused := fun payload =>
      exec (.tableWrite .fleetModem payload) s = .next (s.answered .fleetModem 8#8 .badValue [])
    (∀ payload, payload.length < 5 → refused payload) ∧
    ∀ (table bank first count mask : Byte) (contents : List Byte),
      let payload := [table, bank, first, count, mask] ++ contents
      (tableFormat table.toNat = none → refused payload) ∧
      ∀ f, tableFormat table.toNat = some f →
        let position := first.toNat - f.first
        let entries := (List.range count.toNat).map fun j => f.first + (position / 4 * 4 + (position % 4 + j) % 4)
        let groups := (List.range f.groups.length).filter fun g => mask.toNat / 2 ^ g % 2 = 1
        let places := entries.flatMap fun i => groups.map fun g => (i, g)
        let lengthOf := fun g => groupBytes (f.groups.getD g [])
        let banked := isBanked table.toNat
        let named := bank = (if banked then 1#8 else 0#8) ∧ 1 ≤ count.toNat ∧ count.toNat ≤ 4 ∧
          (∀ i ∈ first.toNat :: entries, f.first ≤ i ∧ i < f.first + f.count) ∧ mask.toNat < 2 ^ f.groups.length
        (¬named → refused payload) ∧
        (contents.length ≠ count.toNat * (groups.map lengthOf).sum → refused payload) ∧
        (named → contents.length = count.toNat * (groups.map lengthOf).sum →
          ∃ items : List WriteItem,
            (items.map fun x => (x.index, x.group)) = places ∧ places.Nodup ∧ items.flatMap (·.bytes) = contents ∧
            (∀ x ∈ items, x.bytes.length = lengthOf x.group) ∧
            let inRange := fun x : WriteItem => groupInRange table.toNat x.group (f.groups.getD x.group []) x.bytes
            ((∃ x ∈ items, inRange x = false) → refused payload) ∧
            ((∀ x ∈ items, inRange x = true) →
              let cancelled := banked && mask != 0#8 && s.tables.pendingActivation.isSome
              let told := s.answered .fleetModem 8#8 .ok [boolByte cancelled]
              ∃ t, exec (.tableWrite .fleetModem payload) s = .next t ∧
                t.tables = { s.tables with
                  standby := t.tables.standby, unbanked := t.tables.unbanked
                  pendingActivation := if cancelled then none else s.tables.pendingActivation } ∧
                (if banked then t.tables.unbanked = s.tables.unbanked else t.tables.standby = s.tables.standby) ∧
                (banked = true → ∀ k, Bank.find k t.tables.standby =
                  match items.find? fun x => cellKey table.toNat x.index x.group = k with
                  | some x => some x.bytes
                  | none => Bank.find k s.tables.standby) ∧
                (banked = false → ∀ tb i, i < 256 →
                  (unbankedEntry t.tables.unbanked tb i, unbankedValid t.tables.unbanked tb i) =
                    match items.find? fun x => tb = table.toNat ∧ x.index = i with
                    | some x => (x.bytes, true)
                    | none => (unbankedEntry s.tables.unbanked tb i, unbankedValid s.tables.unbanked tb i)) ∧
                (table ≠ 9#8 → t = { told with tables := t.tables }) ∧
                (table = 9#8 →
                  let entry := signLegend t.tables.unbanked (commandedSign s)
                  t = { told with
                    tables := t.tables
                    link := { told.link with
                      signPlace := some ⟨.roofSign, kindSignSet,
                        [entry.1, entry.2, BitVec.ofNat 8 s.sign.level,
                          boolByte (s.sign.lastLegend != some entry.1.toNat)]⟩ }
                    sign := { s.sign with lastLegend := some entry.1.toNat, refresh := 0 } })))

/-- TABLE CLEAR: the named range of entries of a banked table leaves STANDBY and cancels a pending activation, which the REPLY
tells; an unbanked table goes back to its defaults, table 9 with a SIGN SET; every other entry stays; an unknown table, a bank that
does not match the table, a range that fails the checks and another length are refused with BAD_VALUE (R38, R43, R44, R127). The REPLY's one-byte field is log 9. -/
def Obligations.TableClearRemoves : Prop :=
  (∀ (s : State) (payload : List Byte), s.Ready →
    let refused := exec (.tableClear .fleetModem payload) s = .next (s.answered .fleetModem 9#8 .badValue [])
    (payload.length ≠ 4 → refused) ∧
    ∀ table bank first last : Byte, payload = [table, bank, first, last] →
      (table.toNat < 1 ∨ 16 < table.toNat → refused) ∧
      (1 ≤ table.toNat → table.toNat ≤ 8 → bank ≠ 1#8 → refused) ∧
      (9 ≤ table.toNat → table.toNat ≤ 16 → bank ≠ 0#8 → refused)) ∧
  ∀ (s : State) (table first last : Byte) (f : TableFormat), s.Ready → tableFormat table.toNat = some f →
    (isBanked table.toNat = true → isIndex f first.toNat = true → isIndex f last.toNat = true → first.toNat ≤ last.toNat →
      ∃ t, exec (.tableClear .fleetModem [table, 1#8, first, last]) s = .next t ∧
        t = { s.answered .fleetModem 9#8 .ok [boolByte s.tables.pendingActivation.isSome] with
          tables := { s.tables with standby := t.tables.standby, pendingActivation := none } } ∧
        ∀ tb i g, i < 256 → g < 8 → Bank.find (cellKey tb i g) t.tables.standby =
          if tb = table.toNat ∧ first.toNat ≤ i ∧ i ≤ last.toNat then none else Bank.find (cellKey tb i g) s.tables.standby) ∧
    (isBanked table.toNat = false →
      ∃ t, exec (.tableClear .fleetModem [table, 0#8, first, last]) s = .next t ∧
        (table ≠ 9#8 → t = { s.answered .fleetModem 9#8 .ok [0#8] with
          tables := { s.tables with unbanked := t.tables.unbanked } }) ∧
        (table = 9#8 →
          let told := s.answered .fleetModem 9#8 .ok [0#8]
          let entry := signLegend t.tables.unbanked (commandedSign s)
          t = { told with
            tables := { s.tables with unbanked := t.tables.unbanked }
            link := { told.link with
              signPlace := some ⟨.roofSign, kindSignSet,
                [entry.1, entry.2, BitVec.ofNat 8 s.sign.level, boolByte (s.sign.lastLegend != some entry.1.toNat)]⟩ }
            sign := { s.sign with lastLegend := some entry.1.toNat, refresh := 0 } }) ∧
        ∀ tb i, i < 256 → Bank.find (cellKey tb i 0) t.tables.unbanked =
          if tb = table.toNat then none else Bank.find (cellKey tb i 0) s.tables.unbanked) ∧
    (isBanked table.toNat = true →
      (isIndex f first.toNat = false ∨ isIndex f last.toNat = false ∨ last.toNat < first.toNat) →
      ∀ bank, exec (.tableClear .fleetModem [table, bank, first, last]) s =
        .next (s.answered .fleetModem 9#8 .badValue []))

/-- TABLE READ answers with the data of the named entries and groups, the active version before them for ACTIVE, and changes
nothing else; a read of an unknown table, a wrong bank or another length, one that names what does not exist, and one whose
data would exceed 54 bytes, are refused with BAD_VALUE (R39). The reads of the payment controller and the shift accounting
unit answer what they name, in the form of their rules, refuse a bad length, position, page or number with BAD_VALUE and a missing one with NOT_FOUND, and change nothing but the outbound queue
(R174, R185, R189). The widths of the messages' fields are log 9; the zero contents of an entry of table 10 or 12 that is not
valid are log 22. -/
def Obligations.ReadsAnswerAndKeep : Prop :=
  (∀ (s : State) (src : Station) (payload : List Byte), s.Ready → src = .meterHead ∨ src = .fleetModem →
     let refused := exec (.tableRead src payload) s = .next (s.answered src 10#8 .badValue [])
     (payload.length ≠ 5 → refused) ∧
     (∀ table bank first count mask : Byte, payload = [table, bank, first, count, mask] →
       (table.toNat < 1 ∨ 16 < table.toNat → refused) ∧
       (1 ≤ table.toNat → table.toNat ≤ 8 → bank ≠ 1#8 → bank ≠ 2#8 → refused) ∧
       (9 ≤ table.toNat → table.toNat ≤ 16 → bank ≠ 0#8 → refused)) ∧
     (payload.length ≠ 1 →
       exec (.deferredRead .fleetModem payload) s = .next (s.answered .fleetModem 17#8 .badValue [])) ∧
     (payload.length ≠ 2 → exec (.journalRead src payload) s = .next (s.answered src 18#8 .badValue [])) ∧
     (payload.length ≠ 3 →
       exec (.reportRead .fleetModem payload) s = .next (s.answered .fleetModem 19#8 .badValue []))) ∧
  (∀ (s : State) (src : Station) (table bank first count mask : Byte) (f : TableFormat), s.Ready →
     (src = .meterHead ∨ src = .fleetModem) → tableFormat table.toNat = some f →
     let length := (if bank = 2#8 then 2 else 0) + count.toNat * (1 + maskLength f mask.toNat)
     let answer := fun r data => exec (.tableRead src [table, bank, first, count, mask]) s =
       .next (s.answered src 10#8 r data)
     ((if isBanked table.toNat then bank = 1#8 ∨ bank = 2#8 else bank = 0#8) →
       namesExist f first.toNat count.toNat mask.toNat = true → length ≤ 54 →
       answer .ok ((if bank = 2#8 then beBytes 2 s.tables.activeVersion else []) ++
         (namedEntries f first.toNat count.toNat).flatMap
           (readEntry s.tables f table.toNat bank.toNat mask.toNat))) ∧
     (namesExist f first.toNat count.toNat mask.toNat = false ∨ 54 < length → answer .badValue [])) ∧
  (∀ (s : State) (a b c : Byte) (src : Station), s.Ready → src = .meterHead ∨ src = .fleetModem →
     (exec (.deferredRead .fleetModem [a]) s = .next
       (if 15 < a.toNat then s.answered .fleetModem 17#8 .badValue []
       else s.answered .fleetModem 17#8 .ok
         (beBytes 1 s.pay.deferred.length ++ beBytes 4 (s.pay.deferred.map fun e => e.farePart + e.tip).sum ++
           [s.pay.capture.code] ++
           ((s.pay.deferred.drop a.toNat).take 2).flatMap fun e =>
             refBytes e.ref ++ beBytes 1 e.cls ++ beBytes 3 e.farePart ++ beBytes 3 e.tip ++ beBytes 2 e.time.day ++
               beBytes 3 e.time.second))) ∧
     (exec (.journalRead src [a, b]) s = .next
       (if 47 < a.toNat ∨ 3 < b.toNat then s.answered src 18#8 .badValue []
       else match s.shifts.journal[a.toNat]? with
         | none => s.answered src 18#8 .notFound (beBytes 1 s.shifts.journal.length)
         | some e => s.answered src 18#8 .ok
           (beBytes 1 a.toNat ++ beBytes 1 s.shifts.journal.length ++ beBytes 2 e.trip.shiftNumber ++
             beBytes 2 e.trip.tripNumber ++ beBytes 1 b.toNat ++ beBytes 1 4 ++
             ((journalBytes e).drop (44 * b.toNat)).take 44))) ∧
     (exec (.reportRead .fleetModem [a, b, c]) s = .next
       (let number := a.toNat * 256 + b.toNat
       if number = 0 ∨ 3 < c.toNat then s.answered .fleetModem 19#8 .badValue []
       else match s.shifts.reports.find? fun r => r.record.number = number with
         | none => s.answered .fleetModem 19#8 .notFound
           (beBytes 2 (match s.shifts.reports with | r :: _ => r.record.number | [] => 0))
         | some r => s.answered .fleetModem 19#8 .ok
           (beBytes 2 number ++ beBytes 1 c.toNat ++ beBytes 1 4 ++ beBytes 1 s.shifts.reports.length ++
             ((reportBytes r).drop (44 * c.toNat)).take 44))))

/-- TABLE ACTIVATE: another length or timing is refused with BAD_VALUE; a failing STANDBY is answered BAD_TABLE with the table
and index; outside a trip STANDBY becomes ACTIVE with
the version, the shift's activations rise, ACTIVATION DONE occurs and the calendar state is recomputed; in a trip NOW is
refused with REFUSED_STATE and AT TRIP END is recorded as pending (R41, R42). Validation finds the failing entry of lowest
table and index, over valid entries: a tariff whose segment starts do not begin at 0 and rise strictly, or with a ZONE base
row above 28; a selection entry or a stage default whose TARIFF is not valid; a fallback that is no TARIFF of a valid tariff or
not valid; a calendar range with a minute past the week (R40). The calendar state recomputed is spelled in
BoundaryAndZoneOccasions (R55, R56, R58); the widths of the messages' fields are log 9. -/
def Obligations.TableActivateOutcomes : Prop :=
  (∀ b : Bank,
    let start := fun i k => fieldAt (b.group 1 i k) 0 3
    let segments := fun i => fieldAt (b.group 1 i 0) 9 1
    let names := fun l : List Byte => fieldAt l 0 1 = 1 ∧ b.valid 1 (fieldAt l 1 1) = true
    let dangles := fun l : List Byte => fieldAt l 0 1 = 1 ∧ b.valid 1 (fieldAt l 1 1) = false
    let fails := fun table i : Nat =>
      (table = 1 ∧ 1 ≤ i ∧ i ≤ 16 ∧ b.valid 1 i = true ∧
        ¬(1 ≤ segments i ∧ start i 1 = 0 ∧ (∀ k, 1 ≤ k → k < segments i → start i k < start i (k + 1)) ∧
          (fieldAt (b.group 1 i 5) 0 1 = 3 → fieldAt (b.group 1 i 5) 1 1 + 3 ≤ 31))) ∨
      (table = 2 ∧ i ≤ 63 ∧ b.valid 2 i = true ∧ dangles (b.group 2 i 1)) ∨
      (table = 3 ∧ i ≤ 2 ∧ b.valid 3 i = true ∧ dangles (b.group 3 i 0)) ∨
      (table = 3 ∧ i = 3 ∧ ¬(b.valid 3 3 = true ∧ names (b.group 3 3 0))) ∨
      (table = 4 ∧ i ≤ 7 ∧ b.valid 4 i = true ∧
        ¬(fieldAt (b.group 4 i 0) 0 2 ≤ 10079 ∧ fieldAt (b.group 4 i 0) 2 2 ≤ 10079))
    (validate b = none ↔ ∀ table i, ¬fails table i) ∧
    ∀ table i, validate b = some (table, i) ↔
      fails table i ∧ ∀ table' i', fails table' i' → table < table' ∨ (table = table' ∧ i ≤ i')) ∧
  (∀ (s : State) (payload : List Byte), s.Ready →
    (payload.length ≠ 3 ∨ ∃ hi lo timing : Byte, payload = [hi, lo, timing] ∧ 1 < timing.toNat) →
      exec (.tableActivate .fleetModem payload) s = .next (s.answered .fleetModem 11#8 .badValue [])) ∧
  ∀ (s : State) (hi lo timing : Byte), s.Ready → timing = 0#8 ∨ timing = 1#8 →
    let version := hi.toNat * 256 + lo.toNat
    (∀ table index, validate s.tables.standby = some (table, index) →
      exec (.tableActivate .fleetModem [hi, lo, timing]) s = .next
        (s.answered .fleetModem 11#8 .badTable (beBytes 1 table ++ beBytes 1 index))) ∧
    (validate s.tables.standby = none → inTrip s = false →
      ∃ t, exec (.tableActivate .fleetModem [hi, lo, timing]) s = .next t ∧ s.PlacesFollow t ∧
        (recomputeCalendar { s with
          tables := { s.tables with active := s.tables.standby, activeVersion := version }
          shifts := { s.shifts with
            record := s.shifts.record.map fun r => { r with activations := min 65535 (r.activations + 1) } } }).Occurs t
          [replyMessage .fleetModem 11#8 .ok [0#8]] [.activationDone]) ∧
    (validate s.tables.standby = none → inTrip s = true → timing = 0#8 →
      exec (.tableActivate .fleetModem [hi, lo, timing]) s = .next (s.answered .fleetModem 11#8 .refusedState [])) ∧
    (validate s.tables.standby = none → inTrip s = true → timing = 1#8 →
      exec (.tableActivate .fleetModem [hi, lo, timing]) s = .next
        { s.answered .fleetModem 11#8 .ok [1#8] with
          tables := { s.tables with pendingActivation := some version } })

/-! The timebase. -/

/-- CALIBRATE: with the line asserted, in CLOSED and a K of 200 to 50,000, K changes and the REPLY carries the K before and the
lifetime odometer; else the first failing test of length, line, state and range answers, and K stays. Nothing else changes
(R47; the line's level as an operand is log 7, the widths of the REPLY's fields log 9). -/
def Obligations.CalibrateSetsK : Prop :=
  ∀ (s : State) (src : Station) (cal : Bool), s.Ready → (src = .meterHead ∨ src = .fleetModem) →
    let sensed : State := { s with calLine := cal }
    let answer := fun payload r => exec (.calibrate src cal payload) s = .next (sensed.answered src 12#8 r [])
    (∀ payload, payload.length ≠ 2 → answer payload .badValue) ∧
    ∀ hi lo : Byte,
      let k := hi.toNat * 256 + lo.toNat
      (cal = false → answer [hi, lo] .calibrationLocked) ∧
      (cal = true → s.meter ≠ .closed → answer [hi, lo] .refusedState) ∧
      (cal = true → s.meter = .closed → (k < 200 ∨ 50000 < k) → answer [hi, lo] .badValue) ∧
      (cal = true → s.meter = .closed → 200 ≤ k → k ≤ 50000 →
        exec (.calibrate src cal [hi, lo]) s = .next
          { sensed.answered src 12#8 .ok (beBytes 2 s.time.k ++ beBytes 4 s.time.lifetime) with
            time := { s.time with k := k } })

/-- CLOCK SET outside a trip: the clock takes the carried time at a whole second, CLOCK UNSET is cleared, the calendar state and
the alarm are recomputed, and the REPLY carries the clock before; a DISPLAY is placed when the minute of day or the mark
changes (log 18). A second above 86,399 and another length are refused with BAD_VALUE, and in a trip it is refused with
REFUSED_STATE (R54, R57, R123). The calendar state and alarm recomputed are
spelled in BoundaryAndZoneOccasions (R55, R56, R58); the widths of the REPLY's fields are log 9. -/
def Obligations.ClockSetSetsClock : Prop :=
  (∀ (s : State) (payload : List Byte), s.Ready → payload.length ≠ 5 →
    exec (.clockSet .fleetModem payload) s = .next (s.answered .fleetModem 13#8 .badValue [])) ∧
  ∀ (s : State) (d1 d0 t2 t1 t0 : Byte), s.Ready →
    let day := d1.toNat * 256 + d0.toNat
    let second := t2.toNat * 65536 + t1.toNat * 256 + t0.toNat
    let command := Instr.clockSet .fleetModem [d1, d0, t2, t1, t0]
    (86400 ≤ second → exec command s = .next (s.answered .fleetModem 13#8 .badValue [])) ∧
    (second < 86400 → (s.meter = .hired ∨ s.meter = .settling) →
      exec command s = .next (s.answered .fleetModem 13#8 .refusedState [])) ∧
    (second < 86400 → s.meter ≠ .hired → s.meter ≠ .settling →
      ∃ t, exec command s = .next t ∧ t.link.signPlace = s.link.signPlace ∧
        (recomputeCalendar { s with
          time := { s.time with day := day, second := second, subSecond := 0, clockUnset := false } }).Occurs t
          [replyMessage .fleetModem 13#8 .ok (beBytes 2 s.time.day ++ beBytes 3 s.time.second)] [] ∧
        (if s.time.second / 60 = second / 60 ∧ s.time.clockUnset = false then
          t.link.displayPlace = s.link.displayPlace else t.Shows))

/-- WALL_CLOCK_SECOND: the second of day advances, with carry into the day number; while frames run a DISPLAY is placed at a new
minute, and at the alarm the boundary fires; without the main supply the clock alone advances (R53, R58, R59, R123). -/
def Obligations.ClockSecondAdvances : Prop :=
  ∀ s : State, s.time.second < 86400 →
    let time : TimeState :=
      if s.time.second = 86399 then { s.time with second := 0, day := (s.time.day + 1) % 65536, subSecond := 0 }
      else { s.time with second := s.time.second + 1, subSecond := 0 }
    (s.running = false → exec .wallClockSecond s = .next { s with time := time }) ∧
    (s.running = true → ¬(time.day = s.time.alarmDay ∧ time.second = s.time.alarmSecond) →
      exec .wallClockSecond s = .next
        (if s.time.second % 60 = 59 then placeDisplay { s with time := time } else { s with time := time })) ∧
    (s.running = true → time.day = s.time.alarmDay → time.second = s.time.alarmSecond →
      exec .wallClockSecond s =
        exec .boundaryAlarm
          (if s.time.second % 60 = 59 then placeDisplay { s with time := time } else { s with time := time }))

/-- ODOMETER_PULSE: counted to the lifetime odometer alone when the window K is 0; accepted below the budget, counting in the
window, the lifetime odometer and the open shift, and in HIRED in the trip, whose distance counter falls by 1; rejected at
the budget, with ODO CLAMP at the window's first rejection (R49, R51, R86, R179). An accepted pulse that brings the distance
counter to 0 is an expiry. -/
def Obligations.OdometerPulseOutcomes : Prop :=
  ∀ s : State, s.running = true →
    let counted : TimeState := { s.time with lifetime := min 4294967295 (s.time.lifetime + 1) }
    let accepted : TimeState := { counted with accepted := s.time.accepted + 1 }
    let shifted := fun (paid : Nat → Nat) => ({ s.shifts with
      record := s.shifts.record.map fun r =>
        { r with totalPulses := min 4294967295 (r.totalPulses + 1), paidPulses := paid r.paidPulses } } : ShiftState)
    (s.time.windowK = 0 → exec .odometerPulse s = .next { s with time := counted }) ∧
    (s.time.windowK ≠ 0 → s.time.accepted < s.time.budget →
      (s.meter ≠ .hired →
        exec .odometerPulse s = .next { s with time := accepted, shifts := shifted id }) ∧
      ∀ tr, s.meter = .hired → s.trip = some tr →
        let pulsed : Trip := { tr with pulses := min 4294967295 (tr.pulses + 1) }
        (tr.dc = none →
          exec .odometerPulse s = .next
            { s with time := accepted, trip := some pulsed, shifts := shifted fun n => min 4294967295 (n + 1) }) ∧
        (∀ n, tr.dc = some (n + 2) →
          exec .odometerPulse s = .next
            { s with
              time := accepted, trip := some { pulsed with dc := some (n + 1) }
              shifts := shifted fun n => min 4294967295 (n + 1) }) ∧
        (tr.dc = some 1 →
          exec .odometerPulse s = .next
            (shiftPulse (expire .distance { s with time := accepted, trip := some pulsed })))) ∧
    (s.time.windowK ≠ 0 → s.time.budget ≤ s.time.accepted →
      (s.time.clampMark = true → exec .odometerPulse s = .next s) ∧
      (s.time.clampMark = false → s.link.orderly →
        ∃ t, exec .odometerPulse s = .next t ∧ s.PlacesFollow t ∧
          ({ s with time := { s.time with clampMark := true } } : State).Occurs t [] [.odoClamp]))

/-- TICK, part by part (R52, R87, R129): the frame count becomes 0; in HIRED an active time counter falls by 1, and the tick that
brings it to 0 is its TIME_EXPIRY; while the line is asserted an active debounce count rises, and the twentieth tick is its
EMERGENCY_DEBOUNCE_COMPLETE; the tick count rises, and the tenth tick is a FARE_SECOND. Nothing else changes. The order of the
fare engine, the debounce and the tick count is the model's choice (log 5), and so is TICK as a command of its own (log 2). -/
def Obligations.TickCounts : Prop :=
  ∀ s : State, s.running = true →
    let started : State := { s with time := { s.time with divFrames := 0 } }
    ∃ t u v, exec .tick s = .next t ∧
      (s.meter ≠ .hired → u = started) ∧
      (∀ tr, s.meter = .hired → s.trip = some tr →
        (tr.tc = none → u = started) ∧
        (∀ n, tr.tc = some (n + 2) → u = { started with trip := some { tr with tc := some (n + 1) } }) ∧
        (tr.tc = some 1 → exec .timeExpiry started = .next u)) ∧
      (s.sign.emergency ≠ none ∨ s.sign.debounce = none ∨ s.emgLine = false → v = u) ∧
      (∀ n, s.sign.emergency = none → s.sign.debounce = some n → s.emgLine = true →
        (n + 1 < 20 → v = { u with sign := { s.sign with debounce := some (n + 1) } }) ∧
        (20 ≤ n + 1 → exec .emergencyDebounceComplete u = .next v)) ∧
      v.time = started.time ∧
      (s.time.divTicks + 1 < 10 → t = { v with time := { s.time with divFrames := 0, divTicks := s.time.divTicks + 1 } }) ∧
      (10 ≤ s.time.divTicks + 1 → exec .fareSecond v = .next t)

/-- FARE_SECOND, part by part: the divider starts again, and the window ends with its speed and the next begins, with a DISPLAY when
the speed changes (R48, R50, R52); in HIRED the hired seconds rise and a DISPLAY is placed (R115); the refresh and stepping
counts rise or fall due (R128, R134); the clip marks are cleared (R143); the hold and PIN counts rise or fall due (R147,
R152); the capture, late list and authorization timers count, and expire at their limits (R160, R163, R166, R170, R172).
Each part that falls due is the command of that name. Outside HIRED, with no payment timer, step or hold due, what then stands
is said field by field. The order of the parts is the model's choice (log 5, 6, 23), and so are these as commands (log 2). -/
def Obligations.FareSecondAdvancesTimers : Prop :=
  (∀ s : State, s.running = true →
    let speed := if s.time.windowK = 0 then 0 else s.time.accepted * 3600 / s.time.windowK
    let windowed : State :=
      { s with time := { s.time with
        divFrames := 0, divTicks := 0, speed := speed, windowK := s.time.k, accepted := 0, clampMark := false
        budget := if s.time.k = 0 then 0 else (vmaxSetting s.tables.unbanked * s.time.k + 3599) / 3600 } }
    let shown := if speed = s.time.speed then windowed else placeDisplay windowed
    let hired := if s.meter = .hired then
        placeDisplay { shown with
          trip := s.trip.map fun tr => { tr with hiredSeconds := min 4294967295 (tr.hiredSeconds + 1) } }
      else shown
    ∃ a b c d e t : State, exec .fareSecond s = .next t ∧
      (s.sign.refresh + 1 < 5 → a = { hired with sign := { s.sign with refresh := s.sign.refresh + 1 } }) ∧
      (5 ≤ s.sign.refresh + 1 → exec .signRefreshDue hired = .next a) ∧
      (s.sign.stepping + 1 < 2 → b = { a with sign := { a.sign with stepping := s.sign.stepping + 1 } }) ∧
      (2 ≤ s.sign.stepping + 1 → exec .brightnessStep a = .next b) ∧
      (let cleared : State := { b with intercom := { s.intercom with clipMarks := .all false } };
        (s.intercom.floor = none → c = cleared) ∧
        ∀ h, s.intercom.floor = some h →
          (h.count + 1 < 30 →
            c = { cleared with intercom := { cleared.intercom with floor := some ⟨h.party, h.count + 1⟩ } }) ∧
          (30 ≤ h.count + 1 → exec .talkHoldExpiry cleared = .next c)) ∧
      (s.intercom.pin = none → d = c) ∧
      (∀ n, s.intercom.pin = some n →
        (n + 1 < 60 → d = { c with intercom := { c.intercom with pin := some (n + 1) } }) ∧
        (60 ≤ n + 1 → exec .pinEntryTimeout c = .next d)) ∧
      (s.pay.capture = .idle → e = d) ∧
      (∀ ref n limit, s.pay.capture = .inFlight ref n limit →
        (n + 1 < limit → e = { d with pay := { s.pay with capture := .inFlight ref (n + 1) limit } }) ∧
        (limit ≤ n + 1 → exec .captureExpiry d = .next e)) ∧
      (∀ n interval, s.pay.capture = .waiting n interval →
        (n + 1 < interval → e = { d with pay := { s.pay with capture := .waiting (n + 1) interval } }) ∧
        (interval ≤ n + 1 → exec .captureWaitEnd d = .next e)) ∧
      (let held : State :=
          { e with pay := { e.pay with
            late := (s.pay.late.filter fun x => x.count + 1 < x.holdTime).map fun x => { x with count := x.count + 1 } } };
        (s.pay.auth = none → t = held) ∧
        ∀ x, s.pay.auth = some x →
          (x.count + 1 < x.timeout → t = { held with pay := { held.pay with auth := some { x with count := x.count + 1 } } }) ∧
          (x.timeout ≤ x.count + 1 → exec .authTimerExpiry held = .next t))) ∧
  (∀ s : State, s.running = true → s.link.orderly → s.meter ≠ .hired → s.pay.auth = none → s.pay.capture = .idle →
    s.sign.stepping = 0 →
    let speed := if s.time.windowK = 0 then 0 else s.time.accepted * 3600 / s.time.windowK
    let vmax := vmaxSetting s.tables.unbanked
    let time : TimeState :=
      { s.time with
        divFrames := 0, divTicks := 0, speed := speed, windowK := s.time.k, accepted := 0, clampMark := false
        budget := if s.time.k = 0 then 0 else (vmax * s.time.k + 3599) / 3600 }
    ∃ t, exec .fareSecond s = .next t ∧
      t.time = time ∧ t.sign.stepping = 1 ∧ t.sign.refresh = (if 5 ≤ s.sign.refresh + 1 then 0 else s.sign.refresh + 1) ∧
      (5 ≤ s.sign.refresh + 1 → t.Signs) ∧
      t.intercom.clipMarks = .all false ∧
      t.intercom.pin = (s.intercom.pin.bind fun n => if 60 ≤ n + 1 then none else some (n + 1)) ∧
      (∀ h, s.intercom.floor = some h → h.count + 1 < 30 → t.intercom.floor = some ⟨h.party, h.count + 1⟩) ∧
      (∀ h, s.intercom.floor = some h → 30 ≤ h.count + 1 → t.intercom.floor = (passFloor s.intercom).floor) ∧
      (s.intercom.floor = none → t.intercom.floor = none) ∧
      t.pay = { s.pay with
        late := (s.pay.late.filter fun e => e.count + 1 < e.holdTime).map fun e => { e with count := e.count + 1 } } ∧
      t.tables = s.tables ∧ t.meter = s.meter ∧ t.trip = s.trip ∧ t.shifts = s.shifts ∧ t.disp = s.disp ∧
      t.link.waiting = s.link.waiting ∧ (speed ≠ s.time.speed → t.Shows))

/-- The calendar state is recomputed from the clock and the ACTIVE tables: each flag by its range and the minute of week, wrapping past
the week's end (R55); the day type by the holiday list and the day (R56); the alarm at the start of the nearest minute ahead, 1
to 10,080 minutes, that is the first minute of a valid range, the minute after its last, or the next midnight (R58); nothing
else. BOUNDARY_ALARM and ZONE_UPDATE: outside HIRED the calendar state and alarm, or the zone, take their new values and nothing
else changes; in HIRED a run follows whose outcome is applied to the trip; the zone already held changes nothing (R57, R59,
R60, R70). BOUNDARY_ALARM as a command of its own, at any time, is the model's choice (log 2). -/
def Obligations.BoundaryAndZoneOccasions : Prop :=
  (∀ s : State, s.time.second < 86400 →
    let b := s.tables.active
    let weekday := s.time.day % 7
    let minute := weekday * 1440 + s.time.second / 60
    let first := fun r => fieldAt (b.group 4 r 0) 0 2
    let last := fun r => fieldAt (b.group 4 r 0) 2 2
    let time := (recomputeCalendar s).time
    recomputeCalendar s = { s with time := { s.time with
      calendarFlags := time.calendarFlags, dayType := time.dayType, alarmDay := time.alarmDay
      alarmSecond := time.alarmSecond } } ∧
    (∀ r, r < 8 → (time.calendarFlags.getLsbD r = true ↔ b.valid 4 r = true ∧
      (if first r ≤ last r then first r ≤ minute ∧ minute ≤ last r else first r ≤ minute ∨ minute ≤ last r))) ∧
    ((∃ i, i < 16 ∧ b.valid 5 i = true ∧ fieldAt (b.group 5 i 0) 0 2 = s.time.day) → time.dayType = .holiday) ∧
    ((∀ i, i < 16 → b.valid 5 i = true → fieldAt (b.group 5 i 0) 0 2 ≠ s.time.day) →
      time.dayType = if weekday ≤ 4 then .weekday else if weekday = 5 then .saturday else .sunday) ∧
    (let boundary := fun m => m = (weekday + 1) % 7 * 1440 ∨
        ∃ r, r < 8 ∧ b.valid 4 r = true ∧ (m = first r % 10080 ∨ m = (last r + 1) % 10080);
      ∃ n, 1 ≤ n ∧ n ≤ 10080 ∧ boundary ((minute + n) % 10080) ∧
        (∀ k, 1 ≤ k → k < n → ¬boundary ((minute + k) % 10080)) ∧
        let alarm := s.time.second / 60 * 60 + 60 * n
        time.alarmDay = (s.time.day + alarm / 86400) % 65536 ∧ time.alarmSecond = alarm % 86400)) ∧
  ∀ s : State,
    (s.running = true →
      (s.meter ≠ .hired → exec .boundaryAlarm s = .next { s with time := (recomputeCalendar s).time }) ∧
      (s.meter = .hired →
        exec .boundaryAlarm s = .next (runForTrip { s with time := (recomputeCalendar s).time }))) ∧
    (s.Ready → ∀ zone : Byte, zone.toNat ≤ 31 →
      (zone.toNat = s.time.zone → exec (.zoneUpdate .fleetModem [zone]) s = .next s) ∧
      (zone.toNat ≠ s.time.zone → s.meter ≠ .hired →
        exec (.zoneUpdate .fleetModem [zone]) s = .next { s with time := { s.time with zone := zone.toNat } }) ∧
      (zone.toNat ≠ s.time.zone → s.meter = .hired →
        exec (.zoneUpdate .fleetModem [zone]) s =
          .next (runForTrip { s with time := { s.time with zone := zone.toNat } })))

/-! Tariff selection. -/

/-- A run begins at stage 1 with group 0 and follows NEXT from stage to stage. At a stage the action taken is that of the valid
entry of lowest index whose ten match fields hold (R65), and only when no entry matches that of the stage's default. TARIFF t
ends the stages with candidate t; NEXT at stage 3 ends them with the depth mark and no candidate; an invalid default ends
them with the fallback mark (R66, R67). The result is a valid candidate, else the fallback tariff when entry 3 names a valid
one, else none; a candidate that is invalid sets the fallback mark, the depth mark does not. The result is a valid tariff or
none, and the events of the two marks occur in order. -/
def Obligations.SelectionRunFollowsStages : Prop :=
  (∀ (b : Bank) (inp : SelectionInput),
    let byte := fun (l : List Byte) (j : Nat) => (l.getD j 0#8).toNat
    let matched := fun (n g i : Nat) =>
      let l := b.group 2 i 0
      b.valid 2 i = true ∧ byte l 0 = n ∧ (byte l 1 = 16 ∨ byte l 1 = g) ∧
        (∀ r, r < 8 → (l.getD 2 0#8).getLsbD r = true → inp.flags.getLsbD r = true) ∧
        (∀ r, r < 8 → (l.getD 3 0#8).getLsbD r = true → inp.flags.getLsbD r = false) ∧
        (l.getD 4 0#8).getLsbD
          (match inp.dayType with
          | .weekday => 0
          | .saturday => 1
          | .sunday => 2
          | .holiday => 3) = true ∧
        byte l 5 ≤ inp.zone ∧ inp.zone ≤ byte l 6 ∧ byte l 7 ≤ inp.passengers ∧ inp.passengers ≤ byte l 8 ∧
        (byte l 9 = 5 ∨ byte l 9 = inp.key)
    let unmatched := fun (n g : Nat) => ∀ i, i < 64 → ¬matched n g i
    let takes := fun (n g : Nat) (action : List Byte) =>
      (∃ i, i < 64 ∧ matched n g i ∧ (∀ j, j < i → ¬matched n g j) ∧ action = b.group 2 i 1) ∨
        (unmatched n g ∧ b.valid 3 (n - 1) = true ∧ action = b.group 3 (n - 1) 0)
    let last := b.group 3 3 0
    let fallback := if b.valid 3 3 = true ∧ byte last 0 = 1 ∧ b.valid 1 (byte last 1) = true then some (byte last 1) else none
    let r := selectionRun b inp
    (∀ (n : Nat) (group : Nat → Nat) (action : Nat → List Byte), 1 ≤ n → n ≤ 3 → group 1 = 0 →
      (∀ m, 1 ≤ m → m < n →
        takes m (group m) (action m) ∧ byte (action m) 0 = 2 ∧ group (m + 1) = byte (action m) 1) →
      (takes n (group n) (action n) → byte (action n) 0 = 1 →
        r = if b.valid 1 (byte (action n) 1) then ⟨some (byte (action n) 1), false, false⟩ else ⟨fallback, false, true⟩) ∧
      (takes n (group n) (action n) → byte (action n) 0 = 2 → n = 3 → r = ⟨fallback, true, false⟩) ∧
      (unmatched n (group n) → b.valid 3 (n - 1) = false → r = ⟨fallback, false, true⟩)) ∧
    (∀ t, r.tariff = some t → b.valid 1 t = true) ∧ ¬(r.depthMark = true ∧ r.fallbackMark = true) ∧
      ((r.depthMark = true ∨ r.fallbackMark = true) → r.tariff = fallbackTariff b) ∧
      (r.depthMark = false → r.fallbackMark = false → ∃ t, r.tariff = some t)) ∧
  (∀ (s : State) (r : SelectionResult), s.link.orderly →
    s.PlacesFollow (selectionEvents r s) ∧ s.Occurs (selectionEvents r s) []
      ((if r.depthMark then [.selectDepth] else []) ++ (if r.fallbackMark then [.selectFallback] else [])))

/-- The outcome of a run made for the open trip (R68, R70, R71): with no result or the current tariff only the run's events occur;
another tariff becomes current without a new flag drop, the segment in force is re-evaluated by trip distance; under DOUBLE a
side in ALLOWANCE with an inactive counter begins to step, its counter loaded from that segment; a time side in STEPPING
starts or stops with that segment's step time, and every other counter and phase is kept (R91, R92); the surcharge component
and step add are those of the new tariff's lookup, a period is added or the full list marked, TARIFF CHANGE occurs (and
TARIFF LIST FULL at the first full list), and a DISPLAY is placed (R72, R73, R83, R94, R100). -/
def Obligations.RunOutcomeApplied : Prop :=
  ∀ (s : State) (tr : Trip), s.link.orderly → s.trip = some tr →
    let r := selectionRun s.tables.active (selectionInput s tr.passengers tr.tariffKey)
    ((r.tariff = none ∨ r.tariff = some tr.tariff) →
      s.Occurs (runForTrip s) [] r.events ∧ s.PlacesFollow (runForTrip s)) ∧
    (∀ t, r.tariff = some t → t ≠ tr.tariff → ∃ tr' : Trip,
      let limit := if 999999 < tr'.fareSum ∧ tr.fareLimit = false then [Event.fareLimit] else []
      let full := if 4 ≤ tr.periods.length ∧ tr.tariffListFull = false then [Event.tariffListFull] else []
      let double := (tariffHeader s.tables.active t).double
      let segment := segmentAt s.tables.active t (tripDistance s tr)
      let new := tariffSegment s.tables.active t segment
      let load := if new.t = 0 then none else some new.t
      let distanceStarts := double = true ∧ tr.distancePhase = .allowance ∧ tr.dc = none
      let timeStarts := double = true ∧ tr.timePhase = .allowance ∧ tr.tc = none
      ({ s with trip := some tr' } : State).Occurs (runForTrip s) [] (r.events ++ limit ++ [.tariffChange] ++ full) ∧
      (runForTrip s).Shows ∧ (runForTrip s).link.signPlace = s.link.signPlace ∧
      tr' = { tr with
        tariff := t, segment := segment
        dc := if distanceStarts then some (max 1 ((s.time.k * new.d + 500) / 1000)) else tr.dc
        distancePhase := if distanceStarts then .stepping else tr.distancePhase
        tc :=
          if timeStarts then load
          else if tr.timePhase = .stepping then (if tr.tc = none ∨ new.t = 0 then load else tr.tc) else tr.tc
        timePhase := if timeStarts then .stepping else tr.timePhase
        surcharge := (surchargeFound s tr').1, stepAdd := (surchargeFound s tr').2
        periods :=
          if tr.periods.length < 4 then
            tr.periods ++ [⟨t, (tariffHeader s.tables.active t).label, ⟨s.time.day, s.time.second⟩, tr'.runningFare⟩]
          else tr.periods
        tariffListFull := tr.tariffListFull || decide (4 ≤ tr.periods.length)
        fareLimit := tr.fareLimit || decide (999999 < tr'.fareSum) })

/-! The fare engine. -/

/-- DISTANCE_EXPIRY and TIME_EXPIRY under SINGLE: the drop is charged in STEPPING alone, at the amount of the segment that stood
plus the step add, counted in the trip and the shift; both sides then step, the segment is re-evaluated by trip distance and
both counters load from it; FARE LIMIT occurs when the sum first exceeds 999,999 (R80, R83, R88, R89, R100, R179). As commands
of their own they act at any count of an active counter, which is the model's choice (log 2). -/
def Obligations.SingleExpiryCharges : Prop :=
  ∀ (s : State) (tr : Trip) (c : Instr) (side : Side), s.running = true → s.link.orderly → s.meter = .hired →
    s.trip = some tr → (tariffHeader s.tables.active tr.tariff).double = false →
    ((c = .distanceExpiry ∧ side = .distance ∧ tr.dc.isSome = true) ∨
      (c = .timeExpiry ∧ side = .time ∧ tr.tc.isSome = true)) →
    let old := tariffSegment s.tables.active tr.tariff tr.segment
    let segment := segmentAt s.tables.active tr.tariff (tripDistance s tr)
    let new := tariffSegment s.tables.active tr.tariff segment
    let stepped := fun (tr : Trip) => { tr with
      distancePhase := .stepping, timePhase := .stepping, segment := segment
      dc := some (max 1 ((s.time.k * new.d + 500) / 1000)), tc := if new.t = 0 then none else some new.t }
    (tr.phase side = .allowance → exec c s = .next { s with trip := some (stepped tr) }) ∧
    (tr.phase side = .stepping →
      let charged : Trip :=
        match side with
        | .distance =>
          { tr with
            dropsTotal := min 4294967295 (tr.dropsTotal + (old.ad + tr.stepAdd))
            distanceDrops := min 4294967295 (tr.distanceDrops + 1) }
        | .time =>
          { tr with
            dropsTotal := min 4294967295 (tr.dropsTotal + (old.at_ + tr.stepAdd))
            timeDrops := min 4294967295 (tr.timeDrops + 1) }
      let beyond := decide (999999 < charged.fareSum ∧ tr.fareLimit = false)
      let counted := fun (r : ShiftRecord) =>
        match side with
        | .distance => { r with distanceDrops := min 4294967295 (r.distanceDrops + 1) }
        | .time => { r with timeDrops := min 4294967295 (r.timeDrops + 1) }
      ∃ t, exec c s = .next t ∧ t.Shows ∧ t.link.signPlace = s.link.signPlace ∧
        ({ s with
          trip := some (stepped { charged with fareLimit := tr.fareLimit || beyond })
          shifts := { s.shifts with record := s.shifts.record.map counted } } : State).Occurs t []
          (if beyond then [.fareLimit] else []))

/-- DISTANCE_EXPIRY and TIME_EXPIRY under DOUBLE: the expiring side alone charges (in STEPPING) or begins to step, the segment is
re-evaluated and the expiring counter alone loads from it; the other side keeps its phase and counter, but a time side in
STEPPING starts or stops with the step time of a segment that has changed at a distance expiry; FARE LIMIT occurs when the
sum first exceeds 999,999 (R80, R83, R88, R90, R91, R100, R179). As commands of their own they act at any count of an active
counter, which is the model's choice (log 2). -/
def Obligations.DoubleExpiryCharges : Prop :=
  ∀ (s : State) (tr : Trip), s.running = true → s.link.orderly → s.meter = .hired → s.trip = some tr →
    (tariffHeader s.tables.active tr.tariff).double = true →
    let old := tariffSegment s.tables.active tr.tariff tr.segment
    let segment := segmentAt s.tables.active tr.tariff (tripDistance s tr)
    let new := tariffSegment s.tables.active tr.tariff segment
    let load := if new.t = 0 then none else some new.t
    let otherTc :=
      if segment ≠ tr.segment ∧ tr.timePhase = .stepping then
        (if tr.tc = none ∨ new.t = 0 then load else tr.tc) else tr.tc
    let beyond := fun (tr : Trip) => decide (999999 < tr.fareSum ∧ tr.fareLimit = false)
    let events := fun (tr : Trip) => if beyond tr then [Event.fareLimit] else []
    let limited := fun (tr : Trip) => { tr with fareLimit := tr.fareLimit || beyond tr }
    (tr.dc.isSome = true →
      let steps := fun (tr : Trip) => { tr with
        distancePhase := .stepping, segment := segment, dc := some (max 1 ((s.time.k * new.d + 500) / 1000)), tc := otherTc }
      (tr.distancePhase = .allowance → exec .distanceExpiry s = .next { s with trip := some (steps tr) }) ∧
      (tr.distancePhase = .stepping →
        let charged : Trip :=
          { tr with
            dropsTotal := min 4294967295 (tr.dropsTotal + (old.ad + tr.stepAdd))
            distanceDrops := min 4294967295 (tr.distanceDrops + 1) }
        ∃ t, exec .distanceExpiry s = .next t ∧ t.Shows ∧ t.link.signPlace = s.link.signPlace ∧
          ({ s with
            trip := some (steps (limited charged))
            shifts := { s.shifts with
              record := s.shifts.record.map fun r =>
                { r with distanceDrops := min 4294967295 (r.distanceDrops + 1) } } } : State).Occurs t [] (events charged))) ∧
    (tr.tc.isSome = true →
      let steps := fun (tr : Trip) => { tr with timePhase := .stepping, segment := segment, tc := load }
      (tr.timePhase = .allowance → exec .timeExpiry s = .next { s with trip := some (steps tr) }) ∧
      (tr.timePhase = .stepping →
        let charged : Trip :=
          { tr with
            dropsTotal := min 4294967295 (tr.dropsTotal + (old.at_ + tr.stepAdd))
            timeDrops := min 4294967295 (tr.timeDrops + 1) }
        ∃ t, exec .timeExpiry s = .next t ∧ t.Shows ∧ t.link.signPlace = s.link.signPlace ∧
          ({ s with
            trip := some (steps (limited charged))
            shifts := { s.shifts with
              record := s.shifts.record.map fun r =>
                { r with timeDrops := min 4294967295 (r.timeDrops + 1) } } } : State).Occurs t [] (events charged)))

/-- The fare due of a running fare within its limit, for each rounding unit: a multiple of the unit, at most 999,999, within half a
unit (a half rounded up) below the limit case, and with a rounding difference of −99 to 50 (R101). -/
def Obligations.FareDueRounds : Prop :=
  ∀ r unit : Nat, r ≤ 999999 → unit ∈ [1, 2, 5, 10, 20, 50, 100] →
    let due := roundFare r unit
    unit ∣ due ∧ due ≤ 999999 ∧ (-99 : Int) ≤ (due : Int) - r ∧ (due : Int) - r ≤ 50 ∧
      (r + unit / 2 < 1000000 → 2 * r < 2 * due + unit ∧ 2 * due ≤ 2 * r + unit)

/-- EXTRA in HIRED or in an unpaid SETTLING: the first failing test answers, an item outside 1 to 8 and the absence of a trip
among them; the item is added with its count, the REPLY carries item, count and total; at the extras cap nothing is added, the
flag is set and EXTRA CAP occurs; in SETTLING the fare due and the rounding difference are computed again, and a DUE follows
exactly when the fare due rose, which is the model's reading (log 16); the widths of the REPLY's fields are log 9 (R97, R98,
R100, R118). -/
def Obligations.ExtraOutcomes : Prop :=
  ∀ (s : State) (item : Byte), s.Ready →
    let command := Instr.extra .meterHead [item]
    let answer := fun r => exec command s = .next (s.answered .meterHead 1#8 r [])
    (item.toNat < 1 ∨ 8 < item.toNat → answer .badValue) ∧
    (1 ≤ item.toNat → item.toNat ≤ 8 → s.trip = none → answer .refusedState) ∧
    ∀ tr, s.trip = some tr → 1 ≤ item.toNat → item.toNat ≤ 8 →
    let amount := extraAmount s.tables.active item.toNat
    let presses := tr.pressCounts.getD (item.toNat - 1) 0
    let allowed := s.meter = .hired ∨ (s.meter = .settling ∧ tr.tenders = [] ∧ s.pay.auth = none)
    (¬allowed → answer .refusedState) ∧
    (allowed → s.tables.active.valid 8 item.toNat = false → answer .badValue) ∧
    (allowed → s.tables.active.valid 8 item.toNat = true →
      (extraLimit s.tables.active item.toNat ≤ presses → answer .capReached) ∧
      (presses < extraLimit s.tables.active item.toNat →
        ((tariffHeader s.tables.active tr.tariff).extrasCap < tr.extrasTotal + amount →
          ∃ t, exec command s = .next t ∧ s.PlacesFollow t ∧
            ({ s with trip := some { tr with extraCap := true } } : State).Occurs t
              [replyMessage .meterHead 1#8 .capReached []] [.extraCap]) ∧
        (tr.extrasTotal + amount ≤ (tariffHeader s.tables.active tr.tariff).extrasCap →
          ∃ t ms, exec command s = .next t ∧ t.Shows ∧ t.link.signPlace = s.link.signPlace ∧
            let added : Trip :=
              { tr with
                extrasTotal := tr.extrasTotal + amount, pressCounts := tr.pressCounts.set (item.toNat - 1) (presses + 1) }
            let beyond := decide (999999 < added.fareSum ∧ tr.fareLimit = false)
            let limited : Trip := { added with fareLimit := tr.fareLimit || beyond }
            let due := roundFare limited.runningFare (tariffHeader s.tables.active tr.tariff).unit
            let es := if beyond then [Event.fareLimit] else []
            let reply := replyMessage .meterHead 1#8 .ok
              (beBytes 1 item.toNat ++ beBytes 1 (presses + 1) ++ beBytes 3 (tr.extrasTotal + amount))
            (s.meter = .hired →
              ms = [] ∧ ({ s with trip := some limited } : State).Sends t es (reply :: noticesAll es s.disp ++ ms)) ∧
            (s.meter = .settling →
              let settled : Trip :=
                { limited with fareDue := some due, roundingDiff := (due : Int) - (limited.runningFare : Int) }
              let prompted := decide (tr.fareDue.getD 0 < due) && isPresent s .cardTerminal && decide (0 < due)
              ms = (if prompted then [⟨.cardTerminal, kindPayPrompt, duePayload s settled⟩] else []) ∧
              ({ s with trip := some { settled with promptMark := tr.promptMark || prompted } } : State).Sends t es
                (reply :: noticesAll es s.disp ++ ms)))))

/-! The meter controller. -/

/-- A KEY with a wrong length, or with an argument that is not 0 where the key has none, is refused with BAD_VALUE (R107). HIRE:
BAD_VALUE for a key above 4, REFUSED_STATE outside VACANT and ON CALL; without a result NO_TARIFF, the run's events, and
nothing else (R69). With a result: the REPLY carries trip number, tariff and label; the trip record opens with its fields at
their opening values, flag drop, surcharge and counters of the tariff and one period; the meter is HIRED, STATE CHANGE occurs,
a DISPLAY is placed and the sign is told (R84, R85, R113, R114, R126). The widths of the REPLY's fields are log 9. -/
def Obligations.HireOpensTrip : Prop :=
  (∀ (s : State) (command : List Byte → Instr) (args : List Byte), s.Ready →
    let bare : List (List Byte → Instr) :=
      [.stop .meterHead, .resume .meterHead, .cash .meterHead, .unpaid .meterHead, .prompt .meterHead,
        .onCallKey .meterHead, .cancelCall .meterHead, .offDutyKey .meterHead, .onDuty .meterHead,
        .talkDownKey .meterHead, .talkUpKey .meterHead, .openToggle .meterHead]
    let keyed : List (List Byte → Instr) :=
      [.hire .meterHead, .extra .meterHead, .passengers .meterHead, .luggage .meterHead]
    ((command ∈ bare ∧ args ≠ [0#8]) ∨ (command ∈ keyed ∧ args.length ≠ 1)) →
      exec (command args) s = .next (s.answered .meterHead 1#8 .badValue [])) ∧
  ∀ (s : State) (key : Byte), s.Ready →
    let command := Instr.hire .meterHead [key]
    (4 < key.toNat → exec command s = .next (s.answered .meterHead 1#8 .badValue [])) ∧
    (key.toNat ≤ 4 → s.meter ≠ .vacant → s.meter ≠ .onCall →
      exec command s = .next (s.answered .meterHead 1#8 .refusedState [])) ∧
    (key.toNat ≤ 4 → s.meter = .vacant ∨ s.meter = .onCall →
    let r := selectionRun s.tables.active (selectionInput s 1 key.toNat)
    (r.tariff = none →
      ∃ u, exec command s = .next u ∧ s.Occurs u [replyMessage .meterHead 1#8 .noTariff []] r.events ∧ s.PlacesFollow u) ∧
    ∀ t, r.tariff = some t →
    let h := tariffHeader s.tables.active t
    let seg := tariffSegment s.tables.active t 1
    ∃ (u : State) (tr : Trip), exec command s = .next u ∧ u.Shows ∧ (s.sign.emergency = none → u.Signs) ∧
      (s.sign.emergency ≠ none → u.link.signPlace = s.link.signPlace) ∧
      ({ s with
        meter := .hired, trip := some tr, sign := s.signTold .hired
        intercom := { s.intercom with shownMode := shownModeOf s.intercom.floor false } } : State).Occurs u
        [replyMessage .meterHead 1#8 .ok (beBytes 2 (nextTripNumber s) ++ beBytes 1 t ++ beBytes 1 h.label)]
        (r.events ++ [.stateChange]) ∧
      tr.tripNumber = nextTripNumber s ∧ tr.shiftNumber = shiftNumberNow s ∧ tr.startTime = ⟨s.time.day, s.time.second⟩ ∧
      tr.endTime = none ∧ tr.tariff = t ∧ tr.tariffKey = key.toNat ∧ tr.bankVersion = s.tables.activeVersion ∧
      tr.periods = [⟨t, h.label, ⟨s.time.day, s.time.second⟩, min 999999 (h.flagDrop + tr.surcharge)⟩] ∧
      tr.flagDrop = h.flagDrop ∧ (tr.surcharge, tr.stepAdd) = surchargeFound s tr ∧ tr.segment = 1 ∧
      (tr.pulses = 0 ∧ tr.distanceDrops = 0 ∧ tr.timeDrops = 0 ∧ tr.dropsTotal = 0 ∧ tr.extrasTotal = 0 ∧
        tr.pressCounts = List.replicate 8 0 ∧ tr.fareDue = none ∧ tr.roundingDiff = 0 ∧ tr.tenders = [] ∧ tr.calls = 0 ∧
        tr.hiredSeconds = 0 ∧ tr.passengers = 1 ∧ tr.luggage = 0 ∧ tr.zoneAtHire = s.time.zone) ∧
      (tr.fareLimit = false ∧ tr.extraCap = false ∧ tr.tariffListFull = false ∧ tr.powerBreak = false ∧
        tr.promptMark = false ∧ tr.openFlag = false) ∧
      (0 < h.d0 → tr.distancePhase = .allowance ∧ tr.dc = some (max 1 ((s.time.k * h.d0 + 500) / 1000))) ∧
      (h.d0 = 0 → (h.double = true ∨ h.t0 = 0) →
        tr.distancePhase = .stepping ∧ tr.dc = some (max 1 ((s.time.k * seg.d + 500) / 1000))) ∧
      (h.d0 = 0 → h.double = false → 0 < h.t0 → tr.distancePhase = .allowance ∧ tr.dc = none) ∧
      (0 < h.t0 → tr.timePhase = .allowance ∧ tr.tc = some h.t0) ∧
      (h.t0 = 0 → (h.double = true ∨ h.d0 = 0) →
        tr.timePhase = .stepping ∧ tr.tc = if seg.t = 0 then none else some seg.t) ∧
      (h.t0 = 0 → h.double = false → 0 < h.d0 → tr.timePhase = .allowance ∧ tr.tc = none))

/-- STOP in HIRED with a fare due above 0: the fare due and rounding difference are fixed, the meter is SETTLING, STATE CHANGE
occurs, a DISPLAY is placed, the sign is told, and a DUE is offered when the card terminal is PRESENT (R101, R117, R118). With
a fare due of 0 the trip closes at once. In every other state STOP is refused with REFUSED_STATE (R108). The widths of the
messages' fields are log 9. -/
def Obligations.StopFixesFareDue : Prop :=
  (∀ s : State, s.Ready → s.meter ≠ .hired →
    exec (.stop .meterHead [0#8]) s = .next (s.answered .meterHead 1#8 .refusedState [])) ∧
  ∀ (s : State) (tr : Trip), s.Ready → s.meter = .hired → s.trip = some tr →
    let due := roundFare tr.runningFare (tariffHeader s.tables.active tr.tariff).unit
    let diff := (due : Int) - (tr.runningFare : Int)
    let settled : Trip := { tr with fareDue := some due, roundingDiff := diff }
    let answer := replyMessage .meterHead 1#8 .ok (beBytes 3 due ++ signedBytes 1 diff)
    (0 < due → tr.tenders = [] →
      let prompted := isPresent s .cardTerminal
      ∃ t, exec (.stop .meterHead [0#8]) s = .next t ∧ t.Shows ∧ (s.sign.emergency = none → t.Signs) ∧
        (s.sign.emergency ≠ none → t.link.signPlace = s.link.signPlace) ∧
        ({ s with
          meter := .settling, sign := s.signTold .settling
          trip := some { settled with promptMark := tr.promptMark || prompted } } : State).Sends t [.stateChange]
          (answer :: noticesOf .stateChange s.disp ++
            if prompted then [⟨.cardTerminal, kindPayPrompt, duePayload s settled⟩] else [])) ∧
    (due = 0 →
      ∃ u t, exec (.stop .meterHead [0#8]) s = .next t ∧ t = closeTrip u ∧ u.Shows ∧
        (s.sign.emergency = none → u.Signs) ∧ (s.sign.emergency ≠ none → u.link.signPlace = s.link.signPlace) ∧
        ({ s with meter := .settling, sign := s.signTold .settling, trip := some settled } : State).Occurs u [answer]
          [.stateChange])

/-- The close of a trip (R122, R180, R181, R182, R42, R43): the shift record takes the trip's figures: one trip, its hired
seconds, fare due, extras, surcharge and rounding, and its tenders by kind, each total within its range; the journal takes its
record with the end time and trip distance, newest first, the oldest of 48 lost with JOURNAL OVERWRITE; a pending activation is
performed and removed with ACTIVATION DONE; an ENDED is offered when the prompt mark is set; the meter is VACANT without a trip
record and STATE CHANGE and TRIP CLOSED occur; a DISPLAY is placed and the sign told. -/
def Obligations.CloseTripEffects : Prop :=
  ∀ (s : State) (tr : Trip) (r : ShiftRecord), s.link.orderly → s.trip = some tr → s.shifts.record = some r →
    let ended : Trip := { tr with endTime := some ⟨s.time.day, s.time.second⟩ }
    let entry : JournalEntry := ⟨ended, min 9999999 (tr.pulses * 1000 / s.time.k)⟩
    let full := decide (48 ≤ s.shifts.journal.length)
    let activates := s.tables.pendingActivation.isSome
    let tables : TableState :=
      match s.tables.pendingActivation with
      | none => s.tables
      | some v => { s.tables with active := s.tables.standby, activeVersion := v, pendingActivation := none }
    let time := if activates then (recomputeCalendar { s with tables := tables }).time else s.time
    let raised := fun (total amount : Nat) => min 4294967295 (total + amount)
    let tendered := fun (kinds : List TenderKind) (amount : Tender → Nat) (total : Nat) =>
      (tr.tenders.filter fun x => kinds.contains x.kind).foldl (fun total x => raised total (amount x)) total
    let record : ShiftRecord :=
      { r with
        activations := if activates then min 65535 (r.activations + 1) else r.activations
        trips := raised r.trips 1, hiredSeconds := raised r.hiredSeconds tr.hiredSeconds
        fareTotal := raised r.fareTotal (tr.fareDue.getD 0), extrasTotal := raised r.extrasTotal tr.extrasTotal
        surchargeTotal := raised r.surchargeTotal tr.surcharge
        roundingTotal := max (-2147483648) (min 2147483647 (r.roundingTotal + tr.roundingDiff))
        cashTotal := tendered [.cash] (·.farePart) r.cashTotal
        cardOnlineTotal := tendered [.cardOnline] (fun x => x.farePart + x.tip) r.cardOnlineTotal
        tipsTotal := tendered [.cardOnline, .cardOffline] (·.tip) r.tipsTotal
        unpaidAmount := tendered [.unpaid] (·.farePart) r.unpaidAmount
        unpaidCount :=
          (tr.tenders.filter fun x => x.kind = .unpaid).foldl (fun n _ => min 65535 (n + 1)) r.unpaidCount }
    let before := (if full then [Event.journalOverwrite] else []) ++ (if activates then [Event.activationDone] else [])
    let t := closeTrip s
    t.Shows ∧ (s.sign.emergency = none → t.Signs) ∧ (s.sign.emergency ≠ none → t.link.signPlace = s.link.signPlace) ∧
      ({ s with
        meter := .vacant, trip := none, tables := tables, time := time
        sign := s.signTold .vacant
        intercom := { s.intercom with shownMode := shownModeOf s.intercom.floor false }
        shifts := { s.shifts with
          record := some record
          journal := entry :: (if full then s.shifts.journal.take 47 else s.shifts.journal) } } : State).Sends t
        (before ++ [.stateChange, .tripClosed])
        (noticesAll before s.disp ++
          (if tr.promptMark then [⟨.cardTerminal, kindPayPrompt, endedPayload tr⟩] else []) ++
          noticesAll [.stateChange, .tripClosed] (s.disp.heardAll before))

/-- CASH and UNPAID in SETTLING: refused while an authorization is pending; else the REPLY carries tender index and fare part,
a tender of the whole remaining due joins the list and the trip closes (R119, R120, R122). PROMPT answers NOT_READY without
the terminal, else OK, with a DUE when something remains due (R118). In every other state the three are refused with
REFUSED_STATE (R108). The widths of the messages' fields are log 9. -/
def Obligations.CashUnpaidAndPrompt : Prop :=
  (∀ (s : State) (c : Instr), s.Ready → s.meter ≠ .settling →
    c ∈ [Instr.cash .meterHead [0#8], .unpaid .meterHead [0#8], .prompt .meterHead [0#8]] →
    exec c s = .next (s.answered .meterHead 1#8 .refusedState [])) ∧
  ∀ (s : State) (tr : Trip), s.Ready → s.meter = .settling → s.trip = some tr →
    let left := tr.fareDue.getD 0 - (tr.tenders.map (·.farePart)).sum
    (∀ (c : Instr) (kind : TenderKind),
      (c, kind) ∈ [(Instr.cash .meterHead [0#8], TenderKind.cash), (.unpaid .meterHead [0#8], .unpaid)] →
      (s.pay.auth ≠ none → exec c s = .next (s.answered .meterHead 1#8 .refusedState [])) ∧
      (s.pay.auth = none → exec c s = .next
        (closeTrip
          { s.answered .meterHead 1#8 .ok (beBytes 1 (tr.tenders.length + 1) ++ beBytes 3 left) with
            trip := some { tr with tenders := tr.tenders ++ [⟨kind, left, 0, tr.tenders.length + 1, .settled⟩] } }))) ∧
    (isPresent s .cardTerminal = false →
      exec (.prompt .meterHead [0#8]) s = .next (s.answered .meterHead 1#8 .notReady [])) ∧
    (isPresent s .cardTerminal = true → 0 < left →
      ∃ t, exec (.prompt .meterHead [0#8]) s = .next t ∧ t.link.displayPlace = s.link.displayPlace ∧
        t.link.signPlace = s.link.signPlace ∧
        ({ s with trip := some { tr with promptMark := true } } : State).Sends t []
          [replyMessage .meterHead 1#8 .ok [], ⟨.cardTerminal, kindPayPrompt, duePayload s tr⟩])

/-- RESUME outside SETTLING is refused with REFUSED_STATE (R108). In SETTLING: refused when a tender is recorded or an authorization is pending; else the fare due becomes absent, an
ENDED is offered when the prompt mark is set, the meter is HIRED, STATE CHANGE occurs, one run is made for the trip, and a
DISPLAY is placed (R75, R102, R118, R121). -/
def Obligations.ResumeReturnsToHired : Prop :=
  (∀ s : State, s.Ready → s.meter ≠ .settling →
    exec (.resume .meterHead [0#8]) s = .next (s.answered .meterHead 1#8 .refusedState [])) ∧
  ∀ (s : State) (tr : Trip), s.Ready → s.meter = .settling → s.trip = some tr →
    (tr.tenders ≠ [] ∨ s.pay.auth ≠ none →
      exec (.resume .meterHead [0#8]) s = .next (s.answered .meterHead 1#8 .refusedState [])) ∧
    (tr.tenders = [] → s.pay.auth = none →
      ∃ u, exec (.resume .meterHead [0#8]) s = .next (placeDisplay (runForTrip u)) ∧ u.Shows ∧
        (s.sign.emergency = none → u.Signs) ∧ (s.sign.emergency ≠ none → u.link.signPlace = s.link.signPlace) ∧
        ({ s with
          meter := .hired, sign := s.signTold .hired
          trip := some { tr with fareDue := none, roundingDiff := 0, promptMark := false } } : State).Sends u
          [.stateChange]
          (replyMessage .meterHead 1#8 .ok [] ::
            (if tr.promptMark then [⟨.cardTerminal, kindPayPrompt, endedPayload tr⟩] else []) ++
            noticesOf .stateChange s.disp))

/-- PASSENGERS and LUGGAGE: the count is held and answered; in SETTLING nothing more; in HIRED a PASSENGERS makes a run and then a
surcharge lookup, a LUGGAGE the lookup alone; a count out of range is refused with BAD_VALUE, and one in range outside a trip
with REFUSED_STATE (R107, R108). A lookup finds row and entry by the tariff's key kind and base row, and the amounts of the
map entry that the row's enable set names while both are valid (R93, R94); it replaces the surcharge component and the step
add, and when either changes tests the fare limit and places a DISPLAY (R74, R95, R100, R116). The one-byte REPLY is log 9. -/
def Obligations.PartyCountsAndLookup : Prop :=
  (∀ (s : State) (n : Byte), s.Ready →
    let answers := fun c r => exec c s = .next (s.answered .meterHead 1#8 r [])
    let outside := s.meter ≠ .hired ∧ s.meter ≠ .settling
    (n.toNat < 1 ∨ 8 < n.toNat → answers (.passengers .meterHead [n]) .badValue) ∧
    (1 ≤ n.toNat → n.toNat ≤ 8 → outside → answers (.passengers .meterHead [n]) .refusedState) ∧
    (15 < n.toNat → answers (.luggage .meterHead [n]) .badValue) ∧
    (n.toNat ≤ 15 → outside → answers (.luggage .meterHead [n]) .refusedState)) ∧
  (∀ (s : State) (tr : Trip),
    let b := s.tables.active
    let kind := fieldAt (b.group 1 tr.tariff 5) 0 1
    let base := fieldAt (b.group 1 tr.tariff 5) 1 1
    let row := if kind = 3 then base + s.time.zone / 8 else base
    let entry :=
      if kind = 1 then tr.passengers - 1 else if kind = 2 then (if 7 < tr.luggage then 7 else tr.luggage)
      else s.time.zone % 8
    let amount := fun member offset : Nat =>
      if b.valid 6 (row * 8 + entry) = true ∧ b.valid 7 row = true ∧
          ((b.group 7 row 0).getD 0 0#8).getLsbD member = true then
        fieldAt (b.group 6 (row * 8 + entry) 0) offset 2
      else 0
    surchargeFound s tr =
      if kind = 1 ∨ kind = 2 ∨ kind = 3 then (amount 0 0 + amount 2 4, amount 1 2) else (0, 0)) ∧
  (∀ (s : State) (tr : Trip) (n : Byte), s.Ready → s.trip = some tr →
    let told := s.answered .meterHead 1#8 .ok (beBytes 1 n.toNat)
    (1 ≤ n.toNat → n.toNat ≤ 8 →
      (s.meter = .settling →
        exec (.passengers .meterHead [n]) s = .next { told with trip := some { tr with passengers := n.toNat } }) ∧
      (s.meter = .hired →
        exec (.passengers .meterHead [n]) s =
          .next (surchargeLookup (runForTrip { told with trip := some { tr with passengers := n.toNat } })))) ∧
    (n.toNat ≤ 15 →
      (s.meter = .settling →
        exec (.luggage .meterHead [n]) s = .next { told with trip := some { tr with luggage := n.toNat } }) ∧
      (s.meter = .hired →
        exec (.luggage .meterHead [n]) s =
          .next (surchargeLookup { told with trip := some { tr with luggage := n.toNat } })))) ∧
  (∀ (s : State) (tr : Trip), s.link.orderly → s.trip = some tr →
    (surchargeFound s tr = (tr.surcharge, tr.stepAdd) → surchargeLookup s = s) ∧
    (surchargeFound s tr ≠ (tr.surcharge, tr.stepAdd) →
      let found : Trip := { tr with surcharge := (surchargeFound s tr).1, stepAdd := (surchargeFound s tr).2 }
      let beyond := decide (999999 < found.fareSum ∧ tr.fareLimit = false)
      (surchargeLookup s).Shows ∧ (surchargeLookup s).link.signPlace = s.link.signPlace ∧
        ({ s with trip := some { found with fareLimit := tr.fareLimit || beyond } } : State).Occurs (surchargeLookup s) []
          (if beyond then [.fareLimit] else [])))

/-- SHIFT OPEN: refused by length and driver number, state, K and clock in that order; else a shift record opens with the next
shift number, its opening values and every count and total 0, and the meter is VACANT (R109, R178). SHIFT CLOSE: BAD_VALUE
with a payload, refused outside VACANT and OFF DUTY, and with REPORT_FULL when 4 reports stand; else the shift record becomes
the newest report with its close values, no shift is open and the meter is CLOSED (R110, R186, R187, R188). The widths of
driver number and shift number are log 9. -/
def Obligations.ShiftOpensAndCloses : Prop :=
  (∀ s : State, s.Ready →
     (∀ payload, payload.length ≠ 3 →
       exec (.shiftOpen .meterHead payload) s = .next (s.answered .meterHead 2#8 .badValue [])) ∧
     ∀ b2 b1 b0 : Byte,
     let driver := b2.toNat * 65536 + b1.toNat * 256 + b0.toNat
     let command := Instr.shiftOpen .meterHead [b2, b1, b0]
     let answer := fun r => exec command s = .next (s.answered .meterHead 2#8 r [])
     ((driver < 1 ∨ 99999 < driver) → answer .badValue) ∧
     (1 ≤ driver → driver ≤ 99999 →
       (s.meter ≠ .closed → answer .refusedState) ∧
       (s.meter = .closed → (s.time.k = 0 ∨ s.time.clockUnset = true) → answer .notReady) ∧
       (s.meter = .closed → s.time.k ≠ 0 → s.time.clockUnset = false →
         let opened : ShiftRecord :=
           { number := s.shifts.nextShift, driver := driver, openTime := ⟨s.time.day, s.time.second⟩
             bankVersion := s.tables.activeVersion, activations := 0, lifetimeAtOpen := s.time.lifetime
             kAtOpen := s.time.k, offlineCap := offlineCapSetting s.tables.unbanked, trips := 0, totalPulses := 0
             paidPulses := 0, hiredSeconds := 0, distanceDrops := 0, timeDrops := 0, fareTotal := 0, extrasTotal := 0
             surchargeTotal := 0, roundingTotal := 0, tipsTotal := 0, cashTotal := 0, cardOnlineTotal := 0
             offlineCount := 0, offlineAmount := 0, unpaidCount := 0, unpaidAmount := 0, resolvedCount := 0
             declinedCount := 0, declinedAmount := 0, voids := 0, lampFaults := 0, emergencies := 0, stationsLost := 0
             exceptions := ⟨0, 0, 0, 0⟩ }
         ∃ t : State, exec command s = .next t ∧ t.Shows ∧ (s.sign.emergency = none → t.Signs) ∧
           (s.sign.emergency ≠ none → t.link.signPlace = s.link.signPlace) ∧
           ({ s with
             meter := .vacant, sign := s.signTold .vacant
             shifts := { s.shifts with
               record := some opened
               nextShift := if 65535 ≤ s.shifts.nextShift then 1 else s.shifts.nextShift + 1 } } : State).Occurs
             t [replyMessage .meterHead 2#8 .ok (beBytes 2 s.shifts.nextShift)] [.stateChange]))) ∧
  (∀ s : State, s.Ready →
     let answer := fun payload r => exec (.shiftClose .meterHead payload) s = .next (s.answered .meterHead 3#8 r [])
     (∀ payload, payload ≠ [] → answer payload .badValue) ∧
     (s.meter ≠ .vacant → s.meter ≠ .offDuty → answer [] .refusedState) ∧
     ∀ r, s.meter = .vacant ∨ s.meter = .offDuty → s.shifts.record = some r →
       (4 ≤ s.shifts.reports.length → answer [] .reportFull) ∧
       (s.shifts.reports.length < 4 →
         let report : Report :=
           { record := r, closeTime := ⟨s.time.day, s.time.second⟩, lifetimeAtClose := s.time.lifetime
             deferredCount := s.pay.deferred.length
             deferredTotal := (s.pay.deferred.map fun e => e.farePart + e.tip).sum
             versionAtClose := s.tables.activeVersion }
         ∃ t, exec (.shiftClose .meterHead []) s = .next t ∧ t.Shows ∧ (s.sign.emergency = none → t.Signs) ∧
           (s.sign.emergency ≠ none → t.link.signPlace = s.link.signPlace) ∧
           ({ s with
             meter := .closed, sign := s.signTold .closed
             shifts := { s.shifts with record := none, reports := s.shifts.reports ++ [report] } } : State).Occurs t
             [replyMessage .meterHead 3#8 .ok (beBytes 2 r.number)] [.stateChange]))

/-! The sign controller. -/

/-- EMERGENCY_LINE_ASSERT and EMERGENCY_LINE_RELEASE: the line's level; while frames run an assertion starts the debounce at
0 when the emergency is inactive and the count idle, and a release makes the count idle; nothing else changes (R129). The
level without the main supply is the model's reading (log 11). EMERGENCY_DEBOUNCE_COMPLETE with the count active and the line
asserted, and the twentieth tick of a hold: the emergency is active from the wall clock's time, EMERGENCY occurs, the level
is 31, a SIGN SET of the emergency entry is placed and the effective mode is LISTEN; otherwise the command changes nothing
(R129, R130, R140). As a command of its own the completion occurs at any active count, which is the model's choice (log 2). -/
def Obligations.EmergencyLineAndOnset : Prop :=
  (∀ s : State,
     (s.running = false → exec .emergencyLineAssert s = .next { s with emgLine := true } ∧
       exec .emergencyLineRelease s = .next { s with emgLine := false }) ∧
     (s.running = true →
       (s.sign.emergency = none → s.sign.debounce = none →
         exec .emergencyLineAssert s = .next { s with emgLine := true, sign := { s.sign with debounce := some 0 } }) ∧
       ((s.sign.emergency ≠ none ∨ s.sign.debounce ≠ none) →
         exec .emergencyLineAssert s = .next { s with emgLine := true }) ∧
       exec .emergencyLineRelease s = .next { s with emgLine := false, sign := { s.sign with debounce := none } })) ∧
  (∀ (s : State) (n : Nat), s.running = true → s.link.orderly →
     (s.sign.emergency = none → s.sign.debounce = some n → s.emgLine = true →
       ∃ t, exec .emergencyDebounceComplete s = .next t ∧ t.Signs ∧ effectiveMode t = 4 ∧
         t.link.displayPlace = s.link.displayPlace ∧
         ({ s with
           sign := { s.sign with
             emergency := some ⟨s.time.day, s.time.second⟩, debounce := none, level := 31, refresh := 0
             lastLegend := some (signLegend s.tables.unbanked 6).1.toNat } } : State).Occurs t [] [.emergency] ∧
         (n = 19 → debounceTick s = t)) ∧
     ((s.sign.emergency ≠ none ∨ s.sign.debounce = none ∨ s.emgLine = false) →
       exec .emergencyDebounceComplete s = .next s))

/-- EMERGENCY CLEAR: refused when inactive; else the emergency ends, the meter state's SIGN SET is placed, the debounce is idle or,
with the line asserted, starts again at 0, and the REPLY carries the start time (R131), day and second as in a record (log 9). -/
def Obligations.EmergencyClearEnds : Prop :=
  ∀ s : State, s.Ready →
    (s.sign.emergency = none →
      exec (.emergencyClear .fleetModem []) s = .next (s.answered .fleetModem 14#8 .refusedState [])) ∧
    (∀ payload, payload ≠ [] →
      exec (.emergencyClear .fleetModem payload) s = .next (s.answered .fleetModem 14#8 .badValue [])) ∧
    ∀ start, s.sign.emergency = some start →
      ∃ t, exec (.emergencyClear .fleetModem []) s = .next t ∧ t.Signs ∧
        t.link.displayPlace = s.link.displayPlace ∧
        ({ s with
          sign := { s.sign with
            emergency := none, debounce := if s.emgLine then some 0 else none, refresh := 0
            lastLegend := some (signLegend s.tables.unbanked s.meter.code.toNat).1.toNat } } : State).Occurs t
          [replyMessage .fleetModem 14#8 .ok (beBytes 2 start.day ++ beBytes 3 start.second)] []

/-- SIGN_REFRESH_DUE places a SIGN SET, whose restart mark says whether the legend differs from the last one sent, and the refresh
count becomes 0. BRIGHTNESS_STEP empties the stepping count and, with the sign PRESENT, no emergency and a band for the
ambient value, moves the level by 1 toward its target and places a SIGN SET when it moves (R128, R133, R134). As commands of
their own they act at any count, which is the model's choice (log 2). -/
def Obligations.SignRefreshAndBrightness : Prop :=
  ∀ s : State, s.running = true →
    let entry := signLegend s.tables.unbanked (commandedSign s)
    let placed := fun (level : Nat) (sign : SignState) =>
      ({ s with
        link := { s.link with
          signPlace := some ⟨.roofSign, kindSignSet,
            [entry.1, entry.2, BitVec.ofNat 8 level, boolByte (s.sign.lastLegend != some entry.1.toNat)]⟩ }
        sign := { sign with level := level, lastLegend := some entry.1.toNat, refresh := 0 } } : State)
    exec .signRefreshDue s = .next (placed s.sign.level s.sign) ∧
    (isPresent s .roofSign = false ∨ s.sign.emergency ≠ none ∨ s.sign.ambient = none →
      exec .brightnessStep s = .next { s with sign := { s.sign with stepping := 0 } }) ∧
    ∀ ambient, isPresent s .roofSign = true → s.sign.emergency = none → s.sign.ambient = some ambient →
      (bandTarget s.tables.unbanked ambient = none →
        exec .brightnessStep s = .next { s with sign := { s.sign with stepping := 0 } }) ∧
      ∀ target, bandTarget s.tables.unbanked ambient = some target →
        (target = s.sign.level → exec .brightnessStep s = .next { s with sign := { s.sign with stepping := 0 } }) ∧
        (s.sign.level < target →
          exec .brightnessStep s = .next (placed (s.sign.level + 1) { s.sign with stepping := 0 })) ∧
        (target < s.sign.level →
          exec .brightnessStep s = .next (placed (s.sign.level - 1) { s.sign with stepping := 0 }))

/-- SIGN STATUS: a payload that is not 2 bytes long, or a fault set above 7, is discarded with LINK CHECK. Otherwise the ambient
value takes the reported light; each lamp newly failed raises LAMP FAULT and the open shift's lamp-faults count; the held set
takes the reported set; a DISPLAY is placed when the set changes; nothing else changes (R132). -/
def Obligations.SignStatusRecordsLamps : Prop :=
  ∀ s : State, s.Ready →
    (∀ payload, (payload.length ≠ 2 ∨ ∃ a l : Byte, payload = [a, l] ∧ 7 < l.toNat) →
      ∃ t, exec (.signStatus .roofSign payload) s = .next t ∧ s.Occurs t [] [.linkCheck] ∧ s.PlacesFollow t) ∧
    ∀ ambient lamps : Byte, lamps.toNat ≤ 7 →
    let reported : BitVec 3 := lamps.setWidth 3
    let newly := (List.range 3).countP fun i => reported.getLsbD i && !s.sign.lampFaults.getLsbD i
    let raised := fun n => if newly = 0 then n else min 65535 (n + newly)
    ∃ t, exec (.signStatus .roofSign [ambient, lamps]) s = .next t ∧
      ({ s with
        sign := { s.sign with ambient := some ambient.toNat, lampFaults := reported }
        shifts := { s.shifts with
          record := s.shifts.record.map fun r => { r with lampFaults := raised r.lampFaults } } } : State).Occurs t []
        (List.replicate newly .lampFault) ∧
      t.link.signPlace = s.link.signPlace ∧
      (if reported = s.sign.lampFaults then t.link.displayPlace = s.link.displayPlace else t.Shows)

/-! The intercom mixer. -/

/-- The floor (R144, R145, R146): a request takes a free floor with hold count 0, the driver preempts a passenger, who then
waits, and a passenger who finds another holder waits; a release passes the floor to A, else to B, else to no one, with hold
count 0, and a waiting passenger only leaves the waiting set; nothing else of the mixer changes. The talk keys and reports
and the hold limit change the floor, and with it the displayed mode; a DISPLAY is placed when the mode shown changes; the
keys answer the intercom status of 13 bytes: floor holder, waiting set, displayed mode, open flag, PIN entry and the four clip
counters; a TALK DOWN report of a station that is not PRESENT is ignored; nothing else changes (R140,
R144 to R147, R149). TALK_HOLD_EXPIRY as a command acts at any hold count, which is the model's choice (log 2); the widths of
the status are log 9. -/
def Obligations.TalkFloor : Prop :=
  (∀ (ic : IntercomState) (openFlag : Bool),
     let party := ic.floor.map fun h => h.party
     intercomStatus ic openFlag =
       [if party = some .driver then 1#8 else if party = some .passengerA then 2#8
         else if party = some .passengerB then 3#8 else 0#8,
        (if ic.waitA then 1#8 else 0#8) ||| (if ic.waitB then 2#8 else 0#8),
        if party = some .driver then 1#8 else if party ≠ none then 2#8 else if openFlag then 3#8 else 0#8,
        if openFlag then 1#8 else 0#8, if ic.pin ≠ none then 1#8 else 0#8] ++
       beBytes 2 ic.clipCounts.x0 ++ beBytes 2 ic.clipCounts.x1 ++ beBytes 2 ic.clipCounts.x2 ++
         beBytes 2 ic.clipCounts.x3) ∧
  (∀ (ic : IntercomState) (p : Party) (h : FloorHold),
     (ic.floor = none → requestFloor p ic = { ic with floor := some ⟨p, 0⟩ }) ∧
     (ic.floor = some h → h.party = p → requestFloor p ic = ic) ∧
     (ic.floor = some h → h.party ≠ p → requestFloor p ic =
       { ic with
         floor := if p = .driver then some ⟨.driver, 0⟩ else ic.floor
         waitA := ic.waitA || decide (p = .passengerA) || decide (p = .driver ∧ h.party = .passengerA)
         waitB := ic.waitB || decide (p = .passengerB) || decide (p = .driver ∧ h.party = .passengerB) }) ∧
     (ic.floor = some h → h.party = p →
       releaseFloor p ic =
         if ic.waitA then { ic with floor := some ⟨.passengerA, 0⟩, waitA := false }
         else if ic.waitB then { ic with floor := some ⟨.passengerB, 0⟩, waitB := false }
         else { ic with floor := none }) ∧
     ((ic.floor = none ∨ (ic.floor = some h ∧ h.party ≠ p)) →
       releaseFloor p ic =
         { ic with waitA := ic.waitA && p != .passengerA, waitB := ic.waitB && p != .passengerB })) ∧
  (∀ s : State, s.Ready →
     (∀ (c : Instr) (after : IntercomState) (first : List Outbound),
       (c, after, first) ∈
         [(Instr.talkDownKey .meterHead [0#8], requestFloor .driver s.intercom,
             [replyMessage .meterHead 1#8 .ok (intercomStatus (requestFloor .driver s.intercom) (openFlagNow s))]),
           (.talkUpKey .meterHead [0#8], releaseFloor .driver s.intercom,
             [replyMessage .meterHead 1#8 .ok (intercomStatus (releaseFloor .driver s.intercom) (openFlagNow s))]),
           (.talkUpReport .passengerA [], releaseFloor .passengerA s.intercom, []),
           (.talkUpReport .passengerB [], releaseFloor .passengerB s.intercom, [])] ++
         (if isPresent s .passengerA then
           [(.talkDownReport .passengerA [], requestFloor .passengerA s.intercom, [])] else []) ++
         (if isPresent s .passengerB then
           [(.talkDownReport .passengerB [], requestFloor .passengerB s.intercom, [])] else []) ++
         (if s.intercom.floor.isSome then [(.talkHoldExpiry, passFloor s.intercom, [])] else []) →
       let mode := shownModeOf after.floor (openFlagNow s)
       ∃ t, exec c s = .next t ∧
         ({ s with intercom := { after with shownMode := mode } } : State).Occurs t first [] ∧
         t.link.signPlace = s.link.signPlace ∧
         (if mode = s.intercom.shownMode then t.link.displayPlace = s.link.displayPlace else t.Shows)) ∧
     (∀ st, st = .passengerA ∨ st = .passengerB → isPresent s st = false →
       exec (.talkDownReport st []) s = .next s) ∧
     (s.intercom.floor = none → exec .talkHoldExpiry s = .next s))

/-- OPEN TOGGLE in a trip reverses the open flag, recomputes the displayed mode, places a DISPLAY and answers the intercom status,
and is refused with no trip. CALL raises the open trip's calls count and PASSENGER CALL occurs. PIN STATE turns PIN entry ON at
0 with the terminal PRESENT, and OFF. Nothing else changes (R140, R149, R150, R151, R152). PIN_ENTRY_TIMEOUT as a command turns
it OFF at any count, which is the model's choice (log 2). The widths of the REPLY's fields are log 9. -/
def Obligations.OpenToggleCallAndPin : Prop :=
  ∀ s : State, s.Ready →
    (∀ tr, (s.meter = .hired ∨ s.meter = .settling) → s.trip = some tr →
      let mode := shownModeOf s.intercom.floor (!tr.openFlag)
      let party := s.intercom.floor.map fun h => h.party
      ∃ t, exec (.openToggle .meterHead [0#8]) s = .next t ∧ t.Shows ∧ t.link.signPlace = s.link.signPlace ∧
        ({ s with
          trip := some { tr with openFlag := !tr.openFlag }
          intercom := { s.intercom with shownMode := mode } } : State).Occurs t
          [replyMessage .meterHead 1#8 .ok
            ([if party = some .driver then 1#8 else if party = some .passengerA then 2#8
                else if party = some .passengerB then 3#8 else 0#8,
              (if s.intercom.waitA then 1#8 else 0#8) ||| (if s.intercom.waitB then 2#8 else 0#8),
              if party = some .driver then 1#8 else if party ≠ none then 2#8 else if tr.openFlag then 0#8 else 3#8,
              if tr.openFlag then 0#8 else 1#8, if s.intercom.pin ≠ none then 1#8 else 0#8] ++
              beBytes 2 s.intercom.clipCounts.x0 ++ beBytes 2 s.intercom.clipCounts.x1 ++
              beBytes 2 s.intercom.clipCounts.x2 ++ beBytes 2 s.intercom.clipCounts.x3)] []) ∧
    (s.meter ≠ .hired → s.meter ≠ .settling →
      exec (.openToggle .meterHead [0#8]) s = .next (s.answered .meterHead 1#8 .refusedState [])) ∧
    (∀ st, st = .passengerA ∨ st = .passengerB →
      ∃ t, exec (.call st []) s = .next t ∧ s.PlacesFollow t ∧
        ({ s with trip := s.trip.map fun tr => { tr with calls := min 65535 (tr.calls + 1) } } : State).Occurs t []
          [.passengerCall]) ∧
    (isPresent s .cardTerminal = true →
      exec (.pinState .cardTerminal [1#8]) s = .next { s with intercom := { s.intercom with pin := some 0 } }) ∧
    (isPresent s .cardTerminal = false → exec (.pinState .cardTerminal [1#8]) s = .next s) ∧
    exec (.pinState .cardTerminal [0#8]) s = .next { s with intercom := { s.intercom with pin := none } } ∧
    exec .pinEntryTimeout s = .next { s with intercom := { s.intercom with pin := none } }

/-- Outside an emergency no cabin microphone reaches the modem's voice-out, and while PIN entry is ON no passenger microphone
reaches the driver speaker: two frames from one state that differ in those up slots alone leave the same sample for that
destination (R141). The PIN clause is for frames that carry no message bytes, with no message waiting inbound, and with fewer
than 7 misses of the terminal, since a message or the terminal's loss in the frame may end PIN entry before the frame's mix is
made (log 4). -/
def Obligations.CabinAudioStaysPrivate : Prop :=
  ∀ (s t u : State) (up up' : UpFrame) (cal : Bool), s.running = true →
    up'.answer = up.answer → up'.message = up.message → up'.modem = up.modem →
    exec (.frame up cal) s = .next t → exec (.frame up' cal) s = .next u →
    (s.sign.emergency = none → t.link.mixed.map (·.x3) = u.link.mixed.map (·.x3)) ∧
    (s.intercom.pin.isSome = true → s.link.inbound = [] → up.message.valid = false →
      (s.link.stations.get .cardTerminal).misses < 7 → up'.driver = up.driver →
      t.link.mixed.map (·.x0) = u.link.mixed.map (·.x0))

/-- The mode of a mix is LISTEN in an emergency, else DRIVER TALK or PASSENGER TALK by the floor holder, else OPEN by the open flag of
the trip record, else PRIVATE (R140); a gain is byte 4 i + d of that mode's entry of table 11 (R139), or 0 by the two forced
zeros (R141). The mix of one destination is the exact sum of the samples times their gains, plus 32, divided by 64 toward minus
infinity and held within the sample range (R142). A quiet FRAME whose microphones speak mixes the samples of PRESENT stations
(R3), keeps the outputs for the next frame (R138), raises the clip counter of each destination that saturates, sets its mark,
and AUDIO CLIP occurs for each whose mark was clear, in order of destination (R143). -/
def Obligations.MixScalesAndSaturates : Prop :=
  (∀ (s : State) (i d : Nat), i < 4 → d < 4 →
    let listens := s.sign.emergency.isSome
    let mode :=
      if listens then 4
      else
        match s.intercom.floor with
        | some h => if h.party = .driver then 1 else 2
        | none => if (s.trip.map (·.openFlag)) = some true then 3 else 0
    mixGain s i d =
      if (listens = false ∧ d = 3 ∧ i ≠ 3) ∨ (s.intercom.pin.isSome = true ∧ d = 0 ∧ (i = 1 ∨ i = 2)) then 0
      else ((unbankedEntry s.tables.unbanked 11 mode).getD (4 * i + d) 0#8).toNat) ∧
  (∀ (s : State) (x : Four Sample) (d : Nat),
    let sum : Int :=
      x.x0.toInt * mixGain s 0 d + x.x1.toInt * mixGain s 1 d + x.x2.toInt * mixGain s 2 d + x.x3.toInt * mixGain s 3 d
    let out := (mixOutput s x d).toInt
    (-2097152 ≤ sum + 32 → sum + 32 < 2097152 → 64 * out ≤ sum + 32 ∧ sum + 32 < 64 * out + 64 ∧ mixSaturates s x d = false) ∧
    (2097152 ≤ sum + 32 → out = 32767 ∧ mixSaturates s x d = true) ∧
    (sum + 32 < -2097152 → out = -32768 ∧ mixSaturates s x d = true) ∧
    (mixGain s 0 d = 64 → mixGain s 1 d = 0 → mixGain s 2 d = 0 → mixGain s 3 d = 0 → mixOutput s x d = x.x0) ∧
    -33423360 ≤ sum ∧ sum ≤ 33422340) ∧
  (∀ (s : State) (st : Station) (up : UpFrame) (cal : Bool), s.running = true → s.link.orderly → s.link.inbound = [] →
    s.link.reception = none → (chooseGrant s.link).1 = some st → (s.link.stations.get st).presence = .present →
    up.answer = ⟨true, Config.idleCode⟩ → up.message.valid = false → s.time.divFrames + 1 < 800 →
    let sample := fun (st : Station) (slot : Slot) => if slot.valid && isPresent s st then slot.data else 0#16
    let x : Four Sample :=
      ⟨sample .meterHead up.driver, sample .passengerA up.passengerA, sample .passengerB up.passengerB,
        sample .fleetModem up.modem⟩
    let clips := mixSaturates s x
    let raised := fun (d n : Nat) => if clips d then min 65535 (n + 1) else n
    let ic := s.intercom
    let sounds := fun (d : Nat) (mark : Bool) => if clips d && !mark then [Event.audioClip] else []
    let base := s.framed cal ⟨mixOutput s x 0, mixOutput s x 1, mixOutput s x 2, mixOutput s x 3⟩
    ∃ t, exec (.frame up cal) s = .next t ∧ base.PlacesFollow t ∧
      ({ base with
        link := { base.link with
          stations := s.link.stations.set st { s.link.stations.get st with misses := 0 } }
        intercom := { ic with
          clipCounts :=
            ⟨raised 0 ic.clipCounts.x0, raised 1 ic.clipCounts.x1, raised 2 ic.clipCounts.x2, raised 3 ic.clipCounts.x3⟩
          clipMarks :=
            ⟨clips 0 || ic.clipMarks.x0, clips 1 || ic.clipMarks.x1, clips 2 || ic.clipMarks.x2,
              clips 3 || ic.clipMarks.x3⟩ } } : State).Occurs t []
        (sounds 0 ic.clipMarks.x0 ++ sounds 1 ic.clipMarks.x1 ++ sounds 2 ic.clipMarks.x2 ++ sounds 3 ic.clipMarks.x3))

/-! Card payments. -/

/-- PAY REQUEST: BAD_VALUE for a wrong length or a field out of range, REFUSED_STATE outside SETTLING, else the first failing
check answers, with no data and no change (R158). Accepted online: the authorization with the next number and its reference is
pending with count 0 and the timeout that stands, the REPLY says ONLINE, and an AUTH REQUEST is offered after it (R159, R160,
R161). Offline: the decision of R164; not approved, the REPLY says OFFLINE and a PAY RESULT DECLINED follows, and nothing else
changes (R165); approved, the deferred entry joins the queue's tail, the shift's offline count and amount rise, OFFLINE APPROVAL
occurs, a PAY RESULT APPROVED OFFLINE is offered and the CARD OFFLINE tender joins the list (R169); then a DUE and a DISPLAY
follow when something remains due, else the trip closes (R118, R119). The widths of the messages' fields are log 9. -/
def Obligations.PayRequestAccepted : Prop :=
  (∀ (payload : List Byte) (f : PayFields),
     payFields payload = some f ↔
       10 ≤ payload.length ∧ payload.length = 10 + fieldAt payload 9 1 ∧ 8 ≤ fieldAt payload 9 1 ∧
         fieldAt payload 9 1 ≤ 32 ∧ f.issuer ≤ 999999 ∧ f.farePart ≤ 999999 ∧ f.tip ≤ 999999 ∧
         f = ⟨fieldAt payload 0 3, fieldAt payload 3 3, fieldAt payload 6 3, payload.drop 10⟩) ∧
  (∀ (s : State) (payload : List Byte), s.Ready →
     let answer := fun r => exec (.payRequest .cardTerminal payload) s = .next (s.answered .cardTerminal 15#8 r [])
     (payFields payload = none → answer .badValue) ∧
     ∀ f, payFields payload = some f →
       (s.meter ≠ .settling → answer .refusedState) ∧
       ∀ tr r, s.meter = .settling → s.trip = some tr → payCheck s tr f = some r → answer r) ∧
  (∀ (s : State) (tr : Trip) (f : PayFields),
     let cls := issuerClass s.tables.unbanked f.issuer
     payCheck s tr f =
       if s.pay.auth.isSome = true then some .busy
       else if f.farePart < 1 ∨ tr.remaining < f.farePart then some .amountExcess
       else if tr.fareDue.getD 0 * tipPercent s.tables.unbanked / 100 < (tr.tenders.map (·.tip)).sum + f.tip then some .tipLimit
       else if 3 ≤ tr.tenders.length ∧ f.farePart < tr.remaining then some .splitLimit
       else if classPolicy s.tables.unbanked cls = 0 then some .refusedPermission
       else if classMaximum s.tables.unbanked cls < f.farePart + f.tip then some .capReached
       else none) ∧
  (∀ (s : State) (cls amount : Nat), offlineApproves s cls amount = true ↔
     classPolicy s.tables.unbanked cls = 2 ∧ amount ≤ classFloor s.tables.unbanked cls ∧ s.pay.deferred.length < 16 ∧
       ∃ r, s.shifts.record = some r ∧ r.offlineAmount + amount ≤ r.offlineCap) ∧
  (∀ (s : State) (payload : List Byte) (f : PayFields) (tr : Trip), s.Ready → payFields payload = some f →
     s.meter = .settling → s.trip = some tr → payCheck s tr f = none →
     let ref : Reference := ⟨shiftNumberNow s, tr.tripNumber, tr.tenders.length + 1⟩
     let cls := issuerClass s.tables.unbanked f.issuer
     let next := s.pay.nextAuth
     let samePlaces := fun t : State =>
       t.link.displayPlace = s.link.displayPlace ∧ t.link.signPlace = s.link.signPlace
     (isOnline s = true →
       ∃ t, exec (.payRequest .cardTerminal payload) s = .next t ∧ samePlaces t ∧
         let a : Auth :=
           { number := next, ref := ref, issuer := f.issuer, cls := cls, farePart := f.farePart, tip := f.tip
             token := f.token, cancelled := false, count := 0, timeout := authTimeoutSetting s.tables.unbanked }
         ({ s with
           pay := { s.pay with auth := some a, nextAuth := if 65535 ≤ next then 1 else next + 1 } } : State).Sends t []
           [replyMessage .cardTerminal 15#8 .ok (refBytes ref ++ beBytes 2 next ++ [0#8]),
             ⟨.fleetModem, kindAuthRequest,
               beBytes 2 next ++ refBytes ref ++ beBytes 3 f.issuer ++ beBytes 1 cls ++ beBytes 3 f.farePart ++
                 beBytes 3 f.tip ++ beBytes 1 f.token.length ++ f.token⟩]) ∧
     (isOnline s = false → offlineApproves s cls (f.farePart + f.tip) = false →
       ∃ t, exec (.payRequest .cardTerminal payload) s = .next t ∧ samePlaces t ∧
         s.Sends t []
           [replyMessage .cardTerminal 15#8 .ok (refBytes ref ++ beBytes 2 0 ++ [1#8]),
             ⟨.cardTerminal, kindPayResult,
               beBytes 2 0 ++ refBytes ref ++ [2#8] ++ beBytes 3 f.farePart ++ beBytes 3 f.tip ++ beBytes 3 tr.remaining⟩])) ∧
  (∀ (s : State) (payload : List Byte) (f : PayFields) (tr : Trip), s.Ready → payFields payload = some f →
     s.meter = .settling → s.trip = some tr → payCheck s tr f = none → isOnline s = false →
     let ref : Reference := ⟨shiftNumberNow s, tr.tripNumber, tr.tenders.length + 1⟩
     let cls := issuerClass s.tables.unbanked f.issuer
     let amount := f.farePart + f.tip
     offlineApproves s cls amount = true →
       let tender : Tender := ⟨.cardOffline, f.farePart, f.tip, tr.tenders.length + 1, .settled⟩
       let prompted := isPresent s .cardTerminal && decide (f.farePart < tr.remaining)
       let paid : Trip := { tr with tenders := tr.tenders ++ [tender], promptMark := tr.promptMark || prompted }
       let entry : DeferredEntry :=
         ⟨ref, f.issuer, cls, f.farePart, f.tip, f.token, ⟨s.time.day, s.time.second⟩⟩
       let left := tr.remaining - f.farePart
       let approved : State := { s with
         trip := some paid
         pay := { s.pay with deferred := s.pay.deferred ++ [entry] }
         shifts := { s.shifts with
           record := s.shifts.record.map fun r =>
             { r with
               offlineCount := min 65535 (r.offlineCount + 1)
               offlineAmount := min 4294967295 (r.offlineAmount + amount) } } }
       let messages :=
         replyMessage .cardTerminal 15#8 .ok (refBytes ref ++ beBytes 2 0 ++ [1#8]) ::
           noticesOf .offlineApproval s.disp ++
           [⟨.cardTerminal, kindPayResult,
             beBytes 2 0 ++ refBytes ref ++ [1#8] ++ beBytes 3 f.farePart ++ beBytes 3 f.tip ++ beBytes 3 left⟩] ++
           (if prompted then
             [⟨.cardTerminal, kindPayPrompt,
               [0#8] ++ beBytes 2 tr.shiftNumber ++ beBytes 2 tr.tripNumber ++ beBytes 3 (tr.fareDue.getD 0) ++ beBytes 3 left ++
                 beBytes 3 (tr.fareDue.getD 0 * tipPercent s.tables.unbanked / 100 - (tr.tips + f.tip))⟩] else [])
       ∃ u t, exec (.payRequest .cardTerminal payload) s = .next t ∧ u.link.signPlace = s.link.signPlace ∧
         approved.Sends u [.offlineApproval] messages ∧
         (if f.farePart < tr.remaining then t = u ∧ u.Shows else t = closeTrip u))

/-- PAY CANCEL: BAD_VALUE with a payload; NOT_FOUND without a pending authorization that is not cancelled, and nothing changes;
else the authorization is marked and stays pending with its timer, the REPLY carries its number and a PAY RESULT DECLINED
follows it (R165, R173). The widths of the messages' fields are log 9. -/
def Obligations.PayCancelMarks : Prop :=
  ∀ s : State, s.Ready →
    (∀ payload, payload ≠ [] →
      exec (.payCancel .cardTerminal payload) s = .next (s.answered .cardTerminal 16#8 .badValue [])) ∧
    ((s.pay.auth = none ∨ ∃ a, s.pay.auth = some a ∧ a.cancelled = true) →
      exec (.payCancel .cardTerminal []) s = .next (s.answered .cardTerminal 16#8 .notFound [])) ∧
    ∀ a tr, s.pay.auth = some a → a.cancelled = false → s.trip = some tr →
      ∃ t, exec (.payCancel .cardTerminal []) s = .next t ∧
        t.link.displayPlace = s.link.displayPlace ∧ t.link.signPlace = s.link.signPlace ∧
        ({ s with pay := { s.pay with auth := some { a with cancelled := true } } } : State).Sends t []
          [replyMessage .cardTerminal 16#8 .ok (beBytes 2 a.number),
            ⟨.cardTerminal, kindPayResult,
              beBytes 2 a.number ++ refBytes a.ref ++ [2#8] ++ beBytes 3 a.farePart ++ beBytes 3 a.tip ++
                beBytes 3 tr.remaining⟩]

/-- An AUTH RESPONSE that matches the pending authorization ends it: declined, a PAY RESULT DECLINED is offered; approved after a
cancellation, a VOID is offered and counted; approved, a PAY RESULT APPROVED is offered and a CARD ONLINE tender joins the
list, and then a DUE and a DISPLAY follow when something remains due, else the trip closes (R118, R119, R162, R165, R168). One
that matches a late entry removes it: approved for an offline approval still in the deferred queue, that entry leaves it,
counted resolved, and a capture in flight for it ends with the check for the next (R170, R172); otherwise approved, a VOID is
offered and counted and LATE VOID occurs; declined, nothing further (R167). One that matches neither changes nothing. The
widths of the messages' fields are log 9. -/
def Obligations.AuthResponseEndsPayment : Prop :=
  (∀ (s : State) (a : Auth) (tr : Trip) (b : Byte), s.Ready → s.pay.auth = some a → s.trip = some tr → b.toNat ≤ 1 →
    1 ≤ a.number → a.number ≤ 65535 → 1 ≤ a.ref.shift → a.ref.shift ≤ 65535 → 1 ≤ a.ref.trip → a.ref.trip ≤ 65535 →
    1 ≤ a.ref.index → a.ref.index ≤ 4 →
    let command := Instr.authResponse .fleetModem (beBytes 2 a.number ++ refBytes a.ref ++ [b])
    let ended : PaymentState := { s.pay with auth := none }
    let samePlaces := fun t : State =>
      t.link.displayPlace = s.link.displayPlace ∧ t.link.signPlace = s.link.signPlace
    (b = 0#8 → a.cancelled = false →
      ∃ t, exec command s = .next t ∧ samePlaces t ∧ ({ s with pay := ended } : State).Sends t []
        [⟨.cardTerminal, kindPayResult,
          beBytes 2 a.number ++ refBytes a.ref ++ [2#8] ++ beBytes 3 a.farePart ++ beBytes 3 a.tip ++
            beBytes 3 tr.remaining⟩]) ∧
    (b = 0#8 → a.cancelled = true → exec command s = .next { s with pay := ended }) ∧
    (b = 1#8 → a.cancelled = true →
      ∃ t, exec command s = .next t ∧ samePlaces t ∧
        ({ s with
          pay := ended
          shifts := { s.shifts with
            record := s.shifts.record.map fun r => { r with voids := min 65535 (r.voids + 1) } } } : State).Sends t []
          [⟨.fleetModem, kindVoid, beBytes 2 a.number ++ refBytes a.ref ++ beBytes 3 a.farePart ++ beBytes 3 a.tip⟩]) ∧
    (b = 1#8 → a.cancelled = false →
      let result : Outbound :=
        ⟨.cardTerminal, kindPayResult,
          beBytes 2 a.number ++ refBytes a.ref ++ [0#8] ++ beBytes 3 a.farePart ++ beBytes 3 a.tip ++
            beBytes 3 (tr.remaining - a.farePart)⟩
      let paid : Trip :=
        { tr with tenders := tr.tenders ++ [⟨.cardOnline, a.farePart, a.tip, tr.tenders.length + 1, .settled⟩] }
      (a.farePart < tr.remaining →
        let prompted := isPresent s .cardTerminal && decide (s.meter = .settling)
        ∃ t, exec command s = .next t ∧ t.Shows ∧ t.link.signPlace = s.link.signPlace ∧
          ({ s with
            pay := ended, trip := some { paid with promptMark := tr.promptMark || prompted } } : State).Sends t []
            (result :: if prompted then [⟨.cardTerminal, kindPayPrompt, duePayload s paid⟩] else [])) ∧
      (tr.remaining ≤ a.farePart →
        ∃ u, exec command s = .next (closeTrip u) ∧ samePlaces u ∧
          ({ s with pay := ended, trip := some paid } : State).Sends u [] [result]))) ∧
  (∀ (s : State) (number : Nat) (ref : Reference) (b : Byte), s.Ready → b.toNat ≤ 1 → 1 ≤ number → number ≤ 65535 →
    1 ≤ ref.shift → ref.shift ≤ 65535 → 1 ≤ ref.trip → ref.trip ≤ 65535 → 1 ≤ ref.index → ref.index ≤ 4 →
    (∀ a, s.pay.auth = some a → ¬(a.number = number ∧ a.ref = ref)) →
    let command := Instr.authResponse .fleetModem (beBytes 2 number ++ refBytes ref ++ [b])
    let matched := fun e : LateEntry => e.number = number ∧ e.ref = ref
    ((∀ e ∈ s.pay.late, ¬matched e) → exec command s = .next s) ∧
    ∀ before e after, s.pay.late = before ++ e :: after → matched e → (∀ x ∈ before, ¬matched x) →
      let removed : PaymentState := { s.pay with late := before ++ after }
      let queued := e.ending = .endedOffline ∧ ∃ d ∈ s.pay.deferred, d.ref = ref
      (b = 0#8 → exec command s = .next { s with pay := removed }) ∧
      (b = 1#8 → queued →
        let resolved := fun capture => ({ s with
          pay := { removed with deferred := s.pay.deferred.filter fun d => d.ref ≠ ref, capture := capture }
          shifts := { s.shifts with
            record := s.shifts.record.map fun r => { r with resolvedCount := min 65535 (r.resolvedCount + 1) } } } : State)
        ((∀ n limit, s.pay.capture ≠ .inFlight ref n limit) → exec command s = .next (resolved s.pay.capture)) ∧
        (∀ n limit, s.pay.capture = .inFlight ref n limit →
          exec command s = .next (captureCheck (resolved .idle)))) ∧
      (b = 1#8 → ¬queued →
        ∃ t, exec command s = .next t ∧ s.PlacesFollow t ∧
          ({ s with
            pay := removed
            shifts := { s.shifts with
              record := s.shifts.record.map fun r => { r with voids := min 65535 (r.voids + 1) } } } : State).Sends t
            [.lateVoid]
            (⟨.fleetModem, kindVoid, beBytes 2 number ++ refBytes ref ++ beBytes 3 e.farePart ++ beBytes 3 e.tip⟩ ::
              noticesOf .lateVoid s.disp)))

/-- AUTH_TIMER_EXPIRY: a cancelled authorization joins the late list; else AUTH TIMEOUT occurs; without an offline approval a PAY
RESULT TIMEOUT is offered and the authorization joins the late list as declined; with one, its deferred entry, the shift's
offline count and amount, OFFLINE APPROVAL, the late entry as ended offline, the PAY RESULT and the CARD OFFLINE tender follow,
with a DUE and a DISPLAY when something remains due, else the trip's close, and then the check that starts a capture (R163 to
R166, R119, R170). LATE_ENTRY_EXPIRY removes one entry of the late list and raises nothing. A full late list loses its oldest
entry (R166). Both commands act at any count, which is the model's choice (log 2); the widths of the messages are log 9. -/
def Obligations.AuthTimerAndLateList : Prop :=
  ∀ s : State, s.running = true → s.link.orderly →
    (s.pay.auth = none → exec .authTimerExpiry s = .next s) ∧
    (∀ a, s.pay.auth = some a →
      let joined := fun ending => (if 4 ≤ s.pay.late.length then s.pay.late.drop 1 else s.pay.late) ++
        [(⟨a.number, a.ref, a.farePart, a.tip, ending, 0, lateHoldSetting s.tables.unbanked⟩ : LateEntry)]
      let result := fun (outcome : Byte) (left : Nat) => (⟨.cardTerminal, kindPayResult,
        beBytes 2 a.number ++ refBytes a.ref ++ [outcome] ++ beBytes 3 a.farePart ++ beBytes 3 a.tip ++ beBytes 3 left⟩ : Outbound)
      (a.cancelled = true →
        exec .authTimerExpiry s = .next { s with pay := { s.pay with auth := none, late := joined .cancelled } }) ∧
      (a.cancelled = false → offlineApproves s a.cls (a.farePart + a.tip) = false →
        ∃ t, exec .authTimerExpiry s = .next t ∧ s.PlacesFollow t ∧
          ({ s with pay := { s.pay with auth := none, late := joined .endedDeclined } } : State).Sends t [.authTimeout]
            (noticesOf .authTimeout s.disp ++ [result 3#8 (remainingNow s)])) ∧
      (a.cancelled = false → offlineApproves s a.cls (a.farePart + a.tip) = true → ∀ tr, s.trip = some tr →
        let prompted := isPresent s .cardTerminal && decide (s.meter = .settling ∧ a.farePart < tr.remaining)
        let paid : Trip :=
          { tr with tenders := tr.tenders ++ [⟨.cardOffline, a.farePart, a.tip, tr.tenders.length + 1, .settled⟩] }
        let entry : DeferredEntry :=
          ⟨a.ref, a.issuer, a.cls, a.farePart, a.tip, a.token, ⟨s.time.day, s.time.second⟩⟩
        let approved : State := { s with
          trip := some { paid with promptMark := tr.promptMark || prompted }
          pay := { s.pay with
            auth := none, late := joined .endedOffline, deferred := s.pay.deferred ++ [entry] }
          shifts := { s.shifts with
            record := s.shifts.record.map fun r =>
              { r with
                offlineCount := min 65535 (r.offlineCount + 1)
                offlineAmount := min 4294967295 (r.offlineAmount + (a.farePart + a.tip)) } } }
        ∃ u v, exec .authTimerExpiry s = .next (captureCheck v) ∧ u.link.signPlace = s.link.signPlace ∧
          approved.Sends u [.authTimeout, .offlineApproval]
            (noticesAll [.authTimeout, .offlineApproval] s.disp ++ [result 1#8 (tr.remaining - a.farePart)] ++
              (if prompted then [⟨.cardTerminal, kindPayPrompt, duePayload s paid⟩] else [])) ∧
          (if a.farePart < tr.remaining then v = u ∧ u.Shows else v = closeTrip u))) ∧
    (∀ i, exec (.lateEntryExpiry i) s = .next { s with pay := { s.pay with late := s.pay.late.eraseIdx i } })

/-- Captures: CAPTURE_EXPIRY makes a capture in flight WAITING with the retry interval; CAPTURE_WAIT_END and the beginning of online
(MODEM STATUS UP with the modem PRESENT) end a wait, and an IDLE capture state with a head entry and online offers its CAPTURE
and is IN FLIGHT with count 0; offline nothing is offered. MODEM STATUS UP with the modem not PRESENT, or with a capture IN
FLIGHT, sets the bearer alone, and with an empty queue it also ends a wait. Otherwise nothing changes (R161, R170, R172). The check itself, made
at each occasion of R170: with the capture state IDLE, online and a head entry it offers that CAPTURE, else it changes nothing.
CAPTURE_EXPIRY and CAPTURE_WAIT_END act at any count, which is the model's choice (log 2); the CAPTURE's widths are log 9. -/
def Obligations.CaptureStateMoves : Prop :=
  (∀ s : State,
    ((s.pay.capture ≠ .idle ∨ isOnline s = false ∨ s.pay.deferred = []) → captureCheck s = s) ∧
    ∀ e rest, s.pay.capture = .idle → isOnline s = true → s.pay.deferred = e :: rest →
      captureCheck s =
        offer ⟨.fleetModem, kindCapture,
            refBytes e.ref ++ beBytes 3 e.issuer ++ beBytes 1 e.cls ++ beBytes 3 e.farePart ++ beBytes 3 e.tip ++
              (beBytes 2 e.time.day ++ beBytes 3 e.time.second) ++ beBytes 1 e.token.length ++ e.token⟩
          { s with pay := { s.pay with capture := .inFlight e.ref 0 (authTimeoutSetting s.tables.unbanked) } }) ∧
  ∀ s : State, s.Ready →
    (∀ ref n limit, s.pay.capture = .inFlight ref n limit →
      exec .captureExpiry s = .next
        { s with pay := { s.pay with capture := .waiting 0 (retrySetting s.tables.unbanked) } } ∧
      exec .captureWaitEnd s = .next s) ∧
    (∀ n interval, s.pay.capture = .waiting n interval →
      exec .captureExpiry s = .next s ∧
      (isOnline s = false ∨ s.pay.deferred = [] →
        exec .captureWaitEnd s = .next { s with pay := { s.pay with capture := .idle } })) ∧
    (s.pay.capture = .idle → exec .captureExpiry s = .next s ∧ exec .captureWaitEnd s = .next s) ∧
    (∀ e rest n interval, s.pay.deferred = e :: rest → isPresent s .fleetModem = true →
      let capture : Outbound :=
        ⟨.fleetModem, kindCapture,
          refBytes e.ref ++ beBytes 3 e.issuer ++ beBytes 1 e.cls ++ beBytes 3 e.farePart ++ beBytes 3 e.tip ++
            (beBytes 2 e.time.day ++ beBytes 3 e.time.second) ++ beBytes 1 e.token.length ++ e.token⟩
      let started : PaymentState :=
        { s.pay with bearerUp := true, capture := .inFlight e.ref 0 (authTimeoutSetting s.tables.unbanked) }
      (s.pay.capture = .waiting n interval → s.pay.bearerUp = true →
        exec .captureWaitEnd s = .next
          { s with link := { s.link with outbound := s.link.outbound ++ [capture] }, pay := started }) ∧
      ((s.pay.capture = .waiting n interval ∨ s.pay.capture = .idle) → s.pay.bearerUp = false →
        exec (.modemStatus .fleetModem [1#8]) s = .next
          { s with link := { s.link with outbound := s.link.outbound ++ [capture] }, pay := started })) ∧
    (s.pay.bearerUp = false →
      let up := fun capture : CaptureState =>
        exec (.modemStatus .fleetModem [1#8]) s = .next { s with pay := { s.pay with bearerUp := true, capture := capture } }
      (isPresent s .fleetModem = false → up s.pay.capture) ∧
      (∀ ref n limit, s.pay.capture = .inFlight ref n limit → up s.pay.capture) ∧
      (isPresent s .fleetModem = true → s.pay.deferred = [] →
        (s.pay.capture = .idle ∨ ∃ n interval, s.pay.capture = .waiting n interval) → up .idle)) ∧
    exec (.modemStatus .fleetModem [0#8]) s = .next { s with pay := { s.pay with bearerUp := false } } ∧
    (s.pay.bearerUp = true → exec (.modemStatus .fleetModem [1#8]) s = .next s)

/-- A CAPTURE RESPONSE for the head of the deferred queue removes it and makes the capture state IDLE, whatever it was: accepted,
the resolved count rises; declined, CAPTURE DECLINED occurs, the declined count and amount rise, and in the newest journal
entry of the reference's shift and trip the CARD OFFLINE tender of its index is marked DECLINED LATE, nothing without such an
entry; the counts rise in an open shift. Then, online and with an entry left, the next CAPTURE is offered and is IN FLIGHT
with count 0. One for another reference, or with an empty queue, changes nothing (R170, R171, R183). The CAPTURE's widths are
log 9. -/
def Obligations.CaptureResponseResolves : Prop :=
  ∀ (s : State) (ref : Reference), s.Ready →
    1 ≤ ref.shift → ref.shift ≤ 65535 → 1 ≤ ref.trip → ref.trip ≤ 65535 → 1 ≤ ref.index → ref.index ≤ 4 →
    let command := fun b => Instr.captureResponse .fleetModem (refBytes ref ++ [b])
    (s.pay.deferred = [] → ∀ b : Byte, b.toNat ≤ 1 → exec (command b) s = .next s) ∧
    ∀ e rest, s.pay.deferred = e :: rest →
      (e.ref ≠ ref → ∀ b : Byte, b.toNat ≤ 1 → exec (command b) s = .next s) ∧
      (e.ref = ref →
        let next := if isOnline s then rest.head? else none
        let captures : List Outbound := next.toList.map fun x =>
          ⟨.fleetModem, kindCapture,
            refBytes x.ref ++ beBytes 3 x.issuer ++ beBytes 1 x.cls ++ beBytes 3 x.farePart ++ beBytes 3 x.tip ++
              (beBytes 2 x.time.day ++ beBytes 3 x.time.second) ++ beBytes 1 x.token.length ++ x.token⟩
        let pay : PaymentState := { s.pay with
          deferred := rest
          capture :=
            match next with
            | none => .idle
            | some x => .inFlight x.ref 0 (authTimeoutSetting s.tables.unbanked) }
        let newest := s.shifts.journal.findIdx? fun x => x.trip.shiftNumber = ref.shift ∧ x.trip.tripNumber = ref.trip
        let marked := fun y : Tender =>
          if y.index = ref.index ∧ y.kind = .cardOffline then { y with state := .declinedLate } else y
        exec (command 1#8) s = .next
          { s with
            link := { s.link with outbound := s.link.outbound ++ captures }
            pay := pay
            shifts := { s.shifts with
              record := s.shifts.record.map fun r => { r with resolvedCount := min 65535 (r.resolvedCount + 1) } } } ∧
        ∃ t, exec (command 0#8) s = .next t ∧ s.PlacesFollow t ∧
          ({ s with
            pay := pay
            shifts := { s.shifts with
              journal := s.shifts.journal.mapIdx fun j x =>
                if newest = some j then { x with trip := { x.trip with tenders := x.trip.tenders.map marked } } else x
              record := s.shifts.record.map fun r =>
                { r with
                  declinedCount := min 65535 (r.declinedCount + 1)
                  declinedAmount := min 4294967295 (r.declinedAmount + (e.farePart + e.tip)) } } } : State).Sends t
            [.captureDeclined] (noticesOf .captureDeclined s.disp ++ captures))

/-! Shift accounting. -/

/-- The pages of a record, read in order, join to its encoded form; a shift record takes 119 bytes, a report 135, a snapshot 124 and
a journal entry 146, so 3 pages each but for the journal entry's and the report's 4 (R177, R181, R184, R187, R191). -/
def Obligations.PagesJoinToRecord : Prop :=
  (∀ l : List Byte, (List.range (pageCount l.length)).flatMap (pageOf l) = l ∧ ∀ p, (pageOf l p).length ≤ 44) ∧
    (∀ r, (shiftBytes r).length = 119) ∧ (∀ r, (reportBytes r).length = 135) ∧ (∀ x, (snapshotBytes x).length = 124) ∧
    (∀ e, (journalBytes e).length = 146) ∧ pageCount 119 = 3 ∧ pageCount 135 = 4 ∧ pageCount 124 = 3 ∧ pageCount 146 = 4

/-- REPORT RELEASE of the oldest report's number removes it and answers with the number of reports that remain; an empty
store or another number is refused with NOT_FOUND and the oldest number, or 0; another length with BAD_VALUE; nothing else
changes (R190). SNAPSHOT TAKE, READ and RELEASE of either party: the take copies the open shift record with its taker and the
time, replacing any snapshot; the read answers a page of it; the release empties the area; each refuses as its rule says, and
nothing else changes (R184, R191, R192, R193). The widths of count and page fields are log 9. -/
def Obligations.ReportReleaseAndSnapshot : Prop :=
  (∀ s : State, s.Ready →
     (∀ payload, payload.length ≠ 2 →
       exec (.reportRelease .fleetModem payload) s = .next (s.answered .fleetModem 20#8 .badValue [])) ∧
     ∀ hi lo : Byte,
       let number := hi.toNat * 256 + lo.toNat
       (s.shifts.reports = [] →
         exec (.reportRelease .fleetModem [hi, lo]) s =
           .next (s.answered .fleetModem 20#8 .notFound (beBytes 2 0))) ∧
       ∀ r rest, s.shifts.reports = r :: rest →
         (r.record.number ≠ number →
           exec (.reportRelease .fleetModem [hi, lo]) s =
             .next (s.answered .fleetModem 20#8 .notFound (beBytes 2 r.record.number))) ∧
         (r.record.number = number →
           exec (.reportRelease .fleetModem [hi, lo]) s = .next
             { s.answered .fleetModem 20#8 .ok (beBytes 1 rest.length) with
               shifts := { s.shifts with reports := rest } })) ∧
  (∀ (s : State) (src : Station), s.Ready → src = .meterHead ∨ src = .fleetModem →
     (∀ payload, payload ≠ [] →
       exec (.snapshotTake src payload) s = .next (s.answered src 21#8 .badValue []) ∧
       exec (.snapshotRelease src payload) s = .next (s.answered src 23#8 .badValue [])) ∧
     (∀ payload, (payload.length ≠ 1 ∨ ∃ p, payload = [p] ∧ 2 < p.toNat) →
       exec (.snapshotRead src payload) s = .next (s.answered src 22#8 .badValue [])) ∧
     (s.shifts.record = none → exec (.snapshotTake src []) s = .next (s.answered src 21#8 .refusedState [])) ∧
     (∀ r, s.shifts.record = some r →
       exec (.snapshotTake src []) s = .next
         { s.answered src 21#8 .ok (beBytes 2 r.number ++ (beBytes 2 s.time.day ++ beBytes 3 s.time.second) ++ [3#8]) with
           shifts := { s.shifts with snapshot := some ⟨r, ⟨s.time.day, s.time.second⟩, src⟩ } }) ∧
     (s.shifts.snapshot = none →
       exec (.snapshotRelease src []) s = .next (s.answered src 23#8 .notFound []) ∧
       ∀ p : Byte, p.toNat ≤ 2 → exec (.snapshotRead src [p]) s = .next (s.answered src 22#8 .notFound [])) ∧
     ∀ x, s.shifts.snapshot = some x →
       exec (.snapshotRelease src []) s = .next
         { s.answered src 23#8 .ok (beBytes 2 x.record.number) with shifts := { s.shifts with snapshot := none } } ∧
       ∀ p : Byte, p.toNat ≤ 2 →
         exec (.snapshotRead src [p]) s = .next
           (s.answered src 22#8 .ok
             (beBytes 2 x.record.number ++ [if x.taker = .meterHead then 0#8 else 1#8] ++ [p] ++ [3#8] ++
               ((shiftBytes x.record ++ (beBytes 2 x.time.day ++ beBytes 3 x.time.second)).drop (44 * p.toNat)).take 44)))

/-! Starts. -/

/-- MAIN_SUPPLY_LOSS stops the frames and changes nothing retained; while frames do not run every command but the wall
clock's, the emergency line's and the starts is lost, but for the level of the calibration line that one carries (R1, R49,
R53; the rest is log 11, the level log 7). COLD_START: every block takes its
cold-start values, whatever it held, and the first DISPLAY and SIGN SET are placed; the command queue and the two line levels
stay, and with the emergency line asserted the debounce starts at 0 (R17, R31, R45, R61, R124, R136, R153, R175, R194). -/
def Obligations.SupplyLossAndColdStart : Prop :=
  (∀ s : State,
     exec .mainSupplyLoss s = .next { s with running := false, link := { s.link with lastFrame := none } } ∧
     (s.running = false → ∀ c : Instr,
       c ∉ [Instr.wallClockSecond, .emergencyLineAssert, .emergencyLineRelease, .mainSupplyLoss, .coldStart, .warmStart] →
       exec c s = .next (sensed c s))) ∧
  (∀ s : State, exec .coldStart s = .next
     { State.reset with
       pending := s.pending, emgLine := s.emgLine, calLine := s.calLine
       sign := { State.reset.sign with debounce := if s.emgLine then some 0 else none } })

/-- WARM_START outside HIRED and SETTLING: the link, the pending sets, the mixer's state, the snapshot, the zone, the speed,
the window and the bearer start again; a pending authorization becomes a late entry; the calendar state is recomputed; flags,
masks, tables, clock, meter state, emergency, deferred queue, journal, reports and shift record are kept; a DISPLAY and a SIGN
SET are placed (R17, R31, R45, R61, R124, R136, R153, R175, R194). In a trip the same, and the trip record is marked and POWER
BREAK occurs with both pending sets empty; in SETTLING the record is otherwise kept, and in HIRED one run is made with the zone
unknown, after POWER BREAK and before the two messages, which is the model's reading (log 13) (R31, R61, R76, R124). -/
def Obligations.WarmStartEffects : Prop :=
  ∀ s : State,
    let base : State := { s with
      running := true, link := .start, disp := { s.disp with headPending := 0#24, modemPending := 0#24 }
      time := (recomputeCalendar { s with
        time := { s.time with
          divFrames := 0, divTicks := 0, zone := 31, speed := 0, windowK := s.time.k, accepted := 0, clampMark := false
          budget := windowBudget (vmaxSetting s.tables.unbanked) s.time.k } }).time
      sign :=
        { emergency := s.sign.emergency, level := if s.sign.emergency = none then 15 else 31, ambient := none
          lampFaults := 0#3, refresh := 0, stepping := 0, lastLegend := none
          debounce := if s.sign.emergency = none ∧ s.emgLine = true then some 0 else none }
      intercom := { IntercomState.start with shownMode := shownModeOf none (openFlagNow s) }
      pay := { s.pay with
        bearerUp := false, auth := none, capture := .idle
        late := match s.pay.auth with
          | none => s.pay.late
          | some a => (if 4 ≤ s.pay.late.length then s.pay.late.drop 1 else s.pay.late) ++
              [⟨a.number, a.ref, a.farePart, a.tip, .warmStart, 0, lateHoldSetting s.tables.unbanked⟩] }
      shifts := { s.shifts with snapshot := none } }
    let told := fun u : State => ({ u with
      sign := { u.sign with lastLegend := some (signLegend s.tables.unbanked (commandedSign s)).1.toNat } } : State)
    ∃ t, exec .warmStart s = .next t ∧ t.Shows ∧ t.Signs ∧
      (s.meter ≠ .hired → s.meter ≠ .settling → (told base).Occurs t [] []) ∧
      ∀ tr, s.trip = some tr →
        let marked : State := { base with trip := some { tr with powerBreak := true } }
        (s.meter = .settling → (told marked).Occurs t [] [.powerBreak]) ∧
        (s.meter = .hired →
          ∃ u, marked.Occurs u [] [.powerBreak] ∧ marked.PlacesFollow u ∧ (told (runForTrip u)).Occurs t [] [])
end

