-- ==== Sys2Proof/Laws/Keeps.lean ====
section
/-! SUPPORT. The parts of the state that each operation keeps: one lemma per operation. -/

namespace Sys2Proof.Machine

@[simp] theorem offer_keeps (m : Outbound) (s : State) :
    (offer m s).pending = s.pending ∧ (offer m s).running = s.running ∧ (offer m s).emgLine = s.emgLine ∧
    (offer m s).calLine = s.calLine ∧ (offer m s).disp = s.disp ∧ (offer m s).tables = s.tables ∧
    (offer m s).time = s.time ∧ (offer m s).meter = s.meter ∧ (offer m s).trip = s.trip ∧ (offer m s).sign = s.sign ∧
    (offer m s).intercom = s.intercom ∧ (offer m s).pay = s.pay ∧ (offer m s).shifts = s.shifts := by
  unfold offer; split <;> simp

@[simp] theorem reply_keeps (dest : Station) (kind : Byte) (r : Result) (data : List Byte) (s : State) :
    (reply dest kind r data s).pending = s.pending ∧ (reply dest kind r data s).running = s.running ∧
    (reply dest kind r data s).emgLine = s.emgLine ∧ (reply dest kind r data s).calLine = s.calLine ∧
    (reply dest kind r data s).disp = s.disp ∧ (reply dest kind r data s).tables = s.tables ∧
    (reply dest kind r data s).time = s.time ∧ (reply dest kind r data s).meter = s.meter ∧
    (reply dest kind r data s).trip = s.trip ∧ (reply dest kind r data s).sign = s.sign ∧
    (reply dest kind r data s).intercom = s.intercom ∧ (reply dest kind r data s).pay = s.pay ∧
    (reply dest kind r data s).shifts = s.shifts := by
  simp [reply]

@[simp] theorem refuse_keeps (dest : Station) (kind : Byte) (r : Result) (s : State) :
    (refuse dest kind r s).pending = s.pending ∧ (refuse dest kind r s).running = s.running ∧
    (refuse dest kind r s).emgLine = s.emgLine ∧ (refuse dest kind r s).calLine = s.calLine ∧
    (refuse dest kind r s).disp = s.disp ∧ (refuse dest kind r s).tables = s.tables ∧
    (refuse dest kind r s).time = s.time ∧ (refuse dest kind r s).meter = s.meter ∧
    (refuse dest kind r s).trip = s.trip ∧ (refuse dest kind r s).sign = s.sign ∧
    (refuse dest kind r s).intercom = s.intercom ∧ (refuse dest kind r s).pay = s.pay ∧
    (refuse dest kind r s).shifts = s.shifts := by
  simp [refuse]

@[simp] theorem withTrip_keeps (f : Trip → Trip) (s : State) :
    (withTrip f s).pending = s.pending ∧ (withTrip f s).running = s.running ∧ (withTrip f s).emgLine = s.emgLine ∧
    (withTrip f s).calLine = s.calLine ∧ (withTrip f s).link = s.link ∧ (withTrip f s).disp = s.disp ∧
    (withTrip f s).tables = s.tables ∧ (withTrip f s).time = s.time ∧ (withTrip f s).meter = s.meter ∧
    (withTrip f s).sign = s.sign ∧ (withTrip f s).intercom = s.intercom ∧ (withTrip f s).pay = s.pay ∧
    (withTrip f s).shifts = s.shifts := by
  simp [withTrip]

@[simp] theorem placeDisplay_keeps (s : State) :
    (placeDisplay s).pending = s.pending ∧ (placeDisplay s).running = s.running ∧
    (placeDisplay s).emgLine = s.emgLine ∧ (placeDisplay s).calLine = s.calLine ∧ (placeDisplay s).disp = s.disp ∧
    (placeDisplay s).tables = s.tables ∧ (placeDisplay s).time = s.time ∧ (placeDisplay s).meter = s.meter ∧
    (placeDisplay s).trip = s.trip ∧ (placeDisplay s).sign = s.sign ∧ (placeDisplay s).intercom = s.intercom ∧
    (placeDisplay s).pay = s.pay ∧ (placeDisplay s).shifts = s.shifts := by
  simp [placeDisplay]

@[simp] theorem withShift_keeps (f : ShiftRecord → ShiftRecord) (s : State) :
    (withShift f s).pending = s.pending ∧ (withShift f s).running = s.running ∧ (withShift f s).emgLine = s.emgLine ∧
    (withShift f s).calLine = s.calLine ∧ (withShift f s).link = s.link ∧ (withShift f s).disp = s.disp ∧
    (withShift f s).tables = s.tables ∧ (withShift f s).time = s.time ∧ (withShift f s).meter = s.meter ∧
    (withShift f s).trip = s.trip ∧ (withShift f s).sign = s.sign ∧ (withShift f s).intercom = s.intercom ∧
    (withShift f s).pay = s.pay := by
  simp [withShift]

@[simp] theorem notifyHead_keeps (e : Event) (s : State) :
    (notifyHead e s).pending = s.pending ∧ (notifyHead e s).running = s.running ∧
    (notifyHead e s).emgLine = s.emgLine ∧ (notifyHead e s).calLine = s.calLine ∧ (notifyHead e s).tables = s.tables ∧
    (notifyHead e s).time = s.time ∧ (notifyHead e s).meter = s.meter ∧ (notifyHead e s).trip = s.trip ∧
    (notifyHead e s).sign = s.sign ∧ (notifyHead e s).intercom = s.intercom ∧ (notifyHead e s).pay = s.pay ∧
    (notifyHead e s).shifts = s.shifts := by
  unfold notifyHead; dsimp only; repeat' split
  all_goals simp

@[simp] theorem notifyModem_keeps (e : Event) (s : State) :
    (notifyModem e s).pending = s.pending ∧ (notifyModem e s).running = s.running ∧
    (notifyModem e s).emgLine = s.emgLine ∧ (notifyModem e s).calLine = s.calLine ∧
    (notifyModem e s).tables = s.tables ∧ (notifyModem e s).time = s.time ∧ (notifyModem e s).meter = s.meter ∧
    (notifyModem e s).trip = s.trip ∧ (notifyModem e s).sign = s.sign ∧ (notifyModem e s).intercom = s.intercom ∧
    (notifyModem e s).pay = s.pay ∧ (notifyModem e s).shifts = s.shifts := by
  unfold notifyModem; dsimp only; repeat' split
  all_goals simp

@[simp] theorem raise_keeps (e : Event) (s : State) :
    (raise e s).pending = s.pending ∧ (raise e s).running = s.running ∧ (raise e s).emgLine = s.emgLine ∧
    (raise e s).calLine = s.calLine ∧ (raise e s).tables = s.tables ∧ (raise e s).time = s.time ∧
    (raise e s).meter = s.meter ∧ (raise e s).trip = s.trip ∧ (raise e s).sign = s.sign ∧
    (raise e s).intercom = s.intercom ∧ (raise e s).pay = s.pay := by
  simp [raise]

@[simp] theorem raiseIf_keeps (c : Bool) (e : Event) (s : State) :
    (raiseIf c e s).pending = s.pending ∧ (raiseIf c e s).running = s.running ∧ (raiseIf c e s).emgLine = s.emgLine ∧
    (raiseIf c e s).calLine = s.calLine ∧ (raiseIf c e s).tables = s.tables ∧ (raiseIf c e s).time = s.time ∧
    (raiseIf c e s).meter = s.meter ∧ (raiseIf c e s).trip = s.trip ∧ (raiseIf c e s).sign = s.sign ∧
    (raiseIf c e s).intercom = s.intercom ∧ (raiseIf c e s).pay = s.pay := by
  unfold raiseIf; split <;> simp

@[simp] theorem placeSign_keeps (s : State) :
    (placeSign s).pending = s.pending ∧ (placeSign s).running = s.running ∧ (placeSign s).emgLine = s.emgLine ∧
    (placeSign s).calLine = s.calLine ∧ (placeSign s).disp = s.disp ∧ (placeSign s).tables = s.tables ∧
    (placeSign s).time = s.time ∧ (placeSign s).meter = s.meter ∧ (placeSign s).trip = s.trip ∧
    (placeSign s).intercom = s.intercom ∧ (placeSign s).pay = s.pay ∧ (placeSign s).shifts = s.shifts := by
  simp [placeSign]

@[simp] theorem signRefreshDue_keeps (s : State) :
    (signRefreshDue s).pending = s.pending ∧ (signRefreshDue s).running = s.running ∧
    (signRefreshDue s).emgLine = s.emgLine ∧ (signRefreshDue s).calLine = s.calLine ∧
    (signRefreshDue s).disp = s.disp ∧ (signRefreshDue s).tables = s.tables ∧ (signRefreshDue s).time = s.time ∧
    (signRefreshDue s).meter = s.meter ∧ (signRefreshDue s).trip = s.trip ∧ (signRefreshDue s).intercom = s.intercom ∧
    (signRefreshDue s).pay = s.pay ∧ (signRefreshDue s).shifts = s.shifts := by
  simp [signRefreshDue]

@[simp] theorem refreshSecond_keeps (s : State) :
    (refreshSecond s).pending = s.pending ∧ (refreshSecond s).running = s.running ∧
    (refreshSecond s).emgLine = s.emgLine ∧ (refreshSecond s).calLine = s.calLine ∧ (refreshSecond s).disp = s.disp ∧
    (refreshSecond s).tables = s.tables ∧ (refreshSecond s).time = s.time ∧ (refreshSecond s).meter = s.meter ∧
    (refreshSecond s).trip = s.trip ∧ (refreshSecond s).intercom = s.intercom ∧ (refreshSecond s).pay = s.pay ∧
    (refreshSecond s).shifts = s.shifts := by
  unfold refreshSecond; split <;> simp

@[simp] theorem brightnessStep_keeps (s : State) :
    (brightnessStep s).pending = s.pending ∧ (brightnessStep s).running = s.running ∧
    (brightnessStep s).emgLine = s.emgLine ∧ (brightnessStep s).calLine = s.calLine ∧
    (brightnessStep s).disp = s.disp ∧ (brightnessStep s).tables = s.tables ∧ (brightnessStep s).time = s.time ∧
    (brightnessStep s).meter = s.meter ∧ (brightnessStep s).trip = s.trip ∧ (brightnessStep s).intercom = s.intercom ∧
    (brightnessStep s).pay = s.pay ∧ (brightnessStep s).shifts = s.shifts := by
  unfold brightnessStep; dsimp only; repeat' split
  all_goals simp

@[simp] theorem steppingSecond_keeps (s : State) :
    (steppingSecond s).pending = s.pending ∧ (steppingSecond s).running = s.running ∧
    (steppingSecond s).emgLine = s.emgLine ∧ (steppingSecond s).calLine = s.calLine ∧
    (steppingSecond s).disp = s.disp ∧ (steppingSecond s).tables = s.tables ∧ (steppingSecond s).time = s.time ∧
    (steppingSecond s).meter = s.meter ∧ (steppingSecond s).trip = s.trip ∧ (steppingSecond s).intercom = s.intercom ∧
    (steppingSecond s).pay = s.pay ∧ (steppingSecond s).shifts = s.shifts := by
  unfold steppingSecond; split <;> simp

@[simp] theorem signMeterChanged_keeps (s : State) :
    (signMeterChanged s).pending = s.pending ∧ (signMeterChanged s).running = s.running ∧
    (signMeterChanged s).emgLine = s.emgLine ∧ (signMeterChanged s).calLine = s.calLine ∧
    (signMeterChanged s).disp = s.disp ∧ (signMeterChanged s).tables = s.tables ∧ (signMeterChanged s).time = s.time ∧
    (signMeterChanged s).meter = s.meter ∧ (signMeterChanged s).trip = s.trip ∧
    (signMeterChanged s).intercom = s.intercom ∧ (signMeterChanged s).pay = s.pay ∧
    (signMeterChanged s).shifts = s.shifts := by
  unfold signMeterChanged; split <;> simp

@[simp] theorem lineAsserted_keeps (s : State) :
    (lineAsserted s).pending = s.pending ∧ (lineAsserted s).running = s.running ∧
    (lineAsserted s).emgLine = s.emgLine ∧ (lineAsserted s).calLine = s.calLine ∧ (lineAsserted s).link = s.link ∧
    (lineAsserted s).disp = s.disp ∧ (lineAsserted s).tables = s.tables ∧ (lineAsserted s).time = s.time ∧
    (lineAsserted s).meter = s.meter ∧ (lineAsserted s).trip = s.trip ∧ (lineAsserted s).intercom = s.intercom ∧
    (lineAsserted s).pay = s.pay ∧ (lineAsserted s).shifts = s.shifts := by
  unfold lineAsserted; split <;> simp

@[simp] theorem lineReleased_keeps (s : State) :
    (lineReleased s).pending = s.pending ∧ (lineReleased s).running = s.running ∧
    (lineReleased s).emgLine = s.emgLine ∧ (lineReleased s).calLine = s.calLine ∧ (lineReleased s).link = s.link ∧
    (lineReleased s).disp = s.disp ∧ (lineReleased s).tables = s.tables ∧ (lineReleased s).time = s.time ∧
    (lineReleased s).meter = s.meter ∧ (lineReleased s).trip = s.trip ∧ (lineReleased s).intercom = s.intercom ∧
    (lineReleased s).pay = s.pay ∧ (lineReleased s).shifts = s.shifts := by
  simp [lineReleased]

@[simp] theorem emergencyBegins_keeps (s : State) :
    (emergencyBegins s).pending = s.pending ∧ (emergencyBegins s).running = s.running ∧
    (emergencyBegins s).emgLine = s.emgLine ∧ (emergencyBegins s).calLine = s.calLine ∧
    (emergencyBegins s).tables = s.tables ∧ (emergencyBegins s).time = s.time ∧ (emergencyBegins s).meter = s.meter ∧
    (emergencyBegins s).trip = s.trip ∧ (emergencyBegins s).intercom = s.intercom ∧
    (emergencyBegins s).pay = s.pay := by
  simp [emergencyBegins]

@[simp] theorem debounceTick_keeps (s : State) :
    (debounceTick s).pending = s.pending ∧ (debounceTick s).running = s.running ∧
    (debounceTick s).emgLine = s.emgLine ∧ (debounceTick s).calLine = s.calLine ∧ (debounceTick s).tables = s.tables ∧
    (debounceTick s).time = s.time ∧ (debounceTick s).meter = s.meter ∧ (debounceTick s).trip = s.trip ∧
    (debounceTick s).intercom = s.intercom ∧ (debounceTick s).pay = s.pay := by
  unfold debounceTick; repeat' split
  all_goals simp

@[simp] theorem emergencyEnds_keeps (s : State) :
    (emergencyEnds s).pending = s.pending ∧ (emergencyEnds s).running = s.running ∧
    (emergencyEnds s).emgLine = s.emgLine ∧ (emergencyEnds s).calLine = s.calLine ∧ (emergencyEnds s).disp = s.disp ∧
    (emergencyEnds s).tables = s.tables ∧ (emergencyEnds s).time = s.time ∧ (emergencyEnds s).meter = s.meter ∧
    (emergencyEnds s).trip = s.trip ∧ (emergencyEnds s).intercom = s.intercom ∧ (emergencyEnds s).pay = s.pay ∧
    (emergencyEnds s).shifts = s.shifts := by
  simp [emergencyEnds]

@[simp] theorem lampNewlyFailed_keeps (s : State) :
    (lampNewlyFailed s).pending = s.pending ∧ (lampNewlyFailed s).running = s.running ∧
    (lampNewlyFailed s).emgLine = s.emgLine ∧ (lampNewlyFailed s).calLine = s.calLine ∧
    (lampNewlyFailed s).tables = s.tables ∧ (lampNewlyFailed s).time = s.time ∧ (lampNewlyFailed s).meter = s.meter ∧
    (lampNewlyFailed s).trip = s.trip ∧ (lampNewlyFailed s).sign = s.sign ∧
    (lampNewlyFailed s).intercom = s.intercom ∧ (lampNewlyFailed s).pay = s.pay := by
  simp [lampNewlyFailed]

@[simp] theorem checkLamp_keeps (held reported : BitVec 3) (lamp : Nat) (s : State) :
    (checkLamp held reported lamp s).pending = s.pending ∧ (checkLamp held reported lamp s).running = s.running ∧
    (checkLamp held reported lamp s).emgLine = s.emgLine ∧ (checkLamp held reported lamp s).calLine = s.calLine ∧
    (checkLamp held reported lamp s).tables = s.tables ∧ (checkLamp held reported lamp s).time = s.time ∧
    (checkLamp held reported lamp s).meter = s.meter ∧ (checkLamp held reported lamp s).trip = s.trip ∧
    (checkLamp held reported lamp s).sign = s.sign ∧ (checkLamp held reported lamp s).intercom = s.intercom ∧
    (checkLamp held reported lamp s).pay = s.pay := by
  unfold checkLamp; split <;> simp

@[simp] theorem signStatusTaken_keeps (ambient : Nat) (reported : BitVec 3) (s : State) :
    (signStatusTaken ambient reported s).pending = s.pending ∧
    (signStatusTaken ambient reported s).running = s.running ∧
    (signStatusTaken ambient reported s).emgLine = s.emgLine ∧
    (signStatusTaken ambient reported s).calLine = s.calLine ∧
    (signStatusTaken ambient reported s).tables = s.tables ∧ (signStatusTaken ambient reported s).time = s.time ∧
    (signStatusTaken ambient reported s).meter = s.meter ∧ (signStatusTaken ambient reported s).trip = s.trip ∧
    (signStatusTaken ambient reported s).intercom = s.intercom ∧
    (signStatusTaken ambient reported s).pay = s.pay := by
  unfold signStatusTaken; dsimp only; split <;> simp

@[simp] theorem beginWindow_keeps (s : State) :
    (beginWindow s).pending = s.pending ∧ (beginWindow s).running = s.running ∧ (beginWindow s).emgLine = s.emgLine ∧
    (beginWindow s).calLine = s.calLine ∧ (beginWindow s).link = s.link ∧ (beginWindow s).disp = s.disp ∧
    (beginWindow s).tables = s.tables ∧ (beginWindow s).meter = s.meter ∧ (beginWindow s).trip = s.trip ∧
    (beginWindow s).sign = s.sign ∧ (beginWindow s).intercom = s.intercom ∧ (beginWindow s).pay = s.pay ∧
    (beginWindow s).shifts = s.shifts := by
  simp [beginWindow]

@[simp] theorem windowEnds_keeps (s : State) :
    (windowEnds s).pending = s.pending ∧ (windowEnds s).running = s.running ∧ (windowEnds s).emgLine = s.emgLine ∧
    (windowEnds s).calLine = s.calLine ∧ (windowEnds s).disp = s.disp ∧ (windowEnds s).tables = s.tables ∧
    (windowEnds s).meter = s.meter ∧ (windowEnds s).trip = s.trip ∧ (windowEnds s).sign = s.sign ∧
    (windowEnds s).intercom = s.intercom ∧ (windowEnds s).pay = s.pay ∧ (windowEnds s).shifts = s.shifts := by
  unfold windowEnds; dsimp only; split <;> simp

@[simp] theorem recomputeCalendar_keeps (s : State) :
    (recomputeCalendar s).pending = s.pending ∧ (recomputeCalendar s).running = s.running ∧
    (recomputeCalendar s).emgLine = s.emgLine ∧ (recomputeCalendar s).calLine = s.calLine ∧
    (recomputeCalendar s).link = s.link ∧ (recomputeCalendar s).disp = s.disp ∧
    (recomputeCalendar s).tables = s.tables ∧ (recomputeCalendar s).meter = s.meter ∧
    (recomputeCalendar s).trip = s.trip ∧ (recomputeCalendar s).sign = s.sign ∧
    (recomputeCalendar s).intercom = s.intercom ∧ (recomputeCalendar s).pay = s.pay ∧
    (recomputeCalendar s).shifts = s.shifts := by
  simp [recomputeCalendar]

@[simp] theorem displayIfClockShown_keeps (before : TimeState) (s : State) :
    (displayIfClockShown before s).pending = s.pending ∧ (displayIfClockShown before s).running = s.running ∧
    (displayIfClockShown before s).emgLine = s.emgLine ∧ (displayIfClockShown before s).calLine = s.calLine ∧
    (displayIfClockShown before s).disp = s.disp ∧ (displayIfClockShown before s).tables = s.tables ∧
    (displayIfClockShown before s).time = s.time ∧ (displayIfClockShown before s).meter = s.meter ∧
    (displayIfClockShown before s).trip = s.trip ∧ (displayIfClockShown before s).sign = s.sign ∧
    (displayIfClockShown before s).intercom = s.intercom ∧ (displayIfClockShown before s).pay = s.pay ∧
    (displayIfClockShown before s).shifts = s.shifts := by
  unfold displayIfClockShown; split <;> simp

@[simp] theorem shiftPulse_keeps (s : State) :
    (shiftPulse s).pending = s.pending ∧ (shiftPulse s).running = s.running ∧ (shiftPulse s).emgLine = s.emgLine ∧
    (shiftPulse s).calLine = s.calLine ∧ (shiftPulse s).link = s.link ∧ (shiftPulse s).disp = s.disp ∧
    (shiftPulse s).tables = s.tables ∧ (shiftPulse s).time = s.time ∧ (shiftPulse s).meter = s.meter ∧
    (shiftPulse s).trip = s.trip ∧ (shiftPulse s).sign = s.sign ∧ (shiftPulse s).intercom = s.intercom ∧
    (shiftPulse s).pay = s.pay := by
  simp [shiftPulse]

@[simp] theorem shiftDrop_keeps (side : Side) (s : State) :
    (shiftDrop side s).pending = s.pending ∧ (shiftDrop side s).running = s.running ∧
    (shiftDrop side s).emgLine = s.emgLine ∧ (shiftDrop side s).calLine = s.calLine ∧
    (shiftDrop side s).link = s.link ∧ (shiftDrop side s).disp = s.disp ∧ (shiftDrop side s).tables = s.tables ∧
    (shiftDrop side s).time = s.time ∧ (shiftDrop side s).meter = s.meter ∧ (shiftDrop side s).trip = s.trip ∧
    (shiftDrop side s).sign = s.sign ∧ (shiftDrop side s).intercom = s.intercom ∧ (shiftDrop side s).pay = s.pay := by
  simp [shiftDrop]

@[simp] theorem journalPlace_keeps (e : JournalEntry) (s : State) :
    (journalPlace e s).pending = s.pending ∧ (journalPlace e s).running = s.running ∧
    (journalPlace e s).emgLine = s.emgLine ∧ (journalPlace e s).calLine = s.calLine ∧
    (journalPlace e s).tables = s.tables ∧ (journalPlace e s).time = s.time ∧ (journalPlace e s).meter = s.meter ∧
    (journalPlace e s).trip = s.trip ∧ (journalPlace e s).sign = s.sign ∧ (journalPlace e s).intercom = s.intercom ∧
    (journalPlace e s).pay = s.pay := by
  unfold journalPlace; split <;> simp

@[simp] theorem shiftTripClosed_keeps (tr : Trip) (s : State) :
    (shiftTripClosed tr s).pending = s.pending ∧ (shiftTripClosed tr s).running = s.running ∧
    (shiftTripClosed tr s).emgLine = s.emgLine ∧ (shiftTripClosed tr s).calLine = s.calLine ∧
    (shiftTripClosed tr s).tables = s.tables ∧ (shiftTripClosed tr s).time = s.time ∧
    (shiftTripClosed tr s).meter = s.meter ∧ (shiftTripClosed tr s).trip = s.trip ∧
    (shiftTripClosed tr s).sign = s.sign ∧ (shiftTripClosed tr s).intercom = s.intercom ∧
    (shiftTripClosed tr s).pay = s.pay := by
  simp [shiftTripClosed]

@[simp] theorem shiftOfflineApproval_keeps (amount : Nat) (s : State) :
    (shiftOfflineApproval amount s).pending = s.pending ∧ (shiftOfflineApproval amount s).running = s.running ∧
    (shiftOfflineApproval amount s).emgLine = s.emgLine ∧ (shiftOfflineApproval amount s).calLine = s.calLine ∧
    (shiftOfflineApproval amount s).link = s.link ∧ (shiftOfflineApproval amount s).disp = s.disp ∧
    (shiftOfflineApproval amount s).tables = s.tables ∧ (shiftOfflineApproval amount s).time = s.time ∧
    (shiftOfflineApproval amount s).meter = s.meter ∧ (shiftOfflineApproval amount s).trip = s.trip ∧
    (shiftOfflineApproval amount s).sign = s.sign ∧ (shiftOfflineApproval amount s).intercom = s.intercom ∧
    (shiftOfflineApproval amount s).pay = s.pay := by
  simp [shiftOfflineApproval]

@[simp] theorem shiftResolved_keeps (s : State) :
    (shiftResolved s).pending = s.pending ∧ (shiftResolved s).running = s.running ∧
    (shiftResolved s).emgLine = s.emgLine ∧ (shiftResolved s).calLine = s.calLine ∧ (shiftResolved s).link = s.link ∧
    (shiftResolved s).disp = s.disp ∧ (shiftResolved s).tables = s.tables ∧ (shiftResolved s).time = s.time ∧
    (shiftResolved s).meter = s.meter ∧ (shiftResolved s).trip = s.trip ∧ (shiftResolved s).sign = s.sign ∧
    (shiftResolved s).intercom = s.intercom ∧ (shiftResolved s).pay = s.pay := by
  simp [shiftResolved]

@[simp] theorem shiftDeclined_keeps (amount : Nat) (s : State) :
    (shiftDeclined amount s).pending = s.pending ∧ (shiftDeclined amount s).running = s.running ∧
    (shiftDeclined amount s).emgLine = s.emgLine ∧ (shiftDeclined amount s).calLine = s.calLine ∧
    (shiftDeclined amount s).link = s.link ∧ (shiftDeclined amount s).disp = s.disp ∧
    (shiftDeclined amount s).tables = s.tables ∧ (shiftDeclined amount s).time = s.time ∧
    (shiftDeclined amount s).meter = s.meter ∧ (shiftDeclined amount s).trip = s.trip ∧
    (shiftDeclined amount s).sign = s.sign ∧ (shiftDeclined amount s).intercom = s.intercom ∧
    (shiftDeclined amount s).pay = s.pay := by
  simp [shiftDeclined]

@[simp] theorem shiftVoid_keeps (s : State) :
    (shiftVoid s).pending = s.pending ∧ (shiftVoid s).running = s.running ∧ (shiftVoid s).emgLine = s.emgLine ∧
    (shiftVoid s).calLine = s.calLine ∧ (shiftVoid s).link = s.link ∧ (shiftVoid s).disp = s.disp ∧
    (shiftVoid s).tables = s.tables ∧ (shiftVoid s).time = s.time ∧ (shiftVoid s).meter = s.meter ∧
    (shiftVoid s).trip = s.trip ∧ (shiftVoid s).sign = s.sign ∧ (shiftVoid s).intercom = s.intercom ∧
    (shiftVoid s).pay = s.pay := by
  simp [shiftVoid]

@[simp] theorem shiftMarkDeclined_keeps (ref : Reference) (s : State) :
    (shiftMarkDeclined ref s).pending = s.pending ∧ (shiftMarkDeclined ref s).running = s.running ∧
    (shiftMarkDeclined ref s).emgLine = s.emgLine ∧ (shiftMarkDeclined ref s).calLine = s.calLine ∧
    (shiftMarkDeclined ref s).link = s.link ∧ (shiftMarkDeclined ref s).disp = s.disp ∧
    (shiftMarkDeclined ref s).tables = s.tables ∧ (shiftMarkDeclined ref s).time = s.time ∧
    (shiftMarkDeclined ref s).meter = s.meter ∧ (shiftMarkDeclined ref s).trip = s.trip ∧
    (shiftMarkDeclined ref s).sign = s.sign ∧ (shiftMarkDeclined ref s).intercom = s.intercom ∧
    (shiftMarkDeclined ref s).pay = s.pay := by
  simp [shiftMarkDeclined]

@[simp] theorem updateShownMode_keeps (s : State) :
    (updateShownMode s).pending = s.pending ∧ (updateShownMode s).running = s.running ∧
    (updateShownMode s).emgLine = s.emgLine ∧ (updateShownMode s).calLine = s.calLine ∧
    (updateShownMode s).disp = s.disp ∧ (updateShownMode s).tables = s.tables ∧ (updateShownMode s).time = s.time ∧
    (updateShownMode s).meter = s.meter ∧ (updateShownMode s).trip = s.trip ∧ (updateShownMode s).sign = s.sign ∧
    (updateShownMode s).pay = s.pay ∧ (updateShownMode s).shifts = s.shifts := by
  unfold updateShownMode; dsimp only; split <;> simp

@[simp] theorem mixEvent_keeps (x : Four Sample) (s : State) :
    (mixEvent x s).pending = s.pending ∧ (mixEvent x s).running = s.running ∧ (mixEvent x s).emgLine = s.emgLine ∧
    (mixEvent x s).calLine = s.calLine ∧ (mixEvent x s).tables = s.tables ∧ (mixEvent x s).time = s.time ∧
    (mixEvent x s).meter = s.meter ∧ (mixEvent x s).trip = s.trip ∧ (mixEvent x s).sign = s.sign ∧
    (mixEvent x s).pay = s.pay := by
  simp [mixEvent]

@[simp] theorem changeFloor_keeps (f : IntercomState → IntercomState) (s : State) :
    (changeFloor f s).pending = s.pending ∧ (changeFloor f s).running = s.running ∧
    (changeFloor f s).emgLine = s.emgLine ∧ (changeFloor f s).calLine = s.calLine ∧ (changeFloor f s).disp = s.disp ∧
    (changeFloor f s).tables = s.tables ∧ (changeFloor f s).time = s.time ∧ (changeFloor f s).meter = s.meter ∧
    (changeFloor f s).trip = s.trip ∧ (changeFloor f s).sign = s.sign ∧ (changeFloor f s).pay = s.pay ∧
    (changeFloor f s).shifts = s.shifts := by
  simp [changeFloor]

@[simp] theorem holdExpires_keeps (s : State) :
    (holdExpires s).pending = s.pending ∧ (holdExpires s).running = s.running ∧ (holdExpires s).emgLine = s.emgLine ∧
    (holdExpires s).calLine = s.calLine ∧ (holdExpires s).disp = s.disp ∧ (holdExpires s).tables = s.tables ∧
    (holdExpires s).time = s.time ∧ (holdExpires s).meter = s.meter ∧ (holdExpires s).trip = s.trip ∧
    (holdExpires s).sign = s.sign ∧ (holdExpires s).pay = s.pay ∧ (holdExpires s).shifts = s.shifts := by
  unfold holdExpires; split <;> simp

@[simp] theorem holdSecond_keeps (s : State) :
    (holdSecond s).pending = s.pending ∧ (holdSecond s).running = s.running ∧ (holdSecond s).emgLine = s.emgLine ∧
    (holdSecond s).calLine = s.calLine ∧ (holdSecond s).disp = s.disp ∧ (holdSecond s).tables = s.tables ∧
    (holdSecond s).time = s.time ∧ (holdSecond s).meter = s.meter ∧ (holdSecond s).trip = s.trip ∧
    (holdSecond s).sign = s.sign ∧ (holdSecond s).pay = s.pay ∧ (holdSecond s).shifts = s.shifts := by
  unfold holdSecond; split <;> (try split) <;> simp

@[simp] theorem passengerLost_keeps (p : Party) (s : State) :
    (passengerLost p s).pending = s.pending ∧ (passengerLost p s).running = s.running ∧
    (passengerLost p s).emgLine = s.emgLine ∧ (passengerLost p s).calLine = s.calLine ∧
    (passengerLost p s).disp = s.disp ∧ (passengerLost p s).tables = s.tables ∧ (passengerLost p s).time = s.time ∧
    (passengerLost p s).meter = s.meter ∧ (passengerLost p s).trip = s.trip ∧ (passengerLost p s).sign = s.sign ∧
    (passengerLost p s).pay = s.pay ∧ (passengerLost p s).shifts = s.shifts := by
  simp [passengerLost]

@[simp] theorem pinOff_keeps (s : State) :
    (pinOff s).pending = s.pending ∧ (pinOff s).running = s.running ∧ (pinOff s).emgLine = s.emgLine ∧
    (pinOff s).calLine = s.calLine ∧ (pinOff s).link = s.link ∧ (pinOff s).disp = s.disp ∧
    (pinOff s).tables = s.tables ∧ (pinOff s).time = s.time ∧ (pinOff s).meter = s.meter ∧ (pinOff s).trip = s.trip ∧
    (pinOff s).sign = s.sign ∧ (pinOff s).pay = s.pay ∧ (pinOff s).shifts = s.shifts := by
  simp [pinOff]

@[simp] theorem pinSecond_keeps (s : State) :
    (pinSecond s).pending = s.pending ∧ (pinSecond s).running = s.running ∧ (pinSecond s).emgLine = s.emgLine ∧
    (pinSecond s).calLine = s.calLine ∧ (pinSecond s).link = s.link ∧ (pinSecond s).disp = s.disp ∧
    (pinSecond s).tables = s.tables ∧ (pinSecond s).time = s.time ∧ (pinSecond s).meter = s.meter ∧
    (pinSecond s).trip = s.trip ∧ (pinSecond s).sign = s.sign ∧ (pinSecond s).pay = s.pay ∧
    (pinSecond s).shifts = s.shifts := by
  unfold pinSecond; split <;> (try split) <;> simp

@[simp] theorem pinStateTaken_keeps (begin_ : Bool) (s : State) :
    (pinStateTaken begin_ s).pending = s.pending ∧ (pinStateTaken begin_ s).running = s.running ∧
    (pinStateTaken begin_ s).emgLine = s.emgLine ∧ (pinStateTaken begin_ s).calLine = s.calLine ∧
    (pinStateTaken begin_ s).link = s.link ∧ (pinStateTaken begin_ s).disp = s.disp ∧
    (pinStateTaken begin_ s).tables = s.tables ∧ (pinStateTaken begin_ s).time = s.time ∧
    (pinStateTaken begin_ s).meter = s.meter ∧ (pinStateTaken begin_ s).trip = s.trip ∧
    (pinStateTaken begin_ s).sign = s.sign ∧ (pinStateTaken begin_ s).pay = s.pay ∧
    (pinStateTaken begin_ s).shifts = s.shifts := by
  unfold pinStateTaken; split <;> (try split) <;> simp

@[simp] theorem clearClipMarks_keeps (s : State) :
    (clearClipMarks s).pending = s.pending ∧ (clearClipMarks s).running = s.running ∧
    (clearClipMarks s).emgLine = s.emgLine ∧ (clearClipMarks s).calLine = s.calLine ∧
    (clearClipMarks s).link = s.link ∧ (clearClipMarks s).disp = s.disp ∧ (clearClipMarks s).tables = s.tables ∧
    (clearClipMarks s).time = s.time ∧ (clearClipMarks s).meter = s.meter ∧ (clearClipMarks s).trip = s.trip ∧
    (clearClipMarks s).sign = s.sign ∧ (clearClipMarks s).pay = s.pay ∧ (clearClipMarks s).shifts = s.shifts := by
  simp [clearClipMarks]

@[simp] theorem setOpenFlag_keeps (v : Bool) (s : State) :
    (setOpenFlag v s).pending = s.pending ∧ (setOpenFlag v s).running = s.running ∧
    (setOpenFlag v s).emgLine = s.emgLine ∧ (setOpenFlag v s).calLine = s.calLine ∧ (setOpenFlag v s).disp = s.disp ∧
    (setOpenFlag v s).tables = s.tables ∧ (setOpenFlag v s).time = s.time ∧ (setOpenFlag v s).meter = s.meter ∧
    (setOpenFlag v s).sign = s.sign ∧ (setOpenFlag v s).pay = s.pay ∧ (setOpenFlag v s).shifts = s.shifts := by
  unfold setOpenFlag; split <;> simp

@[simp] theorem callTaken_keeps (s : State) :
    (callTaken s).pending = s.pending ∧ (callTaken s).running = s.running ∧ (callTaken s).emgLine = s.emgLine ∧
    (callTaken s).calLine = s.calLine ∧ (callTaken s).tables = s.tables ∧ (callTaken s).time = s.time ∧
    (callTaken s).meter = s.meter ∧ (callTaken s).sign = s.sign ∧ (callTaken s).intercom = s.intercom ∧
    (callTaken s).pay = s.pay := by
  simp [callTaken]

@[simp] theorem testFareLimit_keeps (s : State) :
    (testFareLimit s).pending = s.pending ∧ (testFareLimit s).running = s.running ∧
    (testFareLimit s).emgLine = s.emgLine ∧ (testFareLimit s).calLine = s.calLine ∧
    (testFareLimit s).tables = s.tables ∧ (testFareLimit s).time = s.time ∧ (testFareLimit s).meter = s.meter ∧
    (testFareLimit s).sign = s.sign ∧ (testFareLimit s).intercom = s.intercom ∧ (testFareLimit s).pay = s.pay := by
  unfold testFareLimit; split <;> (try split) <;> simp

@[simp] theorem fareChanged_keeps (s : State) :
    (fareChanged s).pending = s.pending ∧ (fareChanged s).running = s.running ∧ (fareChanged s).emgLine = s.emgLine ∧
    (fareChanged s).calLine = s.calLine ∧ (fareChanged s).tables = s.tables ∧ (fareChanged s).time = s.time ∧
    (fareChanged s).meter = s.meter ∧ (fareChanged s).sign = s.sign ∧ (fareChanged s).intercom = s.intercom ∧
    (fareChanged s).pay = s.pay := by
  simp [fareChanged]

@[simp] theorem reevaluateSegment_keeps (s : State) :
    (reevaluateSegment s).pending = s.pending ∧ (reevaluateSegment s).running = s.running ∧
    (reevaluateSegment s).emgLine = s.emgLine ∧ (reevaluateSegment s).calLine = s.calLine ∧
    (reevaluateSegment s).link = s.link ∧ (reevaluateSegment s).disp = s.disp ∧
    (reevaluateSegment s).tables = s.tables ∧ (reevaluateSegment s).time = s.time ∧
    (reevaluateSegment s).meter = s.meter ∧ (reevaluateSegment s).sign = s.sign ∧
    (reevaluateSegment s).intercom = s.intercom ∧ (reevaluateSegment s).pay = s.pay ∧
    (reevaluateSegment s).shifts = s.shifts := by
  simp [reevaluateSegment]

@[simp] theorem loadDc_keeps (s : State) :
    (loadDc s).pending = s.pending ∧ (loadDc s).running = s.running ∧ (loadDc s).emgLine = s.emgLine ∧
    (loadDc s).calLine = s.calLine ∧ (loadDc s).link = s.link ∧ (loadDc s).disp = s.disp ∧
    (loadDc s).tables = s.tables ∧ (loadDc s).time = s.time ∧ (loadDc s).meter = s.meter ∧ (loadDc s).sign = s.sign ∧
    (loadDc s).intercom = s.intercom ∧ (loadDc s).pay = s.pay ∧ (loadDc s).shifts = s.shifts := by
  simp [loadDc]

@[simp] theorem loadTc_keeps (s : State) :
    (loadTc s).pending = s.pending ∧ (loadTc s).running = s.running ∧ (loadTc s).emgLine = s.emgLine ∧
    (loadTc s).calLine = s.calLine ∧ (loadTc s).link = s.link ∧ (loadTc s).disp = s.disp ∧
    (loadTc s).tables = s.tables ∧ (loadTc s).time = s.time ∧ (loadTc s).meter = s.meter ∧ (loadTc s).sign = s.sign ∧
    (loadTc s).intercom = s.intercom ∧ (loadTc s).pay = s.pay ∧ (loadTc s).shifts = s.shifts := by
  simp [loadTc]

@[simp] theorem chargeDrop_keeps (side : Side) (s : State) :
    (chargeDrop side s).pending = s.pending ∧ (chargeDrop side s).running = s.running ∧
    (chargeDrop side s).emgLine = s.emgLine ∧ (chargeDrop side s).calLine = s.calLine ∧
    (chargeDrop side s).tables = s.tables ∧ (chargeDrop side s).time = s.time ∧ (chargeDrop side s).meter = s.meter ∧
    (chargeDrop side s).sign = s.sign ∧ (chargeDrop side s).intercom = s.intercom ∧
    (chargeDrop side s).pay = s.pay := by
  simp [chargeDrop]

@[simp] theorem chargeIfStepping_keeps (side : Side) (tr : Trip) (s : State) :
    (chargeIfStepping side tr s).pending = s.pending ∧ (chargeIfStepping side tr s).running = s.running ∧
    (chargeIfStepping side tr s).emgLine = s.emgLine ∧ (chargeIfStepping side tr s).calLine = s.calLine ∧
    (chargeIfStepping side tr s).tables = s.tables ∧ (chargeIfStepping side tr s).time = s.time ∧
    (chargeIfStepping side tr s).meter = s.meter ∧ (chargeIfStepping side tr s).sign = s.sign ∧
    (chargeIfStepping side tr s).intercom = s.intercom ∧ (chargeIfStepping side tr s).pay = s.pay := by
  unfold chargeIfStepping; split <;> simp

@[simp] theorem expireSingle_keeps (side : Side) (tr : Trip) (s : State) :
    (expireSingle side tr s).pending = s.pending ∧ (expireSingle side tr s).running = s.running ∧
    (expireSingle side tr s).emgLine = s.emgLine ∧ (expireSingle side tr s).calLine = s.calLine ∧
    (expireSingle side tr s).tables = s.tables ∧ (expireSingle side tr s).time = s.time ∧
    (expireSingle side tr s).meter = s.meter ∧ (expireSingle side tr s).sign = s.sign ∧
    (expireSingle side tr s).intercom = s.intercom ∧ (expireSingle side tr s).pay = s.pay := by
  simp [expireSingle]

@[simp] theorem adjustTimeSide_keeps (s : State) :
    (adjustTimeSide s).pending = s.pending ∧ (adjustTimeSide s).running = s.running ∧
    (adjustTimeSide s).emgLine = s.emgLine ∧ (adjustTimeSide s).calLine = s.calLine ∧
    (adjustTimeSide s).link = s.link ∧ (adjustTimeSide s).disp = s.disp ∧ (adjustTimeSide s).tables = s.tables ∧
    (adjustTimeSide s).time = s.time ∧ (adjustTimeSide s).meter = s.meter ∧ (adjustTimeSide s).sign = s.sign ∧
    (adjustTimeSide s).intercom = s.intercom ∧ (adjustTimeSide s).pay = s.pay ∧
    (adjustTimeSide s).shifts = s.shifts := by
  simp [adjustTimeSide]

@[simp] theorem expireDouble_keeps (side : Side) (tr : Trip) (s : State) :
    (expireDouble side tr s).pending = s.pending ∧ (expireDouble side tr s).running = s.running ∧
    (expireDouble side tr s).emgLine = s.emgLine ∧ (expireDouble side tr s).calLine = s.calLine ∧
    (expireDouble side tr s).tables = s.tables ∧ (expireDouble side tr s).time = s.time ∧
    (expireDouble side tr s).meter = s.meter ∧ (expireDouble side tr s).sign = s.sign ∧
    (expireDouble side tr s).intercom = s.intercom ∧ (expireDouble side tr s).pay = s.pay := by
  unfold expireDouble; dsimp only; repeat' split
  all_goals simp

@[simp] theorem expire_keeps (side : Side) (s : State) :
    (expire side s).pending = s.pending ∧ (expire side s).running = s.running ∧ (expire side s).emgLine = s.emgLine ∧
    (expire side s).calLine = s.calLine ∧ (expire side s).tables = s.tables ∧ (expire side s).time = s.time ∧
    (expire side s).meter = s.meter ∧ (expire side s).sign = s.sign ∧ (expire side s).intercom = s.intercom ∧
    (expire side s).pay = s.pay := by
  unfold expire; split <;> (try split) <;> simp

@[simp] theorem farePulse_keeps (s : State) :
    (farePulse s).pending = s.pending ∧ (farePulse s).running = s.running ∧ (farePulse s).emgLine = s.emgLine ∧
    (farePulse s).calLine = s.calLine ∧ (farePulse s).tables = s.tables ∧ (farePulse s).time = s.time ∧
    (farePulse s).meter = s.meter ∧ (farePulse s).sign = s.sign ∧ (farePulse s).intercom = s.intercom ∧
    (farePulse s).pay = s.pay := by
  unfold farePulse; repeat' split
  all_goals simp

@[simp] theorem fareTick_keeps (s : State) :
    (fareTick s).pending = s.pending ∧ (fareTick s).running = s.running ∧ (fareTick s).emgLine = s.emgLine ∧
    (fareTick s).calLine = s.calLine ∧ (fareTick s).tables = s.tables ∧ (fareTick s).time = s.time ∧
    (fareTick s).meter = s.meter ∧ (fareTick s).sign = s.sign ∧ (fareTick s).intercom = s.intercom ∧
    (fareTick s).pay = s.pay := by
  unfold fareTick; repeat' split
  all_goals simp

@[simp] theorem applySurcharge_keeps (s : State) :
    (applySurcharge s).pending = s.pending ∧ (applySurcharge s).running = s.running ∧
    (applySurcharge s).emgLine = s.emgLine ∧ (applySurcharge s).calLine = s.calLine ∧
    (applySurcharge s).link = s.link ∧ (applySurcharge s).disp = s.disp ∧ (applySurcharge s).tables = s.tables ∧
    (applySurcharge s).time = s.time ∧ (applySurcharge s).meter = s.meter ∧ (applySurcharge s).sign = s.sign ∧
    (applySurcharge s).intercom = s.intercom ∧ (applySurcharge s).pay = s.pay ∧
    (applySurcharge s).shifts = s.shifts := by
  simp [applySurcharge]

@[simp] theorem surchargeLookup_keeps (s : State) :
    (surchargeLookup s).pending = s.pending ∧ (surchargeLookup s).running = s.running ∧
    (surchargeLookup s).emgLine = s.emgLine ∧ (surchargeLookup s).calLine = s.calLine ∧
    (surchargeLookup s).tables = s.tables ∧ (surchargeLookup s).time = s.time ∧ (surchargeLookup s).meter = s.meter ∧
    (surchargeLookup s).sign = s.sign ∧ (surchargeLookup s).intercom = s.intercom ∧
    (surchargeLookup s).pay = s.pay := by
  unfold surchargeLookup; split <;> (try split) <;> simp

@[simp] theorem startWaitingSides_keeps (s : State) :
    (startWaitingSides s).pending = s.pending ∧ (startWaitingSides s).running = s.running ∧
    (startWaitingSides s).emgLine = s.emgLine ∧ (startWaitingSides s).calLine = s.calLine ∧
    (startWaitingSides s).link = s.link ∧ (startWaitingSides s).disp = s.disp ∧
    (startWaitingSides s).tables = s.tables ∧ (startWaitingSides s).time = s.time ∧
    (startWaitingSides s).meter = s.meter ∧ (startWaitingSides s).sign = s.sign ∧
    (startWaitingSides s).intercom = s.intercom ∧ (startWaitingSides s).pay = s.pay ∧
    (startWaitingSides s).shifts = s.shifts := by
  simp [startWaitingSides]

@[simp] theorem fareTariffChange_keeps (s : State) :
    (fareTariffChange s).pending = s.pending ∧ (fareTariffChange s).running = s.running ∧
    (fareTariffChange s).emgLine = s.emgLine ∧ (fareTariffChange s).calLine = s.calLine ∧
    (fareTariffChange s).tables = s.tables ∧ (fareTariffChange s).time = s.time ∧
    (fareTariffChange s).meter = s.meter ∧ (fareTariffChange s).sign = s.sign ∧
    (fareTariffChange s).intercom = s.intercom ∧ (fareTariffChange s).pay = s.pay := by
  simp [fareTariffChange]

@[simp] theorem fixFareDue_keeps (s : State) :
    (fixFareDue s).pending = s.pending ∧ (fixFareDue s).running = s.running ∧ (fixFareDue s).emgLine = s.emgLine ∧
    (fixFareDue s).calLine = s.calLine ∧ (fixFareDue s).link = s.link ∧ (fixFareDue s).disp = s.disp ∧
    (fixFareDue s).tables = s.tables ∧ (fixFareDue s).time = s.time ∧ (fixFareDue s).meter = s.meter ∧
    (fixFareDue s).sign = s.sign ∧ (fixFareDue s).intercom = s.intercom ∧ (fixFareDue s).pay = s.pay ∧
    (fixFareDue s).shifts = s.shifts := by
  simp [fixFareDue]

@[simp] theorem dropFareDue_keeps (s : State) :
    (dropFareDue s).pending = s.pending ∧ (dropFareDue s).running = s.running ∧ (dropFareDue s).emgLine = s.emgLine ∧
    (dropFareDue s).calLine = s.calLine ∧ (dropFareDue s).link = s.link ∧ (dropFareDue s).disp = s.disp ∧
    (dropFareDue s).tables = s.tables ∧ (dropFareDue s).time = s.time ∧ (dropFareDue s).meter = s.meter ∧
    (dropFareDue s).sign = s.sign ∧ (dropFareDue s).intercom = s.intercom ∧ (dropFareDue s).pay = s.pay ∧
    (dropFareDue s).shifts = s.shifts := by
  simp [dropFareDue]

@[simp] theorem addExtra_keeps (item amount : Nat) (s : State) :
    (addExtra item amount s).pending = s.pending ∧ (addExtra item amount s).running = s.running ∧
    (addExtra item amount s).emgLine = s.emgLine ∧ (addExtra item amount s).calLine = s.calLine ∧
    (addExtra item amount s).tables = s.tables ∧ (addExtra item amount s).time = s.time ∧
    (addExtra item amount s).meter = s.meter ∧ (addExtra item amount s).sign = s.sign ∧
    (addExtra item amount s).intercom = s.intercom ∧ (addExtra item amount s).pay = s.pay := by
  unfold addExtra; split <;> simp

@[simp] theorem selectionEvents_keeps (r : SelectionResult) (s : State) :
    (selectionEvents r s).pending = s.pending ∧ (selectionEvents r s).running = s.running ∧
    (selectionEvents r s).emgLine = s.emgLine ∧ (selectionEvents r s).calLine = s.calLine ∧
    (selectionEvents r s).tables = s.tables ∧ (selectionEvents r s).time = s.time ∧
    (selectionEvents r s).meter = s.meter ∧ (selectionEvents r s).trip = s.trip ∧
    (selectionEvents r s).sign = s.sign ∧ (selectionEvents r s).intercom = s.intercom ∧
    (selectionEvents r s).pay = s.pay := by
  simp [selectionEvents]

@[simp] theorem addPeriod_keeps (s : State) :
    (addPeriod s).pending = s.pending ∧ (addPeriod s).running = s.running ∧ (addPeriod s).emgLine = s.emgLine ∧
    (addPeriod s).calLine = s.calLine ∧ (addPeriod s).tables = s.tables ∧ (addPeriod s).time = s.time ∧
    (addPeriod s).meter = s.meter ∧ (addPeriod s).sign = s.sign ∧ (addPeriod s).intercom = s.intercom ∧
    (addPeriod s).pay = s.pay := by
  unfold addPeriod; repeat' split
  all_goals simp

@[simp] theorem changeTariff_keeps (t : Nat) (s : State) :
    (changeTariff t s).pending = s.pending ∧ (changeTariff t s).running = s.running ∧
    (changeTariff t s).emgLine = s.emgLine ∧ (changeTariff t s).calLine = s.calLine ∧
    (changeTariff t s).tables = s.tables ∧ (changeTariff t s).time = s.time ∧ (changeTariff t s).meter = s.meter ∧
    (changeTariff t s).sign = s.sign ∧ (changeTariff t s).intercom = s.intercom ∧ (changeTariff t s).pay = s.pay := by
  simp [changeTariff]

@[simp] theorem runForTrip_keeps (s : State) :
    (runForTrip s).pending = s.pending ∧ (runForTrip s).running = s.running ∧ (runForTrip s).emgLine = s.emgLine ∧
    (runForTrip s).calLine = s.calLine ∧ (runForTrip s).tables = s.tables ∧ (runForTrip s).time = s.time ∧
    (runForTrip s).meter = s.meter ∧ (runForTrip s).sign = s.sign ∧ (runForTrip s).intercom = s.intercom ∧
    (runForTrip s).pay = s.pay := by
  unfold runForTrip; dsimp only; repeat' split
  all_goals simp

@[simp] theorem selectionOccasion_keeps (s : State) :
    (selectionOccasion s).pending = s.pending ∧ (selectionOccasion s).running = s.running ∧
    (selectionOccasion s).emgLine = s.emgLine ∧ (selectionOccasion s).calLine = s.calLine ∧
    (selectionOccasion s).tables = s.tables ∧ (selectionOccasion s).time = s.time ∧
    (selectionOccasion s).meter = s.meter ∧ (selectionOccasion s).sign = s.sign ∧
    (selectionOccasion s).intercom = s.intercom ∧ (selectionOccasion s).pay = s.pay := by
  unfold selectionOccasion; split <;> simp

@[simp] theorem signAfterTable_keeps (table : Nat) (s : State) :
    (signAfterTable table s).pending = s.pending ∧ (signAfterTable table s).running = s.running ∧
    (signAfterTable table s).emgLine = s.emgLine ∧ (signAfterTable table s).calLine = s.calLine ∧
    (signAfterTable table s).disp = s.disp ∧ (signAfterTable table s).tables = s.tables ∧
    (signAfterTable table s).time = s.time ∧ (signAfterTable table s).meter = s.meter ∧
    (signAfterTable table s).trip = s.trip ∧ (signAfterTable table s).intercom = s.intercom ∧
    (signAfterTable table s).pay = s.pay ∧ (signAfterTable table s).shifts = s.shifts := by
  unfold signAfterTable; split <;> simp

@[simp] theorem takeTableWrite_keeps (src : Station) (payload : List Byte) (s : State) :
    (takeTableWrite src payload s).pending = s.pending ∧ (takeTableWrite src payload s).running = s.running ∧
    (takeTableWrite src payload s).emgLine = s.emgLine ∧ (takeTableWrite src payload s).calLine = s.calLine ∧
    (takeTableWrite src payload s).disp = s.disp ∧ (takeTableWrite src payload s).time = s.time ∧
    (takeTableWrite src payload s).meter = s.meter ∧ (takeTableWrite src payload s).trip = s.trip ∧
    (takeTableWrite src payload s).intercom = s.intercom ∧ (takeTableWrite src payload s).pay = s.pay ∧
    (takeTableWrite src payload s).shifts = s.shifts := by
  unfold takeTableWrite; split <;> simp

@[simp] theorem takeTableClear_keeps (src : Station) (payload : List Byte) (s : State) :
    (takeTableClear src payload s).pending = s.pending ∧ (takeTableClear src payload s).running = s.running ∧
    (takeTableClear src payload s).emgLine = s.emgLine ∧ (takeTableClear src payload s).calLine = s.calLine ∧
    (takeTableClear src payload s).disp = s.disp ∧ (takeTableClear src payload s).time = s.time ∧
    (takeTableClear src payload s).meter = s.meter ∧ (takeTableClear src payload s).trip = s.trip ∧
    (takeTableClear src payload s).intercom = s.intercom ∧ (takeTableClear src payload s).pay = s.pay ∧
    (takeTableClear src payload s).shifts = s.shifts := by
  unfold takeTableClear; dsimp only; repeat' split
  all_goals simp

@[simp] theorem takeTableRead_keeps (src : Station) (payload : List Byte) (s : State) :
    (takeTableRead src payload s).pending = s.pending ∧ (takeTableRead src payload s).running = s.running ∧
    (takeTableRead src payload s).emgLine = s.emgLine ∧ (takeTableRead src payload s).calLine = s.calLine ∧
    (takeTableRead src payload s).disp = s.disp ∧ (takeTableRead src payload s).tables = s.tables ∧
    (takeTableRead src payload s).time = s.time ∧ (takeTableRead src payload s).meter = s.meter ∧
    (takeTableRead src payload s).trip = s.trip ∧ (takeTableRead src payload s).sign = s.sign ∧
    (takeTableRead src payload s).intercom = s.intercom ∧ (takeTableRead src payload s).pay = s.pay ∧
    (takeTableRead src payload s).shifts = s.shifts := by
  unfold takeTableRead; dsimp only; repeat' split
  all_goals simp

@[simp] theorem performActivation_keeps (version : Nat) (s : State) :
    (performActivation version s).pending = s.pending ∧ (performActivation version s).running = s.running ∧
    (performActivation version s).emgLine = s.emgLine ∧ (performActivation version s).calLine = s.calLine ∧
    (performActivation version s).meter = s.meter ∧ (performActivation version s).trip = s.trip ∧
    (performActivation version s).sign = s.sign ∧ (performActivation version s).intercom = s.intercom ∧
    (performActivation version s).pay = s.pay := by
  simp [performActivation]

@[simp] theorem activationAtClose_keeps (s : State) :
    (activationAtClose s).pending = s.pending ∧ (activationAtClose s).running = s.running ∧
    (activationAtClose s).emgLine = s.emgLine ∧ (activationAtClose s).calLine = s.calLine ∧
    (activationAtClose s).meter = s.meter ∧ (activationAtClose s).trip = s.trip ∧
    (activationAtClose s).sign = s.sign ∧ (activationAtClose s).intercom = s.intercom ∧
    (activationAtClose s).pay = s.pay := by
  unfold activationAtClose; split <;> simp

@[simp] theorem takeTableActivate_keeps (src : Station) (payload : List Byte) (s : State) :
    (takeTableActivate src payload s).pending = s.pending ∧ (takeTableActivate src payload s).running = s.running ∧
    (takeTableActivate src payload s).emgLine = s.emgLine ∧ (takeTableActivate src payload s).calLine = s.calLine ∧
    (takeTableActivate src payload s).meter = s.meter ∧ (takeTableActivate src payload s).trip = s.trip ∧
    (takeTableActivate src payload s).sign = s.sign ∧ (takeTableActivate src payload s).intercom = s.intercom ∧
    (takeTableActivate src payload s).pay = s.pay := by
  unfold takeTableActivate; dsimp only; repeat' split
  all_goals simp

@[simp] theorem setMeter_keeps (m : MeterState) (s : State) :
    (setMeter m s).pending = s.pending ∧ (setMeter m s).running = s.running ∧ (setMeter m s).emgLine = s.emgLine ∧
    (setMeter m s).calLine = s.calLine ∧ (setMeter m s).tables = s.tables ∧ (setMeter m s).time = s.time ∧
    (setMeter m s).trip = s.trip ∧ (setMeter m s).intercom = s.intercom ∧ (setMeter m s).pay = s.pay := by
  simp [setMeter]

@[simp] theorem offerDue_keeps (s : State) :
    (offerDue s).pending = s.pending ∧ (offerDue s).running = s.running ∧ (offerDue s).emgLine = s.emgLine ∧
    (offerDue s).calLine = s.calLine ∧ (offerDue s).disp = s.disp ∧ (offerDue s).tables = s.tables ∧
    (offerDue s).time = s.time ∧ (offerDue s).meter = s.meter ∧ (offerDue s).sign = s.sign ∧
    (offerDue s).intercom = s.intercom ∧ (offerDue s).pay = s.pay ∧ (offerDue s).shifts = s.shifts := by
  unfold offerDue; split <;> (try split) <;> simp

@[simp] theorem offerEnded_keeps (s : State) :
    (offerEnded s).pending = s.pending ∧ (offerEnded s).running = s.running ∧ (offerEnded s).emgLine = s.emgLine ∧
    (offerEnded s).calLine = s.calLine ∧ (offerEnded s).disp = s.disp ∧ (offerEnded s).tables = s.tables ∧
    (offerEnded s).time = s.time ∧ (offerEnded s).meter = s.meter ∧ (offerEnded s).sign = s.sign ∧
    (offerEnded s).intercom = s.intercom ∧ (offerEnded s).pay = s.pay ∧ (offerEnded s).shifts = s.shifts := by
  unfold offerEnded; split <;> (try split) <;> simp

@[simp] theorem setEndTime_keeps (s : State) :
    (setEndTime s).pending = s.pending ∧ (setEndTime s).running = s.running ∧ (setEndTime s).emgLine = s.emgLine ∧
    (setEndTime s).calLine = s.calLine ∧ (setEndTime s).link = s.link ∧ (setEndTime s).disp = s.disp ∧
    (setEndTime s).tables = s.tables ∧ (setEndTime s).time = s.time ∧ (setEndTime s).meter = s.meter ∧
    (setEndTime s).sign = s.sign ∧ (setEndTime s).intercom = s.intercom ∧ (setEndTime s).pay = s.pay ∧
    (setEndTime s).shifts = s.shifts := by
  simp [setEndTime]

@[simp] theorem accountTrip_keeps (s : State) :
    (accountTrip s).pending = s.pending ∧ (accountTrip s).running = s.running ∧ (accountTrip s).emgLine = s.emgLine ∧
    (accountTrip s).calLine = s.calLine ∧ (accountTrip s).tables = s.tables ∧ (accountTrip s).time = s.time ∧
    (accountTrip s).meter = s.meter ∧ (accountTrip s).trip = s.trip ∧ (accountTrip s).sign = s.sign ∧
    (accountTrip s).intercom = s.intercom ∧ (accountTrip s).pay = s.pay := by
  unfold accountTrip; split <;> simp

@[simp] theorem endTrip_keeps (s : State) :
    (endTrip s).pending = s.pending ∧ (endTrip s).running = s.running ∧ (endTrip s).emgLine = s.emgLine ∧
    (endTrip s).calLine = s.calLine ∧ (endTrip s).tables = s.tables ∧ (endTrip s).time = s.time ∧
    (endTrip s).pay = s.pay := by
  simp [endTrip]

@[simp] theorem closeTrip_keeps (s : State) :
    (closeTrip s).pending = s.pending ∧ (closeTrip s).running = s.running ∧ (closeTrip s).emgLine = s.emgLine ∧
    (closeTrip s).calLine = s.calLine ∧ (closeTrip s).pay = s.pay := by
  simp [closeTrip]

@[simp] theorem recordTender_keeps (kind : TenderKind) (farePart tip : Nat) (s : State) :
    (recordTender kind farePart tip s).pending = s.pending ∧ (recordTender kind farePart tip s).running = s.running ∧
    (recordTender kind farePart tip s).emgLine = s.emgLine ∧ (recordTender kind farePart tip s).calLine = s.calLine ∧
    (recordTender kind farePart tip s).pay = s.pay := by
  unfold recordTender; split <;> (try split) <;> simp

@[simp] theorem firstPeriod_keeps (s : State) :
    (firstPeriod s).pending = s.pending ∧ (firstPeriod s).running = s.running ∧ (firstPeriod s).emgLine = s.emgLine ∧
    (firstPeriod s).calLine = s.calLine ∧ (firstPeriod s).link = s.link ∧ (firstPeriod s).disp = s.disp ∧
    (firstPeriod s).tables = s.tables ∧ (firstPeriod s).time = s.time ∧ (firstPeriod s).meter = s.meter ∧
    (firstPeriod s).sign = s.sign ∧ (firstPeriod s).intercom = s.intercom ∧ (firstPeriod s).pay = s.pay ∧
    (firstPeriod s).shifts = s.shifts := by
  simp [firstPeriod]

@[simp] theorem openTrip_keeps (t key : Nat) (s : State) :
    (openTrip t key s).pending = s.pending ∧ (openTrip t key s).running = s.running ∧
    (openTrip t key s).emgLine = s.emgLine ∧ (openTrip t key s).calLine = s.calLine ∧
    (openTrip t key s).tables = s.tables ∧ (openTrip t key s).time = s.time ∧ (openTrip t key s).pay = s.pay := by
  simp [openTrip]

@[simp] theorem keyHire_keeps (src : Station) (arg : Byte) (s : State) :
    (keyHire src arg s).pending = s.pending ∧ (keyHire src arg s).running = s.running ∧
    (keyHire src arg s).emgLine = s.emgLine ∧ (keyHire src arg s).calLine = s.calLine ∧
    (keyHire src arg s).tables = s.tables ∧ (keyHire src arg s).time = s.time ∧ (keyHire src arg s).pay = s.pay := by
  unfold keyHire; dsimp only; repeat' split
  all_goals simp

@[simp] theorem keyStop_keeps (src : Station) (arg : Byte) (s : State) :
    (keyStop src arg s).pending = s.pending ∧ (keyStop src arg s).running = s.running ∧
    (keyStop src arg s).emgLine = s.emgLine ∧ (keyStop src arg s).calLine = s.calLine ∧
    (keyStop src arg s).pay = s.pay := by
  unfold keyStop withNoArgument; dsimp only; (repeat' split) <;> simp

@[simp] theorem keyResume_keeps (src : Station) (arg : Byte) (s : State) :
    (keyResume src arg s).pending = s.pending ∧ (keyResume src arg s).running = s.running ∧
    (keyResume src arg s).emgLine = s.emgLine ∧ (keyResume src arg s).calLine = s.calLine ∧
    (keyResume src arg s).tables = s.tables ∧ (keyResume src arg s).time = s.time ∧
    (keyResume src arg s).intercom = s.intercom ∧ (keyResume src arg s).pay = s.pay := by
  unfold keyResume withNoArgument; dsimp only; (repeat' split) <;> simp

@[simp] theorem keyTender_keeps (kind : TenderKind) (src : Station) (s : State) :
    (keyTender kind src s).pending = s.pending ∧ (keyTender kind src s).running = s.running ∧
    (keyTender kind src s).emgLine = s.emgLine ∧ (keyTender kind src s).calLine = s.calLine ∧
    (keyTender kind src s).pay = s.pay := by
  unfold keyTender; split <;> (try split) <;> simp

@[simp] theorem keyCash_keeps (src : Station) (arg : Byte) (s : State) :
    (keyCash src arg s).pending = s.pending ∧ (keyCash src arg s).running = s.running ∧
    (keyCash src arg s).emgLine = s.emgLine ∧ (keyCash src arg s).calLine = s.calLine ∧
    (keyCash src arg s).pay = s.pay := by
  unfold keyCash withNoArgument; split <;> simp

@[simp] theorem keyUnpaid_keeps (src : Station) (arg : Byte) (s : State) :
    (keyUnpaid src arg s).pending = s.pending ∧ (keyUnpaid src arg s).running = s.running ∧
    (keyUnpaid src arg s).emgLine = s.emgLine ∧ (keyUnpaid src arg s).calLine = s.calLine ∧
    (keyUnpaid src arg s).pay = s.pay := by
  unfold keyUnpaid withNoArgument; split <;> simp

@[simp] theorem keyPrompt_keeps (src : Station) (arg : Byte) (s : State) :
    (keyPrompt src arg s).pending = s.pending ∧ (keyPrompt src arg s).running = s.running ∧
    (keyPrompt src arg s).emgLine = s.emgLine ∧ (keyPrompt src arg s).calLine = s.calLine ∧
    (keyPrompt src arg s).disp = s.disp ∧ (keyPrompt src arg s).tables = s.tables ∧
    (keyPrompt src arg s).time = s.time ∧ (keyPrompt src arg s).meter = s.meter ∧
    (keyPrompt src arg s).sign = s.sign ∧ (keyPrompt src arg s).intercom = s.intercom ∧
    (keyPrompt src arg s).pay = s.pay ∧ (keyPrompt src arg s).shifts = s.shifts := by
  unfold keyPrompt withNoArgument; dsimp only; (repeat' split) <;> simp

@[simp] theorem keyMove_keeps (old new : MeterState) (src : Station) (arg : Byte) (s : State) :
    (keyMove old new src arg s).pending = s.pending ∧ (keyMove old new src arg s).running = s.running ∧
    (keyMove old new src arg s).emgLine = s.emgLine ∧ (keyMove old new src arg s).calLine = s.calLine ∧
    (keyMove old new src arg s).tables = s.tables ∧ (keyMove old new src arg s).time = s.time ∧
    (keyMove old new src arg s).trip = s.trip ∧ (keyMove old new src arg s).intercom = s.intercom ∧
    (keyMove old new src arg s).pay = s.pay := by
  unfold keyMove withNoArgument; dsimp only; (repeat' split) <;> simp

@[simp] theorem keyOnCall_keeps (src : Station) (arg : Byte) (s : State) :
    (keyOnCall src arg s).pending = s.pending ∧ (keyOnCall src arg s).running = s.running ∧
    (keyOnCall src arg s).emgLine = s.emgLine ∧ (keyOnCall src arg s).calLine = s.calLine ∧
    (keyOnCall src arg s).tables = s.tables ∧ (keyOnCall src arg s).time = s.time ∧
    (keyOnCall src arg s).trip = s.trip ∧ (keyOnCall src arg s).intercom = s.intercom ∧
    (keyOnCall src arg s).pay = s.pay := by
  simp [keyOnCall]

@[simp] theorem keyCancelCall_keeps (src : Station) (arg : Byte) (s : State) :
    (keyCancelCall src arg s).pending = s.pending ∧ (keyCancelCall src arg s).running = s.running ∧
    (keyCancelCall src arg s).emgLine = s.emgLine ∧ (keyCancelCall src arg s).calLine = s.calLine ∧
    (keyCancelCall src arg s).tables = s.tables ∧ (keyCancelCall src arg s).time = s.time ∧
    (keyCancelCall src arg s).trip = s.trip ∧ (keyCancelCall src arg s).intercom = s.intercom ∧
    (keyCancelCall src arg s).pay = s.pay := by
  simp [keyCancelCall]

@[simp] theorem keyOffDuty_keeps (src : Station) (arg : Byte) (s : State) :
    (keyOffDuty src arg s).pending = s.pending ∧ (keyOffDuty src arg s).running = s.running ∧
    (keyOffDuty src arg s).emgLine = s.emgLine ∧ (keyOffDuty src arg s).calLine = s.calLine ∧
    (keyOffDuty src arg s).tables = s.tables ∧ (keyOffDuty src arg s).time = s.time ∧
    (keyOffDuty src arg s).trip = s.trip ∧ (keyOffDuty src arg s).intercom = s.intercom ∧
    (keyOffDuty src arg s).pay = s.pay := by
  simp [keyOffDuty]

@[simp] theorem keyOnDuty_keeps (src : Station) (arg : Byte) (s : State) :
    (keyOnDuty src arg s).pending = s.pending ∧ (keyOnDuty src arg s).running = s.running ∧
    (keyOnDuty src arg s).emgLine = s.emgLine ∧ (keyOnDuty src arg s).calLine = s.calLine ∧
    (keyOnDuty src arg s).tables = s.tables ∧ (keyOnDuty src arg s).time = s.time ∧
    (keyOnDuty src arg s).trip = s.trip ∧ (keyOnDuty src arg s).intercom = s.intercom ∧
    (keyOnDuty src arg s).pay = s.pay := by
  simp [keyOnDuty]

@[simp] theorem extraCapped_keeps (s : State) :
    (extraCapped s).pending = s.pending ∧ (extraCapped s).running = s.running ∧ (extraCapped s).emgLine = s.emgLine ∧
    (extraCapped s).calLine = s.calLine ∧ (extraCapped s).tables = s.tables ∧ (extraCapped s).time = s.time ∧
    (extraCapped s).meter = s.meter ∧ (extraCapped s).sign = s.sign ∧ (extraCapped s).intercom = s.intercom ∧
    (extraCapped s).pay = s.pay := by
  simp [extraCapped]

@[simp] theorem dueIfRaised_keeps (before : Trip) (s : State) :
    (dueIfRaised before s).pending = s.pending ∧ (dueIfRaised before s).running = s.running ∧
    (dueIfRaised before s).emgLine = s.emgLine ∧ (dueIfRaised before s).calLine = s.calLine ∧
    (dueIfRaised before s).disp = s.disp ∧ (dueIfRaised before s).tables = s.tables ∧
    (dueIfRaised before s).time = s.time ∧ (dueIfRaised before s).meter = s.meter ∧
    (dueIfRaised before s).sign = s.sign ∧ (dueIfRaised before s).intercom = s.intercom ∧
    (dueIfRaised before s).pay = s.pay ∧ (dueIfRaised before s).shifts = s.shifts := by
  unfold dueIfRaised; split <;> (try split) <;> simp

@[simp] theorem keyExtra_keeps (src : Station) (arg : Byte) (s : State) :
    (keyExtra src arg s).pending = s.pending ∧ (keyExtra src arg s).running = s.running ∧
    (keyExtra src arg s).emgLine = s.emgLine ∧ (keyExtra src arg s).calLine = s.calLine ∧
    (keyExtra src arg s).tables = s.tables ∧ (keyExtra src arg s).time = s.time ∧
    (keyExtra src arg s).meter = s.meter ∧ (keyExtra src arg s).sign = s.sign ∧
    (keyExtra src arg s).intercom = s.intercom ∧ (keyExtra src arg s).pay = s.pay := by
  unfold keyExtra; dsimp only; repeat' split
  all_goals simp

@[simp] theorem keyPassengers_keeps (src : Station) (arg : Byte) (s : State) :
    (keyPassengers src arg s).pending = s.pending ∧ (keyPassengers src arg s).running = s.running ∧
    (keyPassengers src arg s).emgLine = s.emgLine ∧ (keyPassengers src arg s).calLine = s.calLine ∧
    (keyPassengers src arg s).tables = s.tables ∧ (keyPassengers src arg s).time = s.time ∧
    (keyPassengers src arg s).meter = s.meter ∧ (keyPassengers src arg s).sign = s.sign ∧
    (keyPassengers src arg s).intercom = s.intercom ∧ (keyPassengers src arg s).pay = s.pay := by
  unfold keyPassengers; dsimp only; repeat' split
  all_goals simp

@[simp] theorem keyLuggage_keeps (src : Station) (arg : Byte) (s : State) :
    (keyLuggage src arg s).pending = s.pending ∧ (keyLuggage src arg s).running = s.running ∧
    (keyLuggage src arg s).emgLine = s.emgLine ∧ (keyLuggage src arg s).calLine = s.calLine ∧
    (keyLuggage src arg s).tables = s.tables ∧ (keyLuggage src arg s).time = s.time ∧
    (keyLuggage src arg s).meter = s.meter ∧ (keyLuggage src arg s).sign = s.sign ∧
    (keyLuggage src arg s).intercom = s.intercom ∧ (keyLuggage src arg s).pay = s.pay := by
  unfold keyLuggage; dsimp only; repeat' split
  all_goals simp

@[simp] theorem keyTalk_keeps (f : IntercomState → IntercomState) (src : Station) (s : State) :
    (keyTalk f src s).pending = s.pending ∧ (keyTalk f src s).running = s.running ∧
    (keyTalk f src s).emgLine = s.emgLine ∧ (keyTalk f src s).calLine = s.calLine ∧ (keyTalk f src s).disp = s.disp ∧
    (keyTalk f src s).tables = s.tables ∧ (keyTalk f src s).time = s.time ∧ (keyTalk f src s).meter = s.meter ∧
    (keyTalk f src s).trip = s.trip ∧ (keyTalk f src s).sign = s.sign ∧ (keyTalk f src s).pay = s.pay ∧
    (keyTalk f src s).shifts = s.shifts := by
  simp [keyTalk]

@[simp] theorem keyTalkDown_keeps (src : Station) (arg : Byte) (s : State) :
    (keyTalkDown src arg s).pending = s.pending ∧ (keyTalkDown src arg s).running = s.running ∧
    (keyTalkDown src arg s).emgLine = s.emgLine ∧ (keyTalkDown src arg s).calLine = s.calLine ∧
    (keyTalkDown src arg s).disp = s.disp ∧ (keyTalkDown src arg s).tables = s.tables ∧
    (keyTalkDown src arg s).time = s.time ∧ (keyTalkDown src arg s).meter = s.meter ∧
    (keyTalkDown src arg s).trip = s.trip ∧ (keyTalkDown src arg s).sign = s.sign ∧
    (keyTalkDown src arg s).pay = s.pay ∧ (keyTalkDown src arg s).shifts = s.shifts := by
  unfold keyTalkDown withNoArgument; split <;> simp

@[simp] theorem keyTalkUp_keeps (src : Station) (arg : Byte) (s : State) :
    (keyTalkUp src arg s).pending = s.pending ∧ (keyTalkUp src arg s).running = s.running ∧
    (keyTalkUp src arg s).emgLine = s.emgLine ∧ (keyTalkUp src arg s).calLine = s.calLine ∧
    (keyTalkUp src arg s).disp = s.disp ∧ (keyTalkUp src arg s).tables = s.tables ∧
    (keyTalkUp src arg s).time = s.time ∧ (keyTalkUp src arg s).meter = s.meter ∧
    (keyTalkUp src arg s).trip = s.trip ∧ (keyTalkUp src arg s).sign = s.sign ∧ (keyTalkUp src arg s).pay = s.pay ∧
    (keyTalkUp src arg s).shifts = s.shifts := by
  unfold keyTalkUp withNoArgument; split <;> simp

@[simp] theorem keyOpenToggle_keeps (src : Station) (arg : Byte) (s : State) :
    (keyOpenToggle src arg s).pending = s.pending ∧ (keyOpenToggle src arg s).running = s.running ∧
    (keyOpenToggle src arg s).emgLine = s.emgLine ∧ (keyOpenToggle src arg s).calLine = s.calLine ∧
    (keyOpenToggle src arg s).disp = s.disp ∧ (keyOpenToggle src arg s).tables = s.tables ∧
    (keyOpenToggle src arg s).time = s.time ∧ (keyOpenToggle src arg s).meter = s.meter ∧
    (keyOpenToggle src arg s).sign = s.sign ∧ (keyOpenToggle src arg s).pay = s.pay ∧
    (keyOpenToggle src arg s).shifts = s.shifts := by
  unfold keyOpenToggle withNoArgument; dsimp only; (repeat' split) <;> simp

@[simp] theorem takeKey_keeps (src : Station) (payload : List Byte) (s : State) :
    (takeKey src payload s).pending = s.pending ∧ (takeKey src payload s).running = s.running ∧
    (takeKey src payload s).emgLine = s.emgLine ∧ (takeKey src payload s).calLine = s.calLine ∧
    (takeKey src payload s).pay = s.pay := by
  unfold takeKey; split <;> (try split) <;> simp

@[simp] theorem takeShiftOpen_keeps (src : Station) (payload : List Byte) (s : State) :
    (takeShiftOpen src payload s).pending = s.pending ∧ (takeShiftOpen src payload s).running = s.running ∧
    (takeShiftOpen src payload s).emgLine = s.emgLine ∧ (takeShiftOpen src payload s).calLine = s.calLine ∧
    (takeShiftOpen src payload s).tables = s.tables ∧ (takeShiftOpen src payload s).time = s.time ∧
    (takeShiftOpen src payload s).trip = s.trip ∧ (takeShiftOpen src payload s).intercom = s.intercom ∧
    (takeShiftOpen src payload s).pay = s.pay := by
  unfold takeShiftOpen; dsimp only; repeat' split
  all_goals simp

@[simp] theorem takeShiftClose_keeps (src : Station) (payload : List Byte) (s : State) :
    (takeShiftClose src payload s).pending = s.pending ∧ (takeShiftClose src payload s).running = s.running ∧
    (takeShiftClose src payload s).emgLine = s.emgLine ∧ (takeShiftClose src payload s).calLine = s.calLine ∧
    (takeShiftClose src payload s).tables = s.tables ∧ (takeShiftClose src payload s).time = s.time ∧
    (takeShiftClose src payload s).trip = s.trip ∧ (takeShiftClose src payload s).intercom = s.intercom ∧
    (takeShiftClose src payload s).pay = s.pay := by
  unfold takeShiftClose; repeat' split
  all_goals simp

@[simp] theorem takeDispatch_keeps (src : Station) (payload : List Byte) (s : State) :
    (takeDispatch src payload s).pending = s.pending ∧ (takeDispatch src payload s).running = s.running ∧
    (takeDispatch src payload s).emgLine = s.emgLine ∧ (takeDispatch src payload s).calLine = s.calLine ∧
    (takeDispatch src payload s).tables = s.tables ∧ (takeDispatch src payload s).time = s.time ∧
    (takeDispatch src payload s).trip = s.trip ∧ (takeDispatch src payload s).intercom = s.intercom ∧
    (takeDispatch src payload s).pay = s.pay := by
  unfold takeDispatch; split <;> (try split) <;> simp

@[simp] theorem setCapture_keeps (c : CaptureState) (s : State) :
    (setCapture c s).pending = s.pending ∧ (setCapture c s).running = s.running ∧
    (setCapture c s).emgLine = s.emgLine ∧ (setCapture c s).calLine = s.calLine ∧ (setCapture c s).link = s.link ∧
    (setCapture c s).disp = s.disp ∧ (setCapture c s).tables = s.tables ∧ (setCapture c s).time = s.time ∧
    (setCapture c s).meter = s.meter ∧ (setCapture c s).trip = s.trip ∧ (setCapture c s).sign = s.sign ∧
    (setCapture c s).intercom = s.intercom ∧ (setCapture c s).shifts = s.shifts := by
  simp [setCapture]

@[simp] theorem captureCheck_keeps (s : State) :
    (captureCheck s).pending = s.pending ∧ (captureCheck s).running = s.running ∧
    (captureCheck s).emgLine = s.emgLine ∧ (captureCheck s).calLine = s.calLine ∧ (captureCheck s).disp = s.disp ∧
    (captureCheck s).tables = s.tables ∧ (captureCheck s).time = s.time ∧ (captureCheck s).meter = s.meter ∧
    (captureCheck s).trip = s.trip ∧ (captureCheck s).sign = s.sign ∧ (captureCheck s).intercom = s.intercom ∧
    (captureCheck s).shifts = s.shifts := by
  unfold captureCheck; split <;> (try split) <;> simp

@[simp] theorem onlineBegins_keeps (s : State) :
    (onlineBegins s).pending = s.pending ∧ (onlineBegins s).running = s.running ∧
    (onlineBegins s).emgLine = s.emgLine ∧ (onlineBegins s).calLine = s.calLine ∧ (onlineBegins s).disp = s.disp ∧
    (onlineBegins s).tables = s.tables ∧ (onlineBegins s).time = s.time ∧ (onlineBegins s).meter = s.meter ∧
    (onlineBegins s).trip = s.trip ∧ (onlineBegins s).sign = s.sign ∧ (onlineBegins s).intercom = s.intercom ∧
    (onlineBegins s).shifts = s.shifts := by
  unfold onlineBegins; split <;> simp

@[simp] theorem onlineAfter_keeps (before : State) (s : State) :
    (onlineAfter before s).pending = s.pending ∧ (onlineAfter before s).running = s.running ∧
    (onlineAfter before s).emgLine = s.emgLine ∧ (onlineAfter before s).calLine = s.calLine ∧
    (onlineAfter before s).disp = s.disp ∧ (onlineAfter before s).tables = s.tables ∧
    (onlineAfter before s).time = s.time ∧ (onlineAfter before s).meter = s.meter ∧
    (onlineAfter before s).trip = s.trip ∧ (onlineAfter before s).sign = s.sign ∧
    (onlineAfter before s).intercom = s.intercom ∧ (onlineAfter before s).shifts = s.shifts := by
  unfold onlineAfter; split <;> simp

@[simp] theorem modemStatusTaken_keeps (up : Bool) (s : State) :
    (modemStatusTaken up s).pending = s.pending ∧ (modemStatusTaken up s).running = s.running ∧
    (modemStatusTaken up s).emgLine = s.emgLine ∧ (modemStatusTaken up s).calLine = s.calLine ∧
    (modemStatusTaken up s).disp = s.disp ∧ (modemStatusTaken up s).tables = s.tables ∧
    (modemStatusTaken up s).time = s.time ∧ (modemStatusTaken up s).meter = s.meter ∧
    (modemStatusTaken up s).trip = s.trip ∧ (modemStatusTaken up s).sign = s.sign ∧
    (modemStatusTaken up s).intercom = s.intercom ∧ (modemStatusTaken up s).shifts = s.shifts := by
  simp [modemStatusTaken]

@[simp] theorem captureExpires_keeps (s : State) :
    (captureExpires s).pending = s.pending ∧ (captureExpires s).running = s.running ∧
    (captureExpires s).emgLine = s.emgLine ∧ (captureExpires s).calLine = s.calLine ∧
    (captureExpires s).link = s.link ∧ (captureExpires s).disp = s.disp ∧ (captureExpires s).tables = s.tables ∧
    (captureExpires s).time = s.time ∧ (captureExpires s).meter = s.meter ∧ (captureExpires s).trip = s.trip ∧
    (captureExpires s).sign = s.sign ∧ (captureExpires s).intercom = s.intercom ∧
    (captureExpires s).shifts = s.shifts := by
  unfold captureExpires; split <;> simp

@[simp] theorem captureWaitEnds_keeps (s : State) :
    (captureWaitEnds s).pending = s.pending ∧ (captureWaitEnds s).running = s.running ∧
    (captureWaitEnds s).emgLine = s.emgLine ∧ (captureWaitEnds s).calLine = s.calLine ∧
    (captureWaitEnds s).disp = s.disp ∧ (captureWaitEnds s).tables = s.tables ∧ (captureWaitEnds s).time = s.time ∧
    (captureWaitEnds s).meter = s.meter ∧ (captureWaitEnds s).trip = s.trip ∧ (captureWaitEnds s).sign = s.sign ∧
    (captureWaitEnds s).intercom = s.intercom ∧ (captureWaitEnds s).shifts = s.shifts := by
  unfold captureWaitEnds; split <;> simp

@[simp] theorem captureSecond_keeps (s : State) :
    (captureSecond s).pending = s.pending ∧ (captureSecond s).running = s.running ∧
    (captureSecond s).emgLine = s.emgLine ∧ (captureSecond s).calLine = s.calLine ∧ (captureSecond s).disp = s.disp ∧
    (captureSecond s).tables = s.tables ∧ (captureSecond s).time = s.time ∧ (captureSecond s).meter = s.meter ∧
    (captureSecond s).trip = s.trip ∧ (captureSecond s).sign = s.sign ∧ (captureSecond s).intercom = s.intercom ∧
    (captureSecond s).shifts = s.shifts := by
  unfold captureSecond; split <;> (try split) <;> simp

@[simp] theorem offlineApprove_keeps (ref : Reference) (issuer cls farePart tip : Nat) (token : List Byte) (s : State) :
    (offlineApprove ref issuer cls farePart tip token s).pending = s.pending ∧
    (offlineApprove ref issuer cls farePart tip token s).running = s.running ∧
    (offlineApprove ref issuer cls farePart tip token s).emgLine = s.emgLine ∧
    (offlineApprove ref issuer cls farePart tip token s).calLine = s.calLine ∧
    (offlineApprove ref issuer cls farePart tip token s).tables = s.tables ∧
    (offlineApprove ref issuer cls farePart tip token s).time = s.time ∧
    (offlineApprove ref issuer cls farePart tip token s).meter = s.meter ∧
    (offlineApprove ref issuer cls farePart tip token s).trip = s.trip ∧
    (offlineApprove ref issuer cls farePart tip token s).sign = s.sign ∧
    (offlineApprove ref issuer cls farePart tip token s).intercom = s.intercom := by
  simp [offlineApprove]

@[simp] theorem offerPayResult_keeps (number : Nat) (ref : Reference) (o : PayOutcome) (farePart tip remaining : Nat) (s : State) :
    (offerPayResult number ref o farePart tip remaining s).pending = s.pending ∧
    (offerPayResult number ref o farePart tip remaining s).running = s.running ∧
    (offerPayResult number ref o farePart tip remaining s).emgLine = s.emgLine ∧
    (offerPayResult number ref o farePart tip remaining s).calLine = s.calLine ∧
    (offerPayResult number ref o farePart tip remaining s).disp = s.disp ∧
    (offerPayResult number ref o farePart tip remaining s).tables = s.tables ∧
    (offerPayResult number ref o farePart tip remaining s).time = s.time ∧
    (offerPayResult number ref o farePart tip remaining s).meter = s.meter ∧
    (offerPayResult number ref o farePart tip remaining s).trip = s.trip ∧
    (offerPayResult number ref o farePart tip remaining s).sign = s.sign ∧
    (offerPayResult number ref o farePart tip remaining s).intercom = s.intercom ∧
    (offerPayResult number ref o farePart tip remaining s).pay = s.pay ∧
    (offerPayResult number ref o farePart tip remaining s).shifts = s.shifts := by
  simp [offerPayResult]

@[simp] theorem payFails_keeps (number : Nat) (ref : Reference) (o : PayOutcome) (farePart tip : Nat) (s : State) :
    (payFails number ref o farePart tip s).pending = s.pending ∧
    (payFails number ref o farePart tip s).running = s.running ∧
    (payFails number ref o farePart tip s).emgLine = s.emgLine ∧
    (payFails number ref o farePart tip s).calLine = s.calLine ∧
    (payFails number ref o farePart tip s).disp = s.disp ∧ (payFails number ref o farePart tip s).tables = s.tables ∧
    (payFails number ref o farePart tip s).time = s.time ∧ (payFails number ref o farePart tip s).meter = s.meter ∧
    (payFails number ref o farePart tip s).trip = s.trip ∧ (payFails number ref o farePart tip s).sign = s.sign ∧
    (payFails number ref o farePart tip s).intercom = s.intercom ∧
    (payFails number ref o farePart tip s).pay = s.pay ∧
    (payFails number ref o farePart tip s).shifts = s.shifts := by
  simp [payFails]

@[simp] theorem paySucceeds_keeps (number : Nat) (ref : Reference) (o : PayOutcome) (kind : TenderKind) (farePart tip : Nat) (s : State) :
    (paySucceeds number ref o kind farePart tip s).pending = s.pending ∧
    (paySucceeds number ref o kind farePart tip s).running = s.running ∧
    (paySucceeds number ref o kind farePart tip s).emgLine = s.emgLine ∧
    (paySucceeds number ref o kind farePart tip s).calLine = s.calLine ∧
    (paySucceeds number ref o kind farePart tip s).pay = s.pay := by
  simp [paySucceeds]

@[simp] theorem joinLate_keeps (a : Auth) (ending : Ending) (s : State) :
    (joinLate a ending s).pending = s.pending ∧ (joinLate a ending s).running = s.running ∧
    (joinLate a ending s).emgLine = s.emgLine ∧ (joinLate a ending s).calLine = s.calLine ∧
    (joinLate a ending s).link = s.link ∧ (joinLate a ending s).disp = s.disp ∧
    (joinLate a ending s).tables = s.tables ∧ (joinLate a ending s).time = s.time ∧
    (joinLate a ending s).meter = s.meter ∧ (joinLate a ending s).trip = s.trip ∧
    (joinLate a ending s).sign = s.sign ∧ (joinLate a ending s).intercom = s.intercom ∧
    (joinLate a ending s).shifts = s.shifts := by
  simp [joinLate]

@[simp] theorem lateSecond_keeps (s : State) :
    (lateSecond s).pending = s.pending ∧ (lateSecond s).running = s.running ∧ (lateSecond s).emgLine = s.emgLine ∧
    (lateSecond s).calLine = s.calLine ∧ (lateSecond s).link = s.link ∧ (lateSecond s).disp = s.disp ∧
    (lateSecond s).tables = s.tables ∧ (lateSecond s).time = s.time ∧ (lateSecond s).meter = s.meter ∧
    (lateSecond s).trip = s.trip ∧ (lateSecond s).sign = s.sign ∧ (lateSecond s).intercom = s.intercom ∧
    (lateSecond s).shifts = s.shifts := by
  simp [lateSecond]

@[simp] theorem lateExpires_keeps (position : Nat) (s : State) :
    (lateExpires position s).pending = s.pending ∧ (lateExpires position s).running = s.running ∧
    (lateExpires position s).emgLine = s.emgLine ∧ (lateExpires position s).calLine = s.calLine ∧
    (lateExpires position s).link = s.link ∧ (lateExpires position s).disp = s.disp ∧
    (lateExpires position s).tables = s.tables ∧ (lateExpires position s).time = s.time ∧
    (lateExpires position s).meter = s.meter ∧ (lateExpires position s).trip = s.trip ∧
    (lateExpires position s).sign = s.sign ∧ (lateExpires position s).intercom = s.intercom ∧
    (lateExpires position s).shifts = s.shifts := by
  simp [lateExpires]

@[simp] theorem offerVoid_keeps (number : Nat) (ref : Reference) (farePart tip : Nat) (s : State) :
    (offerVoid number ref farePart tip s).pending = s.pending ∧
    (offerVoid number ref farePart tip s).running = s.running ∧
    (offerVoid number ref farePart tip s).emgLine = s.emgLine ∧
    (offerVoid number ref farePart tip s).calLine = s.calLine ∧ (offerVoid number ref farePart tip s).disp = s.disp ∧
    (offerVoid number ref farePart tip s).tables = s.tables ∧ (offerVoid number ref farePart tip s).time = s.time ∧
    (offerVoid number ref farePart tip s).meter = s.meter ∧ (offerVoid number ref farePart tip s).trip = s.trip ∧
    (offerVoid number ref farePart tip s).sign = s.sign ∧
    (offerVoid number ref farePart tip s).intercom = s.intercom ∧
    (offerVoid number ref farePart tip s).pay = s.pay := by
  simp [offerVoid]

@[simp] theorem resolveDeferred_keeps (ref : Reference) (s : State) :
    (resolveDeferred ref s).pending = s.pending ∧ (resolveDeferred ref s).running = s.running ∧
    (resolveDeferred ref s).emgLine = s.emgLine ∧ (resolveDeferred ref s).calLine = s.calLine ∧
    (resolveDeferred ref s).disp = s.disp ∧ (resolveDeferred ref s).tables = s.tables ∧
    (resolveDeferred ref s).time = s.time ∧ (resolveDeferred ref s).meter = s.meter ∧
    (resolveDeferred ref s).trip = s.trip ∧ (resolveDeferred ref s).sign = s.sign ∧
    (resolveDeferred ref s).intercom = s.intercom := by
  unfold resolveDeferred; split <;> simp

@[simp] theorem resolveLate_keeps (e : LateEntry) (approved : Bool) (s : State) :
    (resolveLate e approved s).pending = s.pending ∧ (resolveLate e approved s).running = s.running ∧
    (resolveLate e approved s).emgLine = s.emgLine ∧ (resolveLate e approved s).calLine = s.calLine ∧
    (resolveLate e approved s).tables = s.tables ∧ (resolveLate e approved s).time = s.time ∧
    (resolveLate e approved s).meter = s.meter ∧ (resolveLate e approved s).trip = s.trip ∧
    (resolveLate e approved s).sign = s.sign ∧ (resolveLate e approved s).intercom = s.intercom := by
  unfold resolveLate; split <;> (try split) <;> simp

@[simp] theorem endAuth_keeps (s : State) :
    (endAuth s).pending = s.pending ∧ (endAuth s).running = s.running ∧ (endAuth s).emgLine = s.emgLine ∧
    (endAuth s).calLine = s.calLine ∧ (endAuth s).link = s.link ∧ (endAuth s).disp = s.disp ∧
    (endAuth s).tables = s.tables ∧ (endAuth s).time = s.time ∧ (endAuth s).meter = s.meter ∧
    (endAuth s).trip = s.trip ∧ (endAuth s).sign = s.sign ∧ (endAuth s).intercom = s.intercom ∧
    (endAuth s).shifts = s.shifts := by
  simp [endAuth]

@[simp] theorem authExpires_keeps (s : State) :
    (authExpires s).pending = s.pending ∧ (authExpires s).running = s.running ∧ (authExpires s).emgLine = s.emgLine ∧
    (authExpires s).calLine = s.calLine := by
  unfold authExpires; dsimp only; repeat' split
  all_goals simp

@[simp] theorem authSecond_keeps (s : State) :
    (authSecond s).pending = s.pending ∧ (authSecond s).running = s.running ∧ (authSecond s).emgLine = s.emgLine ∧
    (authSecond s).calLine = s.calLine := by
  unfold authSecond; split <;> (try split) <;> simp

@[simp] theorem authResponseTaken_keeps (number : Nat) (ref : Reference) (approved : Bool) (s : State) :
    (authResponseTaken number ref approved s).pending = s.pending ∧
    (authResponseTaken number ref approved s).running = s.running ∧
    (authResponseTaken number ref approved s).emgLine = s.emgLine ∧
    (authResponseTaken number ref approved s).calLine = s.calLine := by
  unfold authResponseTaken; dsimp only; repeat' split
  all_goals simp

@[simp] theorem captureResponseTaken_keeps (ref : Reference) (accepted : Bool) (s : State) :
    (captureResponseTaken ref accepted s).pending = s.pending ∧
    (captureResponseTaken ref accepted s).running = s.running ∧
    (captureResponseTaken ref accepted s).emgLine = s.emgLine ∧
    (captureResponseTaken ref accepted s).calLine = s.calLine ∧
    (captureResponseTaken ref accepted s).tables = s.tables ∧ (captureResponseTaken ref accepted s).time = s.time ∧
    (captureResponseTaken ref accepted s).meter = s.meter ∧ (captureResponseTaken ref accepted s).trip = s.trip ∧
    (captureResponseTaken ref accepted s).sign = s.sign ∧
    (captureResponseTaken ref accepted s).intercom = s.intercom := by
  unfold captureResponseTaken; repeat' split
  all_goals simp

@[simp] theorem payOnline_keeps (src : Station) (tr : Trip) (f : PayFields) (s : State) :
    (payOnline src tr f s).pending = s.pending ∧ (payOnline src tr f s).running = s.running ∧
    (payOnline src tr f s).emgLine = s.emgLine ∧ (payOnline src tr f s).calLine = s.calLine ∧
    (payOnline src tr f s).disp = s.disp ∧ (payOnline src tr f s).tables = s.tables ∧
    (payOnline src tr f s).time = s.time ∧ (payOnline src tr f s).meter = s.meter ∧
    (payOnline src tr f s).trip = s.trip ∧ (payOnline src tr f s).sign = s.sign ∧
    (payOnline src tr f s).intercom = s.intercom ∧ (payOnline src tr f s).shifts = s.shifts := by
  simp [payOnline]

@[simp] theorem payOffline_keeps (src : Station) (tr : Trip) (f : PayFields) (s : State) :
    (payOffline src tr f s).pending = s.pending ∧ (payOffline src tr f s).running = s.running ∧
    (payOffline src tr f s).emgLine = s.emgLine ∧ (payOffline src tr f s).calLine = s.calLine := by
  unfold payOffline; dsimp only; split <;> simp

@[simp] theorem takePayRequest_keeps (src : Station) (payload : List Byte) (s : State) :
    (takePayRequest src payload s).pending = s.pending ∧ (takePayRequest src payload s).running = s.running ∧
    (takePayRequest src payload s).emgLine = s.emgLine ∧ (takePayRequest src payload s).calLine = s.calLine := by
  unfold takePayRequest; repeat' split
  all_goals simp

@[simp] theorem takePayCancel_keeps (src : Station) (payload : List Byte) (s : State) :
    (takePayCancel src payload s).pending = s.pending ∧ (takePayCancel src payload s).running = s.running ∧
    (takePayCancel src payload s).emgLine = s.emgLine ∧ (takePayCancel src payload s).calLine = s.calLine ∧
    (takePayCancel src payload s).disp = s.disp ∧ (takePayCancel src payload s).tables = s.tables ∧
    (takePayCancel src payload s).time = s.time ∧ (takePayCancel src payload s).meter = s.meter ∧
    (takePayCancel src payload s).trip = s.trip ∧ (takePayCancel src payload s).sign = s.sign ∧
    (takePayCancel src payload s).intercom = s.intercom ∧ (takePayCancel src payload s).shifts = s.shifts := by
  unfold takePayCancel; repeat' split
  all_goals simp

@[simp] theorem takeDeferredRead_keeps (src : Station) (payload : List Byte) (s : State) :
    (takeDeferredRead src payload s).pending = s.pending ∧ (takeDeferredRead src payload s).running = s.running ∧
    (takeDeferredRead src payload s).emgLine = s.emgLine ∧ (takeDeferredRead src payload s).calLine = s.calLine ∧
    (takeDeferredRead src payload s).disp = s.disp ∧ (takeDeferredRead src payload s).tables = s.tables ∧
    (takeDeferredRead src payload s).time = s.time ∧ (takeDeferredRead src payload s).meter = s.meter ∧
    (takeDeferredRead src payload s).trip = s.trip ∧ (takeDeferredRead src payload s).sign = s.sign ∧
    (takeDeferredRead src payload s).intercom = s.intercom ∧ (takeDeferredRead src payload s).pay = s.pay ∧
    (takeDeferredRead src payload s).shifts = s.shifts := by
  unfold takeDeferredRead; dsimp only; split <;> simp

@[simp] theorem emptyPending_keeps (src : Station) (s : State) :
    (emptyPending src s).pending = s.pending ∧ (emptyPending src s).running = s.running ∧
    (emptyPending src s).emgLine = s.emgLine ∧ (emptyPending src s).calLine = s.calLine ∧
    (emptyPending src s).tables = s.tables ∧ (emptyPending src s).time = s.time ∧
    (emptyPending src s).meter = s.meter ∧ (emptyPending src s).trip = s.trip ∧ (emptyPending src s).sign = s.sign ∧
    (emptyPending src s).intercom = s.intercom ∧ (emptyPending src s).pay = s.pay ∧
    (emptyPending src s).shifts = s.shifts := by
  unfold emptyPending; split <;> (try split) <;> simp

@[simp] theorem takeStatusRead_keeps (src : Station) (payload : List Byte) (s : State) :
    (takeStatusRead src payload s).pending = s.pending ∧ (takeStatusRead src payload s).running = s.running ∧
    (takeStatusRead src payload s).emgLine = s.emgLine ∧ (takeStatusRead src payload s).calLine = s.calLine ∧
    (takeStatusRead src payload s).tables = s.tables ∧ (takeStatusRead src payload s).time = s.time ∧
    (takeStatusRead src payload s).meter = s.meter ∧ (takeStatusRead src payload s).trip = s.trip ∧
    (takeStatusRead src payload s).sign = s.sign ∧ (takeStatusRead src payload s).intercom = s.intercom ∧
    (takeStatusRead src payload s).pay = s.pay ∧ (takeStatusRead src payload s).shifts = s.shifts := by
  unfold takeStatusRead; split <;> (try split) <;> simp

@[simp] theorem takeNoticeMask_keeps (src : Station) (payload : List Byte) (s : State) :
    (takeNoticeMask src payload s).pending = s.pending ∧ (takeNoticeMask src payload s).running = s.running ∧
    (takeNoticeMask src payload s).emgLine = s.emgLine ∧ (takeNoticeMask src payload s).calLine = s.calLine ∧
    (takeNoticeMask src payload s).tables = s.tables ∧ (takeNoticeMask src payload s).time = s.time ∧
    (takeNoticeMask src payload s).meter = s.meter ∧ (takeNoticeMask src payload s).trip = s.trip ∧
    (takeNoticeMask src payload s).sign = s.sign ∧ (takeNoticeMask src payload s).intercom = s.intercom ∧
    (takeNoticeMask src payload s).pay = s.pay ∧ (takeNoticeMask src payload s).shifts = s.shifts := by
  unfold takeNoticeMask; dsimp only; repeat' split
  all_goals simp

@[simp] theorem takeFlagsClear_keeps (src : Station) (payload : List Byte) (s : State) :
    (takeFlagsClear src payload s).pending = s.pending ∧ (takeFlagsClear src payload s).running = s.running ∧
    (takeFlagsClear src payload s).emgLine = s.emgLine ∧ (takeFlagsClear src payload s).calLine = s.calLine ∧
    (takeFlagsClear src payload s).tables = s.tables ∧ (takeFlagsClear src payload s).time = s.time ∧
    (takeFlagsClear src payload s).meter = s.meter ∧ (takeFlagsClear src payload s).trip = s.trip ∧
    (takeFlagsClear src payload s).sign = s.sign ∧ (takeFlagsClear src payload s).intercom = s.intercom ∧
    (takeFlagsClear src payload s).pay = s.pay ∧ (takeFlagsClear src payload s).shifts = s.shifts := by
  unfold takeFlagsClear; split <;> simp

@[simp] theorem takeCalibrate_keeps (src : Station) (payload : List Byte) (s : State) :
    (takeCalibrate src payload s).pending = s.pending ∧ (takeCalibrate src payload s).running = s.running ∧
    (takeCalibrate src payload s).emgLine = s.emgLine ∧ (takeCalibrate src payload s).calLine = s.calLine ∧
    (takeCalibrate src payload s).disp = s.disp ∧ (takeCalibrate src payload s).tables = s.tables ∧
    (takeCalibrate src payload s).meter = s.meter ∧ (takeCalibrate src payload s).trip = s.trip ∧
    (takeCalibrate src payload s).sign = s.sign ∧ (takeCalibrate src payload s).intercom = s.intercom ∧
    (takeCalibrate src payload s).pay = s.pay ∧ (takeCalibrate src payload s).shifts = s.shifts := by
  unfold takeCalibrate; dsimp only; repeat' split
  all_goals simp

@[simp] theorem takeClockSet_keeps (src : Station) (payload : List Byte) (s : State) :
    (takeClockSet src payload s).pending = s.pending ∧ (takeClockSet src payload s).running = s.running ∧
    (takeClockSet src payload s).emgLine = s.emgLine ∧ (takeClockSet src payload s).calLine = s.calLine ∧
    (takeClockSet src payload s).disp = s.disp ∧ (takeClockSet src payload s).tables = s.tables ∧
    (takeClockSet src payload s).meter = s.meter ∧ (takeClockSet src payload s).trip = s.trip ∧
    (takeClockSet src payload s).sign = s.sign ∧ (takeClockSet src payload s).intercom = s.intercom ∧
    (takeClockSet src payload s).pay = s.pay ∧ (takeClockSet src payload s).shifts = s.shifts := by
  unfold takeClockSet; dsimp only; repeat' split
  all_goals simp

@[simp] theorem zoneUpdateTaken_keeps (zone : Nat) (s : State) :
    (zoneUpdateTaken zone s).pending = s.pending ∧ (zoneUpdateTaken zone s).running = s.running ∧
    (zoneUpdateTaken zone s).emgLine = s.emgLine ∧ (zoneUpdateTaken zone s).calLine = s.calLine ∧
    (zoneUpdateTaken zone s).tables = s.tables ∧ (zoneUpdateTaken zone s).meter = s.meter ∧
    (zoneUpdateTaken zone s).sign = s.sign ∧ (zoneUpdateTaken zone s).intercom = s.intercom ∧
    (zoneUpdateTaken zone s).pay = s.pay := by
  unfold zoneUpdateTaken; split <;> simp

@[simp] theorem takeEmergencyClear_keeps (src : Station) (payload : List Byte) (s : State) :
    (takeEmergencyClear src payload s).pending = s.pending ∧ (takeEmergencyClear src payload s).running = s.running ∧
    (takeEmergencyClear src payload s).emgLine = s.emgLine ∧ (takeEmergencyClear src payload s).calLine = s.calLine ∧
    (takeEmergencyClear src payload s).disp = s.disp ∧ (takeEmergencyClear src payload s).tables = s.tables ∧
    (takeEmergencyClear src payload s).time = s.time ∧ (takeEmergencyClear src payload s).meter = s.meter ∧
    (takeEmergencyClear src payload s).trip = s.trip ∧ (takeEmergencyClear src payload s).intercom = s.intercom ∧
    (takeEmergencyClear src payload s).pay = s.pay ∧ (takeEmergencyClear src payload s).shifts = s.shifts := by
  unfold takeEmergencyClear; split <;> (try split) <;> simp

@[simp] theorem takeJournalRead_keeps (src : Station) (payload : List Byte) (s : State) :
    (takeJournalRead src payload s).pending = s.pending ∧ (takeJournalRead src payload s).running = s.running ∧
    (takeJournalRead src payload s).emgLine = s.emgLine ∧ (takeJournalRead src payload s).calLine = s.calLine ∧
    (takeJournalRead src payload s).disp = s.disp ∧ (takeJournalRead src payload s).tables = s.tables ∧
    (takeJournalRead src payload s).time = s.time ∧ (takeJournalRead src payload s).meter = s.meter ∧
    (takeJournalRead src payload s).trip = s.trip ∧ (takeJournalRead src payload s).sign = s.sign ∧
    (takeJournalRead src payload s).intercom = s.intercom ∧ (takeJournalRead src payload s).pay = s.pay ∧
    (takeJournalRead src payload s).shifts = s.shifts := by
  unfold takeJournalRead; dsimp only; repeat' split
  all_goals simp

@[simp] theorem takeReportRead_keeps (src : Station) (payload : List Byte) (s : State) :
    (takeReportRead src payload s).pending = s.pending ∧ (takeReportRead src payload s).running = s.running ∧
    (takeReportRead src payload s).emgLine = s.emgLine ∧ (takeReportRead src payload s).calLine = s.calLine ∧
    (takeReportRead src payload s).disp = s.disp ∧ (takeReportRead src payload s).tables = s.tables ∧
    (takeReportRead src payload s).time = s.time ∧ (takeReportRead src payload s).meter = s.meter ∧
    (takeReportRead src payload s).trip = s.trip ∧ (takeReportRead src payload s).sign = s.sign ∧
    (takeReportRead src payload s).intercom = s.intercom ∧ (takeReportRead src payload s).pay = s.pay ∧
    (takeReportRead src payload s).shifts = s.shifts := by
  unfold takeReportRead; dsimp only; repeat' split
  all_goals simp

@[simp] theorem takeReportRelease_keeps (src : Station) (payload : List Byte) (s : State) :
    (takeReportRelease src payload s).pending = s.pending ∧ (takeReportRelease src payload s).running = s.running ∧
    (takeReportRelease src payload s).emgLine = s.emgLine ∧ (takeReportRelease src payload s).calLine = s.calLine ∧
    (takeReportRelease src payload s).disp = s.disp ∧ (takeReportRelease src payload s).tables = s.tables ∧
    (takeReportRelease src payload s).time = s.time ∧ (takeReportRelease src payload s).meter = s.meter ∧
    (takeReportRelease src payload s).trip = s.trip ∧ (takeReportRelease src payload s).sign = s.sign ∧
    (takeReportRelease src payload s).intercom = s.intercom ∧ (takeReportRelease src payload s).pay = s.pay := by
  unfold takeReportRelease; repeat' split
  all_goals simp

@[simp] theorem takeSnapshotTake_keeps (src : Station) (payload : List Byte) (s : State) :
    (takeSnapshotTake src payload s).pending = s.pending ∧ (takeSnapshotTake src payload s).running = s.running ∧
    (takeSnapshotTake src payload s).emgLine = s.emgLine ∧ (takeSnapshotTake src payload s).calLine = s.calLine ∧
    (takeSnapshotTake src payload s).disp = s.disp ∧ (takeSnapshotTake src payload s).tables = s.tables ∧
    (takeSnapshotTake src payload s).time = s.time ∧ (takeSnapshotTake src payload s).meter = s.meter ∧
    (takeSnapshotTake src payload s).trip = s.trip ∧ (takeSnapshotTake src payload s).sign = s.sign ∧
    (takeSnapshotTake src payload s).intercom = s.intercom ∧ (takeSnapshotTake src payload s).pay = s.pay := by
  unfold takeSnapshotTake; split <;> (try split) <;> simp

@[simp] theorem takeSnapshotRead_keeps (src : Station) (payload : List Byte) (s : State) :
    (takeSnapshotRead src payload s).pending = s.pending ∧ (takeSnapshotRead src payload s).running = s.running ∧
    (takeSnapshotRead src payload s).emgLine = s.emgLine ∧ (takeSnapshotRead src payload s).calLine = s.calLine ∧
    (takeSnapshotRead src payload s).disp = s.disp ∧ (takeSnapshotRead src payload s).tables = s.tables ∧
    (takeSnapshotRead src payload s).time = s.time ∧ (takeSnapshotRead src payload s).meter = s.meter ∧
    (takeSnapshotRead src payload s).trip = s.trip ∧ (takeSnapshotRead src payload s).sign = s.sign ∧
    (takeSnapshotRead src payload s).intercom = s.intercom ∧ (takeSnapshotRead src payload s).pay = s.pay ∧
    (takeSnapshotRead src payload s).shifts = s.shifts := by
  unfold takeSnapshotRead; dsimp only; repeat' split
  all_goals simp

@[simp] theorem takeSnapshotRelease_keeps (src : Station) (payload : List Byte) (s : State) :
    (takeSnapshotRelease src payload s).pending = s.pending ∧
    (takeSnapshotRelease src payload s).running = s.running ∧
    (takeSnapshotRelease src payload s).emgLine = s.emgLine ∧
    (takeSnapshotRelease src payload s).calLine = s.calLine ∧ (takeSnapshotRelease src payload s).disp = s.disp ∧
    (takeSnapshotRelease src payload s).tables = s.tables ∧ (takeSnapshotRelease src payload s).time = s.time ∧
    (takeSnapshotRelease src payload s).meter = s.meter ∧ (takeSnapshotRelease src payload s).trip = s.trip ∧
    (takeSnapshotRelease src payload s).sign = s.sign ∧ (takeSnapshotRelease src payload s).intercom = s.intercom ∧
    (takeSnapshotRelease src payload s).pay = s.pay := by
  unfold takeSnapshotRelease; split <;> (try split) <;> simp

@[simp] theorem talkDownTaken_keeps (src : Station) (s : State) :
    (talkDownTaken src s).pending = s.pending ∧ (talkDownTaken src s).running = s.running ∧
    (talkDownTaken src s).emgLine = s.emgLine ∧ (talkDownTaken src s).calLine = s.calLine ∧
    (talkDownTaken src s).disp = s.disp ∧ (talkDownTaken src s).tables = s.tables ∧
    (talkDownTaken src s).time = s.time ∧ (talkDownTaken src s).meter = s.meter ∧
    (talkDownTaken src s).trip = s.trip ∧ (talkDownTaken src s).sign = s.sign ∧ (talkDownTaken src s).pay = s.pay ∧
    (talkDownTaken src s).shifts = s.shifts := by
  unfold talkDownTaken; split <;> simp

@[simp] theorem takeReport_keeps (src : Station) (kind : ReportKind) (payload : List Byte) (s : State) :
    (takeReport src kind payload s).pending = s.pending ∧ (takeReport src kind payload s).running = s.running ∧
    (takeReport src kind payload s).emgLine = s.emgLine ∧ (takeReport src kind payload s).calLine = s.calLine := by
  unfold takeReport; split <;> simp

@[simp] theorem takeRequest_keeps (src : Station) (kind : Request) (payload : List Byte) (s : State) :
    (takeRequest src kind payload s).pending = s.pending ∧ (takeRequest src kind payload s).running = s.running ∧
    (takeRequest src kind payload s).emgLine = s.emgLine ∧ (takeRequest src kind payload s).calLine = s.calLine := by
  unfold takeRequest; split <;> simp

@[simp] theorem handleMessage_keeps (m : Inbound) (s : State) :
    (handleMessage m s).pending = s.pending ∧ (handleMessage m s).running = s.running ∧
    (handleMessage m s).emgLine = s.emgLine ∧ (handleMessage m s).calLine = s.calLine := by
  unfold handleMessage; split <;> (try split) <;> simp

@[simp] theorem drain_keeps (n : Nat) (s : State) :
    (drain n s).pending = s.pending ∧ (drain n s).running = s.running ∧ (drain n s).emgLine = s.emgLine ∧
    (drain n s).calLine = s.calLine := by
  induction n generalizing s with
  | zero => simp [drain]
  | succ n ih =>
    unfold drain; repeat' split
    all_goals simp [ih]

@[simp] theorem dispatchInbound_keeps (s : State) :
    (dispatchInbound s).pending = s.pending ∧ (dispatchInbound s).running = s.running ∧
    (dispatchInbound s).emgLine = s.emgLine ∧ (dispatchInbound s).calLine = s.calLine := by
  simp [dispatchInbound]

@[simp] theorem joinInbound_keeps (m : Inbound) (s : State) :
    (joinInbound m s).pending = s.pending ∧ (joinInbound m s).running = s.running ∧
    (joinInbound m s).emgLine = s.emgLine ∧ (joinInbound m s).calLine = s.calLine ∧ (joinInbound m s).disp = s.disp ∧
    (joinInbound m s).tables = s.tables ∧ (joinInbound m s).time = s.time ∧ (joinInbound m s).meter = s.meter ∧
    (joinInbound m s).trip = s.trip ∧ (joinInbound m s).sign = s.sign ∧ (joinInbound m s).intercom = s.intercom ∧
    (joinInbound m s).pay = s.pay ∧ (joinInbound m s).shifts = s.shifts := by
  simp [joinInbound]

@[simp] theorem deliver_keeps (m : Inbound) (s : State) :
    (deliver m s).pending = s.pending ∧ (deliver m s).running = s.running ∧ (deliver m s).emgLine = s.emgLine ∧
    (deliver m s).calLine = s.calLine := by
  unfold deliver; split <;> simp

@[simp] theorem pulseArrives_keeps (s : State) :
    (pulseArrives s).pending = s.pending ∧ (pulseArrives s).running = s.running ∧
    (pulseArrives s).emgLine = s.emgLine ∧ (pulseArrives s).calLine = s.calLine ∧ (pulseArrives s).tables = s.tables ∧
    (pulseArrives s).meter = s.meter ∧ (pulseArrives s).sign = s.sign ∧ (pulseArrives s).intercom = s.intercom ∧
    (pulseArrives s).pay = s.pay := by
  unfold pulseArrives; repeat' split
  all_goals simp

@[simp] theorem hiredSecond_keeps (s : State) :
    (hiredSecond s).pending = s.pending ∧ (hiredSecond s).running = s.running ∧ (hiredSecond s).emgLine = s.emgLine ∧
    (hiredSecond s).calLine = s.calLine ∧ (hiredSecond s).disp = s.disp ∧ (hiredSecond s).tables = s.tables ∧
    (hiredSecond s).time = s.time ∧ (hiredSecond s).meter = s.meter ∧ (hiredSecond s).sign = s.sign ∧
    (hiredSecond s).intercom = s.intercom ∧ (hiredSecond s).pay = s.pay ∧ (hiredSecond s).shifts = s.shifts := by
  unfold hiredSecond; split <;> simp

@[simp] theorem signSecond_keeps (s : State) :
    (signSecond s).pending = s.pending ∧ (signSecond s).running = s.running ∧ (signSecond s).emgLine = s.emgLine ∧
    (signSecond s).calLine = s.calLine ∧ (signSecond s).disp = s.disp ∧ (signSecond s).tables = s.tables ∧
    (signSecond s).time = s.time ∧ (signSecond s).meter = s.meter ∧ (signSecond s).trip = s.trip ∧
    (signSecond s).intercom = s.intercom ∧ (signSecond s).pay = s.pay ∧ (signSecond s).shifts = s.shifts := by
  simp [signSecond]

@[simp] theorem intercomSecond_keeps (s : State) :
    (intercomSecond s).pending = s.pending ∧ (intercomSecond s).running = s.running ∧
    (intercomSecond s).emgLine = s.emgLine ∧ (intercomSecond s).calLine = s.calLine ∧
    (intercomSecond s).disp = s.disp ∧ (intercomSecond s).tables = s.tables ∧ (intercomSecond s).time = s.time ∧
    (intercomSecond s).meter = s.meter ∧ (intercomSecond s).trip = s.trip ∧ (intercomSecond s).sign = s.sign ∧
    (intercomSecond s).pay = s.pay ∧ (intercomSecond s).shifts = s.shifts := by
  simp [intercomSecond]

@[simp] theorem paymentSecond_keeps (s : State) :
    (paymentSecond s).pending = s.pending ∧ (paymentSecond s).running = s.running ∧
    (paymentSecond s).emgLine = s.emgLine ∧ (paymentSecond s).calLine = s.calLine := by
  simp [paymentSecond]

@[simp] theorem fareSecondOccurs_keeps (s : State) :
    (fareSecondOccurs s).pending = s.pending ∧ (fareSecondOccurs s).running = s.running ∧
    (fareSecondOccurs s).emgLine = s.emgLine ∧ (fareSecondOccurs s).calLine = s.calLine := by
  simp [fareSecondOccurs]

@[simp] theorem countTick_keeps (s : State) :
    (countTick s).pending = s.pending ∧ (countTick s).running = s.running ∧ (countTick s).emgLine = s.emgLine ∧
    (countTick s).calLine = s.calLine := by
  unfold countTick; split <;> simp

@[simp] theorem tickOccurs_keeps (s : State) :
    (tickOccurs s).pending = s.pending ∧ (tickOccurs s).running = s.running ∧ (tickOccurs s).emgLine = s.emgLine ∧
    (tickOccurs s).calLine = s.calLine := by
  simp [tickOccurs]

@[simp] theorem countFrame_keeps (s : State) :
    (countFrame s).pending = s.pending ∧ (countFrame s).running = s.running ∧ (countFrame s).emgLine = s.emgLine ∧
    (countFrame s).calLine = s.calLine := by
  unfold countFrame; split <;> simp

@[simp] theorem boundaryFires_keeps (s : State) :
    (boundaryFires s).pending = s.pending ∧ (boundaryFires s).running = s.running ∧
    (boundaryFires s).emgLine = s.emgLine ∧ (boundaryFires s).calLine = s.calLine ∧
    (boundaryFires s).tables = s.tables ∧ (boundaryFires s).meter = s.meter ∧ (boundaryFires s).sign = s.sign ∧
    (boundaryFires s).intercom = s.intercom ∧ (boundaryFires s).pay = s.pay := by
  simp [boundaryFires]

@[simp] theorem clockSecondRunning_keeps (s : State) :
    (clockSecondRunning s).pending = s.pending ∧ (clockSecondRunning s).running = s.running ∧
    (clockSecondRunning s).emgLine = s.emgLine ∧ (clockSecondRunning s).calLine = s.calLine ∧
    (clockSecondRunning s).tables = s.tables ∧ (clockSecondRunning s).meter = s.meter ∧
    (clockSecondRunning s).sign = s.sign ∧ (clockSecondRunning s).intercom = s.intercom ∧
    (clockSecondRunning s).pay = s.pay := by
  unfold clockSecondRunning; dsimp only; split <;> simp

@[simp] theorem setRecord_keeps (st : Station) (r : StationRecord) (s : State) :
    (setRecord st r s).pending = s.pending ∧ (setRecord st r s).running = s.running ∧
    (setRecord st r s).emgLine = s.emgLine ∧ (setRecord st r s).calLine = s.calLine ∧
    (setRecord st r s).disp = s.disp ∧ (setRecord st r s).tables = s.tables ∧ (setRecord st r s).time = s.time ∧
    (setRecord st r s).meter = s.meter ∧ (setRecord st r s).trip = s.trip ∧ (setRecord st r s).sign = s.sign ∧
    (setRecord st r s).intercom = s.intercom ∧ (setRecord st r s).pay = s.pay ∧
    (setRecord st r s).shifts = s.shifts := by
  simp [setRecord]

@[simp] theorem stationFoundActs_keeps (st : Station) (s : State) :
    (stationFoundActs st s).pending = s.pending ∧ (stationFoundActs st s).running = s.running ∧
    (stationFoundActs st s).emgLine = s.emgLine ∧ (stationFoundActs st s).calLine = s.calLine ∧
    (stationFoundActs st s).disp = s.disp ∧ (stationFoundActs st s).tables = s.tables ∧
    (stationFoundActs st s).time = s.time ∧ (stationFoundActs st s).meter = s.meter ∧
    (stationFoundActs st s).trip = s.trip ∧ (stationFoundActs st s).intercom = s.intercom ∧
    (stationFoundActs st s).pay = s.pay ∧ (stationFoundActs st s).shifts = s.shifts := by
  unfold stationFoundActs; split <;> simp

@[simp] theorem stationLostActs_keeps (st : Station) (s : State) :
    (stationLostActs st s).pending = s.pending ∧ (stationLostActs st s).running = s.running ∧
    (stationLostActs st s).emgLine = s.emgLine ∧ (stationLostActs st s).calLine = s.calLine ∧
    (stationLostActs st s).disp = s.disp ∧ (stationLostActs st s).tables = s.tables ∧
    (stationLostActs st s).time = s.time ∧ (stationLostActs st s).meter = s.meter ∧
    (stationLostActs st s).trip = s.trip ∧ (stationLostActs st s).sign = s.sign ∧
    (stationLostActs st s).shifts = s.shifts := by
  unfold stationLostActs; split <;> simp

@[simp] theorem stationAnswers_keeps (st : Station) (s : State) :
    (stationAnswers st s).pending = s.pending ∧ (stationAnswers st s).running = s.running ∧
    (stationAnswers st s).emgLine = s.emgLine ∧ (stationAnswers st s).calLine = s.calLine ∧
    (stationAnswers st s).tables = s.tables ∧ (stationAnswers st s).time = s.time ∧
    (stationAnswers st s).meter = s.meter ∧ (stationAnswers st s).trip = s.trip ∧
    (stationAnswers st s).intercom = s.intercom := by
  unfold stationAnswers; dsimp only; split <;> simp

@[simp] theorem stationMisses_keeps (st : Station) (s : State) :
    (stationMisses st s).pending = s.pending ∧ (stationMisses st s).running = s.running ∧
    (stationMisses st s).emgLine = s.emgLine ∧ (stationMisses st s).calLine = s.calLine ∧
    (stationMisses st s).tables = s.tables ∧ (stationMisses st s).time = s.time ∧
    (stationMisses st s).meter = s.meter ∧ (stationMisses st s).trip = s.trip ∧
    (stationMisses st s).sign = s.sign := by
  unfold stationMisses; dsimp only; split <;> simp

@[simp] theorem stationTruncates_keeps (st : Station) (s : State) :
    (stationTruncates st s).pending = s.pending ∧ (stationTruncates st s).running = s.running ∧
    (stationTruncates st s).emgLine = s.emgLine ∧ (stationTruncates st s).calLine = s.calLine ∧
    (stationTruncates st s).tables = s.tables ∧ (stationTruncates st s).time = s.time ∧
    (stationTruncates st s).meter = s.meter ∧ (stationTruncates st s).trip = s.trip ∧
    (stationTruncates st s).sign = s.sign := by
  simp [stationTruncates]

@[simp] theorem stationFailsCheck_keeps (st : Station) (s : State) :
    (stationFailsCheck st s).pending = s.pending ∧ (stationFailsCheck st s).running = s.running ∧
    (stationFailsCheck st s).emgLine = s.emgLine ∧ (stationFailsCheck st s).calLine = s.calLine ∧
    (stationFailsCheck st s).tables = s.tables ∧ (stationFailsCheck st s).time = s.time ∧
    (stationFailsCheck st s).meter = s.meter ∧ (stationFailsCheck st s).trip = s.trip ∧
    (stationFailsCheck st s).sign = s.sign ∧ (stationFailsCheck st s).intercom = s.intercom ∧
    (stationFailsCheck st s).pay = s.pay := by
  simp [stationFailsCheck]

@[simp] theorem setReception_keeps (r : Option Reception) (s : State) :
    (setReception r s).pending = s.pending ∧ (setReception r s).running = s.running ∧
    (setReception r s).emgLine = s.emgLine ∧ (setReception r s).calLine = s.calLine ∧
    (setReception r s).disp = s.disp ∧ (setReception r s).tables = s.tables ∧ (setReception r s).time = s.time ∧
    (setReception r s).meter = s.meter ∧ (setReception r s).trip = s.trip ∧ (setReception r s).sign = s.sign ∧
    (setReception r s).intercom = s.intercom ∧ (setReception r s).pay = s.pay ∧
    (setReception r s).shifts = s.shifts := by
  simp [setReception]

@[simp] theorem receptionAdvances_keeps (st : Station) (l : List Byte) (s : State) :
    (receptionAdvances st l s).pending = s.pending ∧ (receptionAdvances st l s).running = s.running ∧
    (receptionAdvances st l s).emgLine = s.emgLine ∧ (receptionAdvances st l s).calLine = s.calLine ∧
    (receptionAdvances st l s).tables = s.tables ∧ (receptionAdvances st l s).time = s.time ∧
    (receptionAdvances st l s).meter = s.meter ∧ (receptionAdvances st l s).trip = s.trip ∧
    (receptionAdvances st l s).sign = s.sign ∧ (receptionAdvances st l s).intercom = s.intercom ∧
    (receptionAdvances st l s).pay = s.pay := by
  unfold receptionAdvances; dsimp only; repeat' split
  all_goals simp

@[simp] theorem readUpLane_keeps (grant : Option Station) (up : UpFrame) (s : State) :
    (readUpLane grant up s).pending = s.pending ∧ (readUpLane grant up s).running = s.running ∧
    (readUpLane grant up s).emgLine = s.emgLine ∧ (readUpLane grant up s).calLine = s.calLine ∧
    (readUpLane grant up s).tables = s.tables ∧ (readUpLane grant up s).time = s.time ∧
    (readUpLane grant up s).meter = s.meter ∧ (readUpLane grant up s).trip = s.trip := by
  unfold readUpLane; repeat' split
  all_goals simp

@[simp] theorem frameRuns_keeps (up : UpFrame) (s : State) :
    (frameRuns up s).pending = s.pending ∧ (frameRuns up s).running = s.running ∧
    (frameRuns up s).emgLine = s.emgLine ∧ (frameRuns up s).calLine = s.calLine := by
  simp [frameRuns]

@[simp] theorem sideExpires_keeps (side : Side) (s : State) :
    (sideExpires side s).pending = s.pending ∧ (sideExpires side s).running = s.running ∧
    (sideExpires side s).emgLine = s.emgLine ∧ (sideExpires side s).calLine = s.calLine ∧
    (sideExpires side s).tables = s.tables ∧ (sideExpires side s).time = s.time ∧
    (sideExpires side s).meter = s.meter ∧ (sideExpires side s).sign = s.sign ∧
    (sideExpires side s).intercom = s.intercom ∧ (sideExpires side s).pay = s.pay := by
  unfold sideExpires; repeat' split
  all_goals simp

@[simp] theorem debounceCompletes_keeps (s : State) :
    (debounceCompletes s).pending = s.pending ∧ (debounceCompletes s).running = s.running ∧
    (debounceCompletes s).emgLine = s.emgLine ∧ (debounceCompletes s).calLine = s.calLine ∧
    (debounceCompletes s).tables = s.tables ∧ (debounceCompletes s).time = s.time ∧
    (debounceCompletes s).meter = s.meter ∧ (debounceCompletes s).trip = s.trip ∧
    (debounceCompletes s).intercom = s.intercom ∧ (debounceCompletes s).pay = s.pay := by
  unfold debounceCompletes; split <;> simp

end Sys2Proof.Machine
end

