-- ==== Sys2Proof/Laws/Queues.lean ====
section
/-! SUPPORT. What each operation can do to the link: it offers messages and writes refresh places, and no more. -/

namespace Sys2Proof.Machine

theorem LinkState.Queues.refl (a : LinkState) : a.Queues a := fun h => ⟨[], by simp [Queued, h]⟩

theorem LinkState.Queues.trans {a b c : LinkState} (h : a.Queues b) (k : b.Queues c) : a.Queues c := by
  intro ha
  obtain ⟨ms, h1, h2, h3⟩ := h ha
  obtain ⟨ns, k1, k2, k3⟩ := k h2
  exact ⟨ms ++ ns, by simp [k1, h1], k2, by rw [k3, h3]⟩

/-- One offer to an orderly link (01 R14). -/
theorem offer_queued (m : Outbound) (s : State) (h : s.link.orderly) : s.link.Queued (offer m s).link [m] := by
  obtain ⟨h1, h2⟩ := h
  unfold offer
  split
  · have : s.link.held = [] := by by_contra hn; have := h2 hn; omega
    simp_all [LinkState.Queued, LinkState.waiting, LinkState.orderly]
  · simp_all [LinkState.Queued, LinkState.waiting, LinkState.orderly]
    omega

theorem placeDisplay_queued (s : State) (h : s.link.orderly) : s.link.Queued (placeDisplay s).link [] := by
  simpa [placeDisplay, LinkState.Queued, LinkState.waiting, LinkState.orderly] using h

theorem placeSign_queued (s : State) (h : s.link.orderly) : s.link.Queued (placeSign s).link [] := by
  simpa [placeSign, LinkState.Queued, LinkState.waiting, LinkState.orderly] using h

@[simp] theorem offer_queues (m : Outbound) (s : State) {a : LinkState} (h : a.Queues s.link) :
    a.Queues (offer m s).link := h.trans fun k => ⟨[m], offer_queued m s k⟩

@[simp] theorem placeDisplay_queues (s : State) {a : LinkState} (h : a.Queues s.link) :
    a.Queues (placeDisplay s).link := h.trans fun k => ⟨[], placeDisplay_queued s k⟩

@[simp] theorem placeSign_queues (s : State) {a : LinkState} (h : a.Queues s.link) :
    a.Queues (placeSign s).link := h.trans fun k => ⟨[], placeSign_queued s k⟩

@[simp] theorem reply_queues (dest : Station) (kind : Byte) (r : Result) (data : List Byte) (s : State) {a : LinkState} (h : a.Queues s.link) :
    a.Queues (reply dest kind r data s).link := by
  simp [reply, h]

@[simp] theorem refuse_queues (dest : Station) (kind : Byte) (r : Result) (s : State) {a : LinkState} (h : a.Queues s.link) :
    a.Queues (refuse dest kind r s).link := by
  simp [refuse, h]

@[simp] theorem notifyHead_queues (e : Event) (s : State) {a : LinkState} (h : a.Queues s.link) :
    a.Queues (notifyHead e s).link := by
  unfold notifyHead; dsimp only; repeat' split
  all_goals simp [h]

@[simp] theorem notifyModem_queues (e : Event) (s : State) {a : LinkState} (h : a.Queues s.link) :
    a.Queues (notifyModem e s).link := by
  unfold notifyModem; dsimp only; repeat' split
  all_goals simp [h]

@[simp] theorem raise_queues (e : Event) (s : State) {a : LinkState} (h : a.Queues s.link) :
    a.Queues (raise e s).link := by
  simp [raise, h]

@[simp] theorem raiseIf_queues (c : Bool) (e : Event) (s : State) {a : LinkState} (h : a.Queues s.link) :
    a.Queues (raiseIf c e s).link := by
  unfold raiseIf; split <;> simp [h]

@[simp] theorem signRefreshDue_queues (s : State) {a : LinkState} (h : a.Queues s.link) :
    a.Queues (signRefreshDue s).link := by
  simp [signRefreshDue, h]

@[simp] theorem refreshSecond_queues (s : State) {a : LinkState} (h : a.Queues s.link) :
    a.Queues (refreshSecond s).link := by
  unfold refreshSecond; split <;> simp [h]

@[simp] theorem brightnessStep_queues (s : State) {a : LinkState} (h : a.Queues s.link) :
    a.Queues (brightnessStep s).link := by
  unfold brightnessStep; dsimp only; repeat' split
  all_goals simp [h]

@[simp] theorem steppingSecond_queues (s : State) {a : LinkState} (h : a.Queues s.link) :
    a.Queues (steppingSecond s).link := by
  unfold steppingSecond; split <;> simp [h]

@[simp] theorem signMeterChanged_queues (s : State) {a : LinkState} (h : a.Queues s.link) :
    a.Queues (signMeterChanged s).link := by
  unfold signMeterChanged; split <;> simp [h]

@[simp] theorem emergencyBegins_queues (s : State) {a : LinkState} (h : a.Queues s.link) :
    a.Queues (emergencyBegins s).link := by
  simp [emergencyBegins, h]

@[simp] theorem debounceTick_queues (s : State) {a : LinkState} (h : a.Queues s.link) :
    a.Queues (debounceTick s).link := by
  unfold debounceTick; repeat' split
  all_goals simp [h]

@[simp] theorem emergencyEnds_queues (s : State) {a : LinkState} (h : a.Queues s.link) :
    a.Queues (emergencyEnds s).link := by
  simp [emergencyEnds, h]

@[simp] theorem lampNewlyFailed_queues (s : State) {a : LinkState} (h : a.Queues s.link) :
    a.Queues (lampNewlyFailed s).link := by
  simp [lampNewlyFailed, h]

@[simp] theorem checkLamp_queues (held reported : BitVec 3) (lamp : Nat) (s : State) {a : LinkState} (h : a.Queues s.link) :
    a.Queues (checkLamp held reported lamp s).link := by
  unfold checkLamp; split <;> simp [h]

@[simp] theorem signStatusTaken_queues (ambient : Nat) (reported : BitVec 3) (s : State) {a : LinkState} (h : a.Queues s.link) :
    a.Queues (signStatusTaken ambient reported s).link := by
  unfold signStatusTaken; dsimp only; (repeat' split) <;> simp (maxDischargeDepth := 16) [h]

@[simp] theorem windowEnds_queues (s : State) {a : LinkState} (h : a.Queues s.link) :
    a.Queues (windowEnds s).link := by
  unfold windowEnds; dsimp only; split <;> simp [h]

@[simp] theorem displayIfClockShown_queues (before : TimeState) (s : State) {a : LinkState} (h : a.Queues s.link) :
    a.Queues (displayIfClockShown before s).link := by
  unfold displayIfClockShown; split <;> simp [h]

@[simp] theorem journalPlace_queues (e : JournalEntry) (s : State) {a : LinkState} (h : a.Queues s.link) :
    a.Queues (journalPlace e s).link := by
  unfold journalPlace; split <;> simp [h]

@[simp] theorem shiftTripClosed_queues (tr : Trip) (s : State) {a : LinkState} (h : a.Queues s.link) :
    a.Queues (shiftTripClosed tr s).link := by
  simp [shiftTripClosed, h]

@[simp] theorem updateShownMode_queues (s : State) {a : LinkState} (h : a.Queues s.link) :
    a.Queues (updateShownMode s).link := by
  unfold updateShownMode; dsimp only; split <;> simp [h]

@[simp] theorem changeFloor_queues (f : IntercomState → IntercomState) (s : State) {a : LinkState} (h : a.Queues s.link) :
    a.Queues (changeFloor f s).link := by
  simp [changeFloor, h]

@[simp] theorem holdExpires_queues (s : State) {a : LinkState} (h : a.Queues s.link) :
    a.Queues (holdExpires s).link := by
  unfold holdExpires; split <;> simp [h]

@[simp] theorem holdSecond_queues (s : State) {a : LinkState} (h : a.Queues s.link) :
    a.Queues (holdSecond s).link := by
  unfold holdSecond; split <;> (try split) <;> simp [h]

@[simp] theorem passengerLost_queues (p : Party) (s : State) {a : LinkState} (h : a.Queues s.link) :
    a.Queues (passengerLost p s).link := by
  simp [passengerLost, h]

@[simp] theorem setOpenFlag_queues (v : Bool) (s : State) {a : LinkState} (h : a.Queues s.link) :
    a.Queues (setOpenFlag v s).link := by
  unfold setOpenFlag; split <;> simp [h]

@[simp] theorem callTaken_queues (s : State) {a : LinkState} (h : a.Queues s.link) :
    a.Queues (callTaken s).link := by
  simp [callTaken, h]

@[simp] theorem testFareLimit_queues (s : State) {a : LinkState} (h : a.Queues s.link) :
    a.Queues (testFareLimit s).link := by
  unfold testFareLimit; split <;> (try split) <;> simp [h]

@[simp] theorem fareChanged_queues (s : State) {a : LinkState} (h : a.Queues s.link) :
    a.Queues (fareChanged s).link := by
  simp [fareChanged, h]

@[simp] theorem chargeDrop_queues (side : Side) (s : State) {a : LinkState} (h : a.Queues s.link) :
    a.Queues (chargeDrop side s).link := by
  simp [chargeDrop, h]

@[simp] theorem chargeIfStepping_queues (side : Side) (tr : Trip) (s : State) {a : LinkState} (h : a.Queues s.link) :
    a.Queues (chargeIfStepping side tr s).link := by
  unfold chargeIfStepping; split <;> simp [h]

@[simp] theorem expireSingle_queues (side : Side) (tr : Trip) (s : State) {a : LinkState} (h : a.Queues s.link) :
    a.Queues (expireSingle side tr s).link := by
  simp [expireSingle, h]

@[simp] theorem expireDouble_queues (side : Side) (tr : Trip) (s : State) {a : LinkState} (h : a.Queues s.link) :
    a.Queues (expireDouble side tr s).link := by
  unfold expireDouble; dsimp only; repeat' split
  all_goals simp [h]

@[simp] theorem expire_queues (side : Side) (s : State) {a : LinkState} (h : a.Queues s.link) :
    a.Queues (expire side s).link := by
  unfold expire; split <;> (try split) <;> simp [h]

@[simp] theorem farePulse_queues (s : State) {a : LinkState} (h : a.Queues s.link) :
    a.Queues (farePulse s).link := by
  unfold farePulse; repeat' split
  all_goals simp [h]

@[simp] theorem fareTick_queues (s : State) {a : LinkState} (h : a.Queues s.link) :
    a.Queues (fareTick s).link := by
  unfold fareTick; repeat' split
  all_goals simp [h]

@[simp] theorem surchargeLookup_queues (s : State) {a : LinkState} (h : a.Queues s.link) :
    a.Queues (surchargeLookup s).link := by
  unfold surchargeLookup; split <;> (try split) <;> simp [h]

@[simp] theorem fareTariffChange_queues (s : State) {a : LinkState} (h : a.Queues s.link) :
    a.Queues (fareTariffChange s).link := by
  simp [fareTariffChange, h]

@[simp] theorem addExtra_queues (item amount : Nat) (s : State) {a : LinkState} (h : a.Queues s.link) :
    a.Queues (addExtra item amount s).link := by
  unfold addExtra; split <;> simp [h]

@[simp] theorem selectionEvents_queues (r : SelectionResult) (s : State) {a : LinkState} (h : a.Queues s.link) :
    a.Queues (selectionEvents r s).link := by
  simp [selectionEvents, h]

@[simp] theorem addPeriod_queues (s : State) {a : LinkState} (h : a.Queues s.link) :
    a.Queues (addPeriod s).link := by
  unfold addPeriod; repeat' split
  all_goals simp [h]

@[simp] theorem changeTariff_queues (t : Nat) (s : State) {a : LinkState} (h : a.Queues s.link) :
    a.Queues (changeTariff t s).link := by
  simp (maxDischargeDepth := 16) [changeTariff, h]

@[simp] theorem runForTrip_queues (s : State) {a : LinkState} (h : a.Queues s.link) :
    a.Queues (runForTrip s).link := by
  unfold runForTrip; dsimp only; repeat' split
  all_goals simp [h]

@[simp] theorem selectionOccasion_queues (s : State) {a : LinkState} (h : a.Queues s.link) :
    a.Queues (selectionOccasion s).link := by
  unfold selectionOccasion; split <;> simp [h]

@[simp] theorem signAfterTable_queues (table : Nat) (s : State) {a : LinkState} (h : a.Queues s.link) :
    a.Queues (signAfterTable table s).link := by
  unfold signAfterTable; split <;> simp [h]

@[simp] theorem takeTableWrite_queues (src : Station) (payload : List Byte) (s : State) {a : LinkState} (h : a.Queues s.link) :
    a.Queues (takeTableWrite src payload s).link := by
  unfold takeTableWrite; split <;> simp [h]

@[simp] theorem takeTableClear_queues (src : Station) (payload : List Byte) (s : State) {a : LinkState} (h : a.Queues s.link) :
    a.Queues (takeTableClear src payload s).link := by
  unfold takeTableClear; dsimp only; repeat' split
  all_goals simp [h]

@[simp] theorem takeTableRead_queues (src : Station) (payload : List Byte) (s : State) {a : LinkState} (h : a.Queues s.link) :
    a.Queues (takeTableRead src payload s).link := by
  unfold takeTableRead; dsimp only; repeat' split
  all_goals simp [h]

@[simp] theorem performActivation_queues (version : Nat) (s : State) {a : LinkState} (h : a.Queues s.link) :
    a.Queues (performActivation version s).link := by
  simp [performActivation, h]

@[simp] theorem activationAtClose_queues (s : State) {a : LinkState} (h : a.Queues s.link) :
    a.Queues (activationAtClose s).link := by
  unfold activationAtClose; split <;> simp [h]

@[simp] theorem takeTableActivate_queues (src : Station) (payload : List Byte) (s : State) {a : LinkState} (h : a.Queues s.link) :
    a.Queues (takeTableActivate src payload s).link := by
  unfold takeTableActivate; dsimp only; repeat' split
  all_goals simp [h]

@[simp] theorem setMeter_queues (m : MeterState) (s : State) {a : LinkState} (h : a.Queues s.link) :
    a.Queues (setMeter m s).link := by
  simp (maxDischargeDepth := 16) [setMeter, h]

@[simp] theorem offerDue_queues (s : State) {a : LinkState} (h : a.Queues s.link) :
    a.Queues (offerDue s).link := by
  unfold offerDue; split <;> (try split) <;> simp [h]

@[simp] theorem offerEnded_queues (s : State) {a : LinkState} (h : a.Queues s.link) :
    a.Queues (offerEnded s).link := by
  unfold offerEnded; split <;> (try split) <;> simp [h]

@[simp] theorem accountTrip_queues (s : State) {a : LinkState} (h : a.Queues s.link) :
    a.Queues (accountTrip s).link := by
  unfold accountTrip; split <;> simp [h]

@[simp] theorem endTrip_queues (s : State) {a : LinkState} (h : a.Queues s.link) :
    a.Queues (endTrip s).link := by
  simp [endTrip, h]

@[simp] theorem closeTrip_queues (s : State) {a : LinkState} (h : a.Queues s.link) :
    a.Queues (closeTrip s).link := by
  simp (maxDischargeDepth := 16) [closeTrip, h]

@[simp] theorem recordTender_queues (kind : TenderKind) (farePart tip : Nat) (s : State) {a : LinkState} (h : a.Queues s.link) :
    a.Queues (recordTender kind farePart tip s).link := by
  unfold recordTender; split <;> (try split) <;> simp [h]

@[simp] theorem openTrip_queues (t key : Nat) (s : State) {a : LinkState} (h : a.Queues s.link) :
    a.Queues (openTrip t key s).link := by
  simp (maxDischargeDepth := 16) [openTrip, h]

@[simp] theorem keyHire_queues (src : Station) (arg : Byte) (s : State) {a : LinkState} (h : a.Queues s.link) :
    a.Queues (keyHire src arg s).link := by
  unfold keyHire; dsimp only; (repeat' split) <;> simp (maxDischargeDepth := 16) [h]

@[simp] theorem keyStop_queues (src : Station) (arg : Byte) (s : State) {a : LinkState} (h : a.Queues s.link) :
    a.Queues (keyStop src arg s).link := by
  unfold keyStop withNoArgument; dsimp only; (repeat' split) <;> simp (maxDischargeDepth := 16) [h]

@[simp] theorem keyResume_queues (src : Station) (arg : Byte) (s : State) {a : LinkState} (h : a.Queues s.link) :
    a.Queues (keyResume src arg s).link := by
  unfold keyResume withNoArgument; dsimp only; (repeat' split) <;> simp (maxDischargeDepth := 16) [h]

@[simp] theorem keyTender_queues (kind : TenderKind) (src : Station) (s : State) {a : LinkState} (h : a.Queues s.link) :
    a.Queues (keyTender kind src s).link := by
  unfold keyTender; split <;> (try split) <;> simp [h]

@[simp] theorem keyCash_queues (src : Station) (arg : Byte) (s : State) {a : LinkState} (h : a.Queues s.link) :
    a.Queues (keyCash src arg s).link := by
  unfold keyCash withNoArgument; split <;> simp [h]

@[simp] theorem keyUnpaid_queues (src : Station) (arg : Byte) (s : State) {a : LinkState} (h : a.Queues s.link) :
    a.Queues (keyUnpaid src arg s).link := by
  unfold keyUnpaid withNoArgument; split <;> simp [h]

@[simp] theorem keyPrompt_queues (src : Station) (arg : Byte) (s : State) {a : LinkState} (h : a.Queues s.link) :
    a.Queues (keyPrompt src arg s).link := by
  unfold keyPrompt withNoArgument; dsimp only; (repeat' split) <;> simp [h]

@[simp] theorem keyMove_queues (old new : MeterState) (src : Station) (arg : Byte) (s : State) {a : LinkState} (h : a.Queues s.link) :
    a.Queues (keyMove old new src arg s).link := by
  unfold keyMove withNoArgument; dsimp only; (repeat' split) <;> simp [h]

@[simp] theorem keyOnCall_queues (src : Station) (arg : Byte) (s : State) {a : LinkState} (h : a.Queues s.link) :
    a.Queues (keyOnCall src arg s).link := by
  simp [keyOnCall, h]

@[simp] theorem keyCancelCall_queues (src : Station) (arg : Byte) (s : State) {a : LinkState} (h : a.Queues s.link) :
    a.Queues (keyCancelCall src arg s).link := by
  simp [keyCancelCall, h]

@[simp] theorem keyOffDuty_queues (src : Station) (arg : Byte) (s : State) {a : LinkState} (h : a.Queues s.link) :
    a.Queues (keyOffDuty src arg s).link := by
  simp [keyOffDuty, h]

@[simp] theorem keyOnDuty_queues (src : Station) (arg : Byte) (s : State) {a : LinkState} (h : a.Queues s.link) :
    a.Queues (keyOnDuty src arg s).link := by
  simp [keyOnDuty, h]

@[simp] theorem extraCapped_queues (s : State) {a : LinkState} (h : a.Queues s.link) :
    a.Queues (extraCapped s).link := by
  simp [extraCapped, h]

@[simp] theorem dueIfRaised_queues (before : Trip) (s : State) {a : LinkState} (h : a.Queues s.link) :
    a.Queues (dueIfRaised before s).link := by
  unfold dueIfRaised; split <;> (try split) <;> simp [h]

@[simp] theorem keyExtra_queues (src : Station) (arg : Byte) (s : State) {a : LinkState} (h : a.Queues s.link) :
    a.Queues (keyExtra src arg s).link := by
  unfold keyExtra; dsimp only; (repeat' split) <;> simp (maxDischargeDepth := 16) [h]

@[simp] theorem keyPassengers_queues (src : Station) (arg : Byte) (s : State) {a : LinkState} (h : a.Queues s.link) :
    a.Queues (keyPassengers src arg s).link := by
  unfold keyPassengers; dsimp only; (repeat' split) <;> simp (maxDischargeDepth := 16) [h]

@[simp] theorem keyLuggage_queues (src : Station) (arg : Byte) (s : State) {a : LinkState} (h : a.Queues s.link) :
    a.Queues (keyLuggage src arg s).link := by
  unfold keyLuggage; dsimp only; repeat' split
  all_goals simp [h]

@[simp] theorem keyTalk_queues (f : IntercomState → IntercomState) (src : Station) (s : State) {a : LinkState} (h : a.Queues s.link) :
    a.Queues (keyTalk f src s).link := by
  simp [keyTalk, h]

@[simp] theorem keyTalkDown_queues (src : Station) (arg : Byte) (s : State) {a : LinkState} (h : a.Queues s.link) :
    a.Queues (keyTalkDown src arg s).link := by
  unfold keyTalkDown withNoArgument; split <;> simp [h]

@[simp] theorem keyTalkUp_queues (src : Station) (arg : Byte) (s : State) {a : LinkState} (h : a.Queues s.link) :
    a.Queues (keyTalkUp src arg s).link := by
  unfold keyTalkUp withNoArgument; split <;> simp [h]

@[simp] theorem keyOpenToggle_queues (src : Station) (arg : Byte) (s : State) {a : LinkState} (h : a.Queues s.link) :
    a.Queues (keyOpenToggle src arg s).link := by
  unfold keyOpenToggle withNoArgument; dsimp only; (repeat' split) <;> simp [h]

@[simp] theorem takeKey_queues (src : Station) (payload : List Byte) (s : State) {a : LinkState} (h : a.Queues s.link) :
    a.Queues (takeKey src payload s).link := by
  unfold takeKey; split <;> (try split) <;> simp [h]

@[simp] theorem takeShiftOpen_queues (src : Station) (payload : List Byte) (s : State) {a : LinkState} (h : a.Queues s.link) :
    a.Queues (takeShiftOpen src payload s).link := by
  unfold takeShiftOpen; dsimp only; repeat' split
  all_goals simp [h]

@[simp] theorem takeShiftClose_queues (src : Station) (payload : List Byte) (s : State) {a : LinkState} (h : a.Queues s.link) :
    a.Queues (takeShiftClose src payload s).link := by
  unfold takeShiftClose; repeat' split
  all_goals simp [h]

@[simp] theorem takeDispatch_queues (src : Station) (payload : List Byte) (s : State) {a : LinkState} (h : a.Queues s.link) :
    a.Queues (takeDispatch src payload s).link := by
  unfold takeDispatch; split <;> (try split) <;> simp [h]

@[simp] theorem captureCheck_queues (s : State) {a : LinkState} (h : a.Queues s.link) :
    a.Queues (captureCheck s).link := by
  unfold captureCheck; split <;> (try split) <;> simp [h]

@[simp] theorem onlineBegins_queues (s : State) {a : LinkState} (h : a.Queues s.link) :
    a.Queues (onlineBegins s).link := by
  unfold onlineBegins; split <;> simp [h]

@[simp] theorem onlineAfter_queues (before : State) (s : State) {a : LinkState} (h : a.Queues s.link) :
    a.Queues (onlineAfter before s).link := by
  unfold onlineAfter; split <;> simp [h]

@[simp] theorem modemStatusTaken_queues (up : Bool) (s : State) {a : LinkState} (h : a.Queues s.link) :
    a.Queues (modemStatusTaken up s).link := by
  simp [modemStatusTaken, h]

@[simp] theorem captureWaitEnds_queues (s : State) {a : LinkState} (h : a.Queues s.link) :
    a.Queues (captureWaitEnds s).link := by
  unfold captureWaitEnds; split <;> simp [h]

@[simp] theorem captureSecond_queues (s : State) {a : LinkState} (h : a.Queues s.link) :
    a.Queues (captureSecond s).link := by
  unfold captureSecond; split <;> (try split) <;> simp [h]

@[simp] theorem offlineApprove_queues (ref : Reference) (issuer cls farePart tip : Nat) (token : List Byte) (s : State) {a : LinkState} (h : a.Queues s.link) :
    a.Queues (offlineApprove ref issuer cls farePart tip token s).link := by
  simp [offlineApprove, h]

@[simp] theorem offerPayResult_queues (number : Nat) (ref : Reference) (o : PayOutcome) (farePart tip remaining : Nat) (s : State) {a : LinkState} (h : a.Queues s.link) :
    a.Queues (offerPayResult number ref o farePart tip remaining s).link := by
  simp [offerPayResult, h]

@[simp] theorem payFails_queues (number : Nat) (ref : Reference) (o : PayOutcome) (farePart tip : Nat) (s : State) {a : LinkState} (h : a.Queues s.link) :
    a.Queues (payFails number ref o farePart tip s).link := by
  simp [payFails, h]

@[simp] theorem paySucceeds_queues (number : Nat) (ref : Reference) (o : PayOutcome) (kind : TenderKind) (farePart tip : Nat) (s : State) {a : LinkState} (h : a.Queues s.link) :
    a.Queues (paySucceeds number ref o kind farePart tip s).link := by
  simp [paySucceeds, h]

@[simp] theorem offerVoid_queues (number : Nat) (ref : Reference) (farePart tip : Nat) (s : State) {a : LinkState} (h : a.Queues s.link) :
    a.Queues (offerVoid number ref farePart tip s).link := by
  simp [offerVoid, h]

@[simp] theorem resolveDeferred_queues (ref : Reference) (s : State) {a : LinkState} (h : a.Queues s.link) :
    a.Queues (resolveDeferred ref s).link := by
  unfold resolveDeferred; split <;> simp [h]

@[simp] theorem resolveLate_queues (e : LateEntry) (approved : Bool) (s : State) {a : LinkState} (h : a.Queues s.link) :
    a.Queues (resolveLate e approved s).link := by
  unfold resolveLate; split <;> (try split) <;> simp [h]

@[simp] theorem authExpires_queues (s : State) {a : LinkState} (h : a.Queues s.link) :
    a.Queues (authExpires s).link := by
  unfold authExpires; dsimp only; (repeat' split) <;> simp (maxDischargeDepth := 16) [h]

@[simp] theorem authSecond_queues (s : State) {a : LinkState} (h : a.Queues s.link) :
    a.Queues (authSecond s).link := by
  unfold authSecond; split <;> (try split) <;> simp [h]

@[simp] theorem authResponseTaken_queues (number : Nat) (ref : Reference) (approved : Bool) (s : State) {a : LinkState} (h : a.Queues s.link) :
    a.Queues (authResponseTaken number ref approved s).link := by
  unfold authResponseTaken; dsimp only; repeat' split
  all_goals simp [h]

@[simp] theorem captureResponseTaken_queues (ref : Reference) (accepted : Bool) (s : State) {a : LinkState} (h : a.Queues s.link) :
    a.Queues (captureResponseTaken ref accepted s).link := by
  unfold captureResponseTaken; repeat' split
  all_goals simp [h]

@[simp] theorem payOnline_queues (src : Station) (tr : Trip) (f : PayFields) (s : State) {a : LinkState} (h : a.Queues s.link) :
    a.Queues (payOnline src tr f s).link := by
  simp [payOnline, h]

@[simp] theorem payOffline_queues (src : Station) (tr : Trip) (f : PayFields) (s : State) {a : LinkState} (h : a.Queues s.link) :
    a.Queues (payOffline src tr f s).link := by
  unfold payOffline; dsimp only; (repeat' split) <;> simp (maxDischargeDepth := 16) [h]

@[simp] theorem takePayRequest_queues (src : Station) (payload : List Byte) (s : State) {a : LinkState} (h : a.Queues s.link) :
    a.Queues (takePayRequest src payload s).link := by
  unfold takePayRequest; repeat' split
  all_goals simp [h]

@[simp] theorem takePayCancel_queues (src : Station) (payload : List Byte) (s : State) {a : LinkState} (h : a.Queues s.link) :
    a.Queues (takePayCancel src payload s).link := by
  unfold takePayCancel; repeat' split
  all_goals simp [h]

@[simp] theorem takeDeferredRead_queues (src : Station) (payload : List Byte) (s : State) {a : LinkState} (h : a.Queues s.link) :
    a.Queues (takeDeferredRead src payload s).link := by
  unfold takeDeferredRead; dsimp only; split <;> simp [h]

@[simp] theorem emptyPending_queues (src : Station) (s : State) {a : LinkState} (h : a.Queues s.link) :
    a.Queues (emptyPending src s).link := by
  unfold emptyPending; split <;> (try split) <;> simp [h]

@[simp] theorem takeStatusRead_queues (src : Station) (payload : List Byte) (s : State) {a : LinkState} (h : a.Queues s.link) :
    a.Queues (takeStatusRead src payload s).link := by
  unfold takeStatusRead; split <;> (try split) <;> simp [h]

@[simp] theorem takeNoticeMask_queues (src : Station) (payload : List Byte) (s : State) {a : LinkState} (h : a.Queues s.link) :
    a.Queues (takeNoticeMask src payload s).link := by
  unfold takeNoticeMask; dsimp only; repeat' split
  all_goals simp [h]

@[simp] theorem takeFlagsClear_queues (src : Station) (payload : List Byte) (s : State) {a : LinkState} (h : a.Queues s.link) :
    a.Queues (takeFlagsClear src payload s).link := by
  unfold takeFlagsClear; split <;> simp [h]

@[simp] theorem takeCalibrate_queues (src : Station) (payload : List Byte) (s : State) {a : LinkState} (h : a.Queues s.link) :
    a.Queues (takeCalibrate src payload s).link := by
  unfold takeCalibrate; dsimp only; repeat' split
  all_goals simp [h]

@[simp] theorem takeClockSet_queues (src : Station) (payload : List Byte) (s : State) {a : LinkState} (h : a.Queues s.link) :
    a.Queues (takeClockSet src payload s).link := by
  unfold takeClockSet; dsimp only; repeat' split
  all_goals simp [h]

@[simp] theorem zoneUpdateTaken_queues (zone : Nat) (s : State) {a : LinkState} (h : a.Queues s.link) :
    a.Queues (zoneUpdateTaken zone s).link := by
  unfold zoneUpdateTaken; split <;> simp [h]

@[simp] theorem takeEmergencyClear_queues (src : Station) (payload : List Byte) (s : State) {a : LinkState} (h : a.Queues s.link) :
    a.Queues (takeEmergencyClear src payload s).link := by
  unfold takeEmergencyClear; split <;> (try split) <;> simp [h]

@[simp] theorem takeJournalRead_queues (src : Station) (payload : List Byte) (s : State) {a : LinkState} (h : a.Queues s.link) :
    a.Queues (takeJournalRead src payload s).link := by
  unfold takeJournalRead; dsimp only; repeat' split
  all_goals simp [h]

@[simp] theorem takeReportRead_queues (src : Station) (payload : List Byte) (s : State) {a : LinkState} (h : a.Queues s.link) :
    a.Queues (takeReportRead src payload s).link := by
  unfold takeReportRead; dsimp only; repeat' split
  all_goals simp [h]

@[simp] theorem takeReportRelease_queues (src : Station) (payload : List Byte) (s : State) {a : LinkState} (h : a.Queues s.link) :
    a.Queues (takeReportRelease src payload s).link := by
  unfold takeReportRelease; repeat' split
  all_goals simp [h]

@[simp] theorem takeSnapshotTake_queues (src : Station) (payload : List Byte) (s : State) {a : LinkState} (h : a.Queues s.link) :
    a.Queues (takeSnapshotTake src payload s).link := by
  unfold takeSnapshotTake; split <;> (try split) <;> simp [h]

@[simp] theorem takeSnapshotRead_queues (src : Station) (payload : List Byte) (s : State) {a : LinkState} (h : a.Queues s.link) :
    a.Queues (takeSnapshotRead src payload s).link := by
  unfold takeSnapshotRead; dsimp only; repeat' split
  all_goals simp [h]

@[simp] theorem takeSnapshotRelease_queues (src : Station) (payload : List Byte) (s : State) {a : LinkState} (h : a.Queues s.link) :
    a.Queues (takeSnapshotRelease src payload s).link := by
  unfold takeSnapshotRelease; split <;> (try split) <;> simp [h]

@[simp] theorem talkDownTaken_queues (src : Station) (s : State) {a : LinkState} (h : a.Queues s.link) :
    a.Queues (talkDownTaken src s).link := by
  unfold talkDownTaken; split <;> simp [h]

@[simp] theorem takeReport_queues (src : Station) (kind : ReportKind) (payload : List Byte) (s : State) {a : LinkState} (h : a.Queues s.link) :
    a.Queues (takeReport src kind payload s).link := by
  unfold takeReport; split <;> simp [h]

@[simp] theorem takeRequest_queues (src : Station) (kind : Request) (payload : List Byte) (s : State) {a : LinkState} (h : a.Queues s.link) :
    a.Queues (takeRequest src kind payload s).link := by
  unfold takeRequest; split <;> simp [h]

@[simp] theorem handleMessage_queues (m : Inbound) (s : State) {a : LinkState} (h : a.Queues s.link) :
    a.Queues (handleMessage m s).link := by
  unfold handleMessage; split <;> (try split) <;> simp [h]

@[simp] theorem pulseArrives_queues (s : State) {a : LinkState} (h : a.Queues s.link) :
    a.Queues (pulseArrives s).link := by
  unfold pulseArrives; repeat' split
  all_goals simp [h]

@[simp] theorem hiredSecond_queues (s : State) {a : LinkState} (h : a.Queues s.link) :
    a.Queues (hiredSecond s).link := by
  unfold hiredSecond; split <;> simp [h]

@[simp] theorem signSecond_queues (s : State) {a : LinkState} (h : a.Queues s.link) :
    a.Queues (signSecond s).link := by
  simp [signSecond, h]

@[simp] theorem intercomSecond_queues (s : State) {a : LinkState} (h : a.Queues s.link) :
    a.Queues (intercomSecond s).link := by
  simp [intercomSecond, h]

@[simp] theorem paymentSecond_queues (s : State) {a : LinkState} (h : a.Queues s.link) :
    a.Queues (paymentSecond s).link := by
  simp [paymentSecond, h]

@[simp] theorem fareSecondOccurs_queues (s : State) {a : LinkState} (h : a.Queues s.link) :
    a.Queues (fareSecondOccurs s).link := by
  simp (maxDischargeDepth := 16) [fareSecondOccurs, h]

@[simp] theorem countTick_queues (s : State) {a : LinkState} (h : a.Queues s.link) :
    a.Queues (countTick s).link := by
  unfold countTick; split <;> simp [h]

@[simp] theorem tickOccurs_queues (s : State) {a : LinkState} (h : a.Queues s.link) :
    a.Queues (tickOccurs s).link := by
  simp (maxDischargeDepth := 16) [tickOccurs, h]

@[simp] theorem countFrame_queues (s : State) {a : LinkState} (h : a.Queues s.link) :
    a.Queues (countFrame s).link := by
  unfold countFrame; split <;> simp [h]

@[simp] theorem boundaryFires_queues (s : State) {a : LinkState} (h : a.Queues s.link) :
    a.Queues (boundaryFires s).link := by
  simp [boundaryFires, h]

@[simp] theorem clockSecondRunning_queues (s : State) {a : LinkState} (h : a.Queues s.link) :
    a.Queues (clockSecondRunning s).link := by
  unfold clockSecondRunning; dsimp only; split <;> simp [h]

@[simp] theorem stationFoundActs_queues (st : Station) (s : State) {a : LinkState} (h : a.Queues s.link) :
    a.Queues (stationFoundActs st s).link := by
  unfold stationFoundActs; split <;> simp [h]

@[simp] theorem stationLostActs_queues (st : Station) (s : State) {a : LinkState} (h : a.Queues s.link) :
    a.Queues (stationLostActs st s).link := by
  unfold stationLostActs; split <;> simp [h]

@[simp] theorem startMessages_queues (s : State) {a : LinkState} (h : a.Queues s.link) :
    a.Queues (startMessages s).link := by
  simp [startMessages, h]

@[simp] theorem powerBreak_queues (s : State) {a : LinkState} (h : a.Queues s.link) :
    a.Queues (powerBreak s).link := by
  unfold powerBreak; split <;> simp [h]

@[simp] theorem sideExpires_queues (side : Side) (s : State) {a : LinkState} (h : a.Queues s.link) :
    a.Queues (sideExpires side s).link := by
  unfold sideExpires; repeat' split
  all_goals simp [h]

@[simp] theorem debounceCompletes_queues (s : State) {a : LinkState} (h : a.Queues s.link) :
    a.Queues (debounceCompletes s).link := by
  unfold debounceCompletes; split <;> simp [h]

end Sys2Proof.Machine
end

