-- ==== Sys2Proof/Laws/Events.lean ====
section
/-! SUPPORT. What an offer, a REPLY, a refresh and an occurrence of an event do, said once. -/

namespace Sys2Proof.Machine

/-! Queued composes. -/

theorem LinkState.Queued.refl {a : LinkState} (h : a.orderly) : a.Queued a [] := by simp [Queued, h]

theorem LinkState.Queued.trans {a b c : LinkState} {ms ns : List Outbound} (h : a.Queued b ms) (k : b.Queued c ns) :
    a.Queued c (ms ++ ns) := by
  obtain ⟨h1, h2, h3⟩ := h
  obtain ⟨k1, k2, k3⟩ := k
  exact ⟨by simp [k1, h1], k2, by rw [k3, h3]⟩

theorem LinkState.Queued.ordered {a b : LinkState} {ms : List Outbound} (h : a.Queued b ms) : b.orderly := h.2.1

theorem State.Ready.orderly {s : State} (h : s.Ready) : s.link.orderly :=
  ⟨Nat.le_of_lt h.room, by simp [h.held]⟩

/-- What a step that offers messages leaves of the link. -/
theorem LinkState.Queued.keeps {a b : LinkState} {ms : List Outbound} (h : a.Queued b ms) :
    b.stations = a.stations ∧ b.grantPointer = a.grantPointer ∧ b.rotation = a.rotation ∧
      b.frameNumber = a.frameNumber ∧ b.reception = a.reception ∧ b.inbound = a.inbound ∧ b.sending = a.sending ∧
      b.mixed = a.mixed ∧ b.lastFrame = a.lastFrame := by
  rw [h.2.2]; simp

/-! Replies. -/

theorem reply_queued (dest : Station) (kind : Byte) (r : Result) (data : List Byte) (s : State) (h : s.link.orderly) :
    s.link.Queued (reply dest kind r data s).link [replyMessage dest kind r data] := offer_queued _ s h

/-- With a free place the REPLY joins the tail of the outbound queue and nothing else changes (02 R23). -/
theorem reply_answered (dest : Station) (kind : Byte) (r : Result) (data : List Byte) (s : State) (h : s.Ready) :
    reply dest kind r data s = s.answered dest kind r data := by
  simp [reply, offer, h.room, State.answered, replyMessage]

theorem refuse_answered (dest : Station) (kind : Byte) (r : Result) (s : State) (h : s.Ready) :
    refuse dest kind r s = s.answered dest kind r [] := reply_answered dest kind r [] s h

@[simp] theorem State.answered_keeps (s : State) (dest : Station) (kind : Byte) (r : Result) (data : List Byte) :
    (s.answered dest kind r data).pending = s.pending ∧ (s.answered dest kind r data).running = s.running ∧
    (s.answered dest kind r data).emgLine = s.emgLine ∧ (s.answered dest kind r data).calLine = s.calLine ∧
    (s.answered dest kind r data).disp = s.disp ∧ (s.answered dest kind r data).tables = s.tables ∧
    (s.answered dest kind r data).time = s.time ∧ (s.answered dest kind r data).meter = s.meter ∧
    (s.answered dest kind r data).trip = s.trip ∧ (s.answered dest kind r data).sign = s.sign ∧
    (s.answered dest kind r data).intercom = s.intercom ∧ (s.answered dest kind r data).pay = s.pay ∧
    (s.answered dest kind r data).shifts = s.shifts := by
  simp [State.answered]

/-! Occurrences. -/

theorem Event.isIn_only (e : Event) : e.isIn e.only = true := by cases e <;> decide

theorem notifyHead_link (e : Event) (s : State) (h : s.link.orderly) :
    s.link.Queued (notifyHead e s).link
      (if e.isIn s.disp.headMask && s.disp.headPending = 0#24 then [⟨.meterHead, kindNotice, eventSetBytes e.only⟩]
        else []) := by
  unfold notifyHead
  by_cases hm : e.isIn s.disp.headMask
  · by_cases hp : s.disp.headPending = 0#24
    · have q := offer_queued ⟨.meterHead, kindNotice, eventSetBytes e.only⟩
        { s with disp := { s.disp with headPending := e.only } } h
      simp only [hm, hp, BitVec.zero_or, if_true, decide_true, Bool.and_self]
      split
      · simpa using q.trans (placeDisplay_queued _ q.ordered)
      · simpa using q
    · simp only [hm, hp, if_true, if_false, decide_false, Bool.and_false, Bool.false_eq_true]
      split
      · exact placeDisplay_queued _ h
      · exact .refl h
  · simp [hm, LinkState.Queued.refl h]

theorem notifyModem_link (e : Event) (s : State) (h : s.link.orderly) :
    s.link.Queued (notifyModem e s).link
      (if e.isIn s.disp.modemMask && s.disp.modemPending = 0#24 then
        [⟨.fleetModem, kindNotice, eventSetBytes e.only⟩] else []) := by
  unfold notifyModem
  by_cases hm : e.isIn s.disp.modemMask
  · by_cases hp : s.disp.modemPending = 0#24
    · simpa [hm, hp] using offer_queued ⟨.fleetModem, kindNotice, eventSetBytes e.only⟩
        { s with disp := { s.disp with modemPending := e.only } } h
    · simp [hm, hp, LinkState.Queued.refl h]
  · simp [hm, LinkState.Queued.refl h]

theorem notifyHead_disp (e : Event) (s : State) :
    (notifyHead e s).disp =
      { s.disp with headPending := if e.isIn s.disp.headMask then s.disp.headPending ||| e.only else s.disp.headPending } := by
  unfold notifyHead
  by_cases hm : e.isIn s.disp.headMask
  · simp only [hm, if_true]
    split <;> split <;> simp
  · simp [hm]

theorem notifyModem_disp (e : Event) (s : State) :
    (notifyModem e s).disp =
      { s.disp with
        modemPending := if e.isIn s.disp.modemMask then s.disp.modemPending ||| e.only else s.disp.modemPending } := by
  unfold notifyModem
  by_cases hm : e.isIn s.disp.modemMask
  · simp only [hm, if_true]
    split <;> simp
  · simp [hm]

theorem raise_disp (e : Event) (s : State) : (raise e s).disp = s.disp.heard e := by
  simp [raise, notifyModem_disp, notifyHead_disp, DispatcherState.heard]

theorem raise_shifts (e : Event) (s : State) :
    (raise e s).shifts =
      { s.shifts with record := s.shifts.record.map (countEvent (exceptionMap s.tables.unbanked) e) } := by
  simp [raise, withShift]

theorem raise_queued (e : Event) (s : State) (h : s.link.orderly) :
    s.link.Queued (raise e s).link (noticesOf e s.disp) := by
  unfold raise noticesOf
  have q1 := notifyHead_link e
    (withShift (countEvent (exceptionMap s.tables.unbanked) e)
      { s with disp := { s.disp with flags := s.disp.flags ||| e.only } }) (by simpa using h)
  have q2 := notifyModem_link e _ q1.ordered
  simpa [notifyHead_disp] using q1.trans q2

/-- A state is what its parts are: two states that agree in every part are equal. -/
theorem State.ext' {s t : State} (h1 : s.pending = t.pending) (h2 : s.running = t.running) (h3 : s.emgLine = t.emgLine)
    (h4 : s.calLine = t.calLine) (h5 : s.link = t.link) (h6 : s.disp = t.disp) (h7 : s.tables = t.tables)
    (h8 : s.time = t.time) (h9 : s.meter = t.meter) (h10 : s.trip = t.trip) (h11 : s.sign = t.sign)
    (h12 : s.intercom = t.intercom) (h13 : s.pay = t.pay) (h14 : s.shifts = t.shifts) : s = t := by
  cases s; cases t; simp_all

@[simp] theorem countAll_nil (map : Four EventSet) : countAll map [] = id := rfl

@[simp] theorem countAll_one (map : Four EventSet) (e : Event) : countAll map [e] = countEvent map e := rfl

@[simp] theorem DispatcherState.heardAll_one (d : DispatcherState) (e : Event) : d.heardAll [e] = d.heard e := rfl

@[simp] theorem countAll_append (map : Four EventSet) (es fs : List Event) (r : ShiftRecord) :
    countAll map (es ++ fs) r = countAll map fs (countAll map es r) := by simp [countAll]

@[simp] theorem State.shiftsCounted_nil (s : State) : s.shiftsCounted [] = s.shifts := by
  simp [State.shiftsCounted]

@[simp] theorem DispatcherState.heardAll_nil (d : DispatcherState) : d.heardAll [] = d := rfl

@[simp] theorem DispatcherState.heardAll_append (d : DispatcherState) (es fs : List Event) :
    d.heardAll (es ++ fs) = (d.heardAll es).heardAll fs := by simp [DispatcherState.heardAll]

/-- One occurrence of an event (02 R25, R27). -/
theorem raise_occurs (e : Event) (s : State) (h : s.link.orderly) : s.Occurs (raise e s) [] [e] where
  rest := by
    apply State.ext' <;>
      simp [raise_disp, raise_shifts, State.shiftsCounted]
  link := by simpa [noticesAll] using raise_queued e s h

theorem noticesAll_append (es fs : List Event) (d : DispatcherState) :
    noticesAll (es ++ fs) d = noticesAll es d ++ noticesAll fs (d.heardAll es) := by
  induction es generalizing d with
  | nil => rfl
  | cons e es ih => simp [noticesAll, ih, DispatcherState.heardAll]

theorem State.Occurs.orderly {s t : State} {ms : List Outbound} {es : List Event} (h : s.Occurs t ms es) :
    t.link.orderly := h.link.ordered

theorem State.Occurs.refl {s : State} (h : s.link.orderly) : s.Occurs s [] [] where
  rest := by
    apply State.ext' <;> simp
  link := by simpa [noticesAll] using LinkState.Queued.refl h

/-- Occurrences after occurrences. -/
theorem State.Occurs.trans {s t u : State} {ms : List Outbound} {es fs : List Event} (h : s.Occurs t ms es)
    (k : t.Occurs u [] fs) : s.Occurs u ms (es ++ fs) where
  rest := by
    rw [k.rest, h.rest]
    apply State.ext' <;> simp [State.shiftsCounted]
    cases s.shifts.record <;> simp
  link := by
    have hd : t.disp = s.disp.heardAll es := by rw [h.rest]
    have := h.link.trans k.link
    simpa [noticesAll_append, hd] using this

/-- Writing the DISPLAY place is no occurrence. -/
theorem placeDisplay_occurs (s : State) (h : s.link.orderly) : s.Occurs (placeDisplay s) [] [] where
  rest := by
    apply State.ext' <;> simp
  link := by simpa [noticesAll] using placeDisplay_queued s h

theorem offer_occurs (m : Outbound) (s : State) (h : s.link.orderly) : s.Occurs (offer m s) [m] [] where
  rest := by
    apply State.ext' <;> simp
  link := by simpa [noticesAll] using offer_queued m s h

theorem reply_occurs (dest : Station) (kind : Byte) (r : Result) (data : List Byte) (s : State) (h : s.link.orderly) :
    s.Occurs (reply dest kind r data s) [replyMessage dest kind r data] [] := offer_occurs _ s h

@[simp] theorem placeDisplay_shows (s : State) : (placeDisplay s).Shows := rfl

end Sys2Proof.Machine
end

