-- ==== Sys2Proof/Laws/Commands.lean ====
section
/-! SUPPORT. A message command as the handling of its message, and one step as the front command's meaning. -/

namespace Sys2Proof.Machine

/-- A message that comes while the controller is Ready is handled at once (01 R13, 02 R19). -/
theorem deliver_ready (m : Inbound) (s : State) (h : s.Ready) : deliver m s = handleMessage m s := by
  obtain ⟨_, hi, _, hr⟩ := h
  have hf : inboundFree s.link = true := by
    unfold inboundFree; rw [hi]; split <;> decide
  have hs : ({ s with link := { s.link with inbound := [] } } : State) = s := by rw [← hi]
  simp [deliver, hf, dispatchInbound, joinInbound, hi, drain, hr, hs]

@[simp] theorem sensed_keeps (c : Instr) (s : State) :
    (sensed c s).running = s.running ∧ (sensed c s).link = s.link ∧ (sensed c s).pending = s.pending := by
  cases c <;> simp [sensed]

theorem State.Ready.sensing {s : State} (h : s.Ready) (c : Instr) : (sensed c s).Ready :=
  ⟨by simpa using h.running, by simpa using h.inbound, by simpa using h.held, by simpa using h.room⟩

/-- Every message command is its message delivered while frames run, and nothing otherwise (log 3, 11). -/
theorem exec_deliver (c : Instr) (m : Inbound) (s : State) (h : messageOf c = some m) :
    exec c s = .next (if s.running then deliver m (sensed c s) else sensed c s) := by
  cases c <;> simp only [messageOf, Option.some.injEq, reduceCtorEq] at h <;> subst h <;> rfl

/-- A message command of a Ready controller is the handling of its message. -/
theorem exec_message (c : Instr) (m : Inbound) (s : State) (h : messageOf c = some m) (hr : s.Ready) :
    exec c s = .next (handleMessage m (sensed c s)) := by
  rw [exec_deliver c m s h, if_pos hr.running, deliver_ready m _ (hr.sensing c)]

/-- The front command of the queue acts, with the rest of the queue. -/
theorem step_cons (s : State) (c : Instr) (rest : List Instr) (h : s.pending = c :: rest) :
    step s = exec c { s with pending := rest } := by simp [step, h]

theorem step_nil (s : State) (h : s.pending = []) : step s = .next s := by simp [step, h]

/-- No command faults or is refused. -/
theorem exec_next (c : Instr) (s : State) : ∃ t, exec c s = .next t := by
  cases c <;> exact ⟨_, rfl⟩

end Sys2Proof.Machine
end

