-- ==== Sys2Proof/Laws/Meter.lean ====
section
/-! SUPPORT. A change of meter state and the messages that go with it, said once. -/

namespace Sys2Proof.Machine

theorem signMeterChanged_sign (s : State) : (signMeterChanged s).sign = s.signTold s.meter := by
  unfold signMeterChanged State.signTold
  split <;> simp_all [placeSign, commandedSign]

theorem State.signTold_congr {s t : State} (h1 : s.sign = t.sign) (h2 : s.tables = t.tables) (m : MeterState) :
    s.signTold m = t.signTold m := by simp [State.signTold, h1, h2]

theorem signMeterChanged_queued (s : State) (h : s.link.orderly) : s.link.Queued (signMeterChanged s).link [] := by
  unfold signMeterChanged
  split
  · exact placeSign_queued s h
  · exact .refl h

/-- What the DISPLAY shows does not depend on what the sign's own bookkeeping or the link hold. -/
theorem displayPayload_congr {s t : State} (h1 : s.meter = t.meter) (h2 : s.trip = t.trip) (h3 : s.tables = t.tables)
    (h4 : s.time = t.time) (h5 : s.intercom = t.intercom) (h6 : s.disp.headPending = t.disp.headPending)
    (h7 : s.sign.lampFaults = t.sign.lampFaults) : displayPayload s = displayPayload t := by
  simp [displayPayload, shownLabel, shownAmounts, shownExtras, openFlagNow, h1, h2, h3, h4, h5, h6, h7]

@[simp] theorem placeSign_displayPlace (s : State) : (placeSign s).link.displayPlace = s.link.displayPlace := rfl

@[simp] theorem placeDisplay_signPlace (s : State) : (placeDisplay s).link.signPlace = s.link.signPlace := rfl

@[simp] theorem offer_places (m : Outbound) (s : State) :
    (offer m s).link.signPlace = s.link.signPlace ∧ (offer m s).link.displayPlace = s.link.displayPlace := by
  unfold offer; split <;> simp

@[simp] theorem notifyHead_signPlace (e : Event) (s : State) :
    (notifyHead e s).link.signPlace = s.link.signPlace := by
  unfold notifyHead; dsimp only; repeat' split
  all_goals simp

@[simp] theorem notifyModem_places (e : Event) (s : State) :
    (notifyModem e s).link.signPlace = s.link.signPlace ∧
      (notifyModem e s).link.displayPlace = s.link.displayPlace := by
  unfold notifyModem; dsimp only; repeat' split
  all_goals simp

@[simp] theorem raise_signPlace (e : Event) (s : State) : (raise e s).link.signPlace = s.link.signPlace := by
  simp [raise]

theorem signMeterChanged_shows (s : State) (h : s.Shows) : (signMeterChanged s).Shows := by
  unfold signMeterChanged
  split
  · unfold State.Shows at h ⊢
    rw [placeSign_displayPlace, h]
    rw [displayPayload_congr (s := s) (t := placeSign s)] <;> simp [placeSign]
  · exact h

theorem placeSign_signs (s : State) : (placeSign s).Signs :=
  ⟨_, by simp [placeSign, commandedSign]; rfl⟩

/-- A change of meter state: the state, STATE CHANGE, a DISPLAY, and the sign controller told (07 R106, 08 R126). -/
theorem setMeter_occurs (m : MeterState) (s : State) (h : s.link.orderly) :
    ({ s with meter := m, sign := s.signTold m } : State).Occurs (setMeter m s) [] [.stateChange] where
  rest := by
    apply State.ext' <;>
      simp [setMeter, raise_disp, raise_shifts, State.shiftsCounted, signMeterChanged_sign]
    exact State.signTold_congr (by simp) (by simp) m
  link := by
    have q1 := raise_queued .stateChange { s with meter := m } h
    have q2 := placeDisplay_queued _ q1.ordered
    have q3 := signMeterChanged_queued _ q2.ordered
    simpa [setMeter, noticesAll] using (q1.trans q2).trans q3

theorem setMeter_shows (m : MeterState) (s : State) : (setMeter m s).Shows :=
  signMeterChanged_shows _ (placeDisplay_shows _)

theorem setMeter_signs (m : MeterState) (s : State) (h : s.sign.emergency = none) : (setMeter m s).Signs := by
  unfold setMeter signMeterChanged
  simp [h, placeSign_signs]

theorem setMeter_signPlace (m : MeterState) (s : State) (h : s.sign.emergency ≠ none) :
    (setMeter m s).link.signPlace = s.link.signPlace := by
  unfold setMeter signMeterChanged
  split <;> simp_all

@[simp] theorem setMeter_meter (m : MeterState) (s : State) : (setMeter m s).meter = m := by simp [setMeter]

end Sys2Proof.Machine
end

