-- ==== Sys2Proof/Laws/Sends.lean ====
section
/-! SUPPORT. How a handling is put together: each operation added to a handling, and what the handling then is. -/

namespace Sys2Proof.Machine

variable {s t u : State} {es fs : List Event} {ms ns : List Outbound}

/-! The two forms agree. -/

theorem State.Occurs.sends (h : s.Occurs t ms es) : s.Sends t es (ms ++ noticesAll es s.disp) := ⟨h.rest, h.link⟩

theorem State.Sends.occurs (h : s.Sends t es (ms ++ noticesAll es s.disp)) : s.Occurs t ms es := ⟨h.rest, h.link⟩

theorem State.Sends.refl (h : s.link.orderly) : s.Sends s [] [] := (State.Occurs.refl h).sends

theorem State.Sends.orderly (h : s.Sends t es ms) : t.link.orderly := h.link.ordered

/-- What a handling leaves of the parts it does not name. -/
theorem State.Sends.keeps (h : s.Sends t es ms) :
    t.pending = s.pending ∧ t.running = s.running ∧ t.emgLine = s.emgLine ∧ t.calLine = s.calLine ∧
      t.disp = s.disp.heardAll es ∧ t.tables = s.tables ∧ t.time = s.time ∧ t.meter = s.meter ∧ t.trip = s.trip ∧
      t.sign = s.sign ∧ t.intercom = s.intercom ∧ t.pay = s.pay ∧ t.shifts = s.shiftsCounted es := by
  have r := h.rest
  generalize t.link = l at r
  subst r
  simp

/-- A handling after a handling. -/
theorem State.Sends.trans (h : s.Sends t es ms) (k : t.Sends u fs ns) : s.Sends u (es ++ fs) (ms ++ ns) where
  rest := by
    have hk := h.keeps
    have kk := k.keeps
    apply State.ext' <;> simp [hk, kk, State.shiftsCounted]
    cases s.shifts.record <;> simp
  link := h.link.trans k.link

/-! One operation more. -/

theorem State.Sends.display (h : s.Sends t es ms) : s.Sends (placeDisplay t) es ms := by
  simpa [noticesAll] using h.trans (placeDisplay_occurs t h.orderly).sends

theorem State.Sends.offered (h : s.Sends t es ms) (m : Outbound) : s.Sends (offer m t) es (ms ++ [m]) := by
  simpa [noticesAll] using h.trans (offer_occurs m t h.orderly).sends

theorem State.Sends.replied (h : s.Sends t es ms) (dest : Station) (kind : Byte) (r : Result) (data : List Byte) :
    s.Sends (reply dest kind r data t) es (ms ++ [replyMessage dest kind r data]) := h.offered _

theorem State.Sends.raised (h : s.Sends t es ms) (e : Event) :
    s.Sends (raise e t) (es ++ [e]) (ms ++ noticesOf e (s.disp.heardAll es)) := by
  have := h.trans (raise_occurs e t h.orderly).sends
  rw [h.keeps.2.2.2.2.1] at this
  simpa [noticesAll] using this

theorem State.Sends.raisedIf (h : s.Sends t es ms) (c : Bool) (e : Event) :
    s.Sends (raiseIf c e t) (es ++ if c then [e] else [])
      (ms ++ if c then noticesOf e (s.disp.heardAll es) else []) := by
  unfold raiseIf; split <;> simp [h, h.raised]

/-! A change of a part, made in the state expected and in the state reached. -/

theorem State.Sends.meter (h : s.Sends t es ms) (x : MeterState) :
    ({ s with meter := x } : State).Sends { t with meter := x } es ms :=
  ⟨by have k := h.keeps; apply State.ext' <;> simp [k, State.shiftsCounted], h.link⟩

theorem State.Sends.trip (h : s.Sends t es ms) (x : Option Trip) :
    ({ s with trip := x } : State).Sends { t with trip := x } es ms :=
  ⟨by have k := h.keeps; apply State.ext' <;> simp [k, State.shiftsCounted], h.link⟩

theorem State.Sends.withTrip (h : s.Sends t es ms) (f : Trip → Trip) :
    ({ s with trip := s.trip.map f } : State).Sends (withTrip f t) es ms := by
  have := h.trip (s.trip.map f)
  unfold Machine.withTrip
  rw [h.keeps.2.2.2.2.2.2.2.2.1]
  exact this

theorem State.Sends.sign (h : s.Sends t es ms) (x : SignState) :
    ({ s with sign := x } : State).Sends { t with sign := x } es ms :=
  ⟨by have k := h.keeps; apply State.ext' <;> simp [k, State.shiftsCounted], h.link⟩

theorem State.Sends.intercom (h : s.Sends t es ms) (x : IntercomState) :
    ({ s with intercom := x } : State).Sends { t with intercom := x } es ms :=
  ⟨by have k := h.keeps; apply State.ext' <;> simp [k, State.shiftsCounted], h.link⟩

theorem State.Sends.pay (h : s.Sends t es ms) (x : PaymentState) :
    ({ s with pay := x } : State).Sends { t with pay := x } es ms :=
  ⟨by have k := h.keeps; apply State.ext' <;> simp [k, State.shiftsCounted], h.link⟩

theorem State.Sends.time (h : s.Sends t es ms) (x : TimeState) :
    ({ s with time := x } : State).Sends { t with time := x } es ms :=
  ⟨by have k := h.keeps; apply State.ext' <;> simp [k, State.shiftsCounted], h.link⟩

/-- The banked tables do not enter the counts of occurrences; the unbanked tables do. -/
theorem State.Sends.tables (h : s.Sends t es ms) (x : TableState) (hx : x.unbanked = s.tables.unbanked) :
    ({ s with tables := x } : State).Sends { t with tables := x } es ms :=
  ⟨by have k := h.keeps; apply State.ext' <;> simp [k, State.shiftsCounted, hx], h.link⟩

/-- Changes of the shift record that leave the counts of occurrences alone come in any order with them. -/
theorem countAll_comm (g : ShiftRecord → ShiftRecord)
    (hg : ∀ map e r, countEvent map e (g r) = g (countEvent map e r)) (map : Four EventSet) (es : List Event)
    (r : ShiftRecord) : countAll map es (g r) = g (countAll map es r) := by
  induction es generalizing r with
  | nil => rfl
  | cons e es ih => simp only [countAll, List.foldl_cons, hg] at *; exact ih _

theorem State.Sends.shift (h : s.Sends t es ms) (g : ShiftRecord → ShiftRecord)
    (hg : ∀ map e r, countEvent map e (g r) = g (countEvent map e r)) :
    ({ s with shifts := { s.shifts with record := s.shifts.record.map g } } : State).Sends (withShift g t) es ms :=
  ⟨by
    have k := h.keeps
    apply State.ext' <;> simp [k, State.shiftsCounted]
    simp only [withShift, k, State.shiftsCounted]
    cases s.shifts.record <;> simp [countAll_comm g hg], by simpa using h.link⟩

/-- A SIGN SET placed: the sign's last legend and refresh count follow (08 R128). -/
theorem State.Sends.signPlaced (h : s.Sends t es ms) :
    ({ s with sign := { s.sign with
      lastLegend := some (signLegend s.tables.unbanked (commandedSign s)).1.toNat, refresh := 0 } } : State).Sends
      (placeSign t) es ms := by
  have k := h.keeps
  refine ⟨?_, ?_⟩
  · apply State.ext' <;> simp [k, State.shiftsCounted, placeSign, commandedSign]
  · simpa using h.link.trans (placeSign_queued t h.orderly)

/-- A change of meter state (07 R106, 08 R126). -/
theorem State.Sends.setMeter (h : s.Sends t es ms) (m : MeterState) :
    ({ s with meter := m, sign := s.signTold m } : State).Sends (setMeter m t) (es ++ [.stateChange])
      (ms ++ noticesOf .stateChange (s.disp.heardAll es)) := by
  have k := h.keeps
  have q := (setMeter_occurs m t h.orderly).sends
  have e : t.signTold m = s.signTold m := State.signTold_congr k.2.2.2.2.2.2.2.2.2.1 k.2.2.2.2.2.1 m
  rw [e] at q
  simpa [noticesAll, k.2.2.2.2.1] using ((h.meter m).sign (s.signTold m)).trans q

end Sys2Proof.Machine
end

