-- ==== Sys2Proof/Laws/State.lean ====
section
/-! SUPPORT. What each small update of the state does to each field, and the laws of the two keyed stores: the station table and
the banks of the table store. -/

namespace Sys2Proof.Machine

/-! The station table. -/

/-- A record read back after it was written. -/
@[simp] theorem StationTable.get_set (t : StationTable) (st : Station) (r : StationRecord) : (t.set st r).get st = r := by
  cases st <;> rfl

/-- A write leaves the other records alone. -/
theorem StationTable.get_set_ne (t : StationTable) {a b : Station} (r : StationRecord) (h : b ≠ a) :
    (t.set a r).get b = t.get b := by
  cases a <;> cases b <;> first | rfl | exact absurd rfl h

/-- Writing back the record that stands changes nothing. -/
@[simp] theorem StationTable.set_get (t : StationTable) (st : Station) : t.set st (t.get st) = t := by cases st <;> rfl

/-- Of two writes of one record the second stands. -/
@[simp] theorem StationTable.set_set (t : StationTable) (st : Station) (q r : StationRecord) :
    (t.set st q).set st r = t.set st r := by cases st <;> rfl

/-! Records that an operation changes. -/

@[simp] theorem withTrip_trip (f : Trip → Trip) (s : State) : (withTrip f s).trip = s.trip.map f := rfl
@[simp] theorem withTrip_meter (f : Trip → Trip) (s : State) : (withTrip f s).meter = s.meter := rfl
@[simp] theorem withTrip_link (f : Trip → Trip) (s : State) : (withTrip f s).link = s.link := rfl
@[simp] theorem withTrip_disp (f : Trip → Trip) (s : State) : (withTrip f s).disp = s.disp := rfl
@[simp] theorem withTrip_shifts (f : Trip → Trip) (s : State) : (withTrip f s).shifts = s.shifts := rfl
@[simp] theorem withShift_record (f : ShiftRecord → ShiftRecord) (s : State) :
    (withShift f s).shifts.record = s.shifts.record.map f := rfl
@[simp] theorem withShift_journal (f : ShiftRecord → ShiftRecord) (s : State) :
    (withShift f s).shifts.journal = s.shifts.journal := rfl
@[simp] theorem withShift_reports (f : ShiftRecord → ShiftRecord) (s : State) :
    (withShift f s).shifts.reports = s.shifts.reports := rfl
@[simp] theorem withShift_snapshot (f : ShiftRecord → ShiftRecord) (s : State) :
    (withShift f s).shifts.snapshot = s.shifts.snapshot := rfl
@[simp] theorem withShift_link (f : ShiftRecord → ShiftRecord) (s : State) : (withShift f s).link = s.link := rfl
@[simp] theorem placeDisplay_outbound (s : State) : (placeDisplay s).link.outbound = s.link.outbound := rfl
@[simp] theorem placeDisplay_held (s : State) : (placeDisplay s).link.held = s.link.held := rfl
@[simp] theorem placeDisplay_inbound (s : State) : (placeDisplay s).link.inbound = s.link.inbound := rfl
@[simp] theorem placeDisplay_stations (s : State) : (placeDisplay s).link.stations = s.link.stations := rfl
@[simp] theorem placeSign_outbound (s : State) : (placeSign s).link.outbound = s.link.outbound := rfl
@[simp] theorem placeSign_held (s : State) : (placeSign s).link.held = s.link.held := rfl
@[simp] theorem placeSign_emergency (s : State) : (placeSign s).sign.emergency = s.sign.emergency := rfl
@[simp] theorem placeSign_level (s : State) : (placeSign s).sign.level = s.sign.level := rfl
@[simp] theorem placeSign_refresh (s : State) : (placeSign s).sign.refresh = 0 := rfl
@[simp] theorem placeSign_debounce (s : State) : (placeSign s).sign.debounce = s.sign.debounce := rfl

/-! The banks. -/

/-- The head of a bank in canonical form has the least key. -/
theorem Bank.wf_head {c : GroupCell} {b : Bank} (h : Bank.wf (c :: b) = true) : ∀ d ∈ b, c.key < d.key := by
  induction b generalizing c with
  | nil => simp
  | cons e es ih =>
    simp only [Bank.wf, Bool.and_eq_true, decide_eq_true_eq] at h
    intro d hd
    rcases List.mem_cons.mp hd with rfl | hd
    · exact h.1
    · exact lt_trans h.1 (ih h.2 d hd)

/-- The rest of a bank in canonical form has it too. -/
theorem Bank.wf_tail {c : GroupCell} {b : Bank} (h : Bank.wf (c :: b) = true) : Bank.wf b = true := by
  cases b with
  | nil => rfl
  | cons e es => simp only [Bank.wf, Bool.and_eq_true] at h; exact h.2

/-- A key below every key of a canonical bank may stand before it. -/
theorem Bank.wf_cons {c : GroupCell} {b : Bank} (h : Bank.wf b = true) (k : ∀ d ∈ b, c.key < d.key) :
    Bank.wf (c :: b) = true := by
  cases b with
  | nil => rfl
  | cons e es => simp only [Bank.wf, Bool.and_eq_true, decide_eq_true_eq]; exact ⟨k e (by simp), h⟩

/-- A key below every key of a bank is not in it. -/
theorem Bank.find_none {k : Nat} {b : Bank} (h : ∀ d ∈ b, k < d.key) : Bank.find k b = none := by
  induction b with
  | nil => rfl
  | cons c cs ih =>
    have hc := h c (by simp)
    rw [Bank.find, if_neg (by omega)]
    exact ih fun d hd => h d (by simp [hd])

/-- A group read back after it was written. -/
@[simp] theorem Bank.find_put_self (k : Nat) (l : List Byte) (b : Bank) : Bank.find k (Bank.put k l b) = some l := by
  induction b with
  | nil => simp [Bank.put, Bank.find]
  | cons c cs ih =>
    unfold Bank.put
    split
    · simp [Bank.find]
    · split
      · simp [Bank.find]
      · rw [Bank.find, if_neg (by omega)]; exact ih

/-- A write leaves every other group alone. -/
theorem Bank.find_put_ne {j k : Nat} (l : List Byte) (b : Bank) (h : j ≠ k) :
    Bank.find j (Bank.put k l b) = Bank.find j b := by
  induction b with
  | nil => simp [Bank.put, Bank.find, Ne.symm h]
  | cons c cs ih =>
    unfold Bank.put
    split
    · simp [Bank.find, Ne.symm h]
    · split
      · subst_vars; simp [Bank.find, Ne.symm h]
      · simp only [Bank.find, ih]

/-- The keys after a write. -/
theorem Bank.mem_put {k : Nat} {l : List Byte} {b : Bank} {d : GroupCell} (h : d ∈ Bank.put k l b) : d.key = k ∨ d ∈ b := by
  induction b with
  | nil => simp only [Bank.put, List.mem_singleton] at h; exact .inl (by rw [h])
  | cons c cs ih =>
    unfold Bank.put at h
    split at h
    · rcases List.mem_cons.mp h with rfl | h
      · exact .inl rfl
      · exact .inr h
    · split at h
      · rcases List.mem_cons.mp h with rfl | h
        · exact .inl rfl
        · exact .inr (by simp [h])
      · rcases List.mem_cons.mp h with rfl | h
        · exact .inr (by simp)
        · exact (ih h).imp id fun x => by simp [x]

/-- A write keeps the canonical form. -/
theorem Bank.put_wf (k : Nat) (l : List Byte) {b : Bank} (h : Bank.wf b = true) : Bank.wf (Bank.put k l b) = true := by
  induction b with
  | nil => rfl
  | cons c cs ih =>
    have hh := Bank.wf_head h
    unfold Bank.put
    split
    · refine Bank.wf_cons h fun d hd => ?_
      rcases List.mem_cons.mp hd with rfl | hd
      · assumption
      · exact lt_trans (by assumption) (hh d hd)
    · split
      · subst_vars; exact Bank.wf_cons (Bank.wf_tail h) hh
      · refine Bank.wf_cons (ih (Bank.wf_tail h)) fun d hd => ?_
        rcases Bank.mem_put hd with e | hd
        · omega
        · exact hh d hd

/-- A clear keeps the canonical form. -/
theorem Bank.clear_wf (p : Nat → Bool) {b : Bank} (h : Bank.wf b = true) : Bank.wf (Bank.clear p b) = true := by
  induction b with
  | nil => rfl
  | cons c cs ih =>
    have := ih (Bank.wf_tail h)
    unfold Bank.clear at this ⊢
    rw [List.filter_cons]
    split
    · exact Bank.wf_cons this fun d hd => Bank.wf_head h d (List.mem_of_mem_filter hd)
    · exact this

/-- What a clear leaves of a group. -/
theorem Bank.find_clear (p : Nat → Bool) (k : Nat) (b : Bank) :
    Bank.find k (Bank.clear p b) = if p k then none else Bank.find k b := by
  induction b with
  | nil => simp [Bank.clear, Bank.find]
  | cons c cs ih =>
    unfold Bank.clear at ih ⊢
    rw [List.filter_cons]
    by_cases hc : c.key = k
    · subst hc
      by_cases hp : p c.key <;> simp [hp, Bank.find, ih]
    · by_cases hp : p c.key <;> simp [hp, Bank.find, ih, hc]

end Sys2Proof.Machine
end

