-- ==== Sys2Proof/Tests/Slice0.lean ====
section
/-! SUPPORT. Tests: operands that the check of a command refuses, values worked out in the manual, and for each statement with
hypotheses a state and operands that meet them. -/

namespace Sys2Proof.Tests

set_option Elab.async false

open Sys2Proof.Machine

/-! States to test on. -/

/-- A bank of groups, written in order. -/
def bankOf (cells : List (Nat × Nat × Nat × List Byte)) : Bank :=
  cells.foldl (fun b c => Bank.put (cellKey c.1 c.2.1 c.2.2.1) c.2.2.2 b) []

/-- A tariff header: label, mode, flag drop, D0 and T0, one segment, extras cap 2,000, unit. -/
def header (label mode flagDrop d0 t0 unit : Nat) : List Byte :=
  beBytes 1 label ++ beBytes 1 mode ++ beBytes 3 flagDrop ++ beBytes 2 d0 ++ beBytes 2 t0 ++ [1#8] ++ beBytes 3 2000 ++
    beBytes 1 unit

/-- The one segment of the manual's two example tariffs: d 200 m, ad 30, t 300 ticks, at 30 (06, the last example). -/
def crawl : List Byte := beBytes 3 0 ++ beBytes 2 200 ++ beBytes 2 30 ++ beBytes 2 300 ++ beBytes 2 30

/-- The six groups of a tariff with a surcharge link. -/
def tariff (t : Nat) (h link : List Byte) : List (Nat × Nat × Nat × List Byte) :=
  [(1, t, 0, h), (1, t, 1, crawl), (1, t, 2, crawl), (1, t, 3, crawl), (1, t, 4, crawl), (1, t, 5, link)]

/-- Tariff 3 SINGLE with flag drop 350 and unit 10, tariff 4 DOUBLE, tariff 5 SINGLE with an allowance and a surcharge by
passengers; every stage and the fallback name tariff 3; extra 2 is 125 units, three times (07, the example). -/
def sampleBank : Bank :=
  bankOf (tariff 3 (header 13 0 350 0 0 10) [0#8, 0#8] ++ tariff 4 (header 14 1 350 0 0 10) [0#8, 0#8] ++
    tariff 5 (header 15 0 350 1000 0 10) [1#8, 0#8] ++
    [(3, 0, 0, [1#8, 3#8]), (3, 1, 0, [1#8, 3#8]), (3, 2, 0, [1#8, 3#8]), (3, 3, 0, [1#8, 3#8]),
      (6, 1, 0, beBytes 2 40 ++ beBytes 2 5 ++ beBytes 2 60), (7, 0, 0, [7#8]), (8, 2, 0, beBytes 2 125 ++ [3#8])])

/-- CLOSED with K 2,480, a running clock and the sample bank in both banks. -/
def closed : State :=
  { State.reset with
    time := { State.reset.time with k := 2480, windowK := 2480, budget := 173, clockUnset := false }
    tables := { State.reset.tables with active := sampleBank, standby := sampleBank, activeVersion := 42 } }

/-- VACANT in shift 7 of driver 4,115 with 12 trips. -/
def vacant : State :=
  { closed with
    meter := .vacant
    shifts := { closed.shifts with record := some { newShift closed 4115 with number := 7, trips := 12 }, nextShift := 8 } }

/-- A trip just opened under a tariff. -/
def tripOf (t : Nat) : Trip := { newTrip vacant t 0 with surcharge := (surchargeFound vacant (newTrip vacant t 0)).1 }

/-- HIRED under a tariff. -/
def hiredUnder (t : Nat) : State := { vacant with meter := .hired, trip := some (tripOf t) }

/-- HIRED under tariff 3. -/
def hired : State := hiredUnder 3

/-- The trip of the manual's example at STOP: drops total 690, so fare due 1,040 (07, the example, step 3). -/
def stopped : Trip := { tripOf 3 with dropsTotal := 690, fareDue := some 1040 }

/-- SETTLING with that trip. -/
def settling : State := { vacant with meter := .settling, trip := some stopped }

/-- A state with every station PRESENT. -/
def allPresent (s : State) : State :=
  let r : StationRecord := { StationRecord.start with presence := .present }
  { s with link := { s.link with stations := ⟨r, r, r, r, r, r⟩ } }

/-- The state that a command leads to. -/
def after (c : Instr) (s : State) : State :=
  match exec c s with
  | .next t => t
  | _ => s

/-- The message last offered. -/
def lastOffered (s : State) : Option Outbound := s.link.waiting.getLast?

/-! Operands that the check refuses. -/

theorem test_wf_message_long : (Instr.call .passengerA (List.replicate 57 0#8)).wellFormed = false := by decide
theorem test_wf_message_fits : (Instr.call .passengerA (List.replicate 56 0#8)).wellFormed = true := by decide
theorem test_wf_key_long : (Instr.hire .meterHead (List.replicate 56 0#8)).wellFormed = false := by decide
theorem test_wf_unknown_known : (Instr.unknownKind .meterHead 23#8 []).wellFormed = false := by decide
theorem test_wf_unknown_controller : (Instr.unknownKind .meterHead 64#8 []).wellFormed = false := by decide
theorem test_wf_unknown_long : (Instr.unknownKind .meterHead 24#8 (List.replicate 57 0#8)).wellFormed = false := by decide
theorem test_wf_controller_station : (Instr.controllerKindDiscard .meterHead 40#8 []).wellFormed = false := by decide
theorem test_wf_controller_long :
    (Instr.controllerKindDiscard .meterHead 72#8 (List.replicate 57 0#8)).wellFormed = false := by decide
theorem test_wf_late_position : (Instr.lateEntryExpiry 4).wellFormed = false := by decide

/-! The table spells no command by bits. -/

theorem test_decode_none : decodeTableWord 16 0 = none := rfl
theorem test_fetch_word_idles : step (State.reset.withFetchWord 16 0) = .next State.reset := rfl

/-! Values worked out in the manual. -/

/-- 01 R6: the check of the characters 1 to 9 is 10,673. -/
theorem test_check_digits : (crc16 [49#8, 50#8, 51#8, 52#8, 53#8, 54#8, 55#8, 56#8, 57#8]).toNat = 10673 := by decide +kernel

/-- 01 R2, by hand: grant 6, frame count 15, last: 110 1111 1 and eight zeros. -/
theorem test_header_bits : frameHeader (some .passengerB) 15 true = 0b1101111100000000#16 := by decide

/-- 03 R37: a count of 4 from index 6 of table 4 writes 6, 7, 4 and 5; a count of 3 from tariff 7 writes 7, 8 and 5. -/
theorem test_wrap_order :
    (tableFormat 4).map (fun f => namedEntries f 6 4) = some [6, 7, 4, 5] ∧
      (tableFormat 1).map (fun f => namedEntries f 7 3) = some [7, 8, 5] := by decide

/-- 03 R37: a count of 2 from index 6 of table 9 reaches an index that does not exist. -/
theorem test_wrap_refused : checkWrite [9#8, 0#8, 6#8, 2#8, 1#8, 1#8, 0#8, 1#8, 0#8] = none := by decide

/-- 03 R34: the group lengths of tables 1, 2, 6, 11 and 14. -/
theorem test_group_lengths :
    [groupLength 1 0, groupLength 1 4, groupLength 1 5, groupLength 2 0, groupLength 6 0, groupLength 11 0,
      groupLength 14 0] = [14, 11, 2, 10, 6, 16, 9] := by decide

/-- 03, the example: the day-list write of 13 bytes cancels the pending activation. -/
theorem test_table_write_cancels :
    let s := { hired with tables := { hired.tables with pendingActivation := some 42 } }
    let t := after (.tableWrite .fleetModem [5#8, 1#8, 14#8, 4#8, 1#8, 0#8, 1#8, 0#8, 2#8, 0#8, 3#8, 0#8, 4#8]) s
    t.tables.pendingActivation = none ∧ Bank.find (cellKey 5 12 0) t.tables.standby = some [0#8, 3#8] ∧
      lastOffered t = some ⟨.fleetModem, 64#8, [8#8, 0#8, 1#8]⟩ := by decide +kernel

/-- 04, the chattering sensor: a budget of 173 and a speed of 251 for it. -/
theorem test_budget_and_speed :
    windowBudget 250 2480 = 173 ∧ windowSpeed { closed.time with accepted := 173 } = 251 ∧
      windowSpeed { closed.time with accepted := 49 } = 71 := by decide

/-- 04, the chattering sensor: the 174th pulse is rejected with ODO CLAMP. -/
theorem test_pulse_clamped :
    let t := after .odometerPulse { closed with time := { closed.time with accepted := 173 } }
    t.time.lifetime = 0 ∧ t.time.clampMark = true ∧ Event.odoClamp.isIn t.disp.flags = true := by decide +kernel

/-- 04, the weekend night: the two ranges, the holiday and the alarms of the four rows. -/
theorem test_calendar_night :
    let b := bankOf [(4, 0, 0, beBytes 2 9960 ++ beBytes 2 359), (4, 1, 0, beBytes 2 5760 ++ beBytes 2 10079),
      (5, 0, 0, beBytes 2 20006)]
    let at_ := fun day second =>
      let t := (recomputeCalendar { closed with
        tables := { closed.tables with active := b }, time := { closed.time with day := day, second := second } }).time
      (t.calendarFlags, t.dayType, t.alarmDay, t.alarmSecond)
    at_ 20005 75000 = (2#8, .sunday, 20005, 79200) ∧ at_ 20005 79200 = (3#8, .sunday, 20006, 0) ∧
      at_ 20006 0 = (1#8, .holiday, 20006, 21600) ∧ at_ 20006 21600 = (0#8, .holiday, 20007, 0) := by decide +kernel

/-- 06 R80: the pulses of 200, 150 and 1,000 m at K 2,480, and of 2 m at K 200. -/
theorem test_pulses_for :
    pulsesFor 2480 200 = 496 ∧ pulsesFor 2480 150 = 372 ∧ pulsesFor 2480 1000 = 2480 ∧ pulsesFor 200 2 = 1 := by decide

/-- 06 R101: the limit case of each rounding unit, and a fare due of 0 from 49 at unit 100. -/
theorem test_round_fare :
    [1, 2, 5, 10, 20, 50, 100].map (roundFare 999999) = [999999, 999998, 999995, 999990, 999980, 999950, 999900] ∧
      roundFare 49 100 = 0 ∧ roundFare 1165 10 = 1170 := by decide

/-- 06, the crawl: under SINGLE a time expiry reloads DC to 496; under DOUBLE the distance counter runs on. -/
theorem test_time_expiry_modes :
    let at_ := fun t => after .timeExpiry
      { hiredUnder t with trip := some { tripOf t with tc := some 1, dc := some 248 } }
    (at_ 3).trip.map (fun tr => (tr.dc, tr.tc, tr.dropsTotal)) = some (some 496, some 300, 30) ∧
      (at_ 4).trip.map (fun tr => (tr.dc, tr.tc, tr.dropsTotal)) = some (some 248, some 300, 30) := by decide +kernel

/-- 07, the example, step 1: trip 13 of shift 7 under tariff 3 with label 13, running fare 350. -/
theorem test_hire :
    let t := after (.hire .meterHead [0#8]) vacant
    t.meter = .hired ∧ t.link.outbound.head? = some ⟨.meterHead, 64#8, [1#8, 0#8, 0#8, 13#8, 3#8, 13#8]⟩ ∧
      t.trip.map (fun tr => (tr.shiftNumber, tr.periods.length, tr.runningFare)) = some (7, 1, 350) := by decide +kernel

/-- 07, the example, step 3: fare due 1,040 and a DUE with tip allowance 208. -/
theorem test_stop :
    let t := after (.stop .meterHead [0#8]) (allPresent { hired with trip := some { tripOf 3 with dropsTotal := 690 } })
    t.meter = .settling ∧ t.trip.map (fun tr => (tr.fareDue, tr.roundingDiff, tr.promptMark)) = some (some 1040, 0, true) ∧
      lastOffered t = some ⟨.cardTerminal, 68#8,
        [0#8, 0#8, 7#8, 0#8, 13#8] ++ beBytes 3 1040 ++ beBytes 3 1040 ++ beBytes 3 208⟩ := by decide +kernel

/-- 07, the example, step 5: the extra makes the fare due 1,170 with difference 5 and tip allowance 234. -/
theorem test_extra :
    let t := after (.extra .meterHead [2#8]) (allPresent settling)
    t.trip.map (fun tr => (tr.fareDue, tr.roundingDiff, tr.extrasTotal)) = some (some 1170, 5, 125) ∧
      lastOffered t = some ⟨.cardTerminal, 68#8,
        [0#8, 0#8, 7#8, 0#8, 13#8] ++ beBytes 3 1170 ++ beBytes 3 1170 ++ beBytes 3 234⟩ := by decide +kernel

/-- 07, the example, step 6: the cash tender closes the trip, and the shift's trips count becomes 13. -/
theorem test_cash :
    let t := after (.cash .meterHead [0#8]) settling
    t.meter = .vacant ∧ t.trip = none ∧ t.shifts.record.map (fun r => (r.trips, r.cashTotal)) = some (13, 1040) ∧
      t.shifts.journal.length = 1 := by decide +kernel

/-- 08, the dusk: targets 6 at ambient 30 and 24 at ambient 150. -/
theorem test_band_targets :
    let b := bankOf [(10, 0, 0, [0#8, 6#8]), (10, 1, 0, [40#8, 12#8]), (10, 2, 0, [120#8, 24#8]), (10, 3, 0, [200#8, 31#8])]
    bandTarget b 30 = some 6 ∧ bandTarget b 150 = some 24 ∧ bandTarget [] 30 = none := by decide

/-- 08, the dusk: the twentieth tick makes the emergency active, and the SIGN SET is 15, FAST, 31, set. -/
theorem test_emergency_onset :
    let t := after .tick { vacant with emgLine := true, sign := { vacant.sign with debounce := some 19 } }
    t.sign.emergency = some ⟨0, 0⟩ ∧ t.link.signPlace = some ⟨.roofSign, 67#8, [15#8, 3#8, 31#8, 1#8]⟩ := by decide +kernel

/-- 09 R142: the rounding of the sums 31, 32, −32, −33 and −96. -/
theorem test_mix_scale : [31, 32, -32, -33, -96].map mixScale = [0, 1, 0, -1, -1] := by decide

/-- 09, the floor: at time 9 the driver's release gives the floor back to A, and B still waits. -/
theorem test_floor_returns :
    let ic := releaseFloor .driver (requestFloor .driver (requestFloor .passengerB (requestFloor .passengerA .start)))
    ic.floor = some ⟨.passengerA, 0⟩ ∧ ic.waitA = false ∧ ic.waitB = true := by decide

/-- 11 R177, R181, R187, R191: the lengths of the four encoded records. -/
theorem test_record_lengths :
    (shiftBytes (newShift closed 1)).length = 119 ∧ (journalBytes ⟨stopped, 0⟩).length = 146 ∧
      (reportBytes (makeReport vacant (newShift closed 1))).length = 135 ∧
      (snapshotBytes ⟨newShift closed 1, ⟨0, 0⟩, .meterHead⟩).length = 124 := by decide +kernel

/-- 02, the example, step 1: STOP offers a REPLY and then a NOTICE of STATE CHANGE to the meter head. -/
theorem test_stop_notice :
    (after (.stop .meterHead [0#8]) hired).link.outbound[1]? = some ⟨.meterHead, 65#8, [0#8, 0#8, 1#8]⟩ := by decide +kernel

/-- Log 12: a cold start leaves the reset state as it is. -/
theorem test_reset_is_cold : coldStarts State.reset = State.reset := by decide +kernel

/-! For each statement with hypotheses, a state and operands that meet them, clause by clause and at boundary values. -/

theorem vacant_ready : vacant.Ready := ⟨rfl, rfl, rfl, by decide⟩
theorem closed_ready : closed.Ready := ⟨rfl, rfl, rfl, by decide⟩
theorem hired_ready : hired.Ready := ⟨rfl, rfl, rfl, by decide⟩
theorem settling_ready : settling.Ready := ⟨rfl, rfl, rfl, by decide⟩
theorem vacant_orderly : vacant.link.orderly := ⟨by decide, fun h => absurd rfl h⟩

/-- VACANT with the emergency active. -/
def alarmed : State := { vacant with sign := { vacant.sign with emergency := some ⟨0, 5⟩, level := 31 } }

/-- SETTLING with an authorization pending. -/
def authorizing (cancelled : Bool) : State :=
  { settling with
    pay := { settling.pay with
      auth := some
        { number := 65535, ref := ⟨7, 13, 1⟩, issuer := 5, cls := 0, farePart := 40, tip := 0, token := List.replicate 8 0#8
          cancelled := cancelled, count := 0, timeout := 30 } } }

/-- An entry of the deferred queue. -/
def deferred (index : Nat) : DeferredEntry := ⟨⟨7, 12, index⟩, 5, 0, 40, 0, List.replicate 8 0#8, ⟨0, 0⟩⟩

/-- VACANT with two deferred entries and a capture state, the modem PRESENT. -/
def capturing (c : CaptureState) (up : Bool) : State :=
  allPresent { vacant with pay := { vacant.pay with deferred := [deferred 1, deferred 2], capture := c, bearerUp := up } }

/-- Class 0 may pay online or offline up to 50 units (10 R157); the shift may hold offline amounts (10 R164). -/
def cardsAllowed (s : State) : State :=
  { s with
    tables := { s.tables with unbanked := bankOf [(13, 0, 0, [2#8] ++ beBytes 3 50 ++ beBytes 3 999999)] }
    shifts := { s.shifts with record := s.shifts.record.map fun r => { r with offlineCap := 50 } } }

/-- A PAY REQUEST of 50 units without a tip, with a token of 8 bytes. -/
def payment : List Byte := beBytes 3 5 ++ beBytes 3 50 ++ beBytes 3 0 ++ [8#8] ++ List.replicate 8 0#8

/-- The frames that carry bytes on the up lane. -/
def upsOf : List Byte → List UpFrame
  | a :: b :: rest => { idleFrame with message := ⟨true, lanePair a b⟩ } :: upsOf rest
  | [a] => [{ idleFrame with message := ⟨true, lanePair a 0#8⟩ }]
  | [] => []

theorem wit_StepRunsFrontCommand :
    ({ vacant with pending := [.tick, .coldStart] } : State).pending = .tick :: [.coldStart] ∧ vacant.pending = [] :=
  ⟨rfl, rfl⟩

theorem wit_StepKeepsLinkSound :
    vacant.link.Sound ∧ ∃ t, step { vacant with pending := [.frame idleFrame false] } = .next t :=
  ⟨⟨vacant_orderly, by decide, fun h => absurd rfl h, by decide, by decide, fun st => by cases st <;> decide⟩,
    ⟨_, rfl⟩⟩

theorem wit_StepKeepsTripSound :
    (hired.TripSound ∧ ∃ t, step { hired with pending := [.stop .meterHead [0#8]] } = .next t) ∧ settling.TripSound := by
  refine ⟨⟨⟨by decide, ?_, by decide, by decide⟩, ⟨_, rfl⟩⟩, ⟨by decide, ?_, by decide, by decide⟩⟩
  · rintro tr ⟨⟩; decide
  · rintro tr ⟨⟩; decide

theorem wit_StepKeepsWithinBounds :
    ({ vacant with sign := { vacant.sign with debounce := some 19, refresh := 4, stepping := 1 } } : State).WithinBounds := by
  constructor <;> decide

theorem wit_StepKeepsTablesCanonical : vacant.tables.Canonical :=
  ⟨by decide +kernel, by decide +kernel, rfl, fun _ _ _ _ h => nomatch h⟩

/-- An EMERGENCY CLEAR of the modem, whose check the frame brings. -/
def clearing : State :=
  { alarmed with
    pending := [.frame { idleFrame with message := ⟨true, crc16 [0#8, 4#8, 14#8, 0#8]⟩ } false]
    link := { alarmed.link with reception := some ⟨.fleetModem, [0#8, 4#8, 14#8, 0#8]⟩ } }

theorem wit_EmergencyEndsOnlyByClear :
    (alarmed.link.Sound ∧ alarmed.sign.emergency = some ⟨0, 5⟩) ∧
      (∀ c ∈ ({ alarmed with pending := [.emergencyLineRelease] } : State).pending, c.wellFormed = true) ∧
      (∃ t, step { alarmed with pending := [.emergencyLineRelease] } = .next t) ∧
      ∃ t, step clearing = .next t ∧ t.sign.emergency = none :=
  ⟨⟨⟨vacant_orderly, by decide, fun h => absurd rfl h, by decide, by decide, fun st => by cases st <;> decide⟩, rfl⟩,
    by decide, ⟨_, rfl⟩, ⟨_, rfl, by decide +kernel⟩⟩

theorem wit_CallAndBreakMoves :
    (vacant.Ready ∧ vacant.meter = .vacant ∧ vacant.sign.emergency = none) ∧
      (alarmed.Ready ∧ alarmed.meter = .vacant ∧ alarmed.sign.emergency ≠ none) ∧
      (closed.Ready ∧ closed.meter ≠ .vacant ∧ closed.meter ≠ .onCall ∧ closed.meter ≠ .offDuty) ∧ ([0#8] : List Byte) ≠ [] :=
  ⟨⟨vacant_ready, rfl, rfl⟩, ⟨⟨rfl, rfl, rfl, by decide⟩, rfl, nofun⟩, ⟨closed_ready, nofun, nofun, nofun⟩, nofun⟩

/-- Every station ABSENT with a rotation number that the search does not bring to 0. -/
def allAbsent : LinkState :=
  let r : StationRecord := ⟨.absent, 8, 0, 0, 8⟩
  { vacant.link with stations := ⟨r, r, r, r, r, r⟩, rotation := 3 }

/-- Every station ABSENT but the one that the search reaches last. -/
def onlyLast : LinkState := { allAbsent with stations := { allAbsent.stations with passengerB := .start } }

theorem wit_GrantSearch :
    ({ vacant.link with reception := some ⟨.roofSign, []⟩ } : LinkState).reception = some ⟨.roofSign, []⟩ ∧
      Config.inboundCap ≤
        ({ vacant.link with inbound := List.replicate 8 ⟨.fleetModem, 5#8, [1#8]⟩ } : LinkState).inbound.length ∧
      (vacant.link.reception = none ∧ vacant.link.inbound.length < Config.inboundCap ∧ vacant.link.offers 1 = true) ∧
      (onlyLast.offers 6 = true ∧ ∀ j, 1 ≤ j → j < 6 → onlyLast.offers j = false) ∧
      ∀ k, 1 ≤ k → k ≤ 6 → allAbsent.offers k = false := by
  refine ⟨rfl, by decide, by decide, ⟨by decide, fun j h k => ?_⟩, fun k h j => ?_⟩
  · interval_cases j <;> decide
  · interval_cases k <;> decide

theorem wit_LaneSendsWholeMessage :
    ((List.replicate 56 1#8).length ≤ Config.payloadMax ∧ ([] : List Byte).length ≤ Config.payloadMax) ∧
      (State.reset.link.sending = none ∧ State.reset.link.displayPlace.isSome = true) ∧
      (vacant.link.outbound.length < 16 ∧ 16 ≤ (List.replicate 16 (⟨.roofSign, 0#8, []⟩ : Outbound)).length) := by decide

theorem wit_WholeMessageReceived :
    let s := allPresent vacant
    let odd := upsOf (messageBytes 0#8 4#8 5#8 [1#8] ++ [0#8])
    s.link.reception = none ∧ (s.link.stations.get .fleetModem).presence = .present ∧
      (∀ up ∈ odd, up.message.valid = true) ∧
      odd.flatMap (fun up => laneBytes up.message.data) =
        messageBytes 0#8 (BitVec.ofNat 8 (stationAddress .fleetModem)) 5#8 [1#8] ++ [0#8] := by
  decide +kernel

/-- The meter head's STATUS READ of part 1. -/
def statusRead : Inbound := ⟨.meterHead, 5#8, [1#8]⟩

/-- A full outbound queue with messages that wait inbound, the lane empty or busy. -/
def stalled (waiting : List Inbound) (sending : Option (List Byte)) : State :=
  let s := allPresent vacant
  { s with link := { s.link with
      outbound := List.replicate 16 ⟨.meterHead, 65#8, []⟩, inbound := waiting, sending := sending, displayPlace := none
      signPlace := none } }

/-- The other clauses of WholeMessageReceived: a message whose last frame comes, with and without a free outbound place, and one
or eight that wait when the lane frees a place, or frees none. -/
theorem wit_WholeMessageReceived_frame :
    let begins := fun s : State => (linkFrameStarts s.link).2.outbound.length
    let message := messageBytes 0#8 1#8 5#8 [1#8] ++ [0#8]
    let x : Reception := ⟨.meterHead, message.take 6⟩
    let last : UpFrame := { idleFrame with message := ⟨true, lanePair (message.getD 6 0#8) 0#8⟩ }
    let receiving := fun s : State => ({ s with link := { s.link with reception := some x } } : State)
    (vacant.Ready ∧ messageOf (.statusRead .meterHead [1#8]) = some statusRead) ∧
      (receivedBytes x last = messageBytes 0#8 (BitVec.ofNat 8 (stationAddress x.station)) 5#8 [1#8] ++ [0#8] ∧
        begins (receiving vacant) < 16 ∧ 16 ≤ begins (receiving (stalled [] (some [0#8, 0#8])))) ∧
      (begins (stalled [statusRead] none) < 16 ∧ 16 ≤ begins (stalled [statusRead] (some [0#8, 0#8])) ∧
        (chooseGrant (stalled [statusRead] none).link).1 = some .meterHead ∧
        (chooseGrant (stalled (List.replicate 8 statusRead) none).link).1 = none ∧
        ((stalled [statusRead] none).link.stations.get .meterHead).presence = .present) ∧
      (stalled [statusRead] none).time.divFrames + 1 < 800 :=
  ⟨⟨vacant_ready, rfl⟩, by decide +kernel, by decide +kernel, by decide⟩

theorem wit_FrameKeepsStationRecords :
    let silent := { idleFrame with answer := emptySlot }
    let missed := { allPresent vacant with link := { vacant.link with stations := ⟨⟨.present, 7, 0, 0, 7⟩,
      .start, .start, .start, .start, .start⟩ } }
    let receiving : LinkState := { vacant.link with reception := some ⟨.roofSign, [0#8, 2#8]⟩ }
    (vacant.running = true ∧ vacant.link.orderly ∧ vacant.link.inbound = [] ∧ vacant.link.reception = none ∧
      (chooseGrant vacant.link).1 = some .meterHead ∧ (vacant.link.stations.get .meterHead).presence ≠ .present) ∧
      (idleFrame.message.valid = false ∧ idleFrame.answer = ⟨true, Config.idleCode⟩ ∧
        silent.answer ≠ ⟨true, Config.idleCode⟩ ∧ 8 ≤ (missed.link.stations.get .meterHead).misses + 1) ∧
      (receiving.reception = some ⟨.roofSign, [0#8, 2#8]⟩ ∧ (chooseGrant receiving).1 = some .roofSign ∧
        56 < ((receivedBytes ⟨.roofSign, [0#8, 2#8]⟩ { idleFrame with message := ⟨true, 57#16⟩ }).getD 3 0#8).toNat ∧
        receivedBytes ⟨.roofSign, [1#8, 2#8, 5#8, 0#8]⟩ { idleFrame with message := ⟨true, crc16 [1#8, 2#8, 5#8, 0#8]⟩ } =
          messageBytes 1#8 2#8 5#8 []) ∧
      (chooseGrant allAbsent).1 = none :=
  ⟨⟨rfl, vacant_orderly, rfl, rfl, by decide, by decide⟩, by decide, by decide +kernel, by decide⟩

theorem wit_QuietFrameCompletes :
    let s := fun n => allPresent { vacant with time := { vacant.time with divFrames := n } }
    ((s 798).running = true ∧ (s 798).link.inbound = [] ∧ (s 798).link.reception = none ∧
      (chooseGrant (s 798).link).1 = some .meterHead ∧
      ((s 798).link.stations.get .meterHead).presence = .present ∧ (s 798).time.divFrames + 1 < 800) ∧
      (s 799).time.divFrames + 1 = 800 := by decide

theorem wit_EventOccurrence :
    (vacant.link.orderly ∧ vacant.shifts.record.isSome = true) ∧ closed.shifts.record = none ∧
      noticeIndicator vacant.disp.headPending ≠ noticeIndicator (raise .tripClosed vacant).disp.headPending ∧
      noticeIndicator vacant.disp.headPending = noticeIndicator (raise .emergency vacant).disp.headPending :=
  ⟨⟨vacant_orderly, rfl⟩, rfl, by decide +kernel, by decide +kernel⟩

theorem wit_MessagesTurnedAway :
    let full : State := { vacant with link := { vacant.link with outbound := List.replicate 16 ⟨.roofSign, 0#8, []⟩ } }
    let waiting : LinkState := { vacant.link with inbound := List.replicate 8 ⟨.passengerA, 40#8, []⟩ }
    (vacant.Ready ∧ classify 24#8 = .unknown ∧ classify 64#8 = .controllerOnly ∧ classify 72#8 = .controllerOnly) ∧
      (messageOf (.dispatch .meterHead []) = some ⟨.meterHead, 4#8, []⟩ ∧ classify 4#8 = .request .dispatch ∧
        mayRequest .meterHead .dispatch = false) ∧
      (messageOf (.call .meterHead []) = some ⟨.meterHead, 40#8, []⟩ ∧ classify 40#8 = .report .call ∧
        mayReport .meterHead .call = false) ∧
      reportFormOk .signStatus [0#8, 8#8] = false ∧
      (full.running = true ∧ 16 ≤ full.link.outbound.length ∧ full.link.inbound.length < 8 ∧ full.link.reception = none) ∧
      (8 ≤ waiting.inbound.length ∧ waiting.outbound.length < 16) :=
  ⟨⟨vacant_ready, rfl, rfl, rfl⟩, ⟨rfl, rfl, by decide⟩, ⟨rfl, rfl, by decide⟩, by decide, by decide, by decide⟩

theorem wit_StatusReadAnswers :
    vacant.Ready ∧ noticeIndicator vacant.disp.headPending = false ∧ noticeIndicator Event.tripClosed.only = true ∧
      ([3#8] : List Byte) ≠ [1#8] ∧ ([3#8] : List Byte) ≠ [2#8] :=
  ⟨vacant_ready, by decide, by decide, by decide, by decide⟩

theorem wit_NoticeMaskAndFlagsClear :
    vacant.Ready ∧ ([1#8, 0#8, 0#8, 0#8] : List Byte).length ≠ 5 ∧
      (([0#8, 0#8, 0#8, 0#8, 0#8] : List Byte).head? ≠ some 1#8 ∧ ([0#8, 0#8, 0#8, 0#8, 0#8] : List Byte).head? ≠ some 4#8) ∧
      (([1#8, 2#8, 0#8, 0#8, 0#8] : List Byte)[1]? ≠ some 0#8 ∧ ([1#8, 2#8, 0#8, 0#8, 0#8] : List Byte)[1]? ≠ some 1#8) :=
  ⟨vacant_ready, by decide, by decide, by decide⟩

theorem wit_TableWriteStores :
    (vacant.Ready ∧ tableFormat (17#8 : Byte).toNat = none) ∧
      (∃ f, tableFormat (5#8 : Byte).toNat = some f ∧ isBanked (5#8 : Byte).toNat = true ∧
        namedEntries f 14 4 = [14, 15, 12, 13] ∧ f.first + f.count = 16) ∧
      (∃ f, tableFormat (9#8 : Byte).toNat = some f ∧ isBanked (9#8 : Byte).toNat = false ∧ namedEntries f 6 1 = [6] ∧
        namedEntries f 6 2 = [6, 7] ∧ f.first + f.count = 7 ∧
        groupInRange 9 0 (f.groups.getD 0 []) [15#8, 3#8] = true ∧ groupInRange 9 0 (f.groups.getD 0 []) [16#8, 3#8] = false) ∧
      (vacant.link.outbound.length < 16 ∧
        lastOffered (after (.tableWrite .fleetModem [9#8, 0#8, 6#8, 1#8, 1#8, 15#8, 3#8]) vacant) =
          some ⟨.fleetModem, 64#8, [8#8, 0#8, 0#8]⟩) :=
  ⟨⟨vacant_ready, rfl⟩, ⟨_, rfl, by decide⟩, ⟨_, rfl, by decide⟩, by decide, by decide +kernel⟩

theorem wit_TableClearRemoves :
    vacant.Ready ∧
      (∃ f, tableFormat (1#8 : Byte).toNat = some f ∧ isBanked (1#8 : Byte).toNat = true ∧ isIndex f 1 = true ∧
        isIndex f 16 = true ∧ isIndex f 0 = false ∧ isIndex f 17 = false) ∧
      (∃ f, tableFormat (9#8 : Byte).toNat = some f ∧ isBanked (9#8 : Byte).toNat = false) ∧
      (0#8 : Byte).toNat < 1 ∧ 16 < (17#8 : Byte).toNat ∧ ([1#8, 1#8, 1#8] : List Byte).length ≠ 4 :=
  ⟨vacant_ready, ⟨_, rfl, by decide⟩, ⟨_, rfl, by decide⟩, by decide⟩

theorem wit_ReadsAnswerAndKeep :
    vacant.Ready ∧
      (∃ f, tableFormat (2#8 : Byte).toNat = some f ∧ namesExist f 0 4 3 = true ∧ readLength f 2 4 3 = 54 ∧
        namesExist f 64 1 3 = false) ∧
      (∃ f, tableFormat (1#8 : Byte).toNat = some f ∧ namesExist f 1 1 63 = true ∧ 54 < readLength f 1 1 63) ∧
      (0#8 : Byte).toNat < 1 ∧ 16 < (17#8 : Byte).toNat ∧ ([1#8, 2#8, 1#8, 1#8] : List Byte).length ≠ 5 :=
  ⟨vacant_ready, ⟨_, rfl, by decide⟩, ⟨_, rfl, by decide⟩, by decide⟩

theorem wit_TableActivateOutcomes :
    (vacant.Ready ∧ validate vacant.tables.standby = none ∧ inTrip vacant = false) ∧
      (hired.Ready ∧ validate hired.tables.standby = none ∧ inTrip hired = true) ∧ validate [] = some (3, 3) ∧
      (([0#8, 1#8] : List Byte).length ≠ 3 ∧ 1 < (2#8 : Byte).toNat) :=
  ⟨⟨vacant_ready, by decide +kernel, rfl⟩, ⟨hired_ready, by decide +kernel, rfl⟩, by decide, by decide⟩

theorem wit_CalibrateSetsK :
    (closed.Ready ∧ closed.meter = .closed) ∧ (vacant.Ready ∧ vacant.meter ≠ .closed) ∧
      ((0#8 : Byte).toNat * 256 + (200#8 : Byte).toNat = 200 ∧ (195#8 : Byte).toNat * 256 + (80#8 : Byte).toNat = 50000) :=
  ⟨⟨closed_ready, rfl⟩, ⟨vacant_ready, nofun⟩, by decide⟩

theorem wit_ClockSetSetsClock :
    (vacant.Ready ∧ vacant.meter ≠ .hired ∧ vacant.meter ≠ .settling) ∧ (hired.Ready ∧ hired.meter = .hired) ∧
      (1#8 : Byte).toNat * 65536 + (81#8 : Byte).toNat * 256 + (127#8 : Byte).toNat = 86399 ∧
      ([0#8, 1#8, 0#8, 0#8] : List Byte).length ≠ 5 :=
  ⟨⟨vacant_ready, nofun, nofun⟩, ⟨hired_ready, rfl⟩, by decide, by decide⟩

theorem wit_ClockSecondAdvances :
    let s : State := { vacant with time := { vacant.time with second := 86399 } }
    s.time.second < 86400 ∧ s.running = true ∧
      (clockAdvanced s.time).day = s.time.alarmDay ∧ (clockAdvanced s.time).second = s.time.alarmSecond ∧
      (after .mainSupplyLoss s).running = false ∧
      ¬((clockAdvanced vacant.time).day = vacant.time.alarmDay ∧
        (clockAdvanced vacant.time).second = vacant.time.alarmSecond) := by decide

theorem wit_OdometerPulseOutcomes :
    (State.reset.running = true ∧ State.reset.time.windowK = 0) ∧
      (vacant.time.windowK ≠ 0 ∧ vacant.time.accepted < vacant.time.budget ∧ vacant.meter ≠ .hired) ∧
      (hired.time.accepted < hired.time.budget ∧ hired.meter = .hired ∧ hired.trip = some (tripOf 3)) ∧
      ((tripOf 3).dc = some (494 + 2) ∧ ({ tripOf 3 with dc := some 1 } : Trip).dc = some 1 ∧
        ({ tripOf 3 with dc := none } : Trip).dc = none) ∧
      ({ vacant.time with accepted := 173 } : TimeState).budget ≤ 173 ∧ vacant.time.clampMark = false ∧
      vacant.link.orderly := by
  refine ⟨by decide, by decide, ⟨by decide, rfl, rfl⟩, ⟨by decide +kernel, rfl, rfl⟩, by decide, by decide, vacant_orderly⟩

theorem wit_TickCounts :
    let s : State := { hired with emgLine := true, sign := { hired.sign with debounce := some 19 } }
    (s.running = true ∧ s.meter = .hired ∧ s.trip = some (tripOf 3) ∧ s.sign.emergency = none ∧
      s.sign.debounce = some 19 ∧ s.emgLine = true) ∧
      ((tripOf 3).tc = some (298 + 2) ∧ ({ tripOf 3 with tc := some 1 } : Trip).tc = some 1 ∧ vacant.meter ≠ .hired ∧
        18 + 1 < 20 ∧ 20 ≤ 19 + 1) ∧
      (hired.time.divTicks + 1 < 10 ∧ 10 ≤ ({ hired.time with divTicks := 9 } : TimeState).divTicks + 1) := by
  refine ⟨⟨rfl, rfl, rfl, rfl, rfl, rfl⟩, ⟨by decide +kernel, rfl, nofun, by decide, by decide⟩, by decide⟩

theorem wit_FareSecondAdvancesTimers :
    let s : State := { vacant with intercom := { vacant.intercom with floor := some ⟨.driver, 29⟩ } }
    ((s.running = true ∧ s.link.orderly ∧ s.meter ≠ .hired ∧ s.pay.auth = none ∧ s.pay.capture = .idle ∧
      s.sign.stepping = 0) ∧ s.intercom.floor = some ⟨.driver, 29⟩ ∧ 30 ≤ 29 + 1 ∧ vacant.intercom.floor = none) ∧
      (capturing (.inFlight ⟨7, 12, 1⟩ 29 30) true).pay.capture = .inFlight ⟨7, 12, 1⟩ 29 30 ∧
      (capturing (.waiting 59 60) true).pay.capture = .waiting 59 60 ∧
      (authorizing false).pay.auth.map (fun a => (a.count, a.timeout)) = some (0, 30) :=
  ⟨⟨⟨rfl, vacant_orderly, nofun, rfl, rfl, rfl⟩, rfl, by decide, rfl⟩, rfl, rfl, rfl⟩

theorem wit_BoundaryAndZoneOccasions :
    (vacant.running = true ∧ vacant.meter ≠ .hired) ∧ (hired.running = true ∧ hired.meter = .hired) ∧ vacant.Ready ∧
      hired.Ready ∧ (31#8 : Byte).toNat = vacant.time.zone ∧ (30#8 : Byte).toNat ≠ vacant.time.zone ∧
      (vacant.time.second < 86400 ∧ Bank.valid (bankOf [(4, 7, 0, beBytes 2 10079 ++ beBytes 2 0)]) 4 7 = true ∧
        Bank.valid (bankOf [(5, 15, 0, beBytes 2 0)]) 5 15 = true) :=
  ⟨⟨rfl, nofun⟩, ⟨rfl, rfl⟩, vacant_ready, hired_ready, rfl, by decide, by decide +kernel⟩

/-- A bank whose three stage defaults name NEXT. -/
def deepBank : Bank := bankOf [(3, 0, 0, [2#8, 1#8]), (3, 1, 0, [2#8, 2#8]), (3, 2, 0, [2#8, 15#8])]

theorem wit_SelectionRunFollowsStages :
    (∀ i, i < 64 → sampleBank.valid 2 i = false) ∧
      (sampleBank.valid 3 0 = true ∧ (sampleBank.group 3 0 0).getD 0 0#8 = 1#8 ∧ Bank.valid [] 3 0 = false) ∧
      (deepBank.valid 3 0 = true ∧ deepBank.valid 3 1 = true ∧ deepBank.valid 3 2 = true ∧
        deepBank.group 3 2 0 = [2#8, 15#8] ∧ deepBank.valid 2 0 = false) ∧
      (selectionRun sampleBank (selectionInput vacant 1 0) = ⟨some 3, false, false⟩ ∧
        selectionRun deepBank (selectionInput vacant 1 0) = ⟨none, true, false⟩ ∧
        selectionRun [] (selectionInput vacant 1 0) = ⟨none, false, true⟩) := by decide +kernel

theorem wit_RunOutcomeApplied :
    let run := fun s tr => selectionRun (State.tables s).active (selectionInput s (Trip.passengers tr) tr.tariffKey)
    (hired.link.orderly ∧ hired.trip = some (tripOf 3) ∧ (run hired (tripOf 3)).tariff = some (tripOf 3).tariff) ∧
      ((run (hiredUnder 4) (tripOf 4)).tariff = some 3 ∧ 3 ≠ (tripOf 4).tariff) :=
  ⟨⟨vacant_orderly, rfl, by decide +kernel⟩, by decide +kernel, by decide +kernel⟩

theorem wit_SingleExpiryCharges :
    (hired.running = true ∧ hired.meter = .hired ∧ hired.trip = some (tripOf 3)) ∧
      ((tariffHeader hired.tables.active 3).double = false ∧ (tripOf 3).dc.isSome = true ∧ (tripOf 3).tc.isSome = true ∧
        (tripOf 3).phase .distance = .stepping ∧ (tripOf 3).phase .time = .stepping) ∧
      ((tariffHeader hired.tables.active 5).double = false ∧ (tripOf 5).dc.isSome = true ∧
        (tripOf 5).phase .distance = .allowance) := by
  refine ⟨⟨rfl, rfl, rfl⟩, by decide +kernel, by decide +kernel⟩

theorem wit_DoubleExpiryCharges :
    (hiredUnder 4).running = true ∧ (hiredUnder 4).meter = .hired ∧ (hiredUnder 4).trip = some (tripOf 4) ∧
      (tariffHeader (hiredUnder 4).tables.active (tripOf 4).tariff).double = true ∧ (tripOf 4).dc.isSome = true ∧
      (tripOf 4).tc.isSome = true ∧ (tripOf 4).distancePhase = .stepping ∧ (tripOf 4).timePhase = .stepping := by
  refine ⟨rfl, rfl, rfl, by decide +kernel, by decide +kernel, by decide +kernel, by decide +kernel, by decide +kernel⟩

theorem wit_FareDueRounds :
    (999999 ≤ 999999 ∧ 100 ∈ [1, 2, 5, 10, 20, 50, 100]) ∧ 999949 + 100 / 2 < 1000000 := by decide

theorem wit_ExtraOutcomes :
    (hired.Ready ∧ hired.trip = some (tripOf 3) ∧ hired.meter = .hired) ∧
      (settling.Ready ∧ settling.trip = some stopped ∧ settling.meter = .settling ∧ stopped.tenders = [] ∧
        settling.pay.auth = none) ∧
      (vacant.Ready ∧ vacant.trip = none ∧ (0#8 : Byte).toNat < 1 ∧ 8 < (9#8 : Byte).toNat) ∧
      (hired.tables.active.valid 8 2 = true ∧ hired.tables.active.valid 8 1 = false ∧
        hired.tables.active.valid 8 8 = false) ∧
      (extraLimit hired.tables.active 2 = 3 ∧ extraAmount hired.tables.active 2 = 125 ∧
        (tariffHeader hired.tables.active 3).extrasCap = 2000 ∧ (tripOf 3).pressCounts.getD 1 0 = 0) :=
  ⟨⟨hired_ready, rfl, rfl⟩, ⟨settling_ready, rfl, rfl, rfl, rfl⟩, ⟨vacant_ready, rfl, by decide, by decide⟩,
    by decide +kernel, by decide +kernel⟩

theorem wit_HireOpensTrip :
    (vacant.Ready ∧ vacant.meter = .vacant ∧ (4#8 : Byte).toNat ≤ 4 ∧ 4 < (5#8 : Byte).toNat) ∧
      (hired.Ready ∧ hired.meter ≠ .vacant ∧ hired.meter ≠ .onCall) ∧
      ([0#8, 0#8] : List Byte) ≠ [0#8] ∧ ([] : List Byte).length ≠ 1 ∧
      ((selectionRun vacant.tables.active (selectionInput vacant 1 4)).tariff = some 3 ∧
        (selectionRun [] (selectionInput vacant 1 4)).tariff = none) :=
  ⟨⟨vacant_ready, rfl, by decide, by decide⟩, ⟨hired_ready, nofun, nofun⟩, by decide, by decide, by decide +kernel⟩

theorem wit_StopFixesFareDue :
    hired.Ready ∧ hired.meter = .hired ∧ hired.trip = some (tripOf 3) ∧ (tripOf 3).tenders = [] ∧
      roundFare (tripOf 3).runningFare (tariffHeader hired.tables.active 3).unit = 350 ∧
      roundFare ({ tripOf 3 with flagDrop := 4 } : Trip).runningFare (tariffHeader hired.tables.active 3).unit = 0 ∧
      (settling.Ready ∧ settling.meter ≠ .hired) :=
  ⟨hired_ready, rfl, rfl, rfl, by decide +kernel, by decide +kernel, settling_ready, nofun⟩

theorem wit_CloseTripEffects :
    settling.link.orderly ∧ settling.trip = some stopped ∧ settling.shifts.record.isSome = true ∧
      settling.sign.emergency = none := ⟨vacant_orderly, rfl, rfl, rfl⟩

theorem wit_CashUnpaidAndPrompt :
    (settling.Ready ∧ settling.meter = .settling ∧ settling.trip = some stopped ∧ settling.pay.auth = none ∧
      isPresent settling .cardTerminal = false) ∧
      ((authorizing false).Ready ∧ (authorizing false).pay.auth ≠ none) ∧
      isPresent (allPresent settling) .cardTerminal = true ∧
      0 < stopped.fareDue.getD 0 - (stopped.tenders.map (·.farePart)).sum ∧ (hired.Ready ∧ hired.meter ≠ .settling) :=
  ⟨⟨settling_ready, rfl, rfl, rfl, by decide⟩, ⟨⟨rfl, rfl, rfl, by decide⟩, nofun⟩, by decide, by decide, hired_ready, nofun⟩

theorem wit_ResumeReturnsToHired :
    (settling.Ready ∧ settling.meter = .settling ∧ settling.trip = some stopped ∧ stopped.tenders = [] ∧
      settling.pay.auth = none) ∧
      ((authorizing false).Ready ∧ (authorizing false).meter = .settling ∧ (authorizing false).pay.auth ≠ none) ∧
      (hired.Ready ∧ hired.meter ≠ .settling) :=
  ⟨⟨settling_ready, rfl, rfl, rfl, rfl⟩, ⟨⟨rfl, rfl, rfl, by decide⟩, rfl, nofun⟩, hired_ready, nofun⟩

theorem wit_PartyCountsAndLookup :
    (hired.Ready ∧ hired.trip = some (tripOf 3) ∧ hired.meter = .hired) ∧
      (settling.Ready ∧ settling.trip = some stopped ∧ settling.meter = .settling) ∧
      (vacant.Ready ∧ vacant.meter ≠ .hired ∧ vacant.meter ≠ .settling) ∧
      ((8#8 : Byte).toNat ≤ 8 ∧ 8 < (9#8 : Byte).toNat ∧ (15#8 : Byte).toNat ≤ 15 ∧ 15 < (16#8 : Byte).toNat) ∧
      hired.link.orderly ∧
      surchargeFound hired (tripOf 3) = ((tripOf 3).surcharge, (tripOf 3).stepAdd) ∧
      surchargeFound (hiredUnder 5) { tripOf 5 with passengers := 2 } = (100, 5) ∧
      ((tripOf 5).surcharge, (tripOf 5).stepAdd) = (0, 0) :=
  ⟨⟨hired_ready, rfl, rfl⟩, ⟨settling_ready, rfl, rfl⟩, ⟨vacant_ready, nofun, nofun⟩, by decide, vacant_orderly, by decide +kernel, by decide +kernel,
    by decide +kernel⟩

theorem wit_ShiftOpensAndCloses :
    (closed.Ready ∧ closed.meter = .closed ∧ closed.time.k ≠ 0 ∧ closed.time.clockUnset = false) ∧
      (vacant.Ready ∧ vacant.meter = .vacant ∧ vacant.shifts.record.isSome = true ∧ vacant.shifts.reports.length < 4) ∧
      (State.reset.meter = .closed ∧ State.reset.time.k = 0) ∧
      (hired.meter ≠ .vacant ∧ hired.meter ≠ .offDuty ∧ hired.meter ≠ .closed) ∧
      4 ≤ (List.replicate 4 (makeReport vacant (newShift closed 1))).length :=
  ⟨⟨closed_ready, rfl, by decide, rfl⟩, ⟨vacant_ready, rfl, rfl, by decide⟩, ⟨rfl, rfl⟩, ⟨nofun, nofun, nofun⟩, by decide⟩

theorem wit_EmergencyLineAndOnset :
    let s : State := { vacant with emgLine := true, sign := { vacant.sign with debounce := some 19 } }
    (s.running = true ∧ s.link.orderly ∧ s.sign.emergency = none ∧ s.sign.debounce = some 19 ∧ s.emgLine = true) ∧
      (vacant.running = true ∧ vacant.sign.emergency = none ∧ vacant.sign.debounce = none ∧ vacant.emgLine = false) ∧
      alarmed.sign.emergency ≠ none ∧ (after .mainSupplyLoss vacant).running = false :=
  ⟨⟨rfl, vacant_orderly, rfl, rfl, rfl⟩, ⟨rfl, rfl, rfl, rfl⟩, nofun, rfl⟩

theorem wit_EmergencyClearEnds :
    (alarmed.Ready ∧ alarmed.sign.emergency = some ⟨0, 5⟩) ∧ (vacant.Ready ∧ vacant.sign.emergency = none) ∧
      ([0#8] : List Byte) ≠ [] := ⟨⟨⟨rfl, rfl, rfl, by decide⟩, rfl⟩, ⟨vacant_ready, rfl⟩, nofun⟩

/-- VACANT with an ambient value and a band, every station PRESENT. -/
def dusk (level : Nat) : State :=
  allPresent { vacant with
    sign := { vacant.sign with ambient := some 30, level := level }
    tables := { vacant.tables with unbanked := bankOf [(10, 0, 0, [0#8, 6#8])] } }

theorem wit_SignRefreshAndBrightness :
    (isPresent vacant .roofSign = false ∧ alarmed.sign.emergency ≠ none ∧ vacant.sign.ambient = none) ∧
      ((dusk 6).running = true ∧ isPresent (dusk 6) .roofSign = true ∧ (dusk 6).sign.emergency = none ∧
        (dusk 6).sign.ambient = some 30) ∧
      (bandTarget (dusk 6).tables.unbanked 30 = some 6 ∧ bandTarget vacant.tables.unbanked 30 = none ∧
        (dusk 6).sign.level = 6 ∧ (dusk 5).sign.level < 6 ∧ 6 < (dusk 7).sign.level) :=
  ⟨⟨by decide, nofun, rfl⟩, ⟨rfl, by decide, rfl, rfl⟩, by decide +kernel⟩

theorem wit_SignStatusRecordsLamps :
    vacant.Ready ∧ (7#8 : Byte).toNat ≤ 7 ∧ 7 < (8#8 : Byte).toNat ∧ ([0#8] : List Byte).length ≠ 2 ∧
      (2#8 : Byte).setWidth 3 ≠ vacant.sign.lampFaults :=
  ⟨vacant_ready, by decide, by decide, by decide, by decide⟩

theorem wit_TalkFloor :
    let talking : State := { vacant with intercom := { vacant.intercom with floor := some ⟨.passengerA, 3⟩, waitB := true } }
    vacant.intercom.floor = none ∧ (talking.Ready ∧ talking.intercom.floor = some ⟨.passengerA, 3⟩) ∧ vacant.Ready ∧
      (allPresent vacant).Ready ∧ isPresent (allPresent vacant) .passengerA = true ∧
      isPresent vacant .passengerB = false :=
  ⟨rfl, ⟨⟨rfl, rfl, rfl, by decide⟩, rfl⟩, vacant_ready, ⟨rfl, rfl, rfl, by decide⟩, by decide, by decide⟩

theorem wit_OpenToggleCallAndPin :
    (hired.Ready ∧ hired.meter = .hired ∧ hired.trip = some (tripOf 3)) ∧
      (vacant.Ready ∧ vacant.meter ≠ .hired ∧ vacant.meter ≠ .settling) ∧
      (isPresent hired .cardTerminal = false ∧ isPresent (allPresent hired) .cardTerminal = true) :=
  ⟨⟨hired_ready, rfl, rfl⟩, ⟨vacant_ready, nofun, nofun⟩, by decide, by decide⟩

theorem wit_CabinAudioStaysPrivate :
    let s : State := { allPresent vacant with intercom := { vacant.intercom with pin := some 0 } }
    let loud : UpFrame := { idleFrame with passengerA := ⟨true, 32767#16⟩ }
    (s.running = true ∧ s.sign.emergency = none ∧ s.intercom.pin.isSome = true ∧ s.link.inbound = [] ∧
      (s.link.stations.get .cardTerminal).misses < 7) ∧
      (loud.answer = idleFrame.answer ∧ loud.message = idleFrame.message ∧ loud.modem = idleFrame.modem ∧
        loud.driver = idleFrame.driver ∧ idleFrame.message.valid = false ∧ loud.passengerA ≠ idleFrame.passengerA) ∧
      (∃ t, exec (.frame idleFrame false) s = .next t) ∧ ∃ u, exec (.frame loud false) s = .next u :=
  ⟨by decide, by decide, ⟨_, rfl⟩, ⟨_, rfl⟩⟩

/-- One source at a gain into the driver speaker, the other gains 0. -/
def routed (g : Nat) : State :=
  { vacant with
    tables := { vacant.tables with unbanked := bankOf [(11, 0, 0, [0#8, 0#8, 0#8, 0#8] ++ [BitVec.ofNat 8 g] ++
      List.replicate 11 0#8)] } }

theorem wit_MixScalesAndSaturates :
    let s := allPresent (routed 255)
    let loud : UpFrame := { idleFrame with passengerA := ⟨true, 32767#16⟩ }
    (mixGain (routed 64) 1 0 = 64 ∧ mixGain (routed 64) 0 0 = 0 ∧ mixGain (routed 64) 2 0 = 0 ∧
      mixGain (routed 64) 3 0 = 0 ∧ mixGain (routed 255) 1 0 = 255) ∧
      ((32767 : Int) * 255 + 32 ≥ 2097152 ∧ (-32768 : Int) * 255 + 32 < -2097152) ∧
      (s.running = true ∧ s.link.outbound = [] ∧ s.link.held = [] ∧ s.link.inbound = [] ∧ s.link.reception = none ∧
        (chooseGrant s.link).1 = some .meterHead ∧ isPresent s .meterHead = true ∧ s.time.divFrames + 1 < 800) ∧
      (loud.answer = ⟨true, Config.idleCode⟩ ∧ loud.message.valid = false ∧
        mixSaturates s ⟨0#16, 32767#16, 0#16, 0#16⟩ 0 = true ∧ s.intercom.clipMarks.x0 = false) := by decide +kernel

theorem wit_PayRequestAccepted :
    let s := cardsAllowed (allPresent settling)
    let last : Trip := { stopped with tenders := [⟨.cardOnline, 990, 0, 1, .settled⟩] }
    (s.Ready ∧ s.meter = .settling ∧ s.trip = some stopped ∧
      ∃ f, payFields payment = some f ∧ payCheck s stopped f = none ∧ f.farePart = 50 ∧ f.tip = 0 ∧
        payCheck s last f = none ∧ last.remaining = 50 ∧ payCheck (authorizing false) stopped f = some .busy) ∧
      (payFields [] = none ∧ vacant.Ready ∧ vacant.meter ≠ .settling) ∧
      (isOnline s = false ∧ isOnline { s with pay := { s.pay with bearerUp := true } } = true) ∧
      (offlineApproves s 0 50 = true ∧ offlineApproves s 0 51 = false ∧ 50 < stopped.remaining) := by
  refine ⟨⟨⟨rfl, rfl, rfl, by decide⟩, rfl, rfl, ⟨_, rfl, by decide +kernel, by decide +kernel, by decide +kernel,
    by decide +kernel, by decide +kernel, by decide +kernel⟩⟩, ⟨rfl, vacant_ready, nofun⟩, by decide +kernel, by decide +kernel⟩

theorem wit_PayCancelMarks :
    (settling.Ready ∧ settling.pay.auth = none) ∧
      ((authorizing true).Ready ∧ (authorizing true).pay.auth.map (·.cancelled) = some true) ∧
      ((authorizing false).Ready ∧ (authorizing false).pay.auth.map (·.cancelled) = some false ∧
        (authorizing false).trip = some stopped) :=
  ⟨⟨settling_ready, rfl⟩, ⟨⟨rfl, rfl, rfl, by decide⟩, rfl⟩, ⟨⟨rfl, rfl, rfl, by decide⟩, rfl, rfl⟩⟩

theorem wit_AuthResponseEndsPayment :
    ((authorizing false).Ready ∧ (authorizing true).Ready ∧ (authorizing false).trip = some stopped ∧
      (authorizing false).pay.auth.map (fun a => (a.number, a.ref, a.farePart)) = some (65535, ⟨7, 13, 1⟩, 40)) ∧
      (40 < stopped.remaining ∧ ({ stopped with fareDue := some 40 } : Trip).remaining ≤ 40) ∧
      (authorizing false).pay.late = [] ∧
      (let e : LateEntry := ⟨1, ⟨7, 12, 2⟩, 40, 0, .endedOffline, 0, 600⟩
      let s := capturing (.inFlight ⟨7, 12, 2⟩ 0 30) true
      [e] = [] ++ e :: [] ∧ e.number = 1 ∧ s.pay.auth = none ∧ (∃ d ∈ s.pay.deferred, d.ref = e.ref) ∧
        s.pay.capture = .inFlight e.ref 0 30 ∧ ¬∃ d ∈ vacant.pay.deferred, d.ref = e.ref) :=
  ⟨⟨⟨rfl, rfl, rfl, by decide⟩, ⟨rfl, rfl, rfl, by decide⟩, rfl, rfl⟩, by decide +kernel, rfl, by decide +kernel⟩

theorem wit_AuthTimerAndLateList :
    (vacant.running = true ∧ vacant.link.orderly ∧ vacant.pay.auth = none) ∧
      ((authorizing true).running = true ∧ (authorizing true).pay.auth.map (·.cancelled) = some true) ∧
      ((authorizing false).pay.auth.map (·.cancelled) = some false ∧ offlineApproves (authorizing false) 0 40 = false) ∧
      (offlineApproves (cardsAllowed (authorizing false)) 0 40 = true ∧
        (cardsAllowed (authorizing false)).trip = some stopped) :=
  ⟨⟨rfl, vacant_orderly, rfl⟩, ⟨rfl, rfl⟩, ⟨rfl, by decide⟩, by decide +kernel, rfl⟩

theorem wit_CaptureStateMoves :
    ((capturing (.inFlight ⟨7, 12, 1⟩ 0 30) true).Ready ∧ (capturing .idle false).Ready ∧
      (capturing (.waiting 59 60) true).Ready) ∧
      (isOnline (capturing (.waiting 0 60) false) = false ∧ isPresent (capturing .idle false) .fleetModem = true ∧
        (capturing .idle false).pay.deferred = deferred 1 :: [deferred 2]) ∧
      ((capturing .idle true).pay.capture = .idle ∧ isOnline (capturing .idle true) = true ∧
        (capturing .idle true).pay.deferred = deferred 1 :: [deferred 2]) ∧
      (vacant.Ready ∧ isPresent vacant .fleetModem = false ∧ vacant.pay.bearerUp = false) ∧
      ((allPresent vacant).Ready ∧ isPresent (allPresent vacant) .fleetModem = true ∧ vacant.pay.deferred = [] ∧
        vacant.pay.capture = .idle ∧ (capturing (.inFlight ⟨7, 12, 1⟩ 0 30) false).pay.bearerUp = false) :=
  ⟨⟨⟨rfl, rfl, rfl, by decide⟩, ⟨rfl, rfl, rfl, by decide⟩, ⟨rfl, rfl, rfl, by decide⟩⟩,
    ⟨by decide, by decide, rfl⟩, ⟨rfl, by decide, rfl⟩, ⟨vacant_ready, by decide, rfl⟩,
    ⟨rfl, rfl, rfl, by decide⟩, by decide, rfl, rfl, rfl⟩

theorem wit_CaptureResponseResolves :
    let s := capturing (.inFlight ⟨7, 12, 1⟩ 0 30) false
    (s.Ready ∧ s.pay.deferred = deferred 1 :: [deferred 2] ∧ isOnline s = false) ∧
      ((deferred 1).ref = ⟨7, 12, 1⟩ ∧ (deferred 1).ref ≠ ⟨65535, 65535, 4⟩) ∧
      ((capturing .idle true).Ready ∧ isOnline (capturing .idle true) = true) ∧ vacant.Ready ∧ vacant.pay.deferred = [] :=
  ⟨⟨⟨rfl, rfl, rfl, by decide⟩, rfl, by decide⟩, ⟨rfl, by decide⟩, ⟨⟨rfl, rfl, rfl, by decide⟩, by decide⟩, vacant_ready, rfl⟩

theorem wit_ReportReleaseAndSnapshot :
    let r := makeReport vacant { newShift closed 1 with number := 7 }
    let s : State := { vacant with shifts := { vacant.shifts with reports := [r], snapshot := some ⟨newShift closed 1, ⟨0, 0⟩, .meterHead⟩ } }
    (s.Ready ∧ s.shifts.reports = r :: [] ∧ r.record.number = (0#8 : Byte).toNat * 256 + (7#8 : Byte).toNat ∧
      s.shifts.snapshot.isSome = true ∧ s.shifts.record.isSome = true) ∧
      (closed.Ready ∧ closed.shifts.reports = [] ∧ closed.shifts.snapshot = none ∧ closed.shifts.record = none) :=
  ⟨⟨⟨rfl, rfl, rfl, by decide⟩, rfl, rfl, rfl, rfl⟩, closed_ready, rfl, rfl, rfl⟩

theorem wit_SupplyLossAndColdStart :
    (after .mainSupplyLoss vacant).running = false ∧
      Instr.tick ∉ [Instr.wallClockSecond, .emergencyLineAssert, .emergencyLineRelease, .mainSupplyLoss, .coldStart,
        .warmStart] := by decide

theorem wit_WarmStartEffects :
    (vacant.meter ≠ .hired ∧ vacant.meter ≠ .settling) ∧ (settling.trip = some stopped ∧ settling.meter = .settling) ∧
      (hired.trip = some (tripOf 3) ∧ hired.meter = .hired) := ⟨⟨nofun, nofun⟩, ⟨rfl, rfl⟩, rfl, rfl⟩

end Sys2Proof.Tests
end

