-- ==== Sys2Proof/Proofs/LinkFacts.lean ====
section
/-! PROOF. How the operations of the link controller behave (01), said once. -/

namespace Sys2Proof.Machine

/-! The records of the station table (01 R8, R10 to R12). -/

/-- The record of a station that answers its grant (01 R8, R12). -/
def StationRecord.answered (r : StationRecord) : StationRecord := { r with misses := 0, presence := .present }

/-- The record of a station after a miss (01 R12). -/
def StationRecord.missed (r : StationRecord) : StationRecord :=
  { r with
    misses := min Config.missLimit (r.misses + 1), missTotal := up16 r.missTotal
    presence := if Config.missLimit ≤ r.misses + 1 then .absent else r.presence }

theorem StationRecord.answered_of_present {r : StationRecord} (h : r.presence = .present) :
    r.answered = { r with misses := 0 } := by
  simp [answered, h]

theorem stationAnswers_eq (st : Station) (s : State) :
    stationAnswers st s =
      if (s.link.stations.get st).presence = .present then setRecord st (s.link.stations.get st).answered s
      else onlineAfter s
        (stationFoundActs st (raise .stationFound (setRecord st (s.link.stations.get st).answered s))) := rfl

/-- A miss writes the record, and the eighth in a row of a station that was not ABSENT has the effects of its loss. -/
theorem stationMisses_eq (st : Station) (s : State) :
    stationMisses st s =
      if Config.missLimit ≤ (s.link.stations.get st).misses + 1 ∧ (s.link.stations.get st).presence ≠ .absent then
        stationLostActs st (raiseIf ((s.link.stations.get st).presence = .present) .stationLost
          (setRecord st (s.link.stations.get st).missed s))
      else setRecord st (s.link.stations.get st).missed s := by
  have hrec :
      (if Config.missLimit ≤ (s.link.stations.get st).misses + 1 ∧ (s.link.stations.get st).presence ≠ .absent then
        Presence.absent else (s.link.stations.get st).presence) = (s.link.stations.get st).missed.presence := by
    by_cases hm : Config.missLimit ≤ (s.link.stations.get st).misses + 1 <;>
      by_cases hp : (s.link.stations.get st).presence = .absent <;> simp only [StationRecord.missed, hm, hp] <;> simp
  unfold stationMisses
  simp only [inf_eq_left, hrec]
  rfl

/-! The grant (01 R7). -/

theorem searchGrant_rotation (t : StationTable) (n : Nat) (st : Station) (rotation : Nat) (h : rotation < 16) :
    (searchGrant t n st rotation).2 < 16 := by
  induction n generalizing st rotation with
  | zero => exact h
  | succ n ih =>
    have hr : rotationAfter st rotation < 16 := by unfold rotationAfter; split <;> omega
    unfold searchGrant
    dsimp only
    split
    · exact hr
    · exact ih _ _ hr

/-- The grant changes the grant pointer and the rotation number alone. -/
theorem chooseGrant_link (l : LinkState) :
    (chooseGrant l).2 =
      { l with grantPointer := (chooseGrant l).2.grantPointer, rotation := (chooseGrant l).2.rotation } := by
  unfold chooseGrant
  repeat' split
  all_goals rfl

theorem chooseGrant_rotation (l : LinkState) (h : l.rotation < 16) : (chooseGrant l).2.rotation < 16 := by
  have hs := searchGrant_rotation l.stations 6 l.grantPointer l.rotation h
  unfold chooseGrant
  repeat' split
  all_goals simp_all

/-- A station is granted outside a reception only while an inbound place is free (01 R7). -/
theorem chooseGrant_room (l : LinkState) (hr : l.reception = none) (hg : (chooseGrant l).1.isSome) :
    l.inbound.length < Config.inboundCap := by
  unfold chooseGrant at hg
  by_contra hc
  simp [hr, Nat.le_of_not_lt hc] at hg

/-! The down lane's choice and the start of a frame (01 R2, R14, R16). -/

/-- The down lane's choice touches what waits for the lane and what is being sent. -/
theorem chooseMessage_link (l : LinkState) :
    chooseMessage l =
      { l with
        outbound := (chooseMessage l).outbound, held := (chooseMessage l).held
        displayPlace := (chooseMessage l).displayPlace, signPlace := (chooseMessage l).signPlace
        sending := (chooseMessage l).sending } := by
  unfold chooseMessage takeOutbound
  repeat' split
  all_goals rfl

/-- A place that the down lane frees in the outbound queue goes to the oldest held message. -/
theorem chooseMessage_orderly (l : LinkState) (h : l.orderly) : (chooseMessage l).orderly := by
  obtain ⟨hle, hheld⟩ := h
  unfold chooseMessage takeOutbound
  repeat' split
  all_goals simp_all [LinkState.orderly] <;> omega

/-- What the start of a frame leaves of the link, and what the grant search leaves in it. -/
theorem linkFrameStarts_keeps (l : LinkState) :
    (linkFrameStarts l).2.stations = l.stations ∧ (linkFrameStarts l).2.reception = l.reception ∧
      (linkFrameStarts l).2.inbound = l.inbound ∧ (linkFrameStarts l).2.mixed = l.mixed ∧
      (linkFrameStarts l).2.rotation = (chooseGrant l).2.rotation ∧
      (linkFrameStarts l).2.grantPointer = (chooseGrant l).2.grantPointer := by
  unfold linkFrameStarts
  dsimp only
  rw [chooseMessage_link, chooseGrant_link]
  simp

theorem linkFrameStarts_orderly (l : LinkState) (h : l.orderly) : (linkFrameStarts l).2.orderly := by
  have hg : (chooseGrant l).2.orderly := by rw [chooseGrant_link]; exact h
  exact chooseMessage_orderly _ hg

/-! The starts (01 R17). -/

/-- A warm start begins the link anew. -/
theorem warmBase_link (s : State) : (warmBase s).link = .start := by
  unfold warmBase warmPayment startShownMode startSign startTimebase beginWindow
  dsimp only
  split <;> simp [startLink]

end Sys2Proof.Machine
end


-- ==== Sys2Proof/Proofs/LinkBounds.lean ====
section
/-! PROOF. The bounds of the link (01 R2, R7, R12 to R14) through every command. -/

namespace Sys2Proof.Machine

/-- A station's record agrees with the ABSENT rule. -/
def StationRecord.missSound (r : StationRecord) : Prop :=
  r.misses ≤ Config.missLimit ∧ (r.presence = .absent ↔ r.misses = Config.missLimit)

/-- The bounds of the link that hold also inside a frame, where a message may wait inbound for a moment while an outbound place
is free. -/
structure LinkState.Fits (l : LinkState) : Prop where
  orderly : l.orderly
  inboundFits : l.inbound.length + (if l.reception.isSome then 1 else 0) ≤ Config.inboundCap
  rotationFits : l.rotation < 16
  frameFits : l.frameNumber < 16
  absent : ∀ st, (l.stations.get st).missSound

theorem LinkState.sound_iff (l : LinkState) :
    l.Sound ↔ l.Fits ∧ (l.inbound ≠ [] → l.outbound.length = Config.outboundCap) :=
  ⟨fun h => ⟨⟨h.orderly, h.inboundFits, h.rotationFits, h.frameFits, h.absent⟩, h.taken⟩,
    fun ⟨h, k⟩ => ⟨h.orderly, h.inboundFits, k, h.rotationFits, h.frameFits, h.absent⟩⟩

theorem LinkState.Sound.fits {l : LinkState} (h : l.Sound) : l.Fits := (l.sound_iff.mp h).1

theorem LinkState.start_sound : LinkState.start.Sound where
  orderly := by simp [orderly, start]
  inboundFits := by simp [start]
  taken := by simp [start]
  rotationFits := by simp [start]
  frameFits := by simp [start]
  absent st := by cases st <;> simp [start, StationTable.start, StationTable.get, StationRecord.start]

/-! Offers keep the bounds. -/

/-- Offers fill no more than the outbound queue and the hold line. -/
theorem LinkState.Fits.queues {a b : LinkState} (h : a.Fits) (k : a.Queues b) : b.Fits := by
  obtain ⟨ms, q⟩ := k h.orderly
  obtain ⟨hst, -, hrot, hfr, hrec, hin, -⟩ := q.keeps
  exact ⟨q.ordered, by rw [hin, hrec]; exact h.inboundFits, hrot ▸ h.rotationFits, hfr ▸ h.frameFits, hst ▸ h.absent⟩

/-- A full outbound queue stays full through offers. -/
theorem LinkState.Queued.full {a b : LinkState} {ms : List Outbound} (q : a.Queued b ms)
    (h : a.outbound.length = Config.outboundCap) : b.outbound.length = Config.outboundCap := by
  obtain ⟨hw, ⟨hle, hheld⟩, -⟩ := q
  have hlen := congrArg List.length hw
  simp only [LinkState.waiting, List.length_append] at hlen
  by_cases hb : b.held = []
  · simp only [hb, List.length_nil] at hlen
    omega
  · exact hheld hb

theorem LinkState.Sound.queues {a b : LinkState} (h : a.Sound) (k : a.Queues b) : b.Sound := by
  obtain ⟨ms, q⟩ := k h.orderly
  refine b.sound_iff.mpr ⟨h.fits.queues k, fun hb => q.full (h.taken ?_)⟩
  obtain ⟨-, -, -, -, -, hin, -⟩ := q.keeps
  rwa [← hin]

/-! The dispatcher brings the inbound queue back behind a full outbound queue (01 R13, 02 R19). -/

/-- A message less in the inbound queue. -/
theorem LinkState.Fits.inboundTail {l : LinkState} {m : Inbound} {rest : List Inbound} (h : l.Fits)
    (hm : l.inbound = m :: rest) : ({ l with inbound := rest } : LinkState).Fits :=
  ⟨h.orderly, by have := h.inboundFits; simp only [hm, List.length_cons] at this; dsimp only; omega, h.rotationFits,
    h.frameFits, h.absent⟩

/-- What handling a message leaves of an orderly link. -/
theorem handleMessage_queued (m : Inbound) (s : State) (h : s.link.orderly) :
    ∃ ms, s.link.Queued (handleMessage m s).link ms :=
  handleMessage_queues m s (LinkState.Queues.refl s.link) h

/-- The dispatcher that may take every waiting message ends with none waiting, or with a full outbound queue. -/
theorem drain_sound (n : Nat) (s : State) (hn : s.link.inbound.length ≤ n) (h : s.link.Fits) : (drain n s).link.Sound := by
  induction n generalizing s with
  | zero =>
    exact (LinkState.sound_iff _).mpr ⟨h, fun hi => absurd (List.length_eq_zero_iff.mp (Nat.le_zero.mp hn)) hi⟩
  | succ n ih =>
    unfold drain
    split
    case h_1 hi => exact (LinkState.sound_iff _).mpr ⟨h, fun k => absurd hi k⟩
    case h_2 m rest hi =>
      split
      · have ht : ({ s.link with inbound := rest } : LinkState).Fits := h.inboundTail hi
        obtain ⟨ms, q⟩ := handleMessage_queued m { s with link := { s.link with inbound := rest } } ht.orderly
        obtain ⟨-, -, -, -, -, hin, -⟩ := q.keeps
        refine ih _ ?_ (ht.queues fun _ => ⟨ms, q⟩)
        simp only [hi, List.length_cons] at hn
        rw [hin]
        dsimp only
        omega
      · exact (LinkState.sound_iff _).mpr ⟨h, fun _ => le_antisymm h.orderly.1 (by omega)⟩

theorem dispatchInbound_sound (s : State) (h : s.link.Fits) : (dispatchInbound s).link.Sound :=
  drain_sound _ s le_rfl h

/-- The dispatcher does not lengthen the inbound queue and leaves a reception alone. -/
theorem drain_inbound (n : Nat) (s : State) (h : s.link.Fits) :
    (drain n s).link.inbound.length ≤ s.link.inbound.length ∧ (drain n s).link.reception = s.link.reception := by
  induction n generalizing s with
  | zero => exact ⟨le_rfl, rfl⟩
  | succ n ih =>
    unfold drain
    split
    case h_1 => exact ⟨le_rfl, rfl⟩
    case h_2 m rest hi =>
      split
      · have ht : ({ s.link with inbound := rest } : LinkState).Fits := h.inboundTail hi
        obtain ⟨ms, q⟩ := handleMessage_queued m { s with link := { s.link with inbound := rest } } ht.orderly
        obtain ⟨-, -, -, -, hrec, hin, -⟩ := q.keeps
        obtain ⟨hlen, hr⟩ := ih _ (ht.queues fun _ => ⟨ms, q⟩)
        rw [hin] at hlen
        exact ⟨hlen.trans (by simp [hi]), hr.trans hrec⟩
      · exact ⟨le_rfl, rfl⟩

/-- A message that finds a free place joins within the inbound queue's capacity. -/
theorem joinInbound_fits (m : Inbound) (s : State) (h : s.link.Fits) (hf : inboundFree s.link = true) :
    (joinInbound m s).link.Fits where
  orderly := h.orderly
  inboundFits := by
    have room := of_decide_eq_true hf
    cases hr : s.link.reception <;> simp [hr, joinInbound] at room ⊢ <;> omega
  rotationFits := h.rotationFits
  frameFits := h.frameFits
  absent := h.absent

theorem deliver_sound (m : Inbound) (s : State) (h : s.link.Sound) : (deliver m s).link.Sound := by
  unfold deliver
  split
  case isTrue hf => exact dispatchInbound_sound _ (joinInbound_fits m s h.fits hf)
  case isFalse => exact h

/-! The station table: ABSENT exactly at 8 consecutive misses (01 R12). -/

theorem StationRecord.answered_missSound (r : StationRecord) : r.answered.missSound := by
  simp [missSound, answered]

theorem StationRecord.missed_missSound (r : StationRecord) (h : r.missSound) : r.missed.missSound := by
  obtain ⟨hle, habs⟩ := h
  refine ⟨min_le_left _ _, ?_⟩
  by_cases hm : Config.missLimit ≤ r.misses + 1
  · simp [missed, hm]
  · have hp : r.presence ≠ .absent := fun k => hm (by have := habs.mp k; omega)
    have hn : min Config.missLimit (r.misses + 1) ≠ Config.missLimit := by omega
    simp only [missed, hm, if_false, hp, hn]

/-- A sound record written keeps the bounds. -/
theorem setRecord_fits (st : Station) (r : StationRecord) (s : State) (h : s.link.Fits) (hr : r.missSound) :
    (setRecord st r s).link.Fits where
  orderly := h.orderly
  inboundFits := h.inboundFits
  rotationFits := h.rotationFits
  frameFits := h.frameFits
  absent st' := by
    by_cases e : st' = st
    · subst e
      simpa only [setRecord, StationTable.get_set] using hr
    · simpa only [setRecord, StationTable.get_set_ne _ r e] using h.absent st'

/-- The link after a reception is begun, continued or ended within the inbound queue's capacity. -/
theorem setReception_fits (r : Option Reception) (s : State) (h : s.link.Fits)
    (hr : s.link.inbound.length + (if r.isSome then 1 else 0) ≤ Config.inboundCap) : (setReception r s).link.Fits :=
  ⟨h.orderly, hr, h.rotationFits, h.frameFits, h.absent⟩

/-- What the answer of a station does beside its record is to offer messages and write refresh places. -/
theorem stationAnswers_queues (st : Station) (s : State) :
    (setRecord st (s.link.stations.get st).answered s).link.Queues (stationAnswers st s).link := by
  rw [stationAnswers_eq]
  split
  · exact .refl _
  · exact onlineAfter_queues _ _ (stationFoundActs_queues _ _ (raise_queues _ _ (.refl _)))

theorem stationMisses_queues (st : Station) (s : State) :
    (setRecord st (s.link.stations.get st).missed s).link.Queues (stationMisses st s).link := by
  rw [stationMisses_eq]
  split
  · exact stationLostActs_queues _ _ (raiseIf_queues _ _ _ (.refl _))
  · exact .refl _

theorem stationAnswers_fits (st : Station) (s : State) (h : s.link.Fits) : (stationAnswers st s).link.Fits :=
  (setRecord_fits st _ s h (StationRecord.answered_missSound _)).queues (stationAnswers_queues st s)

theorem stationMisses_fits (st : Station) (s : State) (h : s.link.Fits) : (stationMisses st s).link.Fits :=
  (setRecord_fits st _ s h (StationRecord.missed_missSound _ (h.absent st))).queues (stationMisses_queues st s)

theorem stationTruncates_fits (st : Station) (s : State) (h : s.link.Fits) : (stationTruncates st s).link.Fits :=
  have hs := setRecord_fits st { s.link.stations.get st with truncations := up16 (s.link.stations.get st).truncations } s h
    (h.absent st)
  (stationMisses_fits st _ hs).queues (raise_queues _ _ (.refl _))

theorem stationFailsCheck_fits (st : Station) (s : State) (h : s.link.Fits) : (stationFailsCheck st s).link.Fits :=
  have hs := setRecord_fits st { s.link.stations.get st with checkFailures := up16 (s.link.stations.get st).checkFailures } s
    h (h.absent st)
  hs.queues (raise_queues _ _ (.refl _))

/-! The parts of a frame. -/

/-- The end of a frame that added its two bytes keeps the bounds: a reception that ends leaves its place to the message. -/
theorem receptionAdvances_fits (st : Station) (l : List Byte) (s : State) (h : s.link.Fits)
    (hr : s.link.reception.isSome) : (receptionAdvances st l s).link.Fits := by
  have hfit : s.link.inbound.length + 1 ≤ Config.inboundCap := by simpa [hr] using h.inboundFits
  have hend : (setReception none s).link.Fits := setReception_fits none s h (by simp; omega)
  unfold receptionAdvances
  dsimp only
  split
  · exact setReception_fits _ s h (by simpa using hfit)
  split
  · exact stationFailsCheck_fits _ _ hend
  split
  · exact setReception_fits _ s h (by simpa using hfit)
  split
  · exact joinInbound_fits _ _ hend (by simpa [inboundFree, setReception] using hfit)
  · exact stationFailsCheck_fits _ _ hend

/-- The up lane keeps the bounds, when the station granted outside a reception finds a free inbound place (01 R7). -/
theorem readUpLane_fits (grant : Option Station) (up : UpFrame) (s : State) (h : s.link.Fits)
    (hg : s.link.reception = none → grant.isSome → s.link.inbound.length < Config.inboundCap) :
    (readUpLane grant up s).link.Fits := by
  unfold readUpLane
  split
  case h_1 r hr =>
    split
    · exact receptionAdvances_fits _ _ s h (by simp [hr])
    · exact stationTruncates_fits _ _ (setReception_fits none s h (by have := h.inboundFits; simp; omega))
  case h_2 hr =>
    split
    case h_1 => exact h
    case h_2 st =>
      split
      · refine setReception_fits _ _ (stationAnswers_fits st s h) ?_
        obtain ⟨ms, q⟩ := stationAnswers_queues st s h.orderly
        obtain ⟨-, -, -, -, -, hin, -⟩ := q.keeps
        have := hg hr rfl
        rw [hin]
        simpa [setRecord] using this
      split
      · exact stationAnswers_fits st s h
      · exact stationMisses_fits st s h

/-- The start of a frame keeps the bounds; the dispatcher has not yet taken what the freed outbound place allows. -/
theorem linkFrameStarts_fits (l : LinkState) (h : l.Fits) : (linkFrameStarts l).2.Fits := by
  obtain ⟨hst, hrec, hin, -, hrot, -⟩ := linkFrameStarts_keeps l
  exact ⟨linkFrameStarts_orderly l h.orderly, by rw [hin, hrec]; exact h.inboundFits,
    hrot ▸ chooseGrant_rotation l h.rotationFits, Nat.mod_lt _ (by decide), hst ▸ h.absent⟩

/-- A mix hands its outputs on and may raise AUDIO CLIP. -/
theorem mixEvent_fits (x : Four Sample) (s : State) (h : s.link.Fits) : (mixEvent x s).link.Fits := by
  have hm : ∀ v, ({ s.link with mixed := v } : LinkState).Fits := fun _ =>
    ⟨h.orderly, h.inboundFits, h.rotationFits, h.frameFits, h.absent⟩
  exact (hm _).queues
    (raiseIf_queues _ _ _ (raiseIf_queues _ _ _ (raiseIf_queues _ _ _ (raiseIf_queues _ _ _ (.refl _)))))

/-- A frame keeps the link's bounds: what comes to wait inbound while an outbound place is free is taken within the frame. -/
theorem frameRuns_sound (up : UpFrame) (s : State) (h : s.link.Sound) : (frameRuns up s).link.Sound := by
  have hstart := linkFrameStarts_fits s.link h.fits
  have hdisp := dispatchInbound_sound { s with link := (linkFrameStarts s.link).2 } hstart
  have hup : (readUpLane (linkFrameStarts s.link).1 up
      (dispatchInbound { s with link := (linkFrameStarts s.link).2 })).link.Fits := by
    refine readUpLane_fits _ up _ hdisp.fits fun hr hg => ?_
    obtain ⟨-, hrec, hin, -⟩ := linkFrameStarts_keeps s.link
    obtain ⟨hlen, hrec'⟩ := drain_inbound _ { s with link := (linkFrameStarts s.link).2 } hstart
    have hroom := chooseGrant_room s.link (by rw [← hrec, ← hrec']; exact hr) hg
    exact lt_of_le_of_lt hlen (by rw [hin]; exact hroom)
  exact (dispatchInbound_sound _ (mixEvent_fits _ _ hup)).queues (countFrame_queues _ (.refl _))

/-! Every command. -/

/-- The starts begin the link anew and place the first messages (01 R17). -/
theorem coldStarts_sound (s : State) : (coldStarts s).link.Sound :=
  LinkState.start_sound.queues (startMessages_queues _ (by simp [startShownMode, startSign, startTimebase, coldBase,
    LinkState.Queues.refl]))

theorem warmStarts_sound (s : State) : (warmStarts s).link.Sound :=
  LinkState.start_sound.queues (startMessages_queues _ (selectionOccasion_queues _ (powerBreak_queues _ (by
    rw [warmBase_link]; exact .refl _))))

theorem supplyLost_sound (s : State) (h : s.link.Sound) : (supplyLost s).link.Sound :=
  ⟨h.orderly, h.inboundFits, h.taken, h.rotationFits, h.frameFits, h.absent⟩

/-- Every command keeps the link's bounds. -/
theorem exec_sound (c : Instr) (s t : State) (h : s.link.Sound) (e : exec c s = .next t) : t.link.Sound := by
  cases hm : messageOf c with
  | some m =>
    rw [exec_deliver c m s hm, Host.Outcome.next.injEq] at e
    subst e
    have hs : (sensed c s).link.Sound := by simpa using h
    split
    · exact deliver_sound m _ hs
    · exact hs
  | none =>
    cases c <;> simp only [messageOf, reduceCtorEq] at hm
    case frame up cal =>
      cases e
      split
      · exact frameRuns_sound up { s with calLine := cal } h
      · exact h
    case coldStart => cases e; exact coldStarts_sound s
    case warmStart => cases e; exact warmStarts_sound s
    case mainSupplyLoss => cases e; exact supplyLost_sound s h
    case wallClockSecond =>
      cases e
      split
      · exact h.queues (clockSecondRunning_queues s (.refl _))
      · exact h
    all_goals
      cases e
      split
      · exact h.queues (by simp [LinkState.Queues.refl])
      · exact h

/-- Settles O4: a step is the front command, and every command keeps the bounds. -/
theorem stepKeepsLinkSound : Obligations.StepKeepsLinkSound := by
  intro s t h e
  cases hp : s.pending with
  | nil =>
    rw [step_nil s hp, Host.Outcome.next.injEq] at e
    exact e ▸ h
  | cons c rest =>
    rw [step_cons s c rest hp] at e
    exact exec_sound c { s with pending := rest } t h e

end Sys2Proof.Machine
end

