-- ==== Sys2Proof/Proofs/LinkKeeps.lean ====
section
/-! PROOF. What every operation leaves of the link, whatever the queues hold: all but the messages that wait for the down lane. -/

namespace Sys2Proof.Machine

section

variable (s : State) (src st : Station) (payload : List Byte) (arg : Byte) (e : Event) (side : Side) (tr : Trip)
  (ref : Reference) (f : IntercomState → IntercomState)

/-- The link but for the messages that wait for the down lane (01 R14, R15): no queue bound is asked for, as `LinkState.Queues`
asks. -/
def LinkState.bare (l : LinkState) : LinkState :=
  { l with outbound := [], held := [], displayPlace := none, signPlace := none }

@[simp] theorem offer_bare (m : Outbound) : (offer m s).link.bare = s.link.bare := by unfold offer; split <;> rfl
@[simp] theorem placeDisplay_bare : (placeDisplay s).link.bare = s.link.bare := rfl
@[simp] theorem placeSign_bare : (placeSign s).link.bare = s.link.bare := rfl
@[simp] theorem reply_bare (dest : Station) (kind : Byte) (r : Result) (data : List Byte) :
    (reply dest kind r data s).link.bare = s.link.bare := by
  simp [reply]
@[simp] theorem refuse_bare (dest : Station) (kind : Byte) (r : Result) :
    (refuse dest kind r s).link.bare = s.link.bare := by
  simp [refuse]
@[simp] theorem notifyHead_bare : (notifyHead e s).link.bare = s.link.bare := by
  unfold notifyHead; dsimp only; repeat' split
  all_goals simp
@[simp] theorem notifyModem_bare : (notifyModem e s).link.bare = s.link.bare := by
  unfold notifyModem; dsimp only; repeat' split
  all_goals simp
@[simp] theorem raise_bare : (raise e s).link.bare = s.link.bare := by simp [raise]
@[simp] theorem raiseIf_bare (c : Bool) : (raiseIf c e s).link.bare = s.link.bare := by unfold raiseIf; split <;> simp
@[simp] theorem signRefreshDue_bare : (signRefreshDue s).link.bare = s.link.bare := by simp [signRefreshDue]
@[simp] theorem refreshSecond_bare : (refreshSecond s).link.bare = s.link.bare := by
  unfold refreshSecond; split <;> simp
@[simp] theorem brightnessStep_bare : (brightnessStep s).link.bare = s.link.bare := by
  unfold brightnessStep; dsimp only; repeat' split
  all_goals simp
@[simp] theorem steppingSecond_bare : (steppingSecond s).link.bare = s.link.bare := by
  unfold steppingSecond; split <;> simp
@[simp] theorem signMeterChanged_bare : (signMeterChanged s).link.bare = s.link.bare := by
  unfold signMeterChanged; split <;> simp
@[simp] theorem emergencyBegins_bare : (emergencyBegins s).link.bare = s.link.bare := by simp [emergencyBegins]
@[simp] theorem debounceTick_bare : (debounceTick s).link.bare = s.link.bare := by
  unfold debounceTick; repeat' split
  all_goals simp
@[simp] theorem emergencyEnds_bare : (emergencyEnds s).link.bare = s.link.bare := by simp [emergencyEnds]
@[simp] theorem lampNewlyFailed_bare : (lampNewlyFailed s).link.bare = s.link.bare := by simp [lampNewlyFailed]
@[simp] theorem checkLamp_bare (held reported : BitVec 3) (lamp : Nat) :
    (checkLamp held reported lamp s).link.bare = s.link.bare := by
  unfold checkLamp; split <;> simp
@[simp] theorem signStatusTaken_bare (ambient : Nat) (reported : BitVec 3) :
    (signStatusTaken ambient reported s).link.bare = s.link.bare := by
  unfold signStatusTaken; dsimp only; (repeat' split) <;> simp (maxDischargeDepth := 16)
@[simp] theorem windowEnds_bare : (windowEnds s).link.bare = s.link.bare := by
  unfold windowEnds; dsimp only; split <;> simp
@[simp] theorem displayIfClockShown_bare (before : TimeState) :
    (displayIfClockShown before s).link.bare = s.link.bare := by
  unfold displayIfClockShown; split <;> simp
@[simp] theorem journalPlace_bare (e : JournalEntry) : (journalPlace e s).link.bare = s.link.bare := by
  unfold journalPlace; split <;> simp
@[simp] theorem shiftTripClosed_bare : (shiftTripClosed tr s).link.bare = s.link.bare := by simp [shiftTripClosed]
@[simp] theorem updateShownMode_bare : (updateShownMode s).link.bare = s.link.bare := by
  unfold updateShownMode; dsimp only; split <;> simp
@[simp] theorem changeFloor_bare : (changeFloor f s).link.bare = s.link.bare := by simp [changeFloor]
@[simp] theorem holdExpires_bare : (holdExpires s).link.bare = s.link.bare := by unfold holdExpires; split <;> simp
@[simp] theorem holdSecond_bare : (holdSecond s).link.bare = s.link.bare := by
  unfold holdSecond; split <;> (try split) <;> simp
@[simp] theorem passengerLost_bare (p : Party) : (passengerLost p s).link.bare = s.link.bare := by
  simp [passengerLost]
@[simp] theorem setOpenFlag_bare (v : Bool) : (setOpenFlag v s).link.bare = s.link.bare := by
  unfold setOpenFlag; split <;> simp
@[simp] theorem callTaken_bare : (callTaken s).link.bare = s.link.bare := by simp [callTaken]
@[simp] theorem testFareLimit_bare : (testFareLimit s).link.bare = s.link.bare := by
  unfold testFareLimit; split <;> (try split) <;> simp
@[simp] theorem fareChanged_bare : (fareChanged s).link.bare = s.link.bare := by simp [fareChanged]
@[simp] theorem chargeDrop_bare : (chargeDrop side s).link.bare = s.link.bare := by simp [chargeDrop]
@[simp] theorem chargeIfStepping_bare : (chargeIfStepping side tr s).link.bare = s.link.bare := by
  unfold chargeIfStepping; split <;> simp
@[simp] theorem expireSingle_bare : (expireSingle side tr s).link.bare = s.link.bare := by simp [expireSingle]
@[simp] theorem expireDouble_bare : (expireDouble side tr s).link.bare = s.link.bare := by
  unfold expireDouble; dsimp only; repeat' split
  all_goals simp
@[simp] theorem expire_bare : (expire side s).link.bare = s.link.bare := by
  unfold expire; split <;> (try split) <;> simp
@[simp] theorem fareTick_bare : (fareTick s).link.bare = s.link.bare := by
  unfold fareTick; repeat' split
  all_goals simp
@[simp] theorem surchargeLookup_bare : (surchargeLookup s).link.bare = s.link.bare := by
  unfold surchargeLookup; split <;> (try split) <;> simp
@[simp] theorem fareTariffChange_bare : (fareTariffChange s).link.bare = s.link.bare := by simp [fareTariffChange]
@[simp] theorem addExtra_bare (item amount : Nat) : (addExtra item amount s).link.bare = s.link.bare := by
  unfold addExtra; split <;> simp
@[simp] theorem selectionEvents_bare (r : SelectionResult) : (selectionEvents r s).link.bare = s.link.bare := by
  simp [selectionEvents]
@[simp] theorem addPeriod_bare : (addPeriod s).link.bare = s.link.bare := by
  unfold addPeriod; repeat' split
  all_goals simp
@[simp] theorem changeTariff_bare (t : Nat) : (changeTariff t s).link.bare = s.link.bare := by
  simp (maxDischargeDepth := 16) [changeTariff]
@[simp] theorem runForTrip_bare : (runForTrip s).link.bare = s.link.bare := by
  unfold runForTrip; dsimp only; repeat' split
  all_goals simp
@[simp] theorem selectionOccasion_bare : (selectionOccasion s).link.bare = s.link.bare := by
  unfold selectionOccasion; split <;> simp
@[simp] theorem signAfterTable_bare (table : Nat) : (signAfterTable table s).link.bare = s.link.bare := by
  unfold signAfterTable; split <;> simp
@[simp] theorem takeTableWrite_bare : (takeTableWrite src payload s).link.bare = s.link.bare := by
  unfold takeTableWrite; split <;> simp
@[simp] theorem takeTableClear_bare : (takeTableClear src payload s).link.bare = s.link.bare := by
  unfold takeTableClear; dsimp only; repeat' split
  all_goals simp
@[simp] theorem takeTableRead_bare : (takeTableRead src payload s).link.bare = s.link.bare := by
  unfold takeTableRead; dsimp only; repeat' split
  all_goals simp
@[simp] theorem performActivation_bare (version : Nat) : (performActivation version s).link.bare = s.link.bare := by
  simp [performActivation]
@[simp] theorem activationAtClose_bare : (activationAtClose s).link.bare = s.link.bare := by
  unfold activationAtClose; split <;> simp
@[simp] theorem takeTableActivate_bare : (takeTableActivate src payload s).link.bare = s.link.bare := by
  unfold takeTableActivate; dsimp only; repeat' split
  all_goals simp
@[simp] theorem setMeter_bare (m : MeterState) : (setMeter m s).link.bare = s.link.bare := by
  simp (maxDischargeDepth := 16) [setMeter]
@[simp] theorem offerDue_bare : (offerDue s).link.bare = s.link.bare := by
  unfold offerDue; split <;> (try split) <;> simp
@[simp] theorem offerEnded_bare : (offerEnded s).link.bare = s.link.bare := by
  unfold offerEnded; split <;> (try split) <;> simp
@[simp] theorem accountTrip_bare : (accountTrip s).link.bare = s.link.bare := by unfold accountTrip; split <;> simp
@[simp] theorem endTrip_bare : (endTrip s).link.bare = s.link.bare := by simp [endTrip]
@[simp] theorem closeTrip_bare : (closeTrip s).link.bare = s.link.bare := by
  simp (maxDischargeDepth := 16) [closeTrip]
@[simp] theorem recordTender_bare (kind : TenderKind) (farePart tip : Nat) :
    (recordTender kind farePart tip s).link.bare = s.link.bare := by
  unfold recordTender; split <;> (try split) <;> simp
@[simp] theorem openTrip_bare (t key : Nat) : (openTrip t key s).link.bare = s.link.bare := by
  simp (maxDischargeDepth := 16) [openTrip]
@[simp] theorem keyHire_bare : (keyHire src arg s).link.bare = s.link.bare := by
  unfold keyHire; dsimp only; (repeat' split) <;> simp (maxDischargeDepth := 16)
@[simp] theorem keyStop_bare : (keyStop src arg s).link.bare = s.link.bare := by
  unfold keyStop withNoArgument; dsimp only; (repeat' split) <;> simp (maxDischargeDepth := 16)
@[simp] theorem keyResume_bare : (keyResume src arg s).link.bare = s.link.bare := by
  unfold keyResume withNoArgument; dsimp only; (repeat' split) <;> simp (maxDischargeDepth := 16)
@[simp] theorem keyTender_bare (kind : TenderKind) : (keyTender kind src s).link.bare = s.link.bare := by
  unfold keyTender; split <;> (try split) <;> simp
@[simp] theorem keyCash_bare : (keyCash src arg s).link.bare = s.link.bare := by
  unfold keyCash withNoArgument; split <;> simp
@[simp] theorem keyUnpaid_bare : (keyUnpaid src arg s).link.bare = s.link.bare := by
  unfold keyUnpaid withNoArgument; split <;> simp
@[simp] theorem keyPrompt_bare : (keyPrompt src arg s).link.bare = s.link.bare := by
  unfold keyPrompt withNoArgument; dsimp only; (repeat' split) <;> simp
@[simp] theorem keyMove_bare (old new : MeterState) : (keyMove old new src arg s).link.bare = s.link.bare := by
  unfold keyMove withNoArgument; dsimp only; (repeat' split) <;> simp
@[simp] theorem keyOnCall_bare : (keyOnCall src arg s).link.bare = s.link.bare := by simp [keyOnCall]
@[simp] theorem keyCancelCall_bare : (keyCancelCall src arg s).link.bare = s.link.bare := by simp [keyCancelCall]
@[simp] theorem keyOffDuty_bare : (keyOffDuty src arg s).link.bare = s.link.bare := by simp [keyOffDuty]
@[simp] theorem keyOnDuty_bare : (keyOnDuty src arg s).link.bare = s.link.bare := by simp [keyOnDuty]
@[simp] theorem extraCapped_bare : (extraCapped s).link.bare = s.link.bare := by simp [extraCapped]
@[simp] theorem dueIfRaised_bare (before : Trip) : (dueIfRaised before s).link.bare = s.link.bare := by
  unfold dueIfRaised; split <;> (try split) <;> simp
@[simp] theorem keyExtra_bare : (keyExtra src arg s).link.bare = s.link.bare := by
  unfold keyExtra; dsimp only; (repeat' split) <;> simp (maxDischargeDepth := 16)
@[simp] theorem keyPassengers_bare : (keyPassengers src arg s).link.bare = s.link.bare := by
  unfold keyPassengers; dsimp only; (repeat' split) <;> simp (maxDischargeDepth := 16)
@[simp] theorem keyLuggage_bare : (keyLuggage src arg s).link.bare = s.link.bare := by
  unfold keyLuggage; dsimp only; repeat' split
  all_goals simp
@[simp] theorem keyTalk_bare : (keyTalk f src s).link.bare = s.link.bare := by simp [keyTalk]
@[simp] theorem keyTalkDown_bare : (keyTalkDown src arg s).link.bare = s.link.bare := by
  unfold keyTalkDown withNoArgument; split <;> simp
@[simp] theorem keyTalkUp_bare : (keyTalkUp src arg s).link.bare = s.link.bare := by
  unfold keyTalkUp withNoArgument; split <;> simp
@[simp] theorem keyOpenToggle_bare : (keyOpenToggle src arg s).link.bare = s.link.bare := by
  unfold keyOpenToggle withNoArgument; dsimp only; (repeat' split) <;> simp
@[simp] theorem takeKey_bare : (takeKey src payload s).link.bare = s.link.bare := by
  unfold takeKey; split <;> (try split) <;> simp
@[simp] theorem takeShiftOpen_bare : (takeShiftOpen src payload s).link.bare = s.link.bare := by
  unfold takeShiftOpen; dsimp only; repeat' split
  all_goals simp
@[simp] theorem takeShiftClose_bare : (takeShiftClose src payload s).link.bare = s.link.bare := by
  unfold takeShiftClose; repeat' split
  all_goals simp
@[simp] theorem takeDispatch_bare : (takeDispatch src payload s).link.bare = s.link.bare := by
  unfold takeDispatch; split <;> (try split) <;> simp
@[simp] theorem captureCheck_bare : (captureCheck s).link.bare = s.link.bare := by
  unfold captureCheck; split <;> (try split) <;> simp
@[simp] theorem onlineBegins_bare : (onlineBegins s).link.bare = s.link.bare := by unfold onlineBegins; split <;> simp
@[simp] theorem onlineAfter_bare (before : State) : (onlineAfter before s).link.bare = s.link.bare := by
  unfold onlineAfter; split <;> simp
@[simp] theorem modemStatusTaken_bare (up : Bool) : (modemStatusTaken up s).link.bare = s.link.bare := by
  simp [modemStatusTaken]
@[simp] theorem captureWaitEnds_bare : (captureWaitEnds s).link.bare = s.link.bare := by
  unfold captureWaitEnds; split <;> simp
@[simp] theorem captureSecond_bare : (captureSecond s).link.bare = s.link.bare := by
  unfold captureSecond; split <;> (try split) <;> simp
@[simp] theorem offlineApprove_bare (issuer cls farePart tip : Nat) (token : List Byte) :
    (offlineApprove ref issuer cls farePart tip token s).link.bare = s.link.bare := by
  simp [offlineApprove]
@[simp] theorem offerPayResult_bare (number : Nat) (o : PayOutcome) (farePart tip remaining : Nat) :
    (offerPayResult number ref o farePart tip remaining s).link.bare = s.link.bare := by
  simp [offerPayResult]
@[simp] theorem payFails_bare (number : Nat) (o : PayOutcome) (farePart tip : Nat) :
    (payFails number ref o farePart tip s).link.bare = s.link.bare := by
  simp [payFails]
@[simp] theorem paySucceeds_bare (number : Nat) (o : PayOutcome) (kind : TenderKind) (farePart tip : Nat) :
    (paySucceeds number ref o kind farePart tip s).link.bare = s.link.bare := by
  simp [paySucceeds]
@[simp] theorem offerVoid_bare (number : Nat) (farePart tip : Nat) :
    (offerVoid number ref farePart tip s).link.bare = s.link.bare := by
  simp [offerVoid]
@[simp] theorem resolveDeferred_bare : (resolveDeferred ref s).link.bare = s.link.bare := by
  unfold resolveDeferred; split <;> simp
@[simp] theorem resolveLate_bare (e : LateEntry) (approved : Bool) :
    (resolveLate e approved s).link.bare = s.link.bare := by
  unfold resolveLate; split <;> (try split) <;> simp
@[simp] theorem authExpires_bare : (authExpires s).link.bare = s.link.bare := by
  unfold authExpires; dsimp only; (repeat' split) <;> simp (maxDischargeDepth := 16)
@[simp] theorem authSecond_bare : (authSecond s).link.bare = s.link.bare := by
  unfold authSecond; split <;> (try split) <;> simp
@[simp] theorem authResponseTaken_bare (number : Nat) (approved : Bool) :
    (authResponseTaken number ref approved s).link.bare = s.link.bare := by
  unfold authResponseTaken; dsimp only; repeat' split
  all_goals simp
@[simp] theorem captureResponseTaken_bare (accepted : Bool) :
    (captureResponseTaken ref accepted s).link.bare = s.link.bare := by
  unfold captureResponseTaken; repeat' split
  all_goals simp
@[simp] theorem payOnline_bare (f : PayFields) : (payOnline src tr f s).link.bare = s.link.bare := by simp [payOnline]
@[simp] theorem payOffline_bare (f : PayFields) : (payOffline src tr f s).link.bare = s.link.bare := by
  unfold payOffline; dsimp only; (repeat' split) <;> simp (maxDischargeDepth := 16)
@[simp] theorem takePayRequest_bare : (takePayRequest src payload s).link.bare = s.link.bare := by
  unfold takePayRequest; repeat' split
  all_goals simp
@[simp] theorem takePayCancel_bare : (takePayCancel src payload s).link.bare = s.link.bare := by
  unfold takePayCancel; repeat' split
  all_goals simp
@[simp] theorem takeDeferredRead_bare : (takeDeferredRead src payload s).link.bare = s.link.bare := by
  unfold takeDeferredRead; dsimp only; split <;> simp
@[simp] theorem emptyPending_bare : (emptyPending src s).link.bare = s.link.bare := by
  unfold emptyPending; split <;> (try split) <;> simp
@[simp] theorem takeStatusRead_bare : (takeStatusRead src payload s).link.bare = s.link.bare := by
  unfold takeStatusRead; split <;> (try split) <;> simp
@[simp] theorem takeNoticeMask_bare : (takeNoticeMask src payload s).link.bare = s.link.bare := by
  unfold takeNoticeMask; dsimp only; repeat' split
  all_goals simp
@[simp] theorem takeFlagsClear_bare : (takeFlagsClear src payload s).link.bare = s.link.bare := by
  unfold takeFlagsClear; split <;> simp
@[simp] theorem takeCalibrate_bare : (takeCalibrate src payload s).link.bare = s.link.bare := by
  unfold takeCalibrate; dsimp only; repeat' split
  all_goals simp
@[simp] theorem takeClockSet_bare : (takeClockSet src payload s).link.bare = s.link.bare := by
  unfold takeClockSet; dsimp only; repeat' split
  all_goals simp
@[simp] theorem zoneUpdateTaken_bare (zone : Nat) : (zoneUpdateTaken zone s).link.bare = s.link.bare := by
  unfold zoneUpdateTaken; split <;> simp
@[simp] theorem takeEmergencyClear_bare : (takeEmergencyClear src payload s).link.bare = s.link.bare := by
  unfold takeEmergencyClear; split <;> (try split) <;> simp
@[simp] theorem takeJournalRead_bare : (takeJournalRead src payload s).link.bare = s.link.bare := by
  unfold takeJournalRead; dsimp only; repeat' split
  all_goals simp
@[simp] theorem takeReportRead_bare : (takeReportRead src payload s).link.bare = s.link.bare := by
  unfold takeReportRead; dsimp only; repeat' split
  all_goals simp
@[simp] theorem takeReportRelease_bare : (takeReportRelease src payload s).link.bare = s.link.bare := by
  unfold takeReportRelease; repeat' split
  all_goals simp
@[simp] theorem takeSnapshotTake_bare : (takeSnapshotTake src payload s).link.bare = s.link.bare := by
  unfold takeSnapshotTake; split <;> (try split) <;> simp
@[simp] theorem takeSnapshotRead_bare : (takeSnapshotRead src payload s).link.bare = s.link.bare := by
  unfold takeSnapshotRead; dsimp only; repeat' split
  all_goals simp
@[simp] theorem takeSnapshotRelease_bare : (takeSnapshotRelease src payload s).link.bare = s.link.bare := by
  unfold takeSnapshotRelease; split <;> (try split) <;> simp
@[simp] theorem talkDownTaken_bare : (talkDownTaken src s).link.bare = s.link.bare := by
  unfold talkDownTaken; split <;> simp
@[simp] theorem takeReport_bare (kind : ReportKind) : (takeReport src kind payload s).link.bare = s.link.bare := by
  unfold takeReport; split <;> simp
@[simp] theorem takeRequest_bare (kind : Request) : (takeRequest src kind payload s).link.bare = s.link.bare := by
  unfold takeRequest; split <;> simp
@[simp] theorem handleMessage_bare (m : Inbound) : (handleMessage m s).link.bare = s.link.bare := by
  unfold handleMessage; split <;> (try split) <;> simp
@[simp] theorem hiredSecond_bare : (hiredSecond s).link.bare = s.link.bare := by unfold hiredSecond; split <;> simp
@[simp] theorem signSecond_bare : (signSecond s).link.bare = s.link.bare := by simp [signSecond]
@[simp] theorem intercomSecond_bare : (intercomSecond s).link.bare = s.link.bare := by simp [intercomSecond]
@[simp] theorem paymentSecond_bare : (paymentSecond s).link.bare = s.link.bare := by simp [paymentSecond]
@[simp] theorem fareSecondOccurs_bare : (fareSecondOccurs s).link.bare = s.link.bare := by
  simp (maxDischargeDepth := 16) [fareSecondOccurs]
@[simp] theorem countTick_bare : (countTick s).link.bare = s.link.bare := by unfold countTick; split <;> simp
@[simp] theorem tickOccurs_bare : (tickOccurs s).link.bare = s.link.bare := by
  simp (maxDischargeDepth := 16) [tickOccurs]
@[simp] theorem countFrame_bare : (countFrame s).link.bare = s.link.bare := by unfold countFrame; split <;> simp
@[simp] theorem stationFoundActs_bare : (stationFoundActs st s).link.bare = s.link.bare := by
  unfold stationFoundActs; split <;> simp
@[simp] theorem stationLostActs_bare : (stationLostActs st s).link.bare = s.link.bare := by
  unfold stationLostActs; split <;> simp

/-! The frame count of the tick divider: handling a message leaves it alone (04 R52). -/

@[simp] theorem recomputeCalendar_divFrames : (recomputeCalendar s).time.divFrames = s.time.divFrames := rfl
@[simp] theorem performActivation_divFrames (version : Nat) :
    (performActivation version s).time.divFrames = s.time.divFrames := by
  simp [performActivation]
@[simp] theorem activationAtClose_divFrames : (activationAtClose s).time.divFrames = s.time.divFrames := by
  unfold activationAtClose; split <;> simp
@[simp] theorem closeTrip_divFrames : (closeTrip s).time.divFrames = s.time.divFrames := by
  simp (maxDischargeDepth := 16) [closeTrip]
@[simp] theorem recordTender_divFrames (kind : TenderKind) (farePart tip : Nat) :
    (recordTender kind farePart tip s).time.divFrames = s.time.divFrames := by
  unfold recordTender; split <;> (try split) <;> simp
@[simp] theorem keyStop_divFrames : (keyStop src arg s).time.divFrames = s.time.divFrames := by
  unfold keyStop withNoArgument; dsimp only; (repeat' split) <;> simp (maxDischargeDepth := 16)
@[simp] theorem keyTender_divFrames (kind : TenderKind) :
    (keyTender kind src s).time.divFrames = s.time.divFrames := by
  unfold keyTender; split <;> (try split) <;> simp
@[simp] theorem keyCash_divFrames : (keyCash src arg s).time.divFrames = s.time.divFrames := by
  unfold keyCash withNoArgument; split <;> simp
@[simp] theorem keyUnpaid_divFrames : (keyUnpaid src arg s).time.divFrames = s.time.divFrames := by
  unfold keyUnpaid withNoArgument; split <;> simp
@[simp] theorem takeKey_divFrames : (takeKey src payload s).time.divFrames = s.time.divFrames := by
  unfold takeKey; split <;> (try split) <;> simp
@[simp] theorem takeTableActivate_divFrames :
    (takeTableActivate src payload s).time.divFrames = s.time.divFrames := by
  unfold takeTableActivate; dsimp only; repeat' split
  all_goals simp
@[simp] theorem paySucceeds_divFrames (number : Nat) (o : PayOutcome) (kind : TenderKind) (farePart tip : Nat) :
    (paySucceeds number ref o kind farePart tip s).time.divFrames = s.time.divFrames := by
  simp [paySucceeds]
@[simp] theorem authResponseTaken_divFrames (number : Nat) (approved : Bool) :
    (authResponseTaken number ref approved s).time.divFrames = s.time.divFrames := by
  unfold authResponseTaken; dsimp only; repeat' split
  all_goals simp
@[simp] theorem payOffline_divFrames (f : PayFields) :
    (payOffline src tr f s).time.divFrames = s.time.divFrames := by
  unfold payOffline; dsimp only; (repeat' split) <;> simp (maxDischargeDepth := 16)
@[simp] theorem takePayRequest_divFrames : (takePayRequest src payload s).time.divFrames = s.time.divFrames := by
  unfold takePayRequest; repeat' split
  all_goals simp
@[simp] theorem takeCalibrate_divFrames : (takeCalibrate src payload s).time.divFrames = s.time.divFrames := by
  unfold takeCalibrate; dsimp only; repeat' split
  all_goals simp
@[simp] theorem takeClockSet_divFrames : (takeClockSet src payload s).time.divFrames = s.time.divFrames := by
  unfold takeClockSet; dsimp only; repeat' split
  all_goals simp
@[simp] theorem zoneUpdateTaken_divFrames (zone : Nat) :
    (zoneUpdateTaken zone s).time.divFrames = s.time.divFrames := by
  unfold zoneUpdateTaken; split <;> simp
@[simp] theorem takeReport_divFrames (kind : ReportKind) :
    (takeReport src kind payload s).time.divFrames = s.time.divFrames := by
  unfold takeReport; split <;> simp
@[simp] theorem takeRequest_divFrames (kind : Request) :
    (takeRequest src kind payload s).time.divFrames = s.time.divFrames := by
  unfold takeRequest; split <;> simp
@[simp] theorem handleMessage_divFrames (m : Inbound) : (handleMessage m s).time.divFrames = s.time.divFrames := by
  unfold handleMessage; split <;> (try split) <;> simp

/-! The parts of the link that two links with the same bare link share. -/

theorem LinkState.bare_keeps {a b : LinkState} (h : a.bare = b.bare) :
    a.stations = b.stations ∧ a.grantPointer = b.grantPointer ∧ a.rotation = b.rotation ∧
      a.frameNumber = b.frameNumber ∧ a.reception = b.reception ∧ a.inbound = b.inbound ∧ a.sending = b.sending ∧
      a.mixed = b.mixed ∧ a.lastFrame = b.lastFrame := by
  cases a; cases b
  simpa [bare] using h

@[simp] theorem handleMessage_link (m : Inbound) :
    (handleMessage m s).link.stations = s.link.stations ∧
      (handleMessage m s).link.grantPointer = s.link.grantPointer ∧
      (handleMessage m s).link.rotation = s.link.rotation ∧
      (handleMessage m s).link.frameNumber = s.link.frameNumber ∧
      (handleMessage m s).link.reception = s.link.reception ∧ (handleMessage m s).link.inbound = s.link.inbound ∧
      (handleMessage m s).link.sending = s.link.sending ∧ (handleMessage m s).link.mixed = s.link.mixed ∧
      (handleMessage m s).link.lastFrame = s.link.lastFrame :=
  LinkState.bare_keeps (handleMessage_bare s m)

end

end Sys2Proof.Machine
end

