-- ==== Sys2Proof/Proofs/Dispatcher.lean ====
section
/-! PROOF. The dispatcher at the inbound queue (01 R13, 02 R19), and the messages it turns away (02 R19 to R22). -/

namespace Sys2Proof.Machine

/-! Taking what the inbound queue holds. -/

/-- With no message waiting, or no free outbound place, the dispatcher takes nothing. -/
theorem drain_idle (n : Nat) (s : State) (h : s.link.inbound = [] ∨ Config.outboundCap ≤ s.link.outbound.length) :
    drain n s = s := by
  cases n with
  | zero => rfl
  | succ n =>
    unfold drain
    split
    · rfl
    · exact if_neg (by simp_all)

theorem dispatchInbound_idle (s : State)
    (h : s.link.inbound = [] ∨ Config.outboundCap ≤ s.link.outbound.length) : dispatchInbound s = s :=
  drain_idle _ s h

/-- With a free outbound place the oldest waiting message is handled first, and then the others as the queue allows. -/
theorem dispatchInbound_cons (s : State) (m : Inbound) (rest : List Inbound) (hi : s.link.inbound = m :: rest)
    (hr : s.link.outbound.length < Config.outboundCap) :
    dispatchInbound s = dispatchInbound (handleMessage m { s with link := { s.link with inbound := rest } }) := by
  simp [dispatchInbound, hi, drain, hr]

/-- The dispatcher that may take every waiting message ends with none waiting, or with no free outbound place. -/
theorem drain_done (n : Nat) (s : State) (hn : s.link.inbound.length ≤ n) :
    (drain n s).link.inbound = [] ∨ Config.outboundCap ≤ (drain n s).link.outbound.length := by
  induction n generalizing s with
  | zero => exact .inl (List.length_eq_zero_iff.mp (Nat.le_zero.mp hn))
  | succ n ih =>
    unfold drain
    split
    case h_1 hi => exact .inl hi
    case h_2 m rest hi =>
      split
      · exact ih _ (by simpa [hi] using hn)
      · exact .inr (by omega)

/-- What the dispatcher leaves of the link, and that it counts no frame. -/
theorem drain_link (n : Nat) (s : State) :
    (drain n s).link.stations = s.link.stations ∧ (drain n s).link.grantPointer = s.link.grantPointer ∧
      (drain n s).link.rotation = s.link.rotation ∧ (drain n s).link.reception = s.link.reception ∧
      (drain n s).link.lastFrame = s.link.lastFrame ∧ (drain n s).time.divFrames = s.time.divFrames := by
  induction n generalizing s with
  | zero => simp [drain]
  | succ n ih =>
    unfold drain
    repeat' split
    all_goals simp [ih]

@[simp] theorem dispatchInbound_link (s : State) :
    (dispatchInbound s).link.stations = s.link.stations ∧
      (dispatchInbound s).link.grantPointer = s.link.grantPointer ∧
      (dispatchInbound s).link.rotation = s.link.rotation ∧ (dispatchInbound s).link.reception = s.link.reception ∧
      (dispatchInbound s).link.lastFrame = s.link.lastFrame ∧
      (dispatchInbound s).time.divFrames = s.time.divFrames :=
  drain_link _ s

/-! The classes of messages that are turned away. -/

theorem handleMessage_unknown (m : Inbound) (s : State) (h : classify m.kind = .unknown) :
    handleMessage m s = refuse m.src m.kind .unknownKind s := by
  simp [handleMessage, h]

theorem handleMessage_forbidden (m : Inbound) (r : Request) (s : State) (h : classify m.kind = .request r)
    (hp : mayRequest m.src r = false) : handleMessage m s = refuse m.src m.kind .refusedPermission s := by
  simp [handleMessage, h, hp]

theorem handleMessage_controllerOnly (m : Inbound) (s : State) (h : classify m.kind = .controllerOnly) :
    handleMessage m s = raise .linkCheck s := by
  simp [handleMessage, h]

theorem handleMessage_badReport (m : Inbound) (r : ReportKind) (s : State) (h : classify m.kind = .report r)
    (hp : mayReport m.src r = false ∨ reportFormOk r m.payload = false) : handleMessage m s = raise .linkCheck s := by
  rcases hp with hp | hp <;> simp [handleMessage, h, hp]

/-- Only the requests carry a level of the calibration line. -/
theorem sensed_report (c : Instr) (m : Inbound) (r : ReportKind) (s : State) (hc : messageOf c = some m)
    (h : classify m.kind = .report r) : sensed c s = s := by
  cases c <;> try rfl
  case calibrate src cal payload =>
    cases hc
    exact nomatch (h : KindClass.request .calibrate = .report r)
  case frame => cases hc

/-! Where the DISPLAY stands after occurrences (02 R27, 07 R123). -/

theorem noticeIndicator_or (p q : EventSet) :
    noticeIndicator (p ||| q) = (noticeIndicator p || noticeIndicator q) := by
  have hd : (p ||| q) &&& ~~~Event.emergency.only =
      (p &&& ~~~Event.emergency.only) ||| (q &&& ~~~Event.emergency.only) := by
    ext i; simp [Bool.and_or_distrib_right]
  rw [Bool.eq_iff_iff]
  simp only [noticeIndicator, hd, bne_iff_ne, ne_eq, BitVec.or_eq_zero_iff, Bool.or_eq_true]
  tauto

/-- Occurrences raise the notice-pending indicator or leave it. -/
theorem DispatcherState.heardAll_indicator (d : DispatcherState) (es : List Event)
    (h : noticeIndicator d.headPending = true) : noticeIndicator (d.heardAll es).headPending = true := by
  induction es generalizing d with
  | nil => exact h
  | cons e es ih =>
    refine ih (d.heard e) ?_
    unfold heard
    split <;> simp [noticeIndicator_or, h]

/-- The meter head's part of an occurrence writes the DISPLAY place exactly when the notice-pending indicator changes. -/
theorem notifyHead_displayPlace (e : Event) (s : State) :
    if noticeIndicator s.disp.headPending = noticeIndicator (notifyHead e s).disp.headPending then
      (notifyHead e s).link.displayPlace = s.link.displayPlace
    else (notifyHead e s).Shows := by
  rw [notifyHead_disp]
  unfold notifyHead
  by_cases hm : e.isIn s.disp.headMask
  · by_cases hi : noticeIndicator s.disp.headPending = noticeIndicator (s.disp.headPending ||| e.only)
    · simp only [hm, if_true, hi, bne_self_eq_false, Bool.false_eq_true, if_false]
      split <;> simp
    · simp [hm, hi]
  · simp [hm]

theorem raise_placesFollow (e : Event) (s : State) : s.PlacesFollow (raise e s) := by
  refine ⟨raise_signPlace e s, ?_⟩
  have h := notifyHead_displayPlace e
    (withShift (countEvent (exceptionMap s.tables.unbanked) e)
      { s with disp := { s.disp with flags := s.disp.flags ||| e.only } })
  unfold raise
  simp only [notifyModem_disp]
  split
  case isTrue hi =>
    rw [if_pos (by simpa using hi)] at h
    simpa using h
  case isFalse hi =>
    rw [if_neg (by simpa using hi)] at h
    unfold State.Shows at h ⊢
    rw [(notifyModem_places _ _).2, h, displayPayload_congr] <;> simp [notifyModem_disp]

/-- What the DISPLAY shows after a handling that leaves the notice-pending indicator. -/
theorem State.Sends.displayPayload {s t : State} {es : List Event} {ms : List Outbound} (h : s.Sends t es ms)
    (hi : noticeIndicator s.disp.headPending = noticeIndicator t.disp.headPending) :
    displayPayload t = displayPayload s := by
  obtain ⟨-, -, -, -, -, htab, htime, hmeter, htrip, hsign, hic, -, -⟩ := h.keeps
  simp [Machine.displayPayload, shownLabel, shownAmounts, shownExtras, openFlagNow, htab, htime, hmeter, htrip, hsign,
    hic, hi]

theorem State.PlacesFollow.refl (s : State) : s.PlacesFollow s := ⟨rfl, by simp⟩

/-- The refresh places after occurrences and then more occurrences: the indicator rises once at most. -/
theorem State.PlacesFollow.trans {s t u : State} {es fs : List Event} {ms ns : List Outbound} (h : s.PlacesFollow t)
    (k : t.PlacesFollow u) (hs : s.Sends t es ms) (ks : t.Sends u fs ns) : s.PlacesFollow u := by
  obtain ⟨hsign, hdisp⟩ := h
  obtain ⟨ksign, kdisp⟩ := k
  have hup := s.disp.heardAll_indicator es
  have kup := t.disp.heardAll_indicator fs
  obtain ⟨-, -, -, -, hdt, -⟩ := hs.keeps
  obtain ⟨-, -, -, -, hdu, -⟩ := ks.keeps
  rw [← hdt] at hup
  rw [← hdu] at kup
  refine ⟨ksign.trans hsign, ?_⟩
  by_cases h1 : noticeIndicator s.disp.headPending = noticeIndicator t.disp.headPending
  · rw [if_pos h1] at hdisp
    rw [← h1] at kdisp
    rwa [← hdisp]
  · have h2 : noticeIndicator t.disp.headPending = noticeIndicator u.disp.headPending := by
      cases hn : noticeIndicator s.disp.headPending <;> cases ht : noticeIndicator t.disp.headPending <;> simp_all
    rw [if_neg h1] at hdisp
    rw [if_pos h2] at kdisp
    rw [if_neg (h2 ▸ h1)]
    unfold State.Shows at hdisp ⊢
    rw [kdisp, hdisp, ks.displayPayload h2]

/-- Settles O16: each class of message by its branch of the dispatcher, and the inbound queue by its own laws. -/
theorem messagesTurnedAway : Obligations.MessagesTurnedAway := by
  refine ⟨fun s hr => ⟨fun src kind payload hk => ?_, fun c m r hc hk hp => ?_⟩,
    fun s hr => ⟨fun src kind payload hk => ⟨_, exec_message _ _ s rfl hr, ?_⟩,
      fun c m r hc hk hp => ⟨_, exec_message c m s hc hr, ?_⟩⟩,
    fun s c m hrun hc => ⟨fun hfull hplace => ?_, fun hplace => ?_⟩, fun s => ⟨?_, ?_⟩⟩
  · rw [exec_message _ _ s rfl hr, handleMessage_unknown _ _ hk, refuse_answered _ _ _ _ (hr.sensing _)]
    rfl
  · rw [exec_message c m s hc hr, handleMessage_forbidden m r _ hk hp, refuse_answered _ _ _ _ (hr.sensing c)]
  · rw [handleMessage_controllerOnly _ _ hk]
    exact ⟨raise_occurs _ s hr.orderly, raise_placesFollow _ s⟩
  · rw [sensed_report c m r s hc hk, handleMessage_badReport m r s hk hp]
    exact ⟨raise_occurs _ s hr.orderly, raise_placesFollow _ s⟩
  · rw [exec_deliver c m s hc, if_pos hrun, deliver, if_pos (by simpa [inboundFree] using hplace),
      dispatchInbound_idle _ (.inr (by simpa [joinInbound] using hfull))]
    simp [joinInbound]
  · rw [exec_deliver c m s hc, if_pos hrun, deliver, if_neg (by simpa [inboundFree] using hplace)]
  · exact fun hroom m rest hi => dispatchInbound_cons s m rest hi hroom
  · exact fun hfull => dispatchInbound_idle s (.inr hfull)

end Sys2Proof.Machine
end

