-- ==== Sys2Proof/Proofs/Starts.lean ====
section
/-! PROOF. The loss of the main supply and the two starts (01 R17, 04 R61, 07 R124, 08 R136, 10 R175). -/

namespace Sys2Proof.Machine

/-! The cold start. -/

/-- The first window, the calendar state and the alarm after a cold start (04 R61): empty tables, day 0. -/
theorem startTimebase_coldBase (s : State) : startTimebase (coldBase s) = coldBase s := by
  have hoffset : alarmOffset [] 0 0 = 86400 := by decide
  have hflags : calendarFlagsOf [] (minuteOfWeek 0 0) = 0#8 := by decide
  have hday : dayTypeOf [] 0 = .weekday := by decide
  simp [startTimebase, beginWindow, recomputeCalendar, coldBase, TimeState.cold, TableState.cold, hoffset, hflags, hday,
    windowBudget]

/-- A cold start, whatever stood before: the reset state but for the command queue, the two line levels and the debounce. -/
theorem coldStarts_eq (s : State) :
    coldStarts s =
      { State.reset with
        pending := s.pending, emgLine := s.emgLine, calLine := s.calLine
        sign := { State.reset.sign with debounce := if s.emgLine then some 0 else none } } := by
  unfold coldStarts
  rw [startTimebase_coldBase]
  have hsign : startSign (coldBase s) =
      { coldBase s with sign := { SignState.cold with debounce := if s.emgLine then some 0 else none } } := by
    cases h : s.emgLine <;> simp [startSign, coldBase, SignState.cold, h]
  have hshown : displayPayload (startShownMode (startSign (coldBase s))) =
      [0#8, 0#8, 0#8, 0#8, 0#8, 0#8, 0#8, 0#8, 0#8, 0#8, 1#8, 0#8] :=
    (displayPayload_congr (t := State.reset) rfl rfl rfl rfl rfl rfl rfl).trans (by decide)
  rw [startMessages, placeDisplay, hshown, hsign]
  rfl

/-- Settles O2: the blocks by their definitions, the first two messages as a cold start places them. -/
theorem resetIsColdStart : Obligations.ResetIsColdStart :=
  ⟨⟨rfl, rfl, rfl, rfl, rfl, rfl, rfl, rfl, rfl⟩, ⟨rfl, rfl, rfl, rfl, rfl⟩, ⟨rfl, rfl, rfl, rfl, rfl⟩,
    ⟨rfl, rfl, rfl, rfl, rfl, rfl, rfl, rfl, rfl, rfl, rfl, rfl, rfl, rfl, rfl⟩, ⟨rfl, rfl⟩, ⟨rfl, rfl, rfl, rfl, rfl⟩,
    ⟨rfl, rfl, rfl⟩, ⟨rfl, rfl, rfl, rfl, rfl, rfl⟩, ⟨rfl, rfl, rfl, rfl, rfl⟩, rfl, ⟨true, rfl⟩,
    coldStarts_eq State.reset⟩

/-- The link after a cold start: no message waits but in the two refresh places. -/
theorem reset_link_sound : State.reset.link.Sound :=
  LinkState.start_sound.queues fun h => ⟨[], rfl, h, rfl⟩

theorem reset_tripSound : State.reset.TripSound := by
  constructor <;> simp [State.reset, ShiftState.cold, PaymentState.cold]

theorem reset_withinBounds : State.reset.WithinBounds := by
  constructor <;> simp [State.reset, ShiftState.cold, PaymentState.cold, TimeState.cold, SignState.cold,
    IntercomState.start]

theorem reset_canonical : State.reset.tables.Canonical where
  active := rfl
  standby := rfl
  unbanked := rfl
  noDefault _ _ _ _ := nofun

/-- Settles O3: invariant by invariant. -/
theorem resetKeepsInvariants : Obligations.ResetKeepsInvariants :=
  ⟨reset_link_sound, reset_tripSound, reset_withinBounds, reset_canonical⟩

/-! The loss of the main supply (01 R1, log 11). -/

/-- Without the main supply a command is lost, but for the clock's, the emergency line's and the starts. -/
theorem exec_stopped (c : Instr) (s : State) (h : s.running = false)
    (hc : c ∉ [Instr.wallClockSecond, .emergencyLineAssert, .emergencyLineRelease, .mainSupplyLoss, .coldStart,
      .warmStart]) : exec c s = .next (sensed c s) := by
  cases hm : messageOf c with
  | some m => rw [exec_deliver c m s hm, h]; rfl
  | none =>
    have lost : ∀ (f : State → State) (t : State), t.running = false → whileRunning f t = .next t := fun f t ht => by
      simp [whileRunning, ht]
    cases c <;> simp only [messageOf, reduceCtorEq] at hm
    case tick | fareSecond => exact congrArg _ (if_neg (by simp [h]))
    case wallClockSecond | emergencyLineAssert | emergencyLineRelease | mainSupplyLoss | coldStart | warmStart =>
      exact absurd (by simp) hc
    all_goals exact lost _ _ h

/-- Settles O59. -/
theorem supplyLossAndColdStart : Obligations.SupplyLossAndColdStart :=
  ⟨fun s => ⟨rfl, fun h c hc => exec_stopped c s h hc⟩, fun s => congrArg _ (coldStarts_eq s)⟩

/-! The warm start. -/

theorem startMessages_shows (s : State) : (startMessages s).Shows :=
  congrArg (fun l => some (⟨.meterHead, kindDisplay, l⟩ : Outbound))
    (displayPayload_congr (t := startMessages s) rfl rfl rfl rfl rfl rfl rfl)

theorem startMessages_signs (s : State) : (startMessages s).Signs := placeSign_signs _

/-- The two messages of a start are told to the sign's own bookkeeping alone (08 R128). -/
theorem State.Sends.startMessages {s t : State} {es : List Event} {ms : List Outbound} (h : s.Sends t es ms) :
    ({ s with sign := { s.sign with
      lastLegend := some (signLegend s.tables.unbanked (commandedSign s)).1.toNat, refresh := 0 } } : State).Sends
      (startMessages t) es ms := h.display.signPlaced

theorem powerBreak_idle {s : State} (h1 : s.meter ≠ .hired) (h2 : s.meter ≠ .settling) : powerBreak s = s := by
  simp [powerBreak, inTrip, h1, h2]

/-- A trip that the start interrupted is marked before POWER BREAK occurs (07 R124). -/
theorem powerBreak_inTrip {s : State} {tr : Trip} (h : s.meter = .hired ∨ s.meter = .settling) (ht : s.trip = some tr) :
    powerBreak s = raise .powerBreak { s with trip := some { tr with powerBreak := true } } := by
  rcases h with h | h <;> simp [powerBreak, inTrip, h, withTrip, ht]

theorem LinkState.start_orderly : LinkState.start.orderly := start_sound.orderly

/-- Settles O60: the blocks as the model's warm start leaves them, then POWER BREAK, the run and the two messages. -/
theorem warmStartEffects : Obligations.WarmStartEffects := by
  intro s base told
  have hbase : warmBase s = base := by
    unfold warmBase warmPayment
    cases ha : s.pay.auth <;> simp only [startLink, ha] <;> simp only [base, ha] <;> rfl
  have hlink : base.link.orderly := LinkState.start_orderly
  have hrun : warmStarts s = startMessages (selectionOccasion (powerBreak base)) := by rw [warmStarts, hbase]
  refine ⟨_, rfl, startMessages_shows _, startMessages_signs _, fun h1 h2 => ?_, ?_⟩
  · rw [hrun, powerBreak_idle (s := base) h1 h2, selectionOccasion, if_neg (show base.meter ≠ .hired from h1)]
    exact (State.Sends.refl hlink).startMessages.occurs
  intro tr ht marked
  refine ⟨fun hm => ?_, fun hm => ?_⟩
  · have hsends := (raise_occurs .powerBreak marked hlink).sends
    have hne : (raise .powerBreak marked).meter ≠ .hired := by simp [marked, base, hm]
    rw [hrun, powerBreak_inTrip (s := base) (.inr hm) ht, selectionOccasion, if_neg hne]
    exact hsends.startMessages.occurs
  · have hoccurs := raise_occurs .powerBreak marked hlink
    have hm' : (raise .powerBreak marked).meter = .hired := by simp [marked, base, hm]
    refine ⟨_, hoccurs, raise_placesFollow _ _, ?_⟩
    rw [hrun, powerBreak_inTrip (s := base) (.inl hm) ht, selectionOccasion, if_pos hm']
    obtain ⟨ms, hq⟩ := runForTrip_queues (raise .powerBreak marked) (.refl _) hoccurs.orderly
    have htold : told (runForTrip (raise .powerBreak marked)) =
        { runForTrip (raise .powerBreak marked) with
          sign := { (runForTrip (raise .powerBreak marked)).sign with
            lastLegend := some (signLegend (runForTrip (raise .powerBreak marked)).tables.unbanked
              (commandedSign (runForTrip (raise .powerBreak marked)))).1.toNat
            refresh := 0 } } := by
      simp [told, commandedSign, marked, base]
    rw [htold]
    exact (State.Sends.refl hq.ordered).startMessages.occurs

end Sys2Proof.Machine
end

