-- ==== Sys2Proof/Proofs/Lane.lean ====
section
/-! PROOF. The down lane (01 R5, R14, R16): a message sent whole, the next message, and offers. -/

namespace Sys2Proof.Machine

theorem laneBytes_lanePair (a b : Byte) : laneBytes (lanePair a b) = [a, b] := by
  have ha : ((lanePair a b) >>> 8).setWidth 8 = a := by
    ext i hi
    simp only [lanePair, BitVec.getElem_setWidth, BitVec.getLsbD_ushiftRight, BitVec.getLsbD_append]
    simp [hi]
  have hb : (lanePair a b).setWidth 8 = b := by
    ext i hi
    simp only [lanePair, BitVec.getElem_setWidth, BitVec.getLsbD_append]
    simp [hi]
  simp [laneBytes, ha, hb]

/-- The bytes of a message are its head, its payload and its check (01 R5). -/
@[simp] theorem messageBytes_length (dest src kind : Byte) (payload : List Byte) :
    (messageBytes dest src kind payload).length = 6 + payload.length := by
  simp [messageBytes, messageHead, crcBytes]
  omega

/-- The pad of a message: a 0 after an odd last byte (01 R5). -/
def lanePad (l : List Byte) : List Byte := if l.length % 2 = 1 then [0#8] else []

/-- Bytes on an otherwise idle lane go out in order, two a frame, with the last mark in the final frame alone (01 R16). -/
theorem laneFrames_whole (n : Nat) (l : List Byte) (hl : l ≠ []) (hn : n = (l.length + 1) / 2) :
    (laneFrames n (some l)).2 = none ∧
      (laneFrames n (some l)).1.map (fun x => x.1.valid) = List.replicate n true ∧
      (laneFrames n (some l)).1.map (·.2) = List.replicate (n - 1) false ++ [true] ∧
      (laneFrames n (some l)).1.flatMap (fun x => laneBytes x.1.data) = l ++ lanePad l := by
  induction n generalizing l with
  | zero =>
    have := List.length_pos_iff.mpr hl
    omega
  | succ n ih =>
    match l with
    | [a] =>
      have : n = 0 := by simpa using hn
      subst this
      simp [laneFrames, laneSlot, laneBytes_lanePair, lanePad]
    | [a, b] =>
      have : n = 0 := by simpa using hn
      subst this
      simp [laneFrames, laneSlot, laneBytes_lanePair, lanePad]
    | a :: b :: c :: rest =>
      have hn' : n = ((c :: rest).length + 1) / 2 := by simp at hn ⊢; omega
      obtain ⟨h1, h2, h3, h4⟩ := ih (c :: rest) (by simp) hn'
      have hfirst : laneFrames (n + 1) (some (a :: b :: c :: rest)) =
          ((⟨true, lanePair a b⟩, false) :: (laneFrames n (some (c :: rest))).1,
            (laneFrames n (some (c :: rest))).2) := rfl
      have hpos : n - 1 + 1 = n := by simp at hn'; omega
      have hpad : lanePad (a :: b :: c :: rest) = lanePad (c :: rest) := by
        have hmod : (rest.length + 3) % 2 = (rest.length + 1) % 2 := by omega
        simp [lanePad, hmod]
      rw [hfirst]
      refine ⟨h1, ?_, ?_, ?_⟩
      · simpa [List.replicate_succ] using h2
      · rw [List.map_cons, h3, Nat.add_sub_cancel, ← List.cons_append, ← List.replicate_succ, hpos]
      · rw [List.flatMap_cons, h4, laneBytes_lanePair, hpad]
        rfl

/-! What the lane takes next (01 R16). -/

theorem chooseMessage_busy {l : LinkState} {b : List Byte} (h : l.sending = some b) : chooseMessage l = l := by
  simp [chooseMessage, h]

theorem chooseMessage_display {l : LinkState} {m : Outbound} (h : l.sending = none) (hd : l.displayPlace = some m) :
    chooseMessage l = { l with displayPlace := none, sending := some m.bytes } := by
  simp [chooseMessage, h, hd]

theorem chooseMessage_sign {l : LinkState} {m : Outbound} (h : l.sending = none) (hd : l.displayPlace = none)
    (hs : l.signPlace = some m) : chooseMessage l = { l with signPlace := none, sending := some m.bytes } := by
  simp [chooseMessage, h, hd, hs]

theorem chooseMessage_nothing {l : LinkState} (h : l.sending = none) (hd : l.displayPlace = none)
    (hs : l.signPlace = none) (ho : l.outbound = []) : chooseMessage l = l := by
  simp [chooseMessage, h, hd, hs, ho]

theorem chooseMessage_outbound {l : LinkState} {m : Outbound} {rest : List Outbound} (h : l.sending = none)
    (hd : l.displayPlace = none) (hs : l.signPlace = none) (ho : l.outbound = m :: rest) :
    chooseMessage l = { takeOutbound l with sending := some m.bytes } := by
  simp [chooseMessage, h, hd, hs, ho]

/-- Settles O11: a message's bytes are never empty, so the lane sends them whole; the next message and the offers by case. -/
theorem laneSendsWholeMessage : Obligations.LaneSendsWholeMessage := by
  refine ⟨fun m _ => ?_, fun l m => ⟨fun b => chooseMessage_busy, chooseMessage_display, chooseMessage_sign,
    fun h hd hs => ⟨chooseMessage_nothing h hd hs, fun rest ho => ⟨fun hh => ?_, fun x xs hh => ?_⟩⟩⟩,
    fun m s => ⟨fun h => ?_, fun h => ?_⟩⟩
  · have hlen : m.bytes.length = 6 + m.payload.length := messageBytes_length _ _ _ _
    have hne : m.bytes ≠ [] := List.ne_nil_of_length_pos (by omega)
    have hpad : lanePad m.bytes = if m.payload.length % 2 = 1 then [0#8] else [] := by
      simp [lanePad, hlen, Nat.add_mod]
    rw [← hpad]
    exact laneFrames_whole _ m.bytes hne (by omega)
  · simp [chooseMessage_outbound h hd hs ho, takeOutbound, hh, ho]
  · simp [chooseMessage_outbound h hd hs ho, takeOutbound, hh, ho]
  · exact if_pos h
  · exact if_neg (Nat.not_lt.mpr h)

end Sys2Proof.Machine
end

