-- ==== Sys2Proof/Proofs/Frame.lean ====
section
/-! PROOF. The parts of a frame (01 R1 to R4, R7 to R10), the grant search and the quiet frame. -/

namespace Sys2Proof.Machine

/-! The grant search (01 R7). -/

theorem stationAddress_injective : Function.Injective stationAddress := by
  intro a b h
  cases a <;> cases b <;> simp [stationAddress] at h ⊢

theorem stationAddress_range (st : Station) : 1 ≤ stationAddress st ∧ stationAddress st ≤ 6 := by
  cases st <;> decide

theorem stationAddress_stationAfter (st : Station) :
    stationAddress (stationAfter st) = if stationAddress st = 6 then 1 else stationAddress st + 1 := by
  cases st <;> rfl

theorem rotationAfter_eq (st : Station) (r : Nat) :
    rotationAfter st r = if stationAddress st = 6 then (r + 1) % 16 else r := by
  cases st <;> rfl

/-- The address reached after k steps of the search. -/
theorem LinkState.searched_address (l : LinkState) (k : Nat) :
    stationAddress (l.searched k).1 = (stationAddress l.grantPointer - 1 + k) % 6 + 1 := by
  have hr := stationAddress_range l.grantPointer
  induction k with
  | zero => simp only [searched]; omega
  | succ k ih =>
    rw [searched, stationAddress_stationAfter, ih]
    split <;> omega

/-- The search from its k-th place finds the first eligible station within n steps. -/
theorem searchGrant_found (l : LinkState) (n i k : Nat) (hi : 1 ≤ i) (hn : i ≤ n) (ho : l.offers (k + i) = true)
    (hf : ∀ j, 1 ≤ j → j < i → l.offers (k + j) = false) :
    searchGrant l.stations n (l.searched k).1 (l.searched k).2 =
      (some (l.searched (k + i)).1, (l.searched (k + i)).2) := by
  induction n generalizing i k with
  | zero => omega
  | succ n ih =>
    have hstep : searchGrant l.stations (n + 1) (l.searched k).1 (l.searched k).2 =
        if l.offers (k + 1) then (some (l.searched (k + 1)).1, (l.searched (k + 1)).2)
        else searchGrant l.stations n (l.searched (k + 1)).1 (l.searched (k + 1)).2 := rfl
    rw [hstep]
    rcases Nat.eq_or_lt_of_le hi with rfl | hlt
    · rw [if_pos ho]
    · rw [if_neg (by simp [hf 1 le_rfl hlt])]
      have hk : k + 1 + (i - 1) = k + i := by omega
      rw [← hk] at ho ⊢
      refine ih (i - 1) (k + 1) (by omega) (by omega) ho fun j hj hji => ?_
      rw [show k + 1 + j = k + (j + 1) by omega]
      exact hf (j + 1) (by omega) (by omega)

/-- The search that finds no station ends with the rotation number of its last step. -/
theorem searchGrant_none (l : LinkState) (n k : Nat) (hf : ∀ j, 1 ≤ j → j ≤ n → l.offers (k + j) = false) :
    searchGrant l.stations n (l.searched k).1 (l.searched k).2 = (none, (l.searched (k + n)).2) := by
  induction n generalizing k with
  | zero => rfl
  | succ n ih =>
    have hstep : searchGrant l.stations (n + 1) (l.searched k).1 (l.searched k).2 =
        if l.offers (k + 1) then (some (l.searched (k + 1)).1, (l.searched (k + 1)).2)
        else searchGrant l.stations n (l.searched (k + 1)).1 (l.searched (k + 1)).2 := rfl
    rw [hstep, if_neg (by simp [hf 1 le_rfl (by omega)])]
    rw [show k + (n + 1) = k + 1 + n by omega]
    refine ih (k + 1) fun j hj hjn => ?_
    rw [show k + 1 + j = k + (j + 1) by omega]
    exact hf (j + 1) (by omega) (by omega)

theorem chooseGrant_receiving {l : LinkState} {r : Reception} (h : l.reception = some r) :
    chooseGrant l = (some r.station, l) := by
  simp [chooseGrant, h]

theorem chooseGrant_full {l : LinkState} (h : l.reception = none) (hf : Config.inboundCap ≤ l.inbound.length) :
    chooseGrant l = (none, l) := by
  simp [chooseGrant, h, hf]

theorem chooseGrant_found {l : LinkState} (h : l.reception = none) (hr : l.inbound.length < Config.inboundCap) {k : Nat}
    (h1 : 1 ≤ k) (h6 : k ≤ 6) (ho : l.offers k = true) (hf : ∀ j, 1 ≤ j → j < k → l.offers j = false) :
    chooseGrant l = (some (l.searched k).1, { l with grantPointer := (l.searched k).1, rotation := (l.searched k).2 }) := by
  have hs := searchGrant_found l 6 k 0 h1 h6 (by simpa using ho) (by simpa using hf)
  simp only [LinkState.searched, Nat.zero_add] at hs
  simp [chooseGrant, h, Nat.not_le.mpr hr, hs]

theorem chooseGrant_none {l : LinkState} (h : l.reception = none) (hr : l.inbound.length < Config.inboundCap)
    (hf : ∀ k, 1 ≤ k → k ≤ 6 → l.offers k = false) : chooseGrant l = (none, { l with rotation := (l.searched 6).2 }) := by
  have hs := searchGrant_none l 6 0 (by simpa using hf)
  simp only [LinkState.searched] at hs
  simp [chooseGrant, h, Nat.not_le.mpr hr, hs, LinkState.searched]

/-- Each station is the place of exactly one of the six steps. -/
theorem LinkState.searched_unique (l : LinkState) (st : Station) :
    ∃ k, 1 ≤ k ∧ k ≤ 6 ∧ (l.searched k).1 = st ∧ ∀ j, 1 ≤ j → j ≤ 6 → (l.searched j).1 = st → j = k := by
  have hp := stationAddress_range l.grantPointer
  have hs := stationAddress_range st
  refine ⟨(stationAddress st + 5 - stationAddress l.grantPointer) % 6 + 1, by omega, by omega, ?_, fun j h1 h6 hj => ?_⟩
  · apply stationAddress_injective
    rw [l.searched_address]
    omega
  · have := l.searched_address j
    rw [hj] at this
    omega

theorem LinkState.offers_iff (l : LinkState) (k : Nat) :
    l.offers k = true ↔
      (l.stations.get (l.searched k).1).presence = .unknown ∨ (l.stations.get (l.searched k).1).presence = .present ∨
        ((l.stations.get (l.searched k).1).presence = .absent ∧ (l.searched k).2 = 0) := by
  unfold offers eligible
  split <;> simp_all

/-- The grant address in a frame's header (01 R2). -/
theorem frameHeader_grant (grant : Option Station) (n : Nat) (last : Bool) :
    (frameHeader grant n last).toNat / 8192 = (grant.map stationAddress).getD 0 := by
  cases grant with
  | none => cases last <;> simp [frameHeader] <;> omega
  | some st =>
    have hr := stationAddress_range st
    cases last <;> simp [frameHeader] <;> omega

/-! What the up lane's operations do to the link. -/

/-- The record of a station whose message ends before its time (01 R10). -/
def StationRecord.truncated (r : StationRecord) : StationRecord := { r with truncations := up16 r.truncations }

/-- The record of a station whose message fails its check (01 R11). -/
def StationRecord.failed (r : StationRecord) : StationRecord := { r with checkFailures := up16 r.checkFailures }

theorem stationAnswers_bare (st : Station) (s : State) :
    (stationAnswers st s).link.bare = (setRecord st (s.link.stations.get st).answered s).link.bare := by
  rw [stationAnswers_eq]
  split <;> simp

theorem stationMisses_bare (st : Station) (s : State) :
    (stationMisses st s).link.bare = (setRecord st (s.link.stations.get st).missed s).link.bare := by
  rw [stationMisses_eq]
  split <;> simp

theorem stationTruncates_eq (st : Station) (s : State) :
    stationTruncates st s =
      raise .messageTruncated (stationMisses st (setRecord st (s.link.stations.get st).truncated s)) := rfl

theorem stationTruncates_bare (st : Station) (s : State) :
    (stationTruncates st s).link.bare = (setRecord st (s.link.stations.get st).truncated.missed s).link.bare := by
  rw [stationTruncates_eq, raise_bare, stationMisses_bare]
  simp [setRecord]

theorem stationFailsCheck_eq (st : Station) (s : State) :
    stationFailsCheck st s = raise .linkCheck (setRecord st (s.link.stations.get st).failed s) := rfl

theorem stationFailsCheck_bare (st : Station) (s : State) :
    (stationFailsCheck st s).link.bare = (setRecord st (s.link.stations.get st).failed s).link.bare := by
  rw [stationFailsCheck_eq, raise_bare]

/-- The part of the link that a frame's start sets and the rest of the frame leaves: the grant search's state and the frame
sent. -/
def LinkState.sent (l : LinkState) : Station × Nat × Option DownFrame := (l.grantPointer, l.rotation, l.lastFrame)

theorem LinkState.sent_of_bare {a b : LinkState} (h : a.bare = b.bare) : a.sent = b.sent := by
  obtain ⟨-, h1, h2, -, -, -, -, -, h3⟩ := bare_keeps h
  simp [sent, h1, h2, h3]

@[simp] theorem setReception_sent (r : Option Reception) (s : State) : (setReception r s).link.sent = s.link.sent := rfl

@[simp] theorem joinInbound_sent (m : Inbound) (s : State) : (joinInbound m s).link.sent = s.link.sent := rfl

@[simp] theorem stationAnswers_sent (st : Station) (s : State) : (stationAnswers st s).link.sent = s.link.sent :=
  (LinkState.sent_of_bare (stationAnswers_bare st s)).trans rfl

@[simp] theorem stationMisses_sent (st : Station) (s : State) : (stationMisses st s).link.sent = s.link.sent :=
  (LinkState.sent_of_bare (stationMisses_bare st s)).trans rfl

@[simp] theorem stationTruncates_sent (st : Station) (s : State) : (stationTruncates st s).link.sent = s.link.sent :=
  (LinkState.sent_of_bare (stationTruncates_bare st s)).trans rfl

@[simp] theorem stationFailsCheck_sent (st : Station) (s : State) : (stationFailsCheck st s).link.sent = s.link.sent :=
  (LinkState.sent_of_bare (stationFailsCheck_bare st s)).trans rfl

theorem readUpLane_sent (grant : Option Station) (up : UpFrame) (s : State) :
    (readUpLane grant up s).link.sent = s.link.sent := by
  unfold readUpLane receptionAdvances
  dsimp only
  repeat' split
  all_goals simp

/-- A mix leaves the link but for its outputs and what waits for the down lane. -/
theorem mixEvent_bare (x : Four Sample) (s : State) :
    (mixEvent x s).link.bare =
      { s.link with mixed := some ⟨mixOutput s x 0, mixOutput s x 1, mixOutput s x 2, mixOutput s x 3⟩ }.bare := by
  simp [mixEvent]

/-! The frame as a whole. -/

theorem exec_frame (up : UpFrame) (cal : Bool) (s : State) (h : s.running = true) :
    exec (.frame up cal) s = .next (frameRuns up { s with calLine := cal }) :=
  congrArg _ (if_pos h)

/-- The state of a frame once the up lane is read: what the mix, the dispatcher and the divider find. -/
def frameRead (up : UpFrame) (s : State) : State :=
  readUpLane (linkFrameStarts s.link).1 up (dispatchInbound { s with link := (linkFrameStarts s.link).2 })

theorem frameRuns_eq (up : UpFrame) (s : State) :
    frameRuns up s =
      countFrame (dispatchInbound (mixEvent (frameSamples s.link.stations up) (frameRead up s))) := rfl

/-- What follows the up lane leaves the station table, a reception, and what the frame's start set. -/
theorem frameRuns_link (up : UpFrame) (s : State) :
    (frameRuns up s).link.stations = (frameRead up s).link.stations ∧
      (frameRuns up s).link.reception = (frameRead up s).link.reception ∧
      (frameRuns up s).link.sent = (frameRead up s).link.sent := by
  obtain ⟨cst, cgp, crot, -, crec, -, -, -, clf⟩ := LinkState.bare_keeps (countFrame_bare
    (dispatchInbound (mixEvent (frameSamples s.link.stations up) (frameRead up s))))
  obtain ⟨dst, dgp, drot, drec, dlf, -⟩ := dispatchInbound_link (mixEvent (frameSamples s.link.stations up) (frameRead up s))
  obtain ⟨mst, mgp, mrot, -, mrec, -, -, -, mlf⟩ := LinkState.bare_keeps (mixEvent_bare (frameSamples s.link.stations up)
    (frameRead up s))
  rw [frameRuns_eq]
  unfold LinkState.sent
  rw [cst, cgp, crot, crec, clf, dst, dgp, drot, drec, dlf, mst, mgp, mrot, mrec, mlf]
  exact ⟨rfl, rfl, rfl⟩

theorem frameRead_sent (up : UpFrame) (s : State) : (frameRead up s).link.sent = (linkFrameStarts s.link).2.sent := by
  obtain ⟨-, dgp, drot, -, dlf, -⟩ := dispatchInbound_link { s with link := (linkFrameStarts s.link).2 }
  rw [frameRead, readUpLane_sent, LinkState.sent, dgp, drot, dlf]
  rfl

/-- Settles O10: the search step by step, and a frame's header and arbiter state as the frame's start leaves them. -/
theorem grantSearch : Obligations.GrantSearch := by
  refine ⟨fun l => ⟨fun r => chooseGrant_receiving, chooseGrant_full, fun h hr => ⟨fun k h1 h6 ho hf =>
    chooseGrant_found h hr h1 h6 ho hf, chooseGrant_none h hr⟩, l.searched_unique, ⟨rfl, fun k =>
    ⟨stationAddress_stationAfter _, rotationAfter_eq _ _⟩⟩, l.offers_iff⟩, fun s up cal hrun => ?_⟩
  have hsent := (frameRuns_link up { s with calLine := cal }).2.2.trans (frameRead_sent up _)
  simp only [LinkState.sent, Prod.mk.injEq] at hsent
  obtain ⟨hgp, hrot, hlf⟩ := hsent
  obtain ⟨-, -, -, -, hrot', hgp'⟩ := linkFrameStarts_keeps s.link
  exact ⟨_, _, exec_frame up cal s hrun, hlf, frameHeader_grant _ _ _, hgp.trans hgp', hrot.trans hrot'⟩

/-! The tick divider at the end of a frame (04 R52). -/

theorem countFrame_counts (s : State) (h : s.time.divFrames + 1 < 800) :
    countFrame s = { s with time := { s.time with divFrames := s.time.divFrames + 1 } } :=
  if_neg (Nat.not_le.mpr h)

/-- The 800th frame brings the tick of TICK. -/
theorem countFrame_ticks (s : State) (hr : s.running = true) (h : s.time.divFrames + 1 = 800) :
    Host.Outcome.next (countFrame s) = exec .tick s := by
  have hc : countFrame s = tickOccurs { s with time := { s.time with divFrames := 0 } } := if_pos (ge_of_eq h)
  rw [hc]
  exact (congrArg _ (if_pos hr)).symm

/-! A frame with no microphone driven (01 R3, 09 R142). -/

theorem frameSamples_silent (t : StationTable) (up : UpFrame) (h : up.driver.valid = false ∧ up.passengerA.valid = false ∧
    up.passengerB.valid = false ∧ up.modem.valid = false) : frameSamples t up = .all 0#16 := by
  obtain ⟨h1, h2, h3, h4⟩ := h
  simp [frameSamples, audioSample, h1, h2, h3, h4, Four.all]

/-- The outputs of a mix handed to the next frame (09 R138). -/
def setMixed (x : Four Sample) (s : State) : State := { s with link := { s.link with mixed := some x } }

/-- A mix of silence is silent and clips nowhere. -/
theorem mixEvent_silent (s : State) : mixEvent (.all 0#16) s = setMixed (.all 0#16) s := by
  have hsum : ∀ d, mixSum s (.all 0#16) d = 0 := fun d => by simp [mixSum, Four.all]
  have hout : ∀ d, mixOutput s (.all 0#16) d = 0#16 := fun d => by simp only [mixOutput, hsum]; decide
  have hclip : ∀ d, mixSaturates s (.all 0#16) d = false := fun d => by simp only [mixSaturates, hsum]; decide
  simp only [mixEvent, hout, hclip]
  simp [raiseIf, clipCounted, Four.zip, Four.all, setMixed]

theorem frameRuns_silent (up : UpFrame) (s : State) (hmic : up.driver.valid = false ∧ up.passengerA.valid = false ∧
    up.passengerB.valid = false ∧ up.modem.valid = false) :
    frameRuns up s = countFrame (dispatchInbound (setMixed (.all 0#16) (frameRead up s))) := by
  rw [frameRuns_eq, frameSamples_silent _ _ hmic, mixEvent_silent]

/-- With no message waiting the up lane is read right after the frame's start. -/
theorem frameRead_empty (up : UpFrame) (s : State) (hi : s.link.inbound = []) :
    frameRead up s = readUpLane (chooseGrant s.link).1 up { s with link := (linkFrameStarts s.link).2 } := by
  obtain ⟨-, -, hin, -⟩ := linkFrameStarts_keeps s.link
  rw [frameRead, dispatchInbound_idle _ (.inl (hin.trans hi))]
  rfl

/-- Outside a reception the idle answer of a PRESENT station sets its misses to 0 and does no more (01 R8). -/
theorem readUpLane_idle (st : Station) (up : UpFrame) (s : State) (hr : s.link.reception = none)
    (hp : (s.link.stations.get st).presence = .present) (hm : up.message.valid = false)
    (ha : up.answer = ⟨true, Config.idleCode⟩) :
    readUpLane (some st) up s =
      { s with link := { s.link with
        stations := s.link.stations.set st { s.link.stations.get st with misses := 0 } } } := by
  simp [readUpLane, hr, hm, ha, stationAnswers_eq, hp, setRecord, StationRecord.answered_of_present hp]

/-- The start of a frame, with the header, the lane and the audio slots of the frame sent (01 R1, R2, R4, R16). -/
theorem linkFrameStarts_link (l : LinkState) :
    (linkFrameStarts l).2 =
      { chooseMessage (chooseGrant l).2 with
        sending := (laneSlot (chooseMessage (chooseGrant l).2).sending).2.2, frameNumber := (l.frameNumber + 1) % 16
        lastFrame := some
          { header := frameHeader (chooseGrant l).1 l.frameNumber (laneSlot (chooseMessage (chooseGrant l).2).sending).2.1
            message := (laneSlot (chooseMessage (chooseGrant l).2).sending).1
            driver := audioSlot l.stations .meterHead (l.mixed.map (·.x0))
            passengerA := audioSlot l.stations .passengerA (l.mixed.map (·.x1))
            passengerB := audioSlot l.stations .passengerB (l.mixed.map (·.x2))
            modem := audioSlot l.stations .fleetModem (l.mixed.map (·.x3)) } } := by
  have hn : (chooseMessage (chooseGrant l).2).frameNumber = l.frameNumber := by
    rw [chooseMessage_link, chooseGrant_link]
  have hm : (chooseMessage (chooseGrant l).2).mixed = l.mixed := by rw [chooseMessage_link, chooseGrant_link]
  simp only [linkFrameStarts, downFrame, hn, hm]

/-- Settles O14: the frame's start, the idle answer, a mix of silence and the divider. -/
theorem quietFrameCompletes : Obligations.QuietFrameCompletes := by
  intro s st cal hrun hi hr hg hp chosen lane sent
  obtain ⟨hst, hrec, hin, -⟩ := linkFrameStarts_keeps s.link
  have hread : setMixed (.all 0#16) (frameRead idleFrame { s with calLine := cal }) = sent := by
    rw [frameRead_empty idleFrame { s with calLine := cal } hi]
    dsimp only
    rw [hg, readUpLane_idle st idleFrame _ (hrec.trans hr) (by simpa [hst] using hp) rfl rfl, hst]
    simp only [linkFrameStarts_link, hg]
    rfl
  have hidle : sent.link.inbound = [] := hin.trans hi
  have hframe : exec (.frame idleFrame cal) s = .next (countFrame sent) := by
    rw [exec_frame _ _ _ hrun, frameRuns_silent _ _ ⟨rfl, rfl, rfl, rfl⟩, hread, dispatchInbound_idle sent (.inl hidle)]
  refine ⟨fun h => ?_, fun h => ?_⟩
  · rw [hframe, countFrame_counts sent h]
  · rw [hframe, countFrame_ticks sent hrun h]

end Sys2Proof.Machine
end

