-- ==== Sys2Proof/Proofs/Reception.lean ====
section
/-! PROOF. The check of a message (01 R6), its reception (01 R8, R9, R12), and how a frame hands it on (01 R13, 02 R19). -/

namespace Sys2Proof.Machine

/-! The check of a message with its check bytes is 0 (01 R6). -/

/-- A register below half its range shifts without the generator. -/
theorem crcShift_toNat (r : BitVec 16) (h : r.toNat < 2 ^ 15) : (crcShift r).toNat = 2 * r.toNat := by
  have hm : r.msb = false := by rw [BitVec.msb_eq_decide]; simpa using h
  simp only [crcShift, hm, Bool.false_eq_true, if_false, BitVec.toNat_shiftLeft]
  omega

/-- Shifts of a register that stays below its range. -/
theorem crcShift_iterate_toNat (k : Nat) (r : BitVec 16) (h : 2 ^ k * r.toNat < 2 ^ 16) :
    (crcShift^[k] r).toNat = 2 ^ k * r.toNat := by
  induction k with
  | zero => simp
  | succ k ih =>
    rw [Nat.pow_succ, Nat.mul_right_comm] at h ⊢
    have hk := ih (by omega)
    rw [Function.iterate_succ_apply', crcShift_toNat _ (by omega), hk, Nat.mul_comm]

/-- A byte that cancels the register's high byte moves the low byte up, with no generator subtracted. -/
theorem crcByte_toNat (r : BitVec 16) (b : Byte) (h : (r ^^^ (b.setWidth 16 <<< 8)).toNat < 256) :
    (crcByte r b).toNat = 256 * (r ^^^ (b.setWidth 16 <<< 8)).toNat :=
  crcShift_iterate_toNat 8 _ (by omega)

/-- The two check bytes bring the register to 0. -/
theorem crcByte_crcByte_self (r : BitVec 16) :
    crcByte (crcByte r ((r >>> 8).setWidth 8)) (r.setWidth 8) = 0#16 := by
  have hlow : r ^^^ (((r >>> 8).setWidth 8).setWidth 16 <<< 8) = (r.setWidth 8).setWidth 16 := by
    ext i hi
    by_cases h8 : i < 8
    · simp [h8, BitVec.getLsbD_eq_getElem hi]
    · have hs : 8 + (i - 8) = i := by omega
      simp [h8, hs, show i - 8 < 8 by omega, BitVec.getLsbD_eq_getElem hi]
  have hlt : ((r.setWidth 8).setWidth 16 : BitVec 16).toNat < 256 := by
    simp; omega
  have hfirst : crcByte r ((r >>> 8).setWidth 8) = ((r.setWidth 8).setWidth 16 : BitVec 16) <<< 8 := by
    apply BitVec.eq_of_toNat_eq
    rw [crcByte_toNat _ _ (hlow ▸ hlt), hlow, BitVec.toNat_shiftLeft]
    omega
  rw [hfirst, crcByte, BitVec.xor_self]
  decide

theorem crc16_crcBytes (l : List Byte) : crc16 (l ++ crcBytes l) = 0#16 := by
  have h := crcByte_crcByte_self (crc16 l)
  simpa [crc16, crcBytes, List.foldl_append] using h

/-! The bytes of a message, read back (01 R5). -/

section

variable (dest src kind : Byte) (payload pad : List Byte)

theorem messageBytes_cons :
    messageBytes dest src kind payload =
      dest :: src :: kind :: BitVec.ofNat 8 payload.length ::
        (payload ++ crcBytes (messageHead dest src kind payload)) := by
  simp [messageBytes, messageHead]

theorem messageBytes_crc : crc16 (messageBytes dest src kind payload) = 0#16 := crc16_crcBytes _

end

/-- The length byte of a message that R5 allows. -/
theorem lengthByte_toNat {n : Nat} (h : n ≤ Config.payloadMax) : (BitVec.ofNat 8 n).toNat = n := by
  rw [BitVec.toNat_ofNat]
  exact Nat.mod_eq_of_lt (lt_of_le_of_lt h (by decide))

/-- The bytes that a station sends of a message, the pad of an odd last frame included (01 R5). -/
def sentBytes (st : Station) (kind : Byte) (payload pad : List Byte) : List Byte :=
  messageBytes 0#8 (BitVec.ofNat 8 (stationAddress st)) kind payload ++ pad

/-! Reception, frame by frame (01 R9). -/

section

variable {st : Station} {kind : Byte} {payload pad : List Byte}

theorem sentBytes_length : (sentBytes st kind payload pad).length = 6 + payload.length + pad.length := by
  simp [sentBytes]

theorem sentBytes_getD_three : (sentBytes st kind payload pad).getD 3 0#8 = BitVec.ofNat 8 payload.length := by
  simp [sentBytes, messageBytes_cons]

theorem sentBytes_take :
    (sentBytes st kind payload pad).take (6 + payload.length) =
      messageBytes 0#8 (BitVec.ofNat 8 (stationAddress st)) kind payload := by
  rw [sentBytes, List.take_left' (messageBytes_length _ _ _ _)]

/-- The bytes of a message from a station are good. -/
theorem messageGood_messageBytes :
    messageGood st (messageBytes 0#8 (BitVec.ofNat 8 (stationAddress st)) kind payload) = true := by
  simp only [messageGood, messageBytes_crc]
  simp [messageBytes_cons]

theorem inboundOf_messageBytes (h : payload.length ≤ Config.payloadMax) :
    inboundOf st (messageBytes 0#8 (BitVec.ofNat 8 (stationAddress st)) kind payload) = ⟨st, kind, payload⟩ := by
  have hn := lengthByte_toNat h
  simp only [inboundOf, messageBytes_cons, List.getD_cons_succ, List.getD_cons_zero, hn, List.drop_succ_cons,
    List.drop_zero, List.take_left']

/-- Fewer bytes than a message has: reception goes on. -/
theorem receptionAdvances_part (s : State) {l rest : List Byte} (h : payload.length ≤ Config.payloadMax)
    (hl : l ++ rest = sentBytes st kind payload pad) (hlen : l.length < 6 + payload.length) :
    receptionAdvances st l s = setReception (some ⟨st, l⟩) s := by
  unfold receptionAdvances
  dsimp only
  by_cases h4 : l.length < 4
  · rw [if_pos h4]
  · have hn : l.getD 3 0#8 = BitVec.ofNat 8 payload.length := by
      rw [← sentBytes_getD_three (st := st) (kind := kind) (pad := pad), ← hl]
      simp only [List.getD_eq_getElem?_getD]
      rw [List.getElem?_append_left (by omega)]
    rw [if_neg h4, hn, lengthByte_toNat h, if_neg (Nat.not_lt.mpr h), if_pos hlen]

/-- All bytes of a message, and at most its pad: the message joins the inbound queue. -/
theorem receptionAdvances_whole (s : State) (h : payload.length ≤ Config.payloadMax) :
    receptionAdvances st (sentBytes st kind payload pad) s = joinInbound ⟨st, kind, payload⟩ (setReception none s) := by
  unfold receptionAdvances
  dsimp only
  rw [sentBytes_getD_three, lengthByte_toNat h, if_neg (by rw [sentBytes_length]; omega), if_neg (Nat.not_lt.mpr h),
    if_neg (by rw [sentBytes_length]; omega), sentBytes_take, if_pos messageGood_messageBytes, inboundOf_messageBytes h]

/-- In a reception a valid slot adds its two bytes. -/
theorem readUpLane_receiving {grant : Option Station} {up : UpFrame} {s : State} {x : Reception}
    (hr : s.link.reception = some x) (hv : up.message.valid = true) :
    readUpLane grant up s = receptionAdvances x.station (receivedBytes x up) s := by
  simp [readUpLane, hr, hv, receivedBytes, laneBytes]

/-- The frames that bring the rest of a message complete it. -/
theorem readUpLanes_rest (ups : List UpFrame) (s : State) (pre : List Byte) (h : payload.length ≤ Config.payloadMax)
    (hpad : pad.length = payload.length % 2) (hv : ∀ up ∈ ups, up.message.valid = true)
    (hr : s.link.reception = some ⟨st, pre⟩) (hpre : pre.length < 6 + payload.length)
    (hb : pre ++ ups.flatMap (fun up => laneBytes up.message.data) = sentBytes st kind payload pad) :
    readUpLanes st ups s = joinInbound ⟨st, kind, payload⟩ (setReception none s) := by
  induction ups generalizing s pre with
  | nil =>
    have hlen := congrArg List.length hb
    rw [sentBytes_length] at hlen
    simp at hlen
    omega
  | cons up ups ih =>
    have hstep : readUpLanes st (up :: ups) s =
        readUpLanes st ups (receptionAdvances st (pre ++ laneBytes up.message.data) s) :=
      congrArg (readUpLanes st ups) (readUpLane_receiving hr (hv up (by simp)))
    rw [List.flatMap_cons, ← List.append_assoc] at hb
    rw [hstep]
    cases ups with
    | nil =>
      rw [List.flatMap_nil, List.append_nil] at hb
      rw [hb, receptionAdvances_whole s h]
      rfl
    | cons up' ups' =>
      have hlen := congrArg List.length hb
      rw [sentBytes_length] at hlen
      simp [laneBytes] at hlen
      have hpart : (pre ++ laneBytes up.message.data).length < 6 + payload.length := by
        simp [laneBytes]
        omega
      rw [receptionAdvances_part s h hb hpart]
      exact ih _ _ (fun u hu => hv u (by simp [hu])) rfl hpart hb

/-- Ending a reception that there is not changes nothing. -/
theorem setReception_none {s : State} (h : s.link.reception = none) : setReception none s = s := by
  unfold setReception
  rw [← h]

/-- A message that a PRESENT station sends whole joins the inbound queue, and its answer sets the misses to 0. -/
theorem readUpLanes_whole (ups : List UpFrame) (s : State) (hr : s.link.reception = none)
    (hp : (s.link.stations.get st).presence = .present) (h : payload.length ≤ Config.payloadMax)
    (hpad : pad.length = payload.length % 2) (hv : ∀ up ∈ ups, up.message.valid = true)
    (hb : ups.flatMap (fun up => laneBytes up.message.data) = sentBytes st kind payload pad) :
    readUpLanes st ups s =
      joinInbound ⟨st, kind, payload⟩ (setRecord st { s.link.stations.get st with misses := 0 } s) := by
  cases ups with
  | nil =>
    have hlen := congrArg List.length hb
    rw [sentBytes_length] at hlen
    simp at hlen
    omega
  | cons up ups =>
    have hfirst : readUpLane (some st) up s =
        setReception (some ⟨st, laneBytes up.message.data⟩)
          (setRecord st { s.link.stations.get st with misses := 0 } s) := by
      simp [readUpLane, hr, hv up (by simp), stationAnswers_eq, hp, StationRecord.answered_of_present hp]
    have hstep : readUpLanes st (up :: ups) s = readUpLanes st ups (readUpLane (some st) up s) := rfl
    rw [hstep, hfirst, readUpLanes_rest ups _ _ h hpad (fun u hu => hv u (by simp [hu])) rfl (by simp [laneBytes]; omega)
      (by simpa using hb)]
    exact congrArg (joinInbound _)
      (setReception_none (s := setRecord st { s.link.stations.get st with misses := 0 } s) hr)

end

/-! A frame that hands a message to the dispatcher (log 4). -/

/-- How a frame ends once its message work is done: it is counted, or brings its tick (04 R52). -/
theorem exec_frame_ends {up : UpFrame} {cal : Bool} {s t : State} (he : exec (.frame up cal) s = .next (countFrame t))
    (hr : t.running = true) (hd : t.time.divFrames = s.time.divFrames) :
    (s.time.divFrames + 1 < 800 →
      exec (.frame up cal) s = .next { t with time := { t.time with divFrames := s.time.divFrames + 1 } }) ∧
    (s.time.divFrames + 1 = 800 → exec (.frame up cal) s = exec .tick t) := by
  rw [← hd]
  exact ⟨fun h => by rw [he, countFrame_counts t h], fun h => by rw [he, countFrame_ticks t hr h]⟩

theorem exec_frame_silent {up : UpFrame} {cal : Bool} {s : State} (hrun : s.running = true)
    (hmic : up.driver.valid = false ∧ up.passengerA.valid = false ∧ up.passengerB.valid = false ∧
      up.modem.valid = false) :
    exec (.frame up cal) s = .next
      (countFrame (dispatchInbound (setMixed (.all 0#16) (frameRead up { s with calLine := cal })))) := by
  rw [exec_frame up cal s hrun, frameRuns_silent up _ hmic]

/-- With no grant and no reception the up lane is not read (01 R8). -/
theorem readUpLane_none (up : UpFrame) {s : State} (h : s.link.reception = none) : readUpLane none up s = s := by
  simp [readUpLane, h]

/-- The last frame of a message: what the dispatcher finds, and takes when an outbound place is free. -/
theorem frameRead_whole {s : State} {up : UpFrame} {x : Reception} {kind : Byte} {payload pad : List Byte}
    (hx : s.link.reception = some x) (hi : s.link.inbound = []) (h : payload.length ≤ Config.payloadMax)
    (hv : up.message.valid = true) (hb : receivedBytes x up = sentBytes x.station kind payload pad) :
    frameRead up s = { s with link := { (linkFrameStarts s.link).2 with
      reception := none, inbound := [⟨x.station, kind, payload⟩] } } := by
  obtain ⟨-, hrec, hin, -⟩ := linkFrameStarts_keeps s.link
  rw [frameRead_empty up s hi, readUpLane_receiving (x := x) (hrec.trans hx) hv, hb, receptionAdvances_whole _ h]
  simp [joinInbound, setReception, hin, hi]

/-- Settles O12: reception by induction over its frames, a message command by its law, and the frame part by part. -/
theorem wholeMessageReceived : Obligations.WholeMessageReceived := by
  refine ⟨fun s st kind payload pad ups hr hp h hpad hv hb => readUpLanes_whole ups s hr hp h hpad hv hb,
    fun s c m hr hc => exec_message c m s hc hr, fun s up cal hrun hmic => ?_⟩
  intro begun silent ends
  have hends : ∀ t : State, dispatchInbound (setMixed (.all 0#16) (frameRead up { s with calLine := cal })) = t →
      t.running = true → t.time.divFrames = s.time.divFrames → ends t := fun t ht hr hd =>
    exec_frame_ends ((exec_frame_silent hrun hmic).trans (by rw [ht])) hr hd
  constructor
  · intro x kind payload pad hx hi h _ hv hb m received
    have hread : setMixed (.all 0#16) (frameRead up { s with calLine := cal }) = received [m] := by
      rw [frameRead_whole (s := { s with calLine := cal }) hx hi h hv hb]
      rfl
    refine ⟨fun hroom => hends _ ?_ ?_ ?_, fun hfull => hends _ ?_ hrun rfl⟩
    · rw [hread, dispatchInbound_cons (received [m]) m [] rfl hroom]
      exact dispatchInbound_idle _ (.inl (by simp [received]))
    · rw [(handleMessage_keeps _ _).2.1]
      exact hrun
    · rw [handleMessage_divFrames]
    · rw [hread, dispatchInbound_idle (received [m]) (.inr hfull)]
  · intro m rest hr hi hv ha t
    obtain ⟨hst, hrec, hin, -⟩ := linkFrameStarts_keeps s.link
    have ht : dispatchInbound begun = t := by
      by_cases hroom : begun.link.outbound.length < 16
      · simp only [t, if_pos hroom]
        exact dispatchInbound_cons begun m rest (hin.trans hi) hroom
      · simp only [t, if_neg hroom]
        exact dispatchInbound_idle begun (.inr (Nat.not_lt.mp hroom))
    obtain ⟨tst, -, -, trec, -, tdiv⟩ := dispatchInbound_link begun
    have hdone := drain_done begun.link.inbound.length begun le_rfl
    rw [ht] at tst trec tdiv
    rw [show drain begun.link.inbound.length begun = t from ht] at hdone
    have htrun : t.running = true := by rw [← ht, (dispatchInbound_keeps begun).2.1]; exact hrun
    have hread : frameRead up { s with calLine := cal } = readUpLane (chooseGrant s.link).1 up t := by rw [← ht]; rfl
    have htrec : t.link.reception = none := trec.trans (hrec.trans hr)
    refine ⟨fun hg => hends _ ?_ htrun tdiv, fun st hg hp => hends _ ?_ htrun tdiv⟩
    · rw [hread, hg, readUpLane_none up htrec]
      exact dispatchInbound_idle (setMixed (.all 0#16) t) hdone
    · have htst : t.link.stations = s.link.stations := tst.trans hst
      rw [hread, hg, readUpLane_idle st up t htrec (by rw [htst]; exact hp) hv ha, htst]
      exact dispatchInbound_idle (setMixed (.all 0#16)
        { t with link := { t.link with
          stations := s.link.stations.set st { s.link.stations.get st with misses := 0 } } }) hdone

end Sys2Proof.Machine
end

