-- ==== Sys2Proof/Proofs/Mix.lean ====
section
/-! PROOF. The mix (09 R139 to R143): its mode and gains, its scaling, and the clips of a frame's mix. -/

namespace Sys2Proof.Machine

/-! The scaled sum (09 R142). -/

/-- A gain is one byte of the routing table, or 0. -/
theorem mixGain_le (s : State) (i d : Nat) : mixGain s i d ≤ 255 := by
  unfold mixGain
  split
  · exact Nat.zero_le _
  · exact Nat.le_of_lt_succ (BitVec.isLt _)

/-- A sample times a gain. -/
theorem sample_gain_bounds (x : Sample) {g : Nat} (h : g ≤ 255) :
    -32768 * 255 ≤ x.toInt * g ∧ x.toInt * g ≤ 32767 * 255 := by
  have hlo := BitVec.le_toInt x
  have hhi := BitVec.toInt_lt (x := x)
  have h0 : (0 : Int) ≤ g := Int.natCast_nonneg g
  have h1 : (g : Int) ≤ 255 := by exact_mod_cast h
  norm_num at hlo hhi
  constructor
  · nlinarith [mul_nonneg h0 (sub_nonneg.mpr hlo)]
  · nlinarith [mul_nonneg h0 (sub_nonneg.mpr (Int.le_sub_one_of_lt hhi))]

theorem mixSum_bounds (s : State) (x : Four Sample) (d : Nat) :
    -33423360 ≤ mixSum s x d ∧ mixSum s x d ≤ 33422340 := by
  obtain ⟨a0, b0⟩ := sample_gain_bounds x.x0 (mixGain_le s 0 d)
  obtain ⟨a1, b1⟩ := sample_gain_bounds x.x1 (mixGain_le s 1 d)
  obtain ⟨a2, b2⟩ := sample_gain_bounds x.x2 (mixGain_le s 2 d)
  obtain ⟨a3, b3⟩ := sample_gain_bounds x.x3 (mixGain_le s 3 d)
  unfold mixSum
  constructor <;> linarith

/-- The output is the scaled value held within the sample range. -/
theorem mixClamp_toInt (v : Int) : (mixClamp v).toInt = max (-32768) (min 32767 v) := by
  rw [mixClamp, BitVec.toInt_ofInt]
  apply Int.bmod_eq_of_le <;> omega

theorem mixOutput_toInt (s : State) (x : Four Sample) (d : Nat) :
    (mixOutput s x d).toInt = max (-32768) (min 32767 ((mixSum s x d + 32) / 64)) := mixClamp_toInt _

theorem mixSaturates_iff (s : State) (x : Four Sample) (d : Nat) :
    mixSaturates s x d = true ↔ 2097152 ≤ mixSum s x d + 32 ∨ mixSum s x d + 32 < -2097152 := by
  have hclip : mixSaturates s x d = true ↔
      (mixSum s x d + 32) / 64 > 32767 ∨ (mixSum s x d + 32) / 64 < -32768 := by
    rw [mixSaturates, mixClips, Bool.or_eq_true]
    exact or_congr decide_eq_true_iff decide_eq_true_iff
  rw [hclip]
  omega

/-- A sole gain of 64 hands the sample on unchanged. -/
theorem mixOutput_unit (s : State) (x : Four Sample) (d : Nat) (h0 : mixGain s 0 d = 64) (h1 : mixGain s 1 d = 0)
    (h2 : mixGain s 2 d = 0) (h3 : mixGain s 3 d = 0) : mixOutput s x d = x.x0 := by
  have hlo := BitVec.le_toInt x.x0
  have hhi := BitVec.toInt_lt (x := x.x0)
  apply BitVec.eq_of_toInt_eq
  rw [mixOutput_toInt]
  simp only [mixSum, h0, h1, h2, h3]
  omega

/-! The mode and the gains (09 R139 to R141). -/

/-- The mode of a mix, case by case (09 R140). -/
theorem effectiveMode_listens {s : State} (h : s.sign.emergency.isSome = true) : effectiveMode s = 4 := by
  obtain ⟨c, hc⟩ := Option.isSome_iff_exists.mp h
  simp [effectiveMode, hc]

theorem effectiveMode_quiet {s : State} (h : s.sign.emergency = none) :
    effectiveMode s = (shownModeOf s.intercom.floor (openFlagNow s)).code.toNat := by
  simp [effectiveMode, h]

theorem effectiveMode_eq_four (s : State) : effectiveMode s = 4 ↔ s.sign.emergency.isSome = true := by
  constructor
  · intro h
    by_contra hn
    rw [effectiveMode_quiet (by simpa using hn)] at h
    cases hm : shownModeOf s.intercom.floor (openFlagNow s) <;> simp [hm, ShownMode.code] at h
  · exact effectiveMode_listens

/-! The clips of a mix (09 R143). -/

/-- An event that occurs when a condition holds, after occurrences. -/
theorem State.Occurs.raisedIf {s t : State} {ms : List Outbound} {es : List Event} (h : s.Occurs t ms es) (c : Bool)
    (e : Event) : s.Occurs (raiseIf c e t) ms (es ++ if c then [e] else []) := by
  cases c with
  | false => simpa [raiseIf] using h
  | true => exact h.trans (raise_occurs e t h.orderly)

theorem State.PlacesFollow.raisedIf {s t : State} {ms : List Outbound} {es : List Event} (k : s.PlacesFollow t)
    (h : s.Occurs t ms es) (c : Bool) (e : Event) : s.PlacesFollow (raiseIf c e t) := by
  cases c with
  | false => exact k
  | true => exact k.trans (raise_placesFollow e t) h.sends (raise_occurs e t h.orderly).sends

/-- The state of a mix before its AUDIO CLIP events. -/
def mixMade (x : Four Sample) (s : State) : State :=
  { s with
    link := { s.link with mixed := some ⟨mixOutput s x 0, mixOutput s x 1, mixOutput s x 2, mixOutput s x 3⟩ }
    intercom := clipCounted ⟨mixSaturates s x 0, mixSaturates s x 1, mixSaturates s x 2, mixSaturates s x 3⟩ s.intercom }

/-- AUDIO CLIP of one destination. -/
def clipEvents (clip mark : Bool) : List Event := if clip && !mark then [.audioClip] else []

/-- The AUDIO CLIP events of a mix, destinations in order. -/
theorem mixEvent_occurs (x : Four Sample) (s : State) (h : s.link.orderly) :
    (mixMade x s).Occurs (mixEvent x s) []
        (clipEvents (mixSaturates s x 0) s.intercom.clipMarks.x0 ++ clipEvents (mixSaturates s x 1) s.intercom.clipMarks.x1 ++
          clipEvents (mixSaturates s x 2) s.intercom.clipMarks.x2 ++
          clipEvents (mixSaturates s x 3) s.intercom.clipMarks.x3) ∧
      (mixMade x s).PlacesFollow (mixEvent x s) := by
  have o : (mixMade x s).Occurs (mixMade x s) [] [] := .refl h
  have o0 := o.raisedIf (mixSaturates s x 0 && !s.intercom.clipMarks.x0) .audioClip
  have o1 := o0.raisedIf (mixSaturates s x 1 && !s.intercom.clipMarks.x1) .audioClip
  have o2 := o1.raisedIf (mixSaturates s x 2 && !s.intercom.clipMarks.x2) .audioClip
  exact ⟨o2.raisedIf (mixSaturates s x 3 && !s.intercom.clipMarks.x3) .audioClip,
    ((((State.PlacesFollow.refl _).raisedIf o _ _).raisedIf o0 _ _).raisedIf o1 _ _).raisedIf o2 _ _⟩

/-- Settles O50: the gain by its table, the scaled sum by its bounds, and the frame through its mix. -/
theorem mixScalesAndSaturates : Obligations.MixScalesAndSaturates := by
  refine ⟨fun s i d hi hd => ?_, fun s x d => ?_, fun s st up cal hrun ho hin hr hg hp ha hv hdiv => ?_⟩
  · intro listens mode
    have hmode : effectiveMode s = mode := by
      cases he : s.sign.emergency with
      | some c => simp [effectiveMode_listens, mode, listens, he]
      | none =>
        rw [effectiveMode_quiet he]
        simp only [mode, listens, he, Option.isSome_none, Bool.false_eq_true, if_false]
        rcases hf : s.intercom.floor with _ | ⟨p, n⟩
        · cases ht : s.trip with
          | none => simp [shownModeOf, openFlagNow, ht, ShownMode.code]
          | some tr => cases hopen : tr.openFlag <;> simp [shownModeOf, openFlagNow, ht, hopen, ShownMode.code]
        · cases p <;> rfl
    have hlisten : effectiveMode s ≠ 4 ↔ listens = false := by
      rw [ne_eq, effectiveMode_eq_four, Bool.not_eq_true]
    have hlast : i < 3 ↔ i ≠ 3 := by omega
    rw [hmode] at hlisten
    simp only [mixGain, hmode, hlisten, hlast, routingGain]
  · intro sum out
    have hsum : mixSum s x d = sum := rfl
    have hout : out = max (-32768) (min 32767 ((sum + 32) / 64)) := mixOutput_toInt s x d
    have hsat := mixSaturates_iff s x d
    rw [hsum] at hsat
    refine ⟨fun h1 h2 => ⟨by omega, by omega, by simpa using mt hsat.mp (by omega)⟩,
      fun h => ⟨by omega, hsat.mpr (.inl h)⟩, fun h => ⟨by omega, hsat.mpr (.inr h)⟩, mixOutput_unit s x d,
      mixSum_bounds s x d⟩
  · intro sample x clips raised ic sounds base
    obtain ⟨hst, hrec, hlin, -⟩ := linkFrameStarts_keeps s.link
    let read : State := { s with
      calLine := cal
      link := { (linkFrameStarts s.link).2 with
        stations := s.link.stations.set st { s.link.stations.get st with misses := 0 } } }
    have hread : frameRead up { s with calLine := cal } = read := by
      rw [frameRead_empty up { s with calLine := cal } hin]
      dsimp only
      rw [hg, readUpLane_idle st up _ (hrec.trans hr) (by simpa [hst] using hp) hv ha]
      simp only [hst]
      rfl
    obtain ⟨hoccurs, hfollow⟩ := mixEvent_occurs x read (linkFrameStarts_orderly _ ho)
    have hidle : (mixEvent x read).link.inbound = [] := by
      obtain ⟨-, -, -, -, -, hk, -⟩ := hoccurs.link.keeps
      exact hk.trans (hlin.trans hin)
    have hframe : exec (.frame up cal) s = .next (countFrame (mixEvent x read)) := by
      rw [exec_frame up cal s hrun, frameRuns_eq, hread]
      exact congrArg (fun t => Host.Outcome.next (countFrame t)) (dispatchInbound_idle _ (.inl hidle))
    obtain ⟨-, -, -, -, -, htime, -⟩ := mixEvent_keeps x read
    have hdivs : (mixEvent x read).time = s.time := htime
    have hcount := countFrame_counts (mixEvent x read) (by rw [hdivs]; exact hdiv)
    rw [hcount] at hframe
    refine ⟨_, hframe, hfollow, ?_⟩
    rw [hdivs]
    exact (hoccurs.sends.time { s.time with divFrames := s.time.divFrames + 1 }).occurs

end Sys2Proof.Machine
end

