-- ==== Sys2Proof/Proofs/Presence.lean ====
section
/-! PROOF. A frame's effect on the station records, and what a change of presence or a failed reception brings (01 R8 to R12). -/

namespace Sys2Proof.Machine

/-! The end of a reception (01 R9). -/

/-- The bytes of a reception end it bad: a length too long, or all bytes present and a check, a destination or a source that is
not right (01 R9, R11). -/
def receptionFails (st : Station) (l : List Byte) : Prop :=
  4 ≤ l.length ∧
    (56 < (l.getD 3 0#8).toNat ∨ (6 + (l.getD 3 0#8).toNat ≤ l.length ∧
      ¬(crc16 (l.take (6 + (l.getD 3 0#8).toNat)) = 0#16 ∧ l.getD 0 0#8 = 0#8 ∧
        l.getD 1 0#8 = BitVec.ofNat 8 (stationAddress st))))

theorem messageGood_take (st : Station) (l : List Byte) (n : Nat) :
    messageGood st (l.take (6 + n)) = true ↔
      crc16 (l.take (6 + n)) = 0#16 ∧ l.getD 0 0#8 = 0#8 ∧ l.getD 1 0#8 = BitVec.ofNat 8 (stationAddress st) := by
  have hget : ∀ i, i < 6 + n → (l.take (6 + n)).getD i 0#8 = l.getD i 0#8 := fun i hi => by
    simp [List.getD_eq_getElem?_getD, hi]
  simp only [messageGood, hget 0 (by omega), hget 1 (by omega), Bool.and_eq_true, decide_eq_true_eq, and_assoc]

theorem receptionAdvances_fails {st : Station} {l : List Byte} (s : State) (h : receptionFails st l) :
    receptionAdvances st l s = stationFailsCheck st (setReception none s) := by
  obtain ⟨h4, h⟩ := h
  unfold receptionAdvances
  dsimp only
  rw [if_neg (by omega)]
  by_cases hlong : Config.payloadMax < (l.getD 3 0#8).toNat
  · rw [if_pos hlong]
  · obtain ⟨hlen, hbad⟩ := h.resolve_left hlong
    rw [if_neg hlong, if_neg (by omega), if_neg (mt (messageGood_take st l _).mp hbad)]

/-- A reception that goes on or ends good leaves the station table. -/
theorem receptionAdvances_stations {st : Station} {l : List Byte} (s : State) (h : ¬receptionFails st l) :
    (receptionAdvances st l s).link.stations = s.link.stations := by
  unfold receptionAdvances
  dsimp only
  split
  · rfl
  split
  case isTrue hlong => exact absurd ⟨by omega, .inl hlong⟩ h
  split
  · rfl
  split
  · rfl
  case isFalse hbad =>
    exact absurd ⟨by omega, .inr ⟨by omega, mt (messageGood_take st l _).mpr hbad⟩⟩ h

/-! What the up lane is, case by case (01 R8 to R10). -/

section

variable {st : Station} {up : UpFrame} {s : State}

theorem readUpLane_truncated {grant : Option Station} {x : Reception} (hr : s.link.reception = some x)
    (hv : up.message.valid = false) : readUpLane grant up s = stationTruncates x.station (setReception none s) := by
  simp [readUpLane, hr, hv]

/-- The granted station answers by a message or by the idle code. -/
theorem readUpLane_answered (hr : s.link.reception = none)
    (ha : up.message.valid = true ∨ up.answer = ⟨true, Config.idleCode⟩) :
    readUpLane (some st) up s =
      setReception (if up.message.valid then some ⟨st, receivedBytes ⟨st, []⟩ up⟩ else none) (stationAnswers st s) := by
  by_cases hv : up.message.valid = true
  · simp [readUpLane, hr, hv, receivedBytes, laneBytes]
  · have hrec : (stationAnswers st s).link.reception = none := by
      obtain ⟨-, -, -, -, hk, -⟩ := LinkState.bare_keeps (stationAnswers_bare st s)
      exact hk.trans hr
    simp [readUpLane, hr, hv, ha.resolve_left hv, setReception_none hrec]

theorem readUpLane_missed (hr : s.link.reception = none) (hv : up.message.valid = false)
    (ha : up.answer ≠ ⟨true, Config.idleCode⟩) : readUpLane (some st) up s = stationMisses st s := by
  have hidle : (up.answer.valid && decide (up.answer.data = Config.idleCode)) = false := by
    rw [Bool.eq_false_iff]
    intro h
    rw [Bool.and_eq_true, decide_eq_true_eq] at h
    exact ha (by cases hu : up.answer; simp_all)
  simp [readUpLane, hr, hv, hidle]

end

/-! The station table after a frame. -/

/-- The first part of O13: what a frame writes in the station table. -/
theorem frameRuns_stations (up : UpFrame) (s : State) :
    (∀ st, s.link.reception = none → (chooseGrant s.link).1 = some st →
      (up.message.valid = true ∨ up.answer = ⟨true, Config.idleCode⟩ →
        (frameRuns up s).link.stations = s.link.stations.set st (s.link.stations.get st).answered) ∧
      (up.message.valid = false → up.answer ≠ ⟨true, Config.idleCode⟩ →
        (frameRuns up s).link.stations = s.link.stations.set st (s.link.stations.get st).missed)) ∧
    (∀ x, s.link.reception = some x →
      (up.message.valid = false →
        (frameRuns up s).link.reception = none ∧
          (frameRuns up s).link.stations =
            s.link.stations.set x.station (s.link.stations.get x.station).truncated.missed) ∧
      (up.message.valid = true → receptionFails x.station (receivedBytes x up) →
        (frameRuns up s).link.reception = none ∧
          (frameRuns up s).link.stations = s.link.stations.set x.station (s.link.stations.get x.station).failed) ∧
      (up.message.valid = true → ¬receptionFails x.station (receivedBytes x up) →
        (frameRuns up s).link.stations = s.link.stations)) ∧
    (s.link.reception = none → (chooseGrant s.link).1 = none →
      (frameRuns up s).link.stations = s.link.stations) := by
  obtain ⟨fst, frec, -⟩ := frameRuns_link up s
  obtain ⟨hst, hrec, -⟩ := linkFrameStarts_keeps s.link
  obtain ⟨dst, -, -, drec, -⟩ := dispatchInbound_link { s with link := (linkFrameStarts s.link).2 }
  have hread : frameRead up s = readUpLane (chooseGrant s.link).1 up
      (dispatchInbound { s with link := (linkFrameStarts s.link).2 }) := rfl
  rw [fst, frec, hread]
  generalize dispatchInbound { s with link := (linkFrameStarts s.link).2 } = d at dst drec
  have dst' : d.link.stations = s.link.stations := dst.trans hst
  have drec' : d.link.reception = s.link.reception := drec.trans hrec
  rw [← dst', ← drec']
  refine ⟨fun st hr hg => ⟨fun ha => ?_, fun hv ha => ?_⟩, fun x hx => ⟨fun hv => ?_, fun hv hf => ?_, fun hv hf => ?_⟩,
    fun hr hg => ?_⟩
  · rw [hg, readUpLane_answered hr ha]
    exact (LinkState.bare_keeps (stationAnswers_bare st d)).1
  · rw [hg, readUpLane_missed hr hv ha]
    exact (LinkState.bare_keeps (stationMisses_bare st d)).1
  · obtain ⟨k1, -, -, -, k2, -⟩ := LinkState.bare_keeps (stationTruncates_bare x.station (setReception none d))
    rw [readUpLane_truncated hx hv]
    exact ⟨k2, k1⟩
  · obtain ⟨k1, -, -, -, k2, -⟩ := LinkState.bare_keeps (stationFailsCheck_bare x.station (setReception none d))
    rw [readUpLane_receiving hx hv, receptionAdvances_fails d hf]
    exact ⟨k2, k1⟩
  · rw [readUpLane_receiving hx hv, receptionAdvances_stations d hf]
  · rw [hg, readUpLane_none up hr]

/-! A station found (01 R12, 08 R135, 10 R161). -/

section

variable {st : Station} {s : State}

theorem isOnline_of_absent (h : (s.link.stations.get .fleetModem).presence ≠ .present) : isOnline s = false := by
  simp [isOnline, isPresent, h]

/-- What a station's return is before online may begin. -/
theorem stationAnswers_found (hp : (s.link.stations.get st).presence ≠ .present) :
    stationAnswers st s =
      onlineAfter s (stationFoundActs st (raise .stationFound (setRecord st (s.link.stations.get st).answered s))) := by
  rw [stationAnswers_eq, if_neg hp]

/-- The station table once a station has returned and its block has acted. -/
theorem stationFound_stations (r : StationRecord) :
    (stationFoundActs st (raise .stationFound (setRecord st r s))).link.stations = s.link.stations.set st r :=
  (LinkState.bare_keeps ((stationFoundActs_bare _ st).trans (raise_bare _ _))).1

/-- Online does not begin with a station other than the modem, or with the bearer DOWN. -/
theorem onlineAfter_idle {r : StationRecord} (h : st ≠ .fleetModem ∨ s.pay.bearerUp = false) :
    onlineAfter s (stationFoundActs st (raise .stationFound (setRecord st r s))) =
      stationFoundActs st (raise .stationFound (setRecord st r s)) := by
  refine if_neg ?_
  rcases h with h | h
  · simp [isOnline, isPresent, stationFound_stations, StationTable.get_set_ne _ r (Ne.symm h)]
    tauto
  · simp [isOnline, setRecord, h]

/-- With the bearer UP the modem's return makes the controller online. -/
theorem isOnline_found (r : StationRecord) (hb : s.pay.bearerUp = true) :
    isOnline (raise .stationFound (setRecord .fleetModem r.answered s)) = true := by
  have hst := stationFound_stations (st := .fleetModem) (s := s) r.answered
  simp only [stationFoundActs] at hst
  simp only [isOnline, isPresent, hst, StationTable.get_set, raise_keeps, setRecord_keeps]
  simp [StationRecord.answered, hb]

/-- Online begins with the modem's return while the bearer is UP. -/
theorem onlineAfter_modem (hp : (s.link.stations.get .fleetModem).presence ≠ .present) (hb : s.pay.bearerUp = true) :
    onlineAfter s (raise .stationFound (setRecord .fleetModem (s.link.stations.get .fleetModem).answered s)) =
      onlineBegins (raise .stationFound (setRecord .fleetModem (s.link.stations.get .fleetModem).answered s)) :=
  if_pos (by rw [isOnline_of_absent hp, isOnline_found _ hb]; rfl)

theorem onlineBegins_inFlight {ref : Reference} {n limit : Nat} (h : s.pay.capture = .inFlight ref n limit) :
    onlineBegins s = s := by
  simp [onlineBegins, captureCheck, h]

/-- Online beginning ends a wait. -/
theorem onlineBegins_idle (h : s.pay.capture = .idle ∨ ∃ n interval, s.pay.capture = .waiting n interval) :
    onlineBegins s = captureCheck (setCapture .idle s) := by
  rcases h with h | ⟨n, interval, h⟩
  · have hs : setCapture .idle s = s := by unfold setCapture; rw [← h]
    simp [onlineBegins, h, hs]
  · simp [onlineBegins, h]

theorem captureCheck_empty (h : s.pay.deferred = []) : captureCheck s = s := by
  unfold captureCheck
  split
  · simp_all
  · rfl

/-- Online beginning with an entry deferred: the capture of the head entry (10 R170). -/
theorem onlineBegins_head {e : DeferredEntry} {rest : List DeferredEntry}
    (hc : s.pay.capture = .idle ∨ ∃ n interval, s.pay.capture = .waiting n interval) (h : s.pay.deferred = e :: rest)
    (ho : isOnline s = true) :
    onlineBegins s =
      setCapture (.inFlight e.ref 0 (authTimeoutSetting s.tables.unbanked))
        (offer ⟨.fleetModem, kindCapture, capturePayload e⟩ (setCapture .idle s)) := by
  have ho' : isOnline (setCapture .idle s) = true := ho
  rw [onlineBegins_idle hc]
  simp [captureCheck, setCapture, h] at ho' ⊢
  simp [ho']

end

/-! A station lost (01 R12; 09 R140, R148, R152; 10 R161). -/

/-- The mixer after a passenger has left the floor and the displayed mode is recomputed (09 R140, R148). -/
def floorLeft (p : Party) (s : State) : IntercomState :=
  { releaseFloor p s.intercom with shownMode := shownModeOf (releaseFloor p s.intercom).floor (openFlagNow s) }

/-- The mixer after the loss of a station. -/
def intercomLost (st : Station) (s : State) : IntercomState :=
  match st with
  | .cardTerminal => { s.intercom with pin := none }
  | .passengerA => floorLeft .passengerA s
  | .passengerB => floorLeft .passengerB s
  | _ => s.intercom

/-- The payment controller after the loss of a station. -/
def payLost (st : Station) (s : State) : PaymentState :=
  if st = .fleetModem then { s.pay with bearerUp := false } else s.pay

@[simp] theorem releaseFloor_shownMode (p : Party) (ic : IntercomState) : (releaseFloor p ic).shownMode = ic.shownMode := by
  unfold releaseFloor passFloor leaveWaiting
  repeat' split
  all_goals rfl

/-- The loss of a passenger: the mixer's new state, with a DISPLAY when the mode shown changes. -/
theorem passengerLost_eq (p : Party) (s : State) :
    passengerLost p s =
      if (floorLeft p s).shownMode = s.intercom.shownMode then { s with intercom := floorLeft p s }
      else placeDisplay { s with intercom := floorLeft p s } := by
  have hopen : openFlagNow { s with intercom := releaseFloor p s.intercom } = openFlagNow s := rfl
  unfold passengerLost changeFloor updateShownMode
  simp only [hopen, releaseFloor_shownMode]
  split
  case isTrue h =>
    have hsame : floorLeft p s = releaseFloor p s.intercom := by
      unfold floorLeft
      rw [h, ← releaseFloor_shownMode p s.intercom]
    rw [if_pos (by exact h), hsame]
  case isFalse h =>
    rw [if_neg (by exact h)]
    rfl

/-- What a station's loss reads of the state is not changed by a handling. -/
theorem State.Sends.floorLeft {s t : State} {es : List Event} {ms : List Outbound} (h : s.Sends t es ms) (p : Party) :
    Machine.floorLeft p t = Machine.floorLeft p s := by
  obtain ⟨-, -, -, -, -, -, -, -, htrip, -, hic, -⟩ := h.keeps
  simp only [Machine.floorLeft, openFlagNow, htrip, hic]

theorem State.Sends.passengerLost {s t : State} {es : List Event} {ms : List Outbound} (h : s.Sends t es ms) (p : Party) :
    ({ s with intercom := Machine.floorLeft p s } : State).Sends (passengerLost p t) es ms := by
  rw [passengerLost_eq, h.floorLeft]
  split
  · exact h.intercom _
  · exact (h.intercom _).display

/-- The loss of a station after occurrences: the blocks' new states. -/
theorem State.Sends.stationLost {s t : State} {es : List Event} {ms : List Outbound} (h : s.Sends t es ms) (st : Station) :
    ({ s with intercom := intercomLost st s, pay := payLost st s } : State).Sends (stationLostActs st t) es ms := by
  obtain ⟨-, -, -, -, -, -, -, -, -, -, hic, hpay, -⟩ := h.keeps
  cases st
  case meterHead | roofSign => exact h
  case cardTerminal =>
    simpa [intercomLost, payLost, stationLostActs, pinOff, hic] using h.intercom { s.intercom with pin := none }
  case fleetModem =>
    simpa [intercomLost, payLost, stationLostActs, hpay] using h.pay { s.pay with bearerUp := false }
  case passengerA => exact h.passengerLost .passengerA
  case passengerB => exact h.passengerLost .passengerB

/-- What the DISPLAY shows of the mixer is its displayed mode. -/
theorem displayPayload_intercom (s : State) (ic : IntercomState) (h : ic.shownMode = s.intercom.shownMode) :
    displayPayload { s with intercom := ic } = displayPayload s := by
  simp [displayPayload, shownLabel, shownAmounts, shownExtras, openFlagNow, h]

/-- The refresh places after a change of the mixer that the DISPLAY does not show. -/
theorem State.PlacesFollow.intercom {s t : State} (k : s.PlacesFollow t) (ic : IntercomState)
    (h : ic.shownMode = t.intercom.shownMode) : s.PlacesFollow { t with intercom := ic } := by
  obtain ⟨ksign, kdisp⟩ := k
  refine ⟨ksign, ?_⟩
  unfold State.Shows at kdisp ⊢
  rw [displayPayload_intercom t ic h]
  exact kdisp

/-- The refresh places after the loss of a station: as before it, or with a DISPLAY of a changed displayed mode. -/
theorem stationLost_places {s t : State} {es : List Event} {ms : List Outbound} (h : s.Sends t es ms)
    (k : s.PlacesFollow t) (st : Station) :
    (stationLostActs st t).link.signPlace = s.link.signPlace ∧
      if (intercomLost st s).shownMode = s.intercom.shownMode then s.PlacesFollow (stationLostActs st t)
      else (stationLostActs st t).Shows := by
  obtain ⟨-, -, -, -, -, -, -, -, -, -, hic, -⟩ := h.keeps
  have hpassenger : ∀ p, (passengerLost p t).link.signPlace = s.link.signPlace ∧
      if (floorLeft p s).shownMode = s.intercom.shownMode then s.PlacesFollow (passengerLost p t)
      else (passengerLost p t).Shows := fun p => by
    rw [passengerLost_eq, h.floorLeft, hic]
    split
    case isTrue hm => exact ⟨k.1, k.intercom _ (hic ▸ hm)⟩
    case isFalse => exact ⟨k.1, placeDisplay_shows _⟩
  cases st
  case meterHead | roofSign | fleetModem => exact ⟨k.1, (if_pos (α := Prop) rfl).mpr k⟩
  case cardTerminal => exact ⟨k.1, (if_pos (α := Prop) rfl).mpr (k.intercom { t.intercom with pin := none } rfl)⟩
  case passengerA => exact hpassenger .passengerA
  case passengerB => exact hpassenger .passengerB

/-! The station operations as handlings. -/

/-- A DISPLAY that shows the values that stand keeps showing them through an occurrence. -/
theorem raise_shows (e : Event) {s : State} (ho : s.link.orderly) (h : s.Shows) : (raise e s).Shows := by
  obtain ⟨-, k⟩ := raise_placesFollow e s
  by_cases hi : noticeIndicator s.disp.headPending = noticeIndicator (raise e s).disp.headPending
  · rw [if_pos hi] at k
    unfold State.Shows at h ⊢
    rw [k, h, (raise_occurs e s ho).sends.displayPayload hi]
  · rwa [if_neg hi] at k

section

variable {st : Station} {s : State}

/-- A return that places no SIGN SET and begins no online time. -/
theorem stationAnswers_quiet (hp : (s.link.stations.get st).presence ≠ .present)
    (hr : st ≠ .roofSign) (hb : st ≠ .fleetModem ∨ s.pay.bearerUp = false) :
    stationAnswers st s = raise .stationFound (setRecord st (s.link.stations.get st).answered s) := by
  rw [stationAnswers_found hp, onlineAfter_idle hb]
  cases st
  case roofSign => exact absurd rfl hr
  all_goals rfl

/-- The roof sign's return is told to the sign controller (08 R135). -/
theorem stationAnswers_roofSign (hp : (s.link.stations.get .roofSign).presence ≠ .present) :
    stationAnswers .roofSign s =
      placeSign (raise .stationFound (setRecord .roofSign (s.link.stations.get .roofSign).answered s)) := by
  rw [stationAnswers_found hp, onlineAfter_idle (.inl (by decide))]
  rfl

theorem stationAnswers_modem (hp : (s.link.stations.get .fleetModem).presence ≠ .present) (hb : s.pay.bearerUp = true) :
    stationAnswers .fleetModem s =
      onlineBegins (raise .stationFound (setRecord .fleetModem (s.link.stations.get .fleetModem).answered s)) := by
  rw [stationAnswers_found hp]
  exact onlineAfter_modem hp hb

/-- The eighth miss in a row of a station that was not ABSENT, after whatever came before it (01 R12). -/
theorem stationMisses_lost (ho : s.link.orderly) (h8 : Config.missLimit ≤ (s.link.stations.get st).misses + 1)
    (hp : (s.link.stations.get st).presence ≠ .absent) :
    let gone := setRecord st (s.link.stations.get st).missed s
    ({ gone with intercom := intercomLost st s, pay := payLost st s } : State).Occurs (stationMisses st s) []
        (if (s.link.stations.get st).presence = .present then [.stationLost] else []) ∧
      (stationMisses st s).link.signPlace = s.link.signPlace ∧
      if (intercomLost st s).shownMode = s.intercom.shownMode then gone.PlacesFollow (stationMisses st s)
      else (stationMisses st s).Shows := by
  intro gone
  have hic : intercomLost st gone = intercomLost st s := by cases st <;> rfl
  have hpay : payLost st gone = payLost st s := rfl
  have o := (State.Occurs.refl (s := gone) ho).raisedIf ((s.link.stations.get st).presence = .present) .stationLost
  have f := (State.PlacesFollow.refl gone).raisedIf (.refl ho) ((s.link.stations.get st).presence = .present) .stationLost
  have hev : (if decide ((s.link.stations.get st).presence = .present) = true then [Event.stationLost] else []) =
      if (s.link.stations.get st).presence = .present then [.stationLost] else [] := by simp
  rw [List.nil_append, hev] at o
  have hlost := (o.sends.stationLost st).occurs
  have hplaces := stationLost_places o.sends f st
  rw [hic] at hplaces
  rw [hic, hpay] at hlost
  rw [stationMisses_eq, if_pos ⟨h8, hp⟩]
  exact ⟨hlost, hplaces⟩

/-- A miss that does not end a station's presence writes the record alone. -/
theorem stationMisses_kept
    (h : (s.link.stations.get st).misses + 1 < Config.missLimit ∨ (s.link.stations.get st).presence = .absent) :
    stationMisses st s = setRecord st (s.link.stations.get st).missed s := by
  rw [stationMisses_eq, if_neg]
  rintro ⟨h8, hp⟩
  rcases h with h | h
  · omega
  · exact hp h

end

/-! The up lane as a handling, case by case. -/

section

variable {st : Station} {s : State} {up : UpFrame}

/-- What a frame leaves of a reception that its station's answer begins, or does not. -/
def receptionBegun (st : Station) (up : UpFrame) : Option Reception :=
  if up.message.valid then some ⟨st, receivedBytes ⟨st, []⟩ up⟩ else none

theorem State.Sends.setReception {s t : State} {es : List Event} {ms : List Outbound} (h : s.Sends t es ms)
    (x : Option Reception) : (setReception x s).Sends (setReception x t) es ms := by
  obtain ⟨hw, ho, hl⟩ := h.link
  refine ⟨?_, hw, ho, congrArg (fun l : LinkState => { l with reception := x }) hl⟩
  have k := h.keeps
  apply State.ext' <;> simp [k, State.shiftsCounted, Machine.setReception]

/-- The state after a station's record changed and the reception stands so: what a handling of the up lane starts from. -/
def recorded (st : Station) (r : StationRecord) (x : Option Reception) (s : State) : State :=
  setReception x (setRecord st r s)

/-- The record written and the event of a return, before the blocks act. -/
theorem raise_found (x : Option Reception) (r : StationRecord) (ho : s.link.orderly) :
    (recorded st r x s).Occurs (setReception x (raise .stationFound (setRecord st r s))) [] [.stationFound] ∧
      (recorded st r x s).PlacesFollow (setReception x (raise .stationFound (setRecord st r s))) :=
  ⟨((raise_occurs .stationFound (setRecord st r s) ho).sends.setReception x).occurs,
    raise_placesFollow .stationFound (setRecord st r s)⟩

theorem readUpLane_found (ho : s.link.orderly) (hr : s.link.reception = none)
    (ha : up.message.valid = true ∨ up.answer = ⟨true, Config.idleCode⟩)
    (hp : (s.link.stations.get st).presence ≠ .present) (hsign : st ≠ .roofSign)
    (hb : st ≠ .fleetModem ∨ s.pay.bearerUp = false) :
    (recorded st (s.link.stations.get st).answered (receptionBegun st up) s).Occurs (readUpLane (some st) up s) []
        [.stationFound] ∧
      (recorded st (s.link.stations.get st).answered (receptionBegun st up) s).PlacesFollow
        (readUpLane (some st) up s) := by
  rw [readUpLane_answered hr ha, stationAnswers_quiet hp hsign hb]
  exact raise_found _ _ ho

/-- The roof sign's return brings a SIGN SET (08 R135). -/
theorem readUpLane_found_roofSign (ho : s.link.orderly) (hr : s.link.reception = none)
    (ha : up.message.valid = true ∨ up.answer = ⟨true, Config.idleCode⟩)
    (hp : (s.link.stations.get .roofSign).presence ≠ .present) :
    let found := recorded .roofSign (s.link.stations.get .roofSign).answered (receptionBegun .roofSign up) s
    ({ found with sign := { s.sign with
        lastLegend := some (signLegend s.tables.unbanked (commandedSign s)).1.toNat, refresh := 0 } } : State).Occurs
        (readUpLane (some .roofSign) up s) [] [.stationFound] ∧
      (readUpLane (some .roofSign) up s).Signs := by
  rw [readUpLane_answered hr ha, stationAnswers_roofSign hp]
  have o := (raise_occurs .stationFound
    (setRecord .roofSign (s.link.stations.get .roofSign).answered s) ho).sends.signPlaced
  exact ⟨(o.setReception (receptionBegun .roofSign up)).occurs, placeSign_signs _⟩

/-- The modem's return with the bearer UP: online begins. -/
theorem readUpLane_found_modem (hr : s.link.reception = none)
    (ha : up.message.valid = true ∨ up.answer = ⟨true, Config.idleCode⟩)
    (hp : (s.link.stations.get .fleetModem).presence ≠ .present) (hb : s.pay.bearerUp = true) :
    readUpLane (some .fleetModem) up s =
      setReception (receptionBegun .fleetModem up) (onlineBegins (raise .stationFound
        (setRecord .fleetModem (s.link.stations.get .fleetModem).answered s))) := by
  rw [readUpLane_answered hr ha, stationAnswers_modem hp hb]
  rfl

/-- A capture in flight goes on when online begins. -/
theorem readUpLane_found_inFlight (ho : s.link.orderly) (hr : s.link.reception = none)
    (ha : up.message.valid = true ∨ up.answer = ⟨true, Config.idleCode⟩)
    (hp : (s.link.stations.get .fleetModem).presence ≠ .present) (hb : s.pay.bearerUp = true) {ref : Reference}
    {n limit : Nat} (hc : s.pay.capture = .inFlight ref n limit) :
    (recorded .fleetModem (s.link.stations.get .fleetModem).answered (receptionBegun .fleetModem up) s).Occurs
        (readUpLane (some .fleetModem) up s) [] [.stationFound] ∧
      (recorded .fleetModem (s.link.stations.get .fleetModem).answered (receptionBegun .fleetModem up) s).PlacesFollow
        (readUpLane (some .fleetModem) up s) := by
  rw [readUpLane_found_modem hr ha hp hb, onlineBegins_inFlight (by simpa using hc)]
  exact raise_found _ _ ho

theorem State.Sends.pay_eq {s t : State} {es : List Event} {ms : List Outbound} (h : s.Sends t es ms) : t.pay = s.pay := by
  obtain ⟨-, -, -, -, -, -, -, -, -, -, -, hpay, -⟩ := h.keeps
  exact hpay

theorem State.Sends.setCapture {s t : State} {es : List Event} {ms : List Outbound} (h : s.Sends t es ms)
    (c : CaptureState) :
    ({ s with pay := { s.pay with capture := c } } : State).Sends (setCapture c t) es ms := by
  simpa only [Machine.setCapture, h.pay_eq] using h.pay { s.pay with capture := c }

/-- With nothing deferred, online beginning ends a wait. -/
theorem readUpLane_found_empty (ho : s.link.orderly) (hr : s.link.reception = none)
    (ha : up.message.valid = true ∨ up.answer = ⟨true, Config.idleCode⟩)
    (hp : (s.link.stations.get .fleetModem).presence ≠ .present) (hb : s.pay.bearerUp = true)
    (hc : s.pay.capture = .idle ∨ ∃ n interval, s.pay.capture = .waiting n interval) (hd : s.pay.deferred = []) :
    let found := recorded .fleetModem (s.link.stations.get .fleetModem).answered (receptionBegun .fleetModem up) s
    ({ found with pay := { s.pay with capture := .idle } } : State).Occurs (readUpLane (some .fleetModem) up s) []
        [.stationFound] ∧
      found.PlacesFollow (readUpLane (some .fleetModem) up s) := by
  intro found
  have o := (raise_occurs .stationFound (setRecord .fleetModem (s.link.stations.get .fleetModem).answered s) ho).sends
  have f := raise_placesFollow .stationFound (setRecord .fleetModem (s.link.stations.get .fleetModem).answered s)
  have hpay := o.pay_eq
  rw [readUpLane_found_modem hr ha hp hb]
  generalize raise .stationFound (setRecord .fleetModem (s.link.stations.get .fleetModem).answered s) = u at o f hpay
  have hu : onlineBegins u = setCapture .idle u := by
    rw [onlineBegins_idle (hpay ▸ hc)]
    exact captureCheck_empty ((congrArg PaymentState.deferred hpay).trans hd)
  rw [hu]
  exact ⟨((o.setCapture .idle).setReception (receptionBegun .fleetModem up)).occurs, f⟩

/-- An offer leaves the refresh places and what the DISPLAY shows. -/
theorem State.PlacesFollow.offered {s t : State} (k : s.PlacesFollow t) (m : Outbound) : s.PlacesFollow (offer m t) := by
  obtain ⟨ksign, kdisp⟩ := k
  obtain ⟨hsign, hdisp⟩ := offer_places m t
  have hpayload : displayPayload (offer m t) = displayPayload t := displayPayload_congr (by simp) (by simp) (by simp)
    (by simp) (by simp) (by simp) (by simp)
  refine ⟨hsign.trans ksign, ?_⟩
  unfold State.Shows at kdisp ⊢
  simp only [offer_keeps, hdisp, hpayload]
  exact kdisp

/-- With an entry deferred, online beginning starts its capture (10 R161, R170, R172). -/
theorem State.Sends.onlineBegins_head {s t : State} {es : List Event} {ms : List Outbound} (h : s.Sends t es ms)
    (hc : s.pay.capture = .idle ∨ ∃ n interval, s.pay.capture = .waiting n interval) {e : DeferredEntry}
    {rest : List DeferredEntry} (hd : s.pay.deferred = e :: rest) (ho : isOnline t = true) :
    ({ s with pay := { s.pay with
        capture := .inFlight e.ref 0 (authTimeoutSetting s.tables.unbanked) } } : State).Sends
        (onlineBegins t) es (ms ++ [⟨.fleetModem, kindCapture, capturePayload e⟩]) := by
  obtain ⟨-, -, -, -, -, htables, -, -, -, -, -, hpay, -⟩ := h.keeps
  rw [Machine.onlineBegins_head (hpay ▸ hc) (hpay ▸ hd) ho, htables]
  exact ((h.setCapture .idle).offered _).setCapture _

theorem State.PlacesFollow.onlineBegins_head {s t : State} (k : s.PlacesFollow t)
    (hc : t.pay.capture = .idle ∨ ∃ n interval, t.pay.capture = .waiting n interval) {e : DeferredEntry}
    {rest : List DeferredEntry} (hd : t.pay.deferred = e :: rest) (ho : isOnline t = true) :
    s.PlacesFollow (onlineBegins t) := by
  rw [Machine.onlineBegins_head hc hd ho]
  exact State.PlacesFollow.offered (t := setCapture .idle t) k _

/-- The modem's return with the bearer UP and an entry deferred. -/
theorem readUpLane_found_head (ho : s.link.orderly) (hr : s.link.reception = none)
    (ha : up.message.valid = true ∨ up.answer = ⟨true, Config.idleCode⟩)
    (hp : (s.link.stations.get .fleetModem).presence ≠ .present) (hb : s.pay.bearerUp = true)
    (hc : s.pay.capture = .idle ∨ ∃ n interval, s.pay.capture = .waiting n interval) {e : DeferredEntry}
    {rest : List DeferredEntry} (hd : s.pay.deferred = e :: rest) :
    let found := recorded .fleetModem (s.link.stations.get .fleetModem).answered (receptionBegun .fleetModem up) s
    ({ found with pay := { s.pay with
        capture := .inFlight e.ref 0 (authTimeoutSetting s.tables.unbanked) } } : State).Sends
        (readUpLane (some .fleetModem) up s) [.stationFound]
        (noticesOf .stationFound s.disp ++ [⟨.fleetModem, kindCapture, capturePayload e⟩]) ∧
      found.PlacesFollow (readUpLane (some .fleetModem) up s) := by
  intro found
  have o := (raise_occurs .stationFound (setRecord .fleetModem (s.link.stations.get .fleetModem).answered s) ho).sends
  have f := raise_placesFollow .stationFound (setRecord .fleetModem (s.link.stations.get .fleetModem).answered s)
  have hpay := o.pay_eq
  have hon := isOnline_found (s.link.stations.get .fleetModem) hb
  rw [readUpLane_found_modem hr ha hp hb]
  generalize raise .stationFound (setRecord .fleetModem (s.link.stations.get .fleetModem).answered s) = u at o f hpay hon
  have q := (o.onlineBegins_head hc hd hon).setReception (receptionBegun .fleetModem up)
  simp only [noticesAll, List.nil_append, List.append_nil] at q
  exact ⟨q, f.onlineBegins_head (hpay ▸ hc) (hpay ▸ hd) hon⟩

theorem readUpLane_lost (ho : s.link.orderly) (hr : s.link.reception = none) (hv : up.message.valid = false)
    (ha : up.answer ≠ ⟨true, Config.idleCode⟩) (h8 : Config.missLimit ≤ (s.link.stations.get st).misses + 1)
    (hp : (s.link.stations.get st).presence ≠ .absent) :
    let gone := recorded st (s.link.stations.get st).missed none s
    ({ gone with intercom := intercomLost st s, pay := payLost st s } : State).Occurs (readUpLane (some st) up s) []
        (if (s.link.stations.get st).presence = .present then [.stationLost] else []) ∧
      (readUpLane (some st) up s).link.signPlace = s.link.signPlace ∧
      if (intercomLost st s).shownMode = s.intercom.shownMode then gone.PlacesFollow (readUpLane (some st) up s)
      else (readUpLane (some st) up s).Shows := by
  have hnone : setReception none (setRecord st (s.link.stations.get st).missed s) =
      setRecord st (s.link.stations.get st).missed s := setReception_none (s := setRecord st _ s) hr
  rw [readUpLane_missed hr hv ha, recorded, hnone]
  exact stationMisses_lost ho h8 hp

/-- Of two writes of one record the second stands. -/
theorem setRecord_setRecord (q r : StationRecord) (s : State) : setRecord st r (setRecord st q s) = setRecord st r s := by
  simp [setRecord]

/-- The state of a truncation once its reception is ended and its total raised (01 R10). -/
def truncationHeld (st : Station) (s : State) : State :=
  setRecord st (s.link.stations.get st).truncated (setReception none s)

@[simp] theorem truncationHeld_get (st : Station) (s : State) :
    (truncationHeld st s).link.stations.get st = (s.link.stations.get st).truncated :=
  StationTable.get_set s.link.stations st _

/-- The record after a truncation and its miss. -/
theorem setRecord_truncationHeld (st : Station) (r : StationRecord) (s : State) :
    setRecord st r (truncationHeld st s) = recorded st r none s :=
  setRecord_setRecord _ _ _

theorem readUpLane_truncationHeld {x : Reception} {grant : Option Station} (hx : s.link.reception = some x)
    (hv : up.message.valid = false) :
    readUpLane grant up s =
      raise .messageTruncated (stationMisses x.station (truncationHeld x.station s)) :=
  readUpLane_truncated hx hv

/-- A truncation that does not end a station's presence (01 R10). -/
theorem readUpLane_cut {x : Reception} {grant : Option Station} (ho : s.link.orderly) (hx : s.link.reception = some x)
    (hv : up.message.valid = false)
    (h : (s.link.stations.get x.station).misses + 1 < Config.missLimit ∨
      (s.link.stations.get x.station).presence = .absent) :
    let cut := recorded x.station (s.link.stations.get x.station).truncated.missed none s
    cut.Occurs (readUpLane grant up s) [] [.messageTruncated] ∧ cut.PlacesFollow (readUpLane grant up s) := by
  rw [readUpLane_truncationHeld hx hv, stationMisses_kept (by rw [truncationHeld_get]; exact h), truncationHeld_get,
    setRecord_truncationHeld]
  exact ⟨raise_occurs _ _ ho, raise_placesFollow _ _⟩

/-- A truncation that ends a station's presence: what the loss brings, then MESSAGE TRUNCATED (01 R10, R12, log 15). -/
theorem readUpLane_cut_lost {x : Reception} {grant : Option Station} (ho : s.link.orderly)
    (hx : s.link.reception = some x) (hv : up.message.valid = false)
    (h8 : Config.missLimit ≤ (s.link.stations.get x.station).misses + 1)
    (hp : (s.link.stations.get x.station).presence ≠ .absent) :
    let gone := recorded x.station (s.link.stations.get x.station).truncated.missed none s
    ({ gone with intercom := intercomLost x.station s, pay := payLost x.station s } : State).Occurs
        (readUpLane grant up s) []
        ((if (s.link.stations.get x.station).presence = .present then [.stationLost] else []) ++ [.messageTruncated]) ∧
      (readUpLane grant up s).link.signPlace = s.link.signPlace ∧
      if (intercomLost x.station s).shownMode = s.intercom.shownMode then gone.PlacesFollow (readUpLane grant up s)
      else (readUpLane grant up s).Shows := by
  intro gone
  have hic : intercomLost x.station (truncationHeld x.station s) = intercomLost x.station s := by cases x.station <;> rfl
  obtain ⟨o, hsign, hdisp⟩ := stationMisses_lost (st := x.station) (s := truncationHeld x.station s) ho
    (by rw [truncationHeld_get]; exact h8) (by rw [truncationHeld_get]; exact hp)
  rw [truncationHeld_get, setRecord_truncationHeld, hic] at o hdisp
  have q := raise_occurs .messageTruncated (stationMisses x.station (truncationHeld x.station s)) o.orderly
  rw [readUpLane_truncationHeld hx hv]
  refine ⟨o.trans q, (raise_signPlace _ _).trans hsign, ?_⟩
  replace hdisp : if (intercomLost x.station s).shownMode = s.intercom.shownMode then
      gone.PlacesFollow (stationMisses x.station (truncationHeld x.station s))
    else (stationMisses x.station (truncationHeld x.station s)).Shows := hdisp
  split
  case isTrue hm =>
    rw [if_pos hm] at hdisp
    exact State.PlacesFollow.trans (s := { gone with
      intercom := intercomLost x.station s, pay := payLost x.station (truncationHeld x.station s) }) hdisp
      (raise_placesFollow _ _) o.sends q.sends
  case isFalse hm =>
    rw [if_neg hm] at hdisp
    exact raise_shows _ o.orderly hdisp

/-- A check failure (01 R9, R11). -/
theorem readUpLane_failed {x : Reception} {grant : Option Station} (ho : s.link.orderly)
    (hx : s.link.reception = some x) (hv : up.message.valid = true) (hf : receptionFails x.station (receivedBytes x up)) :
    let failed := recorded x.station (s.link.stations.get x.station).failed none s
    failed.Occurs (readUpLane grant up s) [] [.linkCheck] ∧ failed.PlacesFollow (readUpLane grant up s) := by
  rw [readUpLane_receiving hx hv, receptionAdvances_fails s hf]
  exact ⟨raise_occurs _ _ ho, raise_placesFollow _ _⟩

end

/-! The frame around a station operation. -/

/-- A frame once it is sent and before its up lane is read. -/
def frameBegun (s : State) (cal : Bool) : State := { s with calLine := cal, link := (linkFrameStarts s.link).2 }

/-- The rest of a silent frame that brings no tick: the outputs of its mix, and the divider. -/
def frameDone (s : State) : State :=
  { s with
    link := { s.link with mixed := some (.all 0#16) }, time := { s.time with divFrames := s.time.divFrames + 1 } }

theorem State.Sends.frameDone {s t : State} {es : List Event} {ms : List Outbound} (h : s.Sends t es ms) :
    (frameDone s).Sends (frameDone t) es ms := by
  obtain ⟨hw, ho, hl⟩ := h.link
  refine ⟨?_, hw, ho, congrArg (fun l : LinkState => { l with mixed := some (.all 0#16) }) hl⟩
  have k := h.keeps
  apply State.ext' <;> simp [k, State.shiftsCounted, Machine.frameDone]

/-- A silent frame with no message waiting and no tick due is its up lane's handling, done. -/
theorem exec_frame_done {s a u : State} {up : UpFrame} {cal : Bool} {st : Station} {es : List Event} {ms : List Outbound}
    (hrun : s.running = true) (hi : s.link.inbound = [])
    (hmic : up.driver.valid = false ∧ up.passengerA.valid = false ∧ up.passengerB.valid = false ∧ up.modem.valid = false)
    (hdiv : s.time.divFrames + 1 < 800) (hg : (chooseGrant s.link).1 = some st)
    (hu : readUpLane (some st) up (frameBegun s cal) = u) (h : a.Sends u es ms)
    (ha : a.link.inbound = (linkFrameStarts s.link).2.inbound) (ht : a.time = s.time) :
    exec (.frame up cal) s = .next (frameDone u) ∧ (frameDone a).Sends (frameDone u) es ms := by
  obtain ⟨-, -, hin, -⟩ := linkFrameStarts_keeps s.link
  obtain ⟨-, -, -, -, -, hq, -⟩ := h.link.keeps
  obtain ⟨-, -, -, -, -, -, htime, -⟩ := h.keeps
  have hread : frameRead up { s with calLine := cal } = u := by
    rw [frameRead_empty up { s with calLine := cal } hi, ← hu, ← hg]
    rfl
  have hidle : (setMixed (.all 0#16) u).link.inbound = [] := hq.trans (ha.trans (hin.trans hi))
  refine ⟨?_, h.frameDone⟩
  rw [exec_frame_silent hrun hmic, hread, dispatchInbound_idle _ (.inl hidle),
    countFrame_counts _ (by simpa [setMixed, htime, ht] using hdiv)]
  rfl

/-- The mixer's state after a loss does not read the link. -/
theorem intercomLost_frameBegun (st : Station) (s : State) (cal : Bool) :
    intercomLost st (frameBegun s cal) = intercomLost st s := by cases st <;> rfl

/-- A miss that makes a station ABSENT. -/
theorem missed_of_lost {r : StationRecord} (h : Config.missLimit ≤ r.misses + 1) :
    r.missed = { r with
      misses := min 8 (r.misses + 1), missTotal := min 65535 (r.missTotal + 1), presence := .absent } := by
  rw [StationRecord.missed, if_pos h]
  rfl

theorem missed_of_eighth {r : StationRecord} (h : Config.missLimit ≤ r.misses + 1) :
    r.missed = { r with misses := 8, missTotal := min 65535 (r.missTotal + 1), presence := .absent } := by
  rw [missed_of_lost h, min_eq_left (a := 8) h]

/-- A miss that leaves a station's presence. -/
theorem missed_of_kept {r : StationRecord} (h : r.misses + 1 < Config.missLimit ∨ r.presence = .absent) :
    r.missed = { r with misses := min 8 (r.misses + 1), missTotal := min 65535 (r.missTotal + 1) } := by
  have hp : (if Config.missLimit ≤ r.misses + 1 then Presence.absent else r.presence) = r.presence := by
    split
    · exact (h.resolve_left (by omega)).symm
    · rfl
  rw [StationRecord.missed, hp]
  rfl

/-- Settles O13: the station table through the up lane, and each handling of the up lane carried to the frame's end. -/
theorem frameKeepsStationRecords : Obligations.FrameKeepsStationRecords := by
  refine ⟨fun s up cal hrun => ⟨_, exec_frame up cal s hrun, frameRuns_stations up { s with calLine := cal }⟩,
    fun s up cal st hrun ho hi hmic hdiv hg => ?_⟩
  intro base r ended off intercom pay
  obtain ⟨hst, hrec, -⟩ := linkFrameStarts_keeps s.link
  have hso : (frameBegun s cal).link.orderly := linkFrameStarts_orderly _ ho
  have hget : (frameBegun s cal).link.stations.get st = r := congrArg (·.get st) hst
  have hended : ∀ q x, ended q x = frameDone (recorded st q x (frameBegun s cal)) := fun q x => by
    have hset : (frameBegun s cal).link.stations.set st q = s.link.stations.set st q := congrArg (·.set st q) hst
    simp only [recorded, setRecord, hset]
    rfl
  have hic : intercom = intercomLost st (frameBegun s cal) := by
    rw [intercomLost_frameBegun]
    cases st <;> rfl
  have hpay : pay = payLost st (frameBegun s cal) := rfl
  have hexec : ∀ {a : State} {es : List Event} {ms : List Outbound},
      a.Sends (readUpLane (some st) up (frameBegun s cal)) es ms →
      a.link.inbound = (linkFrameStarts s.link).2.inbound → a.time = s.time →
      exec (.frame up cal) s = .next (frameDone (readUpLane (some st) up (frameBegun s cal))) ∧
        (frameDone a).Sends (frameDone (readUpLane (some st) up (frameBegun s cal))) es ms := fun h =>
    exec_frame_done hrun hi hmic hdiv hg rfl h
  have hoccurs : ∀ {a : State} {es : List Event},
      a.Occurs (readUpLane (some st) up (frameBegun s cal)) [] es →
      a.link.inbound = (linkFrameStarts s.link).2.inbound → a.time = s.time →
      exec (.frame up cal) s = .next (frameDone (readUpLane (some st) up (frameBegun s cal))) ∧
        (frameDone a).Occurs (frameDone (readUpLane (some st) up (frameBegun s cal))) [] es := fun o hin ht =>
    (hexec o.sends hin ht).imp id State.Sends.occurs
  refine ⟨?_, ?_, ?_⟩
  · intro hr hp ha found
    have hr' : (frameBegun s cal).link.reception = none := hrec.trans hr
    have hfound : found = frameDone (recorded st r.answered (receptionBegun st up) (frameBegun s cal)) := hended _ _
    clear_value found
    subst hfound
    have hp' : ((frameBegun s cal).link.stations.get st).presence ≠ .present := hget ▸ hp
    refine ⟨fun hsign hb => ?_, ?_, ?_⟩
    · obtain ⟨o, f⟩ := readUpLane_found hso hr' ha hp' hsign hb
      rw [hget] at o f
      obtain ⟨he, o⟩ := hoccurs o rfl rfl
      exact ⟨_, he, o, f⟩
    · rintro rfl
      obtain ⟨o, f⟩ := readUpLane_found_roofSign hso hr' ha hp'
      rw [hget] at o
      obtain ⟨he, o⟩ := hoccurs o rfl rfl
      exact ⟨_, he, f, o⟩
    · rintro rfl hb
      refine ⟨fun ref n limit hc => ?_, fun hc => ⟨fun hd => ?_, fun e rest hd => ?_⟩⟩
      · obtain ⟨o, f⟩ := readUpLane_found_inFlight hso hr' ha hp' hb hc
        rw [hget] at o f
        obtain ⟨he, o⟩ := hoccurs o rfl rfl
        exact ⟨_, he, o, f⟩
      · obtain ⟨o, f⟩ := readUpLane_found_empty hso hr' ha hp' hb hc hd
        rw [hget] at o f
        obtain ⟨he, o⟩ := hoccurs o rfl rfl
        exact ⟨_, he, f, o⟩
      · obtain ⟨o, f⟩ := readUpLane_found_head hso hr' ha hp' hb hc hd
        rw [hget] at o f
        obtain ⟨he, o⟩ := hexec o rfl rfl
        exact ⟨_, he, f, o⟩
  · intro hr hp h8 hv ha lost
    obtain ⟨o, f⟩ := readUpLane_lost (s := frameBegun s cal) hso (hrec.trans hr) hv ha (hget ▸ h8) (hget ▸ hp)
    have hlost : lost = frameDone (recorded st r.missed none (frameBegun s cal)) :=
      (hended _ _).trans (by rw [missed_of_eighth h8])
    rw [hget] at o f
    obtain ⟨he, o⟩ := hoccurs o rfl rfl
    rw [hlost, hic, hpay]
    exact ⟨_, he, o, f⟩
  · intro x hx
    obtain rfl : x.station = st := by simpa [chooseGrant_receiving hx] using hg
    have hx' : (frameBegun s cal).link.reception = some x := hrec.trans hx
    intro cut l n failed
    refine ⟨fun hv h => ?_, fun hv h8 hp => ?_, fun hv hf => ?_⟩
    · obtain ⟨o, f⟩ := readUpLane_cut (grant := some x.station) hso hx' hv (hget ▸ h)
      rw [hget] at o f
      have hcut : r.truncated.missed = cut := missed_of_kept h
      obtain ⟨he, o⟩ := hoccurs o rfl rfl
      rw [hended, ← hcut]
      exact ⟨_, he, f, o⟩
    · obtain ⟨o, f⟩ := readUpLane_cut_lost (grant := some x.station) hso hx' hv (hget ▸ h8) (hget ▸ hp)
      rw [hget] at o f
      have hcut : r.truncated.missed = { cut with presence := .absent } := missed_of_lost h8
      obtain ⟨he, o⟩ := hoccurs o rfl rfl
      rw [hended, ← hcut, hic, hpay]
      exact ⟨_, he, o, f⟩
    · obtain ⟨o, f⟩ := readUpLane_failed (grant := some x.station) hso hx' hv hf
      rw [hget] at o f
      obtain ⟨he, o⟩ := hoccurs o rfl rfl
      rw [hended]
      exact ⟨_, he, f, o⟩

end Sys2Proof.Machine
end

