-- ==== Sys2Proof/Proofs/Occurrence.lean ====
section
/-! PROOF. One occurrence of an event (02 R25 to R27): the open shift's counts, the NOTICEs and the DISPLAY. -/

namespace Sys2Proof.Machine

/-- Settles O15: the flag, the pending sets and the NOTICEs by `raise_occurs`, the shift's counts by `raise_shifts`, and the
refresh places by `raise_placesFollow`. -/
theorem eventOccurrence : Obligations.EventOccurrence := by
  intro s e ho
  obtain ⟨hsign, hdisplay⟩ := raise_placesFollow e s
  refine ⟨raise_occurs e s ho, fun hclosed => ?_, fun r hopen => ?_, hsign, hdisplay⟩
  · rw [raise_shifts, hclosed, Option.map_none, ← hclosed]
  · rw [raise_shifts, hopen]
    rfl

end Sys2Proof.Machine
end

