-- ==== Sys2Proof/Proofs/OwnRequests.lean ====
section
/-! PROOF. The dispatcher's own requests (02 R28 to R30), and a request's way through its permission (02 R20 to R22). -/

namespace Sys2Proof.Machine

/-! A request through its permission. -/

theorem classify_requestCode (r : Request) : classify r.code = .request r := by cases r <;> rfl

/-- A request of a station that may send it goes to its owner. -/
theorem handleMessage_permitted (m : Inbound) (r : Request) (s : State) (h : classify m.kind = .request r)
    (hp : mayRequest m.src r = true) : handleMessage m s = takeRequest m.src r m.payload s := by
  simp [handleMessage, h, hp]

section

variable {c : Instr} {src : Station} {r : Request} {payload : List Byte} {s : State}

/-- On a Ready controller a request command of a station that may send it is what the request's owner does. -/
theorem exec_permitted (hc : messageOf c = some ⟨src, r.code, payload⟩) (hs : s.Ready) (hp : mayRequest src r = true) :
    exec c s = .next (takeRequest src r payload (sensed c s)) := by
  rw [exec_message c _ s hc hs, handleMessage_permitted _ r _ (classify_requestCode r) hp]

/-- On a Ready controller a request command of any other station is answered REFUSED_PERMISSION and nothing else. -/
theorem exec_forbidden (hc : messageOf c = some ⟨src, r.code, payload⟩) (hs : s.Ready) (hp : mayRequest src r = false) :
    exec c s = .next ((sensed c s).answered src r.code .refusedPermission []) := by
  rw [exec_message c _ s hc hs, handleMessage_forbidden _ r _ (classify_requestCode r) hp,
    refuse_answered _ _ _ _ (hs.sensing c)]

end

/-! STATUS READ (02 R29). -/

theorem takeStatusRead_summary {s : State} (hs : s.Ready) (src : Station) :
    takeStatusRead src [1#8] s = emptyPending src (s.answered src 5#8 .ok (summaryBytes src s)) := by
  rw [← reply_answered _ _ _ _ _ hs]
  rfl

theorem takeStatusRead_totals {s : State} (hs : s.Ready) (src : Station) :
    takeStatusRead src [2#8] s = s.answered src 5#8 .ok (s.link.stations.all.flatMap totalsBytes) := by
  rw [← reply_answered _ _ _ _ _ hs]
  rfl

theorem takeStatusRead_refused {s : State} (hs : s.Ready) (src : Station) {payload : List Byte}
    (h1 : payload ≠ [1#8]) (h2 : payload ≠ [2#8]) :
    takeStatusRead src payload s = s.answered src 5#8 .badValue [] := by
  rw [← refuse_answered _ _ _ _ hs, takeStatusRead, if_neg h1, if_neg h2]
  rfl

/-- The meter head's pending set emptied offers no message. -/
theorem emptyPending_head_occurs (s : State) (ho : s.link.orderly) :
    ({ s with disp := { s.disp with headPending := 0#24 } } : State).Occurs (emptyPending .meterHead s) [] [] := by
  unfold emptyPending
  rw [if_pos rfl]
  split
  · exact placeDisplay_occurs _ ho
  · exact .refl ho

/-- The meter head's pending set emptied writes the DISPLAY place exactly when the notice-pending indicator falls (02 R27). -/
theorem emptyPending_head_places (s : State) :
    (emptyPending .meterHead s).link.signPlace = s.link.signPlace ∧
      (if noticeIndicator s.disp.headPending then (emptyPending .meterHead s).Shows
        else (emptyPending .meterHead s).link.displayPlace = s.link.displayPlace) := by
  unfold emptyPending
  rw [if_pos rfl]
  split
  · exact ⟨rfl, placeDisplay_shows _⟩
  · exact ⟨rfl, rfl⟩

/-- Being Ready is a matter of the link alone. -/
theorem State.Ready.withDisp {s : State} (hs : s.Ready) (d : DispatcherState) : ({ s with disp := d } : State).Ready :=
  ⟨hs.running, hs.inbound, hs.held, hs.room⟩

/-- The REPLY to the meter head's part 1 and the emptying of its pending set, as one handling. -/
theorem statusRead_head_occurs {s : State} (hs : s.Ready) :
    ({ s with disp := { s.disp with headPending := 0#24 } } : State).Occurs (takeStatusRead .meterHead [1#8] s)
      [replyMessage .meterHead 5#8 .ok (summaryBytes .meterHead s)] [] := by
  have hready := hs.withDisp { s.disp with headPending := 0#24 }
  have hreply := reply_occurs .meterHead 5#8 .ok (summaryBytes .meterHead s) _ hready.orderly
  rw [reply_answered _ _ _ _ _ hready] at hreply
  rw [takeStatusRead_summary hs]
  exact hreply.trans (emptyPending_head_occurs (s.answered .meterHead 5#8 .ok (summaryBytes .meterHead s)) hreply.orderly)

/-- Settles O17: the summary and its REPLY first, then the requester's pending set emptied (log 25). -/
theorem statusReadAnswers : Obligations.StatusReadAnswers := by
  intro s hs summary
  have hsummary : ∀ src, summaryBytes src s = summary (pendingOf src s.disp) := by
    intro src
    simp only [summary, summaryBytes, clockBytes, List.append_assoc]
    rfl
  have hexec : ∀ src payload, src = .meterHead ∨ src = .fleetModem →
      exec (.statusRead src payload) s = .next (takeStatusRead src payload s) := by
    rintro src payload (rfl | rfl)
    all_goals exact exec_permitted (r := .statusRead) rfl hs rfl
  refine ⟨⟨_, hexec _ _ (.inl rfl), ?_, ?_⟩, ?_, fun src hsrc => ⟨?_, fun payload h1 h2 => ?_⟩⟩
  · exact hsummary .meterHead ▸ statusRead_head_occurs hs
  · rw [takeStatusRead_summary hs]
    exact emptyPending_head_places (s.answered .meterHead 5#8 .ok (summaryBytes .meterHead s))
  · rw [hexec _ _ (.inr rfl), takeStatusRead_summary hs, hsummary]
    rfl
  · rw [hexec _ _ hsrc, takeStatusRead_totals hs]
    rfl
  · rw [hexec _ _ hsrc, takeStatusRead_refused hs src h1 h2]

/-! Event sets and single bytes, read from a payload (00, Codes). -/

theorem toNat_append_byte {n : Nat} (v : BitVec n) (b : Byte) : (v ++ b).toNat = v.toNat * 256 + b.toNat := by
  rw [BitVec.toNat_append, ← Nat.shiftLeft_add_eq_or_of_lt b.isLt, Nat.shiftLeft_eq]

/-- Three bytes, high byte first, are the event set they spell (02 R24). -/
theorem ofNat_beNat_three (b2 b1 b0 : Byte) : BitVec.ofNat 24 (beNat [b2, b1, b0]) = (b2 ++ b1 ++ b0 : BitVec 24) := by
  have hval : beNat [b2, b1, b0] = (b2 ++ b1 ++ b0 : BitVec 24).toNat := by simp [beNat, toNat_append_byte]
  rw [hval, BitVec.ofNat_toNat, BitVec.setWidth_eq]

theorem fieldAt_byte {payload : List Byte} {i : Nat} {b : Byte} (h : payload[i]? = some b) :
    fieldAt payload i 1 = b.toNat := by
  obtain ⟨hi, rfl⟩ := List.getElem?_eq_some_iff.mp h
  rw [fieldAt, List.drop_eq_getElem_cons hi, List.take_succ_cons, List.take_zero]
  simp [beNat]

/-- A byte that is there and is not b has not the value of b. -/
theorem fieldAt_ne {payload : List Byte} {i : Nat} {b : Byte} (hi : i < payload.length) (h : payload[i]? ≠ some b) :
    fieldAt payload i 1 ≠ b.toNat := by
  have hget := List.getElem?_eq_getElem hi
  rw [fieldAt_byte hget]
  exact fun hb => h (by rw [hget, BitVec.eq_of_toNat_eq hb])

/-! NOTICE MASK (02 R28). -/

/-- The fields of a NOTICE MASK of the right length. -/
theorem noticeMask_fields (dest choice b2 b1 b0 : Byte) :
    fieldAt [dest, choice, b2, b1, b0] 0 1 = dest.toNat ∧ fieldAt [dest, choice, b2, b1, b0] 1 1 = choice.toNat ∧
      BitVec.ofNat 24 (fieldAt [dest, choice, b2, b1, b0] 2 3) = (b2 ++ b1 ++ b0 : BitVec 24) :=
  ⟨fieldAt_byte rfl, fieldAt_byte rfl, ofNat_beNat_three b2 b1 b0⟩

section

variable {s : State} (hs : s.Ready) (src : Station) (clear : Bool) (b2 b1 b0 : Byte)

include hs

/-- NOTICE MASK of the meter head's mask: choice 0 is SET and choice 1 is CLEAR. -/
theorem takeNoticeMask_head :
    takeNoticeMask src [1#8, boolByte clear, b2, b1, b0] s =
      { s.answered src 6#8 .ok (eventSetBytes (chooseMask clear s.disp.headMask (b2 ++ b1 ++ b0 : BitVec 24))) with
        disp := { s.disp with headMask := chooseMask clear s.disp.headMask (b2 ++ b1 ++ b0 : BitVec 24) } } := by
  obtain ⟨hdest, hchoice, hkinds⟩ := noticeMask_fields 1#8 (boolByte clear) b2 b1 b0
  simp only [takeNoticeMask, hdest, hchoice, hkinds, reply_answered _ _ _ _ _ hs]
  cases clear <;> rfl

/-- NOTICE MASK of the fleet modem's mask. -/
theorem takeNoticeMask_modem :
    takeNoticeMask src [4#8, boolByte clear, b2, b1, b0] s =
      { s.answered src 6#8 .ok (eventSetBytes (chooseMask clear s.disp.modemMask (b2 ++ b1 ++ b0 : BitVec 24))) with
        disp := { s.disp with modemMask := chooseMask clear s.disp.modemMask (b2 ++ b1 ++ b0 : BitVec 24) } } := by
  obtain ⟨hdest, hchoice, hkinds⟩ := noticeMask_fields 4#8 (boolByte clear) b2 b1 b0
  simp only [takeNoticeMask, hdest, hchoice, hkinds, reply_answered _ _ _ _ _ hs]
  cases clear <;> rfl

end

/-- Another length, destination or choice: the three tests of the request, read from its bytes. -/
theorem takeNoticeMask_refused {s : State} (hs : s.Ready) (src : Station) {payload : List Byte}
    (h : payload.length ≠ 5 ∨ (payload.head? ≠ some 1#8 ∧ payload.head? ≠ some 4#8) ∨
      (payload[1]? ≠ some 0#8 ∧ payload[1]? ≠ some 1#8)) :
    takeNoticeMask src payload s = s.answered src 6#8 .badValue [] := by
  have htests : payload.length ≠ 5 ∨ (fieldAt payload 0 1 ≠ 1 ∧ fieldAt payload 0 1 ≠ 4) ∨
      1 < fieldAt payload 1 1 := by
    by_cases hlen : payload.length = 5
    · rcases h with hl | ⟨h1, h4⟩ | ⟨h0, h1⟩
      · exact .inl hl
      · rw [List.head?_eq_getElem?] at h1 h4
        exact .inr (.inl ⟨fieldAt_ne (by omega) h1, fieldAt_ne (by omega) h4⟩)
      · have hne0 : fieldAt payload 1 1 ≠ 0 := fieldAt_ne (by omega) h0
        have hne1 : fieldAt payload 1 1 ≠ 1 := fieldAt_ne (by omega) h1
        exact .inr (.inr (by omega))
    · exact .inl hlen
  rw [takeNoticeMask, if_pos htests, refuse_answered _ _ _ _ hs]
  rfl

/-! FLAGS CLEAR (02 R30). -/

theorem takeFlagsClear_three {s : State} (hs : s.Ready) (src : Station) (b2 b1 b0 : Byte) :
    takeFlagsClear src [b2, b1, b0] s =
      { s.answered src 7#8 .ok (eventSetBytes (s.disp.flags &&& ~~~(b2 ++ b1 ++ b0 : BitVec 24))) with
        disp := { s.disp with flags := s.disp.flags &&& ~~~(b2 ++ b1 ++ b0 : BitVec 24) } } := by
  rw [takeFlagsClear, if_neg (by simp)]
  simp only [ofNat_beNat_three, reply_answered _ _ _ _ _ hs]
  rfl

theorem takeFlagsClear_refused {s : State} (hs : s.Ready) (src : Station) {payload : List Byte}
    (h : payload.length ≠ 3) : takeFlagsClear src payload s = s.answered src 7#8 .badValue [] := by
  rw [takeFlagsClear, if_pos h, refuse_answered _ _ _ _ hs]
  rfl

/-- Only the fleet modem may send NOTICE MASK and FLAGS CLEAR (02 R20). -/
theorem mayRequest_modemOnly {src : Station} (h : src ≠ .fleetModem) :
    mayRequest src .noticeMask = false ∧ mayRequest src .flagsClear = false := by
  cases src
  case fleetModem => exact absurd rfl h
  all_goals decide

/-- Settles O18: each request of the fleet modem by its own equations, and any other station's by its permission. -/
theorem noticeMaskAndFlagsClear : Obligations.NoticeMaskAndFlagsClear := by
  refine ⟨fun s hs => ?_, fun s hs => ?_⟩
  · have hexec : ∀ {payload t}, takeNoticeMask .fleetModem payload s = t →
        exec (.noticeMask .fleetModem payload) s = .next t :=
      fun ht => ht ▸ exec_permitted (r := .noticeMask) rfl hs rfl
    exact ⟨fun b2 b1 b0 =>
        ⟨hexec (takeNoticeMask_head hs _ false b2 b1 b0), hexec (takeNoticeMask_head hs _ true b2 b1 b0),
          hexec (takeNoticeMask_modem hs _ false b2 b1 b0), hexec (takeNoticeMask_modem hs _ true b2 b1 b0)⟩,
      fun payload h => hexec (takeNoticeMask_refused hs _ h),
      fun src payload h => exec_forbidden (r := .noticeMask) rfl hs (mayRequest_modemOnly h).1⟩
  · have hexec : ∀ {payload t}, takeFlagsClear .fleetModem payload s = t →
        exec (.flagsClear .fleetModem payload) s = .next t :=
      fun ht => ht ▸ exec_permitted (r := .flagsClear) rfl hs rfl
    exact ⟨fun b2 b1 b0 => hexec (takeFlagsClear_three hs _ b2 b1 b0),
      fun payload h => hexec (takeFlagsClear_refused hs _ h),
      fun src payload h => exec_forbidden (r := .flagsClear) rfl hs (mayRequest_modemOnly h).2⟩

end Sys2Proof.Machine
end

