-- ==== Sys2Proof/Proofs/TableStore.lean ====
section
/-! PROOF. The table store (03): its formats and keys, the groups a write cuts, and what a write or a clear of an entry of an
unbanked table leaves of the others. -/

namespace Sys2Proof.Machine

/-! Formats (03 R32, R33). -/

theorem tableFormat_none_iff (table : Nat) : tableFormat table = none ↔ table < 1 ∨ 16 < table := by
  unfold tableFormat
  split
  case h_17 => simp only [true_iff]; grind
  all_goals simp

/-- Every table has at most 256 entries and 8 groups, as the keys of the banks ask; an unbanked table has one group. -/
theorem tableFormat_fits {table : Nat} {f : TableFormat} (h : tableFormat table = some f) :
    f.first + f.count ≤ 256 ∧ f.groups.length ≤ 8 ∧ (isBanked table = false → f.groups.length = 1) := by
  unfold tableFormat at h
  split at h
  all_goals cases h
  all_goals exact ⟨by decide, by decide, by decide⟩

theorem isIndex_iff (f : TableFormat) (i : Nat) : isIndex f i = true ↔ f.first ≤ i ∧ i < f.first + f.count := by
  simp [isIndex]

theorem isIndex_lt {table i : Nat} {f : TableFormat} (h : tableFormat table = some f) (hi : isIndex f i = true) : i < 256 := by
  obtain ⟨hfits, -, -⟩ := tableFormat_fits h
  obtain ⟨-, hlt⟩ := (isIndex_iff f i).mp hi
  omega

/-! Keys. -/

theorem cellKey_inj {t i g t' i' g' : Nat} (hi : i < 256) (hi' : i' < 256) (hg : g < 8) (hg' : g' < 8) :
    cellKey t i g = cellKey t' i' g' ↔ t = t' ∧ i = i' ∧ g = g' := by
  unfold cellKey
  omega

theorem keyInEntries_cellKey {table first last t i g : Nat} (hf : first < 256) (hl : last < 256) (hi : i < 256) (hg : g < 8) :
    keyInEntries table first last (cellKey t i g) = true ↔ t = table ∧ first ≤ i ∧ i ≤ last := by
  simp only [keyInEntries, Bool.and_eq_true, decide_eq_true_eq]
  unfold cellKey
  omega

/-! The groups of a write (03 R35). -/

theorem cutItems_places (f : TableFormat) (places : List (Nat × Nat)) (l : List Byte) :
    (cutItems f places l).map (fun x => (x.index, x.group)) = places := by
  induction places generalizing l with
  | nil => rfl
  | cons p rest ih => simp [cutItems, ih]

theorem mem_maskGroups {f : TableFormat} {mask g : Nat} (h : g ∈ maskGroups f mask) : g < f.groups.length := by
  simp only [maskGroups, List.mem_filter, List.mem_range] at h
  exact h.1

/-- A written group is one of the entries and of the groups that the write names. -/
theorem mem_writeItems {f : TableFormat} {first count mask : Nat} {l : List Byte} {x : WriteItem}
    (h : x ∈ writeItems f first count mask l) : x.index ∈ namedEntries f first count ∧ x.group ∈ maskGroups f mask := by
  have hplace : (x.index, x.group) ∈ (writeItems f first count mask l).map fun x => (x.index, x.group) :=
    List.mem_map_of_mem h
  rw [writeItems, cutItems_places] at hplace
  simpa using hplace

theorem namesExist_iff (f : TableFormat) (first count mask : Nat) :
    namesExist f first count mask = true ↔ 1 ≤ count ∧ count ≤ 4 ∧ isIndex f first = true ∧
      (∀ i ∈ namedEntries f first count, isIndex f i = true) ∧ mask < 2 ^ f.groups.length := by
  simp [namesExist, and_assoc]

/-- A written group lies in an entry and in a group of its table. -/
theorem writeItems_fit {table first count mask : Nat} {f : TableFormat} {l : List Byte} {x : WriteItem}
    (hf : tableFormat table = some f) (hn : namesExist f first count mask = true) (hx : x ∈ writeItems f first count mask l) :
    x.index < 256 ∧ x.group < f.groups.length := by
  obtain ⟨-, -, -, hentries, -⟩ := (namesExist_iff ..).mp hn
  obtain ⟨hi, hg⟩ := mem_writeItems hx
  exact ⟨isIndex_lt hf (hentries _ hi), mem_maskGroups hg⟩

/-- The tests of a TABLE WRITE's payload for a table of format f, on the payload's fields (03 R36). -/
structure WritePasses (f : TableFormat) (payload : List Byte) : Prop where
  whole : 5 ≤ payload.length
  bank : fieldAt payload 1 1 = if isBanked (fieldAt payload 0 1) then 1 else 0
  exist : namesExist f (fieldAt payload 2 1) (fieldAt payload 3 1) (fieldAt payload 4 1) = true
  length : payload.length = 5 + fieldAt payload 3 1 * maskLength f (fieldAt payload 4 1)
  ranges : ∀ x ∈ writeItems f (fieldAt payload 2 1) (fieldAt payload 3 1) (fieldAt payload 4 1) (payload.drop 5),
    groupInRange (fieldAt payload 0 1) x.group (f.groups.getD x.group []) x.bytes = true

theorem checkWrite_unknown {payload : List Byte} (h : tableFormat (fieldAt payload 0 1) = none) :
    checkWrite payload = none := by
  simp only [checkWrite, h]

section

variable {f : TableFormat} {payload : List Byte} (hf : tableFormat (fieldAt payload 0 1) = some f)

include hf

theorem checkWrite_passes (h : WritePasses f payload) :
    checkWrite payload = some ⟨fieldAt payload 0 1, fieldAt payload 4 1,
      writeItems f (fieldAt payload 2 1) (fieldAt payload 3 1) (fieldAt payload 4 1) (payload.drop 5)⟩ := by
  obtain ⟨hwhole, hbank, hexist, hlength, hranges⟩ := h
  simp only [checkWrite, hf]
  rw [if_pos]
  simpa only [Bool.and_eq_true, decide_eq_true_eq, List.all_eq_true] using
    ⟨⟨⟨⟨hwhole, hbank⟩, hexist⟩, hlength⟩, hranges⟩

theorem checkWrite_fails (h : ¬WritePasses f payload) : checkWrite payload = none := by
  simp only [checkWrite, hf]
  rw [if_neg]
  simp only [Bool.and_eq_true, decide_eq_true_eq, List.all_eq_true]
  rintro ⟨⟨⟨⟨hwhole, hbank⟩, hexist⟩, hlength⟩, hranges⟩
  exact h ⟨hwhole, hbank, hexist, hlength, hranges⟩

end

/-- Each group of a checked TABLE WRITE lies in an entry of its table. -/
theorem checkWrite_items {payload : List Byte} {w : CheckedWrite} (h : checkWrite payload = some w) :
    ∀ x ∈ w.items, x.index < 256 := by
  cases hf : tableFormat (fieldAt payload 0 1) with
  | none => rw [checkWrite_unknown hf] at h; cases h
  | some f =>
    by_cases hp : WritePasses f payload
    · rw [checkWrite_passes hf hp, Option.some.injEq] at h
      subst h
      exact fun x hx => (writeItems_fit hf hp.exist hx).1
    · rw [checkWrite_fails hf hp] at h; cases h

/-! An entry of an unbanked table (03 R33, R44). -/

/-- What the bank holds for an entry after a write: nothing when the entry always holds a value and that is its default. -/
theorem find_unbankedPut (table index : Nat) (l : List Byte) (b : Bank) (k : Nat) :
    Bank.find k (unbankedPut table index l b) =
      if k = cellKey table index 0 then if !mayBeAbsent table && l = defaultEntry table index then none else some l
      else Bank.find k b := by
  unfold unbankedPut
  by_cases hk : k = cellKey table index 0
  · subst hk
    split <;> simp [Bank.find_clear]
  · split <;> simp [Bank.find_clear, Bank.find_put_ne, hk]

theorem unbankedPut_wf (table index : Nat) (l : List Byte) {b : Bank} (h : Bank.wf b = true) :
    Bank.wf (unbankedPut table index l b) = true := by
  unfold unbankedPut
  split
  · exact Bank.clear_wf _ h
  · exact Bank.put_wf _ _ h

end Sys2Proof.Machine
end

