-- ==== Sys2Proof/Proofs/TablesCanonical.lean ====
section
/-! PROOF. Every command keeps the canonical form of the table store (03 R32, R33, R44): the requests of the table store by the
laws of the banks, an activation because it copies STANDBY, and every other operation because it leaves the tables alone. -/

namespace Sys2Proof.Machine

/-! The table store's own operations. -/

theorem TableState.Canonical.activated {t : TableState} (h : t.Canonical) (version : Nat) (pending : Option Nat) :
    ({ t with active := t.standby, activeVersion := version, pendingActivation := pending } : TableState).Canonical :=
  ⟨h.standby, h.standby, h.unbanked, h.noDefault⟩

theorem TableState.Canonical.cancelled {t : TableState} (h : t.Canonical) (c : Bool) : (cancelActivation c t).Canonical := by
  unfold cancelActivation
  split
  · exact ⟨h.active, h.standby, h.unbanked, h.noDefault⟩
  · exact h

/-- A write of one entry of an unbanked table: an entry that always holds a value is listed only when that is not its default. -/
theorem TableState.Canonical.unbankedPut {t : TableState} (h : t.Canonical) (table : Nat) {index : Nat} (l : List Byte)
    (hi : index < 256) :
    ({ t with unbanked := Machine.unbankedPut table index l t.unbanked } : TableState).Canonical where
  active := h.active
  standby := h.standby
  unbanked := unbankedPut_wf _ _ _ h.unbanked
  noDefault tb i hi' hm := by
    rw [find_unbankedPut]
    split
    case isTrue hk =>
      obtain ⟨rfl, rfl, -⟩ := (cellKey_inj hi' hi (by decide) (by decide)).mp hk
      simp only [hm, Bool.not_false, Bool.true_and, decide_eq_true_eq]
      split <;> simp_all
    case isFalse => exact h.noDefault tb i hi' hm

theorem TableState.Canonical.putItems {t : TableState} (h : t.Canonical) (table : Nat) (items : List WriteItem)
    (hi : ∀ x ∈ items, x.index < 256) : (putItems table items t).Canonical := by
  unfold Machine.putItems
  split
  · refine ⟨h.active, ?_, h.unbanked, h.noDefault⟩
    have hwf := h.standby
    dsimp only
    generalize t.standby = b at hwf
    clear h hi
    induction items generalizing b with
    | nil => exact hwf
    | cons x xs ih => exact ih _ (Bank.put_wf _ _ hwf)
  · induction items generalizing t with
    | nil => exact h
    | cons x xs ih =>
      exact ih (h.unbankedPut table x.bytes (hi x (by simp))) (fun y hy => hi y (by simp [hy]))

theorem TableState.Canonical.clearedUnbanked {t : TableState} (h : t.Canonical) (p : Nat → Bool) :
    ({ t with unbanked := Bank.clear p t.unbanked } : TableState).Canonical where
  active := h.active
  standby := h.standby
  unbanked := Bank.clear_wf _ h.unbanked
  noDefault tb i hi hm := by
    rw [Bank.find_clear]
    split
    · exact nofun
    · exact h.noDefault tb i hi hm

theorem TableState.Canonical.pended {t : TableState} (h : t.Canonical) (pending : Option Nat) :
    ({ t with pendingActivation := pending } : TableState).Canonical :=
  ⟨h.active, h.standby, h.unbanked, h.noDefault⟩

section

variable {s : State} (h : s.tables.Canonical)

include h

theorem takeTableWrite_canonical (src : Station) (payload : List Byte) : (takeTableWrite src payload s).tables.Canonical := by
  unfold takeTableWrite
  split
  case h_1 => simpa using h
  case h_2 w hw =>
    simpa using (h.putItems w.table w.items (checkWrite_items hw)).cancelled _

theorem takeTableClear_canonical (src : Station) (payload : List Byte) : (takeTableClear src payload s).tables.Canonical := by
  have hkept : ∀ p, ({ s.tables with standby := Bank.clear p s.tables.standby } : TableState).Canonical := fun p =>
    ⟨h.active, Bank.clear_wf p h.standby, h.unbanked, h.noDefault⟩
  unfold takeTableClear
  dsimp only
  split
  · simpa using h
  · split
    · split
      · simpa [clearStandby] using (hkept _).cancelled _
      · simpa [clearUnbanked] using h.clearedUnbanked _
    · simpa using h

theorem performActivation_canonical (version : Nat) : (performActivation version s).tables.Canonical := by
  simpa [performActivation, copyBank] using h.activated version s.tables.pendingActivation

theorem activationAtClose_canonical : (activationAtClose s).tables.Canonical := by
  unfold activationAtClose
  split
  · exact h
  · exact performActivation_canonical (s := { s with tables := { s.tables with pendingActivation := none } })
      ⟨h.active, h.standby, h.unbanked, h.noDefault⟩ _

theorem takeTableActivate_canonical (src : Station) (payload : List Byte) :
    (takeTableActivate src payload s).tables.Canonical := by
  unfold takeTableActivate
  dsimp only
  split
  · simpa using h
  · split
    · simpa using h
    · split
      · split
        · simpa using h
        · simpa using h.pended _
      · exact performActivation_canonical (by simpa using h) _

/-! What may close a trip (07 R119, R122; 10 R159 to R163). -/

@[simp] theorem closeTrip_canonical : (closeTrip s).tables.Canonical := by
  have hclosing := activationAtClose_canonical (s := accountTrip (setEndTime s)) (by simpa using h)
  simpa [closeTrip] using hclosing

@[simp] theorem recordTender_canonical (kind : TenderKind) (farePart tip : Nat) :
    (recordTender kind farePart tip s).tables.Canonical := by
  unfold recordTender
  dsimp only
  repeat' split
  all_goals simp [h]

@[simp] theorem keyStop_canonical (src : Station) (arg : Byte) : (keyStop src arg s).tables.Canonical := by
  unfold keyStop withNoArgument
  dsimp only
  repeat' split
  all_goals simp [h]

@[simp] theorem keyTender_canonical (kind : TenderKind) (src : Station) : (keyTender kind src s).tables.Canonical := by
  unfold keyTender
  repeat' split
  all_goals simp [h]

@[simp] theorem keyCash_canonical (src : Station) (arg : Byte) : (keyCash src arg s).tables.Canonical := by
  unfold keyCash withNoArgument
  split <;> simp [h]

@[simp] theorem keyUnpaid_canonical (src : Station) (arg : Byte) : (keyUnpaid src arg s).tables.Canonical := by
  unfold keyUnpaid withNoArgument
  split <;> simp [h]

@[simp] theorem takeKey_canonical (src : Station) (payload : List Byte) : (takeKey src payload s).tables.Canonical := by
  unfold takeKey
  repeat' split
  all_goals simp [h]

@[simp] theorem paySucceeds_canonical (number : Nat) (ref : Reference) (o : PayOutcome) (kind : TenderKind)
    (farePart tip : Nat) : (paySucceeds number ref o kind farePart tip s).tables.Canonical := by
  simp [paySucceeds, h]

@[simp] theorem authExpires_canonical : (authExpires s).tables.Canonical := by
  unfold authExpires
  dsimp only
  repeat' split
  all_goals simp [h]

@[simp] theorem authSecond_canonical : (authSecond s).tables.Canonical := by
  unfold authSecond
  repeat' split
  all_goals simp [h]

@[simp] theorem authResponseTaken_canonical (number : Nat) (ref : Reference) (approved : Bool) :
    (authResponseTaken number ref approved s).tables.Canonical := by
  unfold authResponseTaken
  dsimp only
  repeat' split
  all_goals simp [h]

@[simp] theorem payOffline_canonical (src : Station) (tr : Trip) (f : PayFields) :
    (payOffline src tr f s).tables.Canonical := by
  unfold payOffline
  dsimp only
  split <;> simp [h]

@[simp] theorem takePayRequest_canonical (src : Station) (payload : List Byte) :
    (takePayRequest src payload s).tables.Canonical := by
  unfold takePayRequest
  dsimp only
  repeat' split
  all_goals simp [h]

/-! The dispatcher, the divider and the commands. -/

@[simp] theorem takeReport_canonical (src : Station) (kind : ReportKind) (payload : List Byte) :
    (takeReport src kind payload s).tables.Canonical := by
  cases kind <;> simp [takeReport, h]

@[simp] theorem takeRequest_canonical (src : Station) (kind : Request) (payload : List Byte) :
    (takeRequest src kind payload s).tables.Canonical := by
  cases kind
  case tableWrite => exact takeTableWrite_canonical h src payload
  case tableClear => exact takeTableClear_canonical h src payload
  case tableActivate => exact takeTableActivate_canonical h src payload
  all_goals simp [takeRequest, h]

theorem handleMessage_canonical (m : Inbound) : (handleMessage m s).tables.Canonical := by
  unfold handleMessage
  repeat' split
  all_goals simp [h]

@[simp] theorem fareSecondOccurs_canonical : (fareSecondOccurs s).tables.Canonical := by
  simp [fareSecondOccurs, paymentSecond, h]

@[simp] theorem tickOccurs_canonical : (tickOccurs s).tables.Canonical := by
  unfold tickOccurs countTick
  split <;> simp [h]

@[simp] theorem countFrame_canonical : (countFrame s).tables.Canonical := by
  unfold countFrame
  split <;> simp [h]

end

theorem drain_canonical (n : Nat) {s : State} (h : s.tables.Canonical) : (drain n s).tables.Canonical := by
  induction n generalizing s with
  | zero => exact h
  | succ n ih =>
    unfold drain
    repeat' split
    · exact h
    · exact ih (handleMessage_canonical (by exact h) _)
    · exact h

section

variable {s : State} (h : s.tables.Canonical)

include h

@[simp] theorem dispatchInbound_canonical : (dispatchInbound s).tables.Canonical := drain_canonical _ h

@[simp] theorem deliver_canonical (m : Inbound) : (deliver m s).tables.Canonical := by
  unfold deliver
  split <;> simp [h]

@[simp] theorem frameRuns_canonical (up : UpFrame) : (frameRuns up s).tables.Canonical := by
  have hstarted := dispatchInbound_canonical (s := { s with link := (linkFrameStarts s.link).2 }) h
  exact countFrame_canonical (dispatchInbound_canonical (by simpa using hstarted))

theorem warmStarts_canonical : (warmStarts s).tables.Canonical := by
  have hbase : (warmBase s).tables = s.tables := by
    unfold warmBase warmPayment startShownMode startSign startTimebase
    dsimp only
    split <;> simp [startLink]
  have hbreak : (powerBreak (warmBase s)).tables = s.tables := by
    unfold powerBreak
    split <;> simp [hbase]
  simpa [warmStarts, startMessages, hbreak] using h

/-- Every command keeps the canonical form. -/
theorem exec_canonical (c : Instr) {t : State} (e : exec c s = .next t) : t.tables.Canonical := by
  cases hm : messageOf c with
  | some m =>
    rw [exec_deliver c m s hm, Host.Outcome.next.injEq] at e
    have hs : (sensed c s).tables.Canonical := by cases c <;> exact h
    subst e
    split
    · exact deliver_canonical hs m
    · exact hs
  | none =>
    cases c <;> simp only [messageOf, reduceCtorEq] at hm
    case coldStart => cases e; simpa [coldStarts_eq] using reset_canonical
    case warmStart => cases e; exact warmStarts_canonical h
    case mainSupplyLoss => cases e; exact h
    all_goals
      cases e
      split <;> simp [h]

end

/-- Settles O7: a step is the front command, and every command keeps the canonical form. -/
theorem stepKeepsTablesCanonical : Obligations.StepKeepsTablesCanonical := by
  intro s t h e
  cases hp : s.pending with
  | nil =>
    rw [step_nil s hp, Host.Outcome.next.injEq] at e
    exact e ▸ h
  | cons c rest =>
    rw [step_cons s c rest hp] at e
    exact exec_canonical (s := { s with pending := rest }) h c e

end Sys2Proof.Machine
end

