-- ==== Sys2Proof/Proofs/TableRequests.lean ====
section
/-! PROOF. TABLE WRITE and TABLE CLEAR (03 R35 to R38, R43, R44, 08 R127): the fields of their payloads, the groups that a write
cuts and puts, and the entries that a clear removes. -/

namespace Sys2Proof.Machine

/-! Shared by both requests. -/

theorem signAfterTable_quiet {table : Nat} (h : table ≠ 9) (s : State) : signAfterTable table s = s := if_neg h

/-- Cancelling when an activation is pending, and only then, leaves none pending. -/
theorem cancelActivation_pending (t : TableState) :
    cancelActivation t.pendingActivation.isSome t = { t with pendingActivation := none } := by
  cases t with
  | mk active standby unbanked activeVersion pending => cases pending <;> rfl

theorem cancelActivation_eq (c : Bool) (t : TableState) :
    cancelActivation c t = { t with pendingActivation := if c then none else t.pendingActivation } := by
  cases c <;> rfl

theorem byte_ne_nine {table : Byte} (h : table ≠ 9#8) : table.toNat ≠ 9 := fun hn => h (BitVec.eq_of_toNat_eq hn)

theorem isBanked_iff (table : Nat) : isBanked table = true ↔ 1 ≤ table ∧ table ≤ 8 := by simp [isBanked]

/-! TABLE CLEAR (03 R38). -/

theorem clearPasses_banked {f : TableFormat} {table : Nat} (hb : isBanked table = true) (bank first last : Nat) :
    clearPasses f table bank first last = true ↔
      bank = 1 ∧ isIndex f first = true ∧ isIndex f last = true ∧ first ≤ last := by
  simp [clearPasses, hb, and_assoc]

theorem clearPasses_unbanked {f : TableFormat} {table : Nat} (hb : isBanked table = false) (bank first last : Nat) :
    clearPasses f table bank first last = true ↔ bank = 0 := by
  simp [clearPasses, hb]

/-- The fields of a TABLE CLEAR of the right length. -/
theorem tableClear_fields (table bank first last : Byte) :
    fieldAt [table, bank, first, last] 0 1 = table.toNat ∧ fieldAt [table, bank, first, last] 1 1 = bank.toNat ∧
      fieldAt [table, bank, first, last] 2 1 = first.toNat ∧ fieldAt [table, bank, first, last] 3 1 = last.toNat :=
  ⟨fieldAt_byte rfl, fieldAt_byte rfl, fieldAt_byte rfl, fieldAt_byte rfl⟩

section

variable {s : State} (hs : s.Ready) (src : Station)

include hs

theorem takeTableClear_fails {payload : List Byte}
    (h : payload.length = 4 → ∀ f, tableFormat (fieldAt payload 0 1) = some f →
      clearPasses f (fieldAt payload 0 1) (fieldAt payload 1 1) (fieldAt payload 2 1) (fieldAt payload 3 1) ≠ true) :
    takeTableClear src payload s = s.answered src 9#8 .badValue [] := by
  rw [← refuse_answered _ _ _ _ hs]
  unfold takeTableClear
  dsimp only
  split
  case h_1 => rfl
  case h_2 f hf => exact if_neg fun hp => h hp.1 f hf hp.2

variable {table bank first last : Byte} {f : TableFormat}

theorem takeTableClear_refused (h : ∀ f, tableFormat table.toNat = some f →
      clearPasses f table.toNat bank.toNat first.toNat last.toNat ≠ true) :
    takeTableClear src [table, bank, first, last] s = s.answered src 9#8 .badValue [] := by
  obtain ⟨h0, h1, h2, h3⟩ := tableClear_fields table bank first last
  exact takeTableClear_fails hs src fun _ => by rwa [h0, h1, h2, h3]

theorem takeTableClear_banked (hf : tableFormat table.toNat = some f) (hb : isBanked table.toNat = true)
    (hfirst : isIndex f first.toNat = true) (hlast : isIndex f last.toNat = true) (hle : first.toNat ≤ last.toNat) :
    takeTableClear src [table, 1#8, first, last] s =
      { s.answered src 9#8 .ok [boolByte s.tables.pendingActivation.isSome] with
        tables := { s.tables with
          standby := Bank.clear (keyInEntries table.toNat first.toNat last.toNat) s.tables.standby
          pendingActivation := none } } := by
  obtain ⟨h0, h1, h2, h3⟩ := tableClear_fields table 1#8 first last
  have hpass := (clearPasses_banked (f := f) hb 1 first.toNat last.toNat).mpr ⟨rfl, hfirst, hlast, hle⟩
  have hcancel := cancelActivation_pending (clearStandby table.toNat first.toNat last.toNat s.tables)
  simp only [takeTableClear, h0, h1, h2, h3, hf]
  rw [if_pos ⟨rfl, hpass⟩, if_pos hb, hb, reply_answered _ _ _ _ _ hs]
  exact congrArg (fun tables => { s.answered src 9#8 .ok [boolByte s.tables.pendingActivation.isSome] with tables }) hcancel

theorem takeTableClear_unbanked (hf : tableFormat table.toNat = some f) (hb : isBanked table.toNat = false) :
    takeTableClear src [table, 0#8, first, last] s =
      signAfterTable table.toNat { s.answered src 9#8 .ok [0#8] with tables := clearUnbanked table.toNat s.tables } := by
  obtain ⟨h0, h1, h2, h3⟩ := tableClear_fields table 0#8 first last
  simp only [takeTableClear, h0, h1, h2, h3, hf]
  rw [if_pos ⟨rfl, (clearPasses_unbanked hb ..).mpr rfl⟩, if_neg (by simp [hb]), hb, reply_answered _ _ _ _ _ hs]
  rfl

end

/-- A clear of the named entries of a table, seen at one group (03 R38). -/
theorem find_clear_entries {table first last tb i g : Nat} (hf : first < 256) (hl : last < 256) (hi : i < 256) (hg : g < 8)
    (b : Bank) :
    Bank.find (cellKey tb i g) (Bank.clear (keyInEntries table first last) b) =
      if tb = table ∧ first ≤ i ∧ i ≤ last then none else Bank.find (cellKey tb i g) b := by
  simp only [Bank.find_clear, keyInEntries_cellKey hf hl hi hg]

/-- Settles O20: the refusals by the tests of R38, the clears by what they leave of each group. -/
theorem tableClearRemoves : Obligations.TableClearRemoves := by
  have hexec : ∀ {s payload t}, s.Ready → takeTableClear .fleetModem payload s = t →
      exec (.tableClear .fleetModem payload) s = .next t :=
    fun hs ht => ht ▸ exec_permitted (r := .tableClear) rfl hs rfl
  refine ⟨fun s payload hs => ⟨fun h => hexec hs (takeTableClear_fails hs _ fun h4 => absurd h4 h), ?_⟩,
    fun s table first last f hs hf => ⟨fun hb hfirst hlast hle => ?_, fun hb => ?_, fun hb hrange bank =>
      hexec hs (takeTableClear_refused hs _ fun f' hf' hp => ?_)⟩⟩
  · rintro table bank first last rfl
    refine ⟨fun h => hexec hs (takeTableClear_refused hs _ fun f hf => ?_),
      fun hlo hhi hbank => hexec hs (takeTableClear_refused hs _ fun f hf hp => hbank ?_),
      fun hlo hhi hbank => hexec hs (takeTableClear_refused hs _ fun f hf hp => hbank ?_)⟩
    · rw [(tableFormat_none_iff _).mpr h] at hf
      cases hf
    · have hb : isBanked table.toNat = true := (isBanked_iff _).mpr ⟨hlo, hhi⟩
      exact BitVec.eq_of_toNat_eq ((clearPasses_banked hb ..).mp hp).1
    · have hb : isBanked table.toNat = false := Bool.eq_false_iff.mpr fun h => by
        have := (isBanked_iff _).mp h
        omega
      exact BitVec.eq_of_toNat_eq ((clearPasses_unbanked hb ..).mp hp)
  · refine ⟨_, hexec hs (takeTableClear_banked hs _ hf hb hfirst hlast hle), rfl, fun tb i g hi hg => ?_⟩
    exact find_clear_entries first.isLt last.isLt hi hg _
  · refine ⟨_, hexec hs (takeTableClear_unbanked hs _ hf hb), fun hne => ?_, ?_, fun tb i hi => ?_⟩
    · rw [signAfterTable_quiet (byte_ne_nine hne)]
      rfl
    · rintro rfl
      rfl
    · have hclear := find_clear_entries (table := table.toNat) (first := 0) (last := 255) (tb := tb) (g := 0) (by decide)
        (by decide) hi (by decide) s.tables.unbanked
      have hall : (tb = table.toNat ∧ 0 ≤ i ∧ i ≤ 255) ↔ tb = table.toNat := by omega
      simpa only [signAfterTable_keeps, clearUnbanked, hall] using hclear
  · cases hf.symm.trans hf'
    obtain ⟨-, hfirst, hlast, hle⟩ := (clearPasses_banked hb ..).mp hp
    rcases hrange with h | h | h
    · exact Bool.noConfusion (hfirst.symm.trans h)
    · exact Bool.noConfusion (hlast.symm.trans h)
    · omega

end Sys2Proof.Machine
end

