-- ==== Sys2Proof/Proofs/TableWrite.lean ====
section
/-! PROOF. TABLE WRITE (03 R35 to R37, R43): the groups cut from the contents, and the store after all of them are put. -/

namespace Sys2Proof.Machine

/-! The contents cut into groups (03 R35). -/

theorem sum_flatMap_const {α : Type} (l : List α) (k : List Nat) : (l.flatMap fun _ => k).sum = l.length * k.sum := by
  induction l with
  | nil => simp
  | cons a l ih => simp [ih, Nat.succ_mul, Nat.add_comm]

/-- The groups of the places have, together, the length that the test of R36 asks of the contents. -/
theorem places_length (f : TableFormat) (entries groups : List Nat) :
    ((entries.flatMap fun i => groups.map fun g => (i, g)).map fun p => groupBytes (f.groups.getD p.2 [])).sum =
      entries.length * (groups.map fun g => groupBytes (f.groups.getD g [])).sum := by
  rw [List.map_flatMap]
  simp only [List.map_map, Function.comp_def]
  exact sum_flatMap_const entries _

/-- Contents of the right length are cut without a rest, each group in its own length. -/
theorem cutItems_bytes (f : TableFormat) (places : List (Nat × Nat)) (l : List Byte)
    (h : l.length = (places.map fun p => groupBytes (f.groups.getD p.2 [])).sum) :
    (cutItems f places l).flatMap (·.bytes) = l ∧
      ∀ x ∈ cutItems f places l, x.bytes.length = groupBytes (f.groups.getD x.group []) := by
  induction places generalizing l with
  | nil => exact ⟨(List.length_eq_zero_iff.mp h).symm, nofun⟩
  | cons p rest ih =>
    simp only [List.map_cons, List.sum_cons] at h
    obtain ⟨hjoin, hlength⟩ := ih (l.drop (groupBytes (f.groups.getD p.2 []))) (by rw [List.length_drop]; omega)
    refine ⟨?_, ?_⟩
    · simp only [cutItems, List.flatMap_cons, hjoin, List.take_append_drop]
    · intro x hx
      rcases List.mem_cons.mp hx with rfl | hx
      · exact List.length_take_of_le (by omega)
      · exact hlength x hx

section

variable {f : TableFormat} {first count mask : Nat} {contents : List Byte}

/-- The places that a write names, in the order of writing (03 R37). -/
theorem writeItems_places : (writeItems f first count mask contents).map (fun x => (x.index, x.group)) =
    (namedEntries f first count).flatMap fun i => (maskGroups f mask).map fun g => (i, g) :=
  cutItems_places f _ contents

/-- The contents of a write of the right length are its groups one after the other (03 R35, R36). -/
theorem writeItems_bytes (h : contents.length = count * maskLength f mask) :
    (writeItems f first count mask contents).flatMap (·.bytes) = contents ∧
      ∀ x ∈ writeItems f first count mask contents, x.bytes.length = groupBytes (f.groups.getD x.group []) := by
  refine cutItems_bytes f _ contents ?_
  have hentries : (namedEntries f first count).length = count := by rw [namedEntries, List.length_map, List.length_range]
  rw [places_length, hentries]
  exact h

end

/-! No place is named twice (03 R37). -/

theorem namedEntries_nodup (f : TableFormat) (first : Nat) {count : Nat} (h : count ≤ 4) :
    (namedEntries f first count).Nodup := by
  refine List.Nodup.map_on (fun j hj k hk he => ?_) List.nodup_range
  rw [List.mem_range] at hj hk
  unfold wrapPosition at he
  omega

theorem maskGroups_nodup (f : TableFormat) (mask : Nat) : (maskGroups f mask).Nodup := List.nodup_range.filter _

theorem writeItems_nodup (f : TableFormat) (first mask : Nat) (contents : List Byte) {count : Nat} (h : count ≤ 4) :
    ((writeItems f first count mask contents).map fun x => (x.index, x.group)).Nodup := by
  rw [writeItems_places]
  exact (namedEntries_nodup f first h).product (maskGroups_nodup f mask)

/-! The store after a run of writes. -/

/-- What is seen of a store after writes in order, when at most one of them concerns what is looked at. -/
theorem foldl_observed {α β γ : Type} {op : β → α → β} {obs : β → γ} {val : α → γ} {p : α → Bool} {xs : List α}
    (hop : ∀ b, ∀ x ∈ xs, obs (op b x) = if p x then val x else obs b)
    (hone : xs.Pairwise fun x y => p x = true → p y = false) (b : β) :
    obs (xs.foldl op b) = (xs.find? p).elim (obs b) val := by
  induction xs generalizing b with
  | nil => rfl
  | cons x xs ih =>
    obtain ⟨hx, hxs⟩ := List.pairwise_cons.mp hone
    rw [List.foldl_cons, ih (fun b y hy => hop b y (by simp [hy])) hxs, hop b x (by simp), List.find?_cons]
    cases hp : p x with
    | false => rfl
    | true =>
      have hrest : xs.find? p = none := List.find?_eq_none.mpr fun y hy => by simp [hx y hy hp]
      rw [hrest]
      rfl

/-- Written groups at different places do not concern the same place. -/
theorem pairwise_places {items : List WriteItem} (h : (items.map fun x => (x.index, x.group)).Nodup) (p : WriteItem → Bool)
    (hp : ∀ x ∈ items, ∀ y ∈ items, p x = true → p y = true → x.index = y.index ∧ x.group = y.group) :
    items.Pairwise fun x y => p x = true → p y = false := by
  refine (List.pairwise_map.mp h).imp_of_mem fun {x y} hx hy hne hpx => Bool.eq_false_iff.mpr fun hpy => hne ?_
  obtain ⟨hi, hg⟩ := hp x hx y hy hpx hpy
  rw [hi, hg]

theorem putItems_banked {table : Nat} (hb : isBanked table = true) (items : List WriteItem) (t : TableState) :
    putItems table items t = { t with
      standby := items.foldl (fun b w => Bank.put (cellKey table w.index w.group) w.bytes b) t.standby } := if_pos hb

theorem putItems_unbanked {table : Nat} (hb : isBanked table = false) (items : List WriteItem) (t : TableState) :
    putItems table items t =
      { t with unbanked := items.foldl (fun b w => unbankedPut table w.index w.bytes b) t.unbanked } := if_neg (by simp [hb])

/-- An entry of an unbanked table after a write of one. -/
theorem unbankedEntry_put {table index tb i : Nat} (hindex : index < 256) (hi : i < 256) (l : List Byte) (b : Bank) :
    (unbankedEntry (unbankedPut table index l b) tb i, unbankedValid (unbankedPut table index l b) tb i) =
      if tb = table ∧ index = i then (l, true) else (unbankedEntry b tb i, unbankedValid b tb i) := by
  have hkey := cellKey_inj (t := tb) (t' := table) hi hindex (g := 0) (g' := 0) (by decide) (by decide)
  simp only [unbankedEntry, unbankedValid, Bank.written, find_unbankedPut, hkey]
  by_cases h : tb = table ∧ index = i
  · obtain ⟨rfl, rfl⟩ := h
    by_cases hd : (!mayBeAbsent tb && decide (l = defaultEntry tb index)) = true
    · obtain ⟨hm, hl⟩ := Bool.and_eq_true_iff.mp hd
      simp_all
    · simp [hd]
  · have hne : ¬(tb = table ∧ i = index) := fun hc => h ⟨hc.1, hc.2.symm⟩
    simp [h, hne]

section

variable {items : List WriteItem} (hnodup : (items.map fun x => (x.index, x.group)).Nodup)
  (hindex : ∀ x ∈ items, x.index < 256)

include hnodup hindex

/-- Every group of a write replaces that group of STANDBY; every other group stays. -/
theorem find_putItems {table : Nat} (hb : isBanked table = true) (hgroup : ∀ x ∈ items, x.group < 8) (t : TableState)
    (k : Nat) :
    Bank.find k (putItems table items t).standby =
      (items.find? fun x => cellKey table x.index x.group = k).elim (Bank.find k t.standby) fun x => some x.bytes := by
  rw [putItems_banked hb]
  refine foldl_observed (fun b x hx => ?_) (pairwise_places hnodup _ fun x hx y hy hkx hky => ?_) t.standby
  · by_cases hk : cellKey table x.index x.group = k
    · subst hk
      simp
    · simp [hk, Bank.find_put_ne _ _ (Ne.symm hk)]
  · rw [decide_eq_true_eq] at hkx hky
    exact ((cellKey_inj (hindex x hx) (hindex y hy) (hgroup x hx) (hgroup y hy)).mp (hkx.trans hky.symm)).2

theorem unbankedEntry_putItems {table : Nat} (hb : isBanked table = false) (hgroup : ∀ x ∈ items, x.group = 0)
    (t : TableState) (tb i : Nat) (hi : i < 256) :
    (unbankedEntry (putItems table items t).unbanked tb i, unbankedValid (putItems table items t).unbanked tb i) =
      (items.find? fun x => tb = table ∧ x.index = i).elim
        (unbankedEntry t.unbanked tb i, unbankedValid t.unbanked tb i) fun x => (x.bytes, true) := by
  rw [putItems_unbanked hb]
  refine foldl_observed (obs := fun b => (unbankedEntry b tb i, unbankedValid b tb i)) (fun b x hx => ?_)
    (pairwise_places hnodup _ fun x hx y hy hix hiy => ?_) t.unbanked
  · simpa using unbankedEntry_put (hindex x hx) hi x.bytes b
  · rw [decide_eq_true_eq] at hix hiy
    exact ⟨hix.2.trans hiy.2.symm, (hgroup x hx).trans (hgroup y hy).symm⟩

end

/-- What a write leaves of the store. -/
theorem putItems_keeps (table : Nat) (items : List WriteItem) (t : TableState) :
    putItems table items t =
        { t with standby := (putItems table items t).standby, unbanked := (putItems table items t).unbanked } ∧
      (isBanked table = true → (putItems table items t).unbanked = t.unbanked) ∧
      (isBanked table = false → (putItems table items t).standby = t.standby) := by
  cases hb : isBanked table with
  | true => rw [putItems_banked hb]; exact ⟨rfl, fun _ => rfl, nofun⟩
  | false => rw [putItems_unbanked hb]; exact ⟨rfl, nofun, fun _ => rfl⟩

/-! The request (03 R36, R37, R43). -/

/-- The fields of a TABLE WRITE that holds its five header bytes. -/
theorem tableWrite_fields (table bank first count mask : Byte) (contents : List Byte) :
    fieldAt ([table, bank, first, count, mask] ++ contents) 0 1 = table.toNat ∧
      fieldAt ([table, bank, first, count, mask] ++ contents) 1 1 = bank.toNat ∧
      fieldAt ([table, bank, first, count, mask] ++ contents) 2 1 = first.toNat ∧
      fieldAt ([table, bank, first, count, mask] ++ contents) 3 1 = count.toNat ∧
      fieldAt ([table, bank, first, count, mask] ++ contents) 4 1 = mask.toNat :=
  ⟨fieldAt_byte rfl, fieldAt_byte rfl, fieldAt_byte rfl, fieldAt_byte rfl, fieldAt_byte rfl⟩

/-- The bank byte that a table asks for (03 R36). -/
theorem bank_named_iff (bank : Byte) (banked : Bool) :
    bank.toNat = (if banked then 1 else 0) ↔ bank = if banked then 1#8 else 0#8 := by
  cases banked <;> exact ⟨fun h => BitVec.eq_of_toNat_eq h, fun h => by rw [h]; rfl⟩

section

variable {table bank first count mask : Byte} {contents : List Byte} {f : TableFormat}

/-- The tests of a TABLE WRITE, on the bytes of its header (03 R36). -/
theorem writePasses_iff :
    WritePasses f ([table, bank, first, count, mask] ++ contents) ↔
      bank = (if isBanked table.toNat then 1#8 else 0#8) ∧ namesExist f first.toNat count.toNat mask.toNat = true ∧
        contents.length = count.toNat * maskLength f mask.toNat ∧
        ∀ x ∈ writeItems f first.toNat count.toNat mask.toNat contents,
          groupInRange table.toNat x.group (f.groups.getD x.group []) x.bytes = true := by
  obtain ⟨h0, h1, h2, h3, h4⟩ := tableWrite_fields table bank first count mask contents
  have hlength : ([table, bank, first, count, mask] ++ contents).length = 5 + contents.length := by
    rw [List.length_append]; rfl
  constructor
  · rintro ⟨-, hbank, hexist, hlen, hranges⟩
    rw [h0, h1, bank_named_iff] at hbank
    rw [h2, h3, h4] at hexist
    rw [h0, h2, h3, h4] at hranges
    rw [h3, h4, hlength] at hlen
    exact ⟨hbank, hexist, by omega, hranges⟩
  · rintro ⟨hbank, hexist, hlen, hranges⟩
    refine ⟨by omega, ?_, by rwa [h2, h3, h4], by rw [h3, h4, hlength, hlen], by rw [h0, h2, h3, h4]; exact hranges⟩
    rwa [h0, h1, bank_named_iff]

/-- The entries and groups of a write exist exactly when its count, its indices and its mask are right (03 R36). -/
theorem namesExist_bounds :
    namesExist f first.toNat count.toNat mask.toNat = true ↔
      1 ≤ count.toNat ∧ count.toNat ≤ 4 ∧
        (∀ i ∈ first.toNat :: namedEntries f first.toNat count.toNat, f.first ≤ i ∧ i < f.first + f.count) ∧
        mask.toNat < 2 ^ f.groups.length := by
  simp only [namesExist_iff, isIndex_iff, List.forall_mem_cons, and_assoc]

variable {s : State} (hs : s.Ready) (src : Station)

include hs

theorem takeTableWrite_refused {payload : List Byte} (h : checkWrite payload = none) :
    takeTableWrite src payload s = s.answered src 8#8 .badValue [] := by
  rw [← refuse_answered _ _ _ _ hs]
  simp only [takeTableWrite, h]
  rfl

theorem takeTableWrite_stored (hf : tableFormat table.toNat = some f)
    (h : WritePasses f ([table, bank, first, count, mask] ++ contents)) {c : Bool}
    (hc : c = (isBanked table.toNat && mask != 0#8 && s.tables.pendingActivation.isSome)) :
    takeTableWrite src ([table, bank, first, count, mask] ++ contents) s =
      signAfterTable table.toNat { s.answered src 8#8 .ok [boolByte c] with
        tables := { putItems table.toNat (writeItems f first.toNat count.toNat mask.toNat contents) s.tables with
          pendingActivation := if c then none else s.tables.pendingActivation } } := by
  obtain ⟨h0, h1, h2, h3, h4⟩ := tableWrite_fields table bank first count mask contents
  have hcheck := checkWrite_passes (h0 ▸ hf) h
  rw [h0, h2, h3, h4] at hcheck
  have hmask : (mask.toNat != 0) = (mask != 0#8) := by
    rw [Bool.eq_iff_iff, bne_iff_ne, bne_iff_ne]
    exact not_congr ⟨fun h => BitVec.eq_of_toNat_eq h, fun h => by rw [h]; rfl⟩
  have hcancels : cancels s.tables (isBanked table.toNat) (mask.toNat != 0) = c := by rw [hc, ← hmask]; rfl
  have hpending : (putItems table.toNat (writeItems f first.toNat count.toNat mask.toNat contents) s.tables).pendingActivation
      = s.tables.pendingActivation := by rw [(putItems_keeps ..).1]
  simp only [takeTableWrite, hcheck, hcancels]
  rw [reply_answered _ _ _ _ _ hs, cancelActivation_eq]
  exact congrArg (fun p => signAfterTable table.toNat { s.answered src 8#8 .ok [boolByte c] with
    tables := { putItems table.toNat (writeItems f first.toNat count.toNat mask.toNat contents) s.tables with
      pendingActivation := if c then none else p } }) hpending

end

/-- Settles O19: the refusals by the tests of R36; the items are the groups cut from the contents, and the store after them by
`find_putItems` and `unbankedEntry_putItems`. -/
theorem tableWriteStores : Obligations.TableWriteStores := by
  intro s hs refused
  have hexec : ∀ {payload t}, takeTableWrite .fleetModem payload s = t →
      exec (.tableWrite .fleetModem payload) s = .next t :=
    fun ht => ht ▸ exec_permitted (r := .tableWrite) rfl hs rfl
  have hrefused : ∀ {payload}, checkWrite payload = none → refused payload := fun h => hexec (takeTableWrite_refused hs _ h)
  have hfails : ∀ {payload f}, tableFormat (fieldAt payload 0 1) = some f → ¬WritePasses f payload → refused payload :=
    fun hf h => hrefused (checkWrite_fails hf h)
  constructor
  · intro payload h
    cases hf : tableFormat (fieldAt payload 0 1) with
    | none => exact hrefused (checkWrite_unknown hf)
    | some f => exact hfails hf fun hp => absurd hp.whole (by omega)
  intro table bank first count mask contents payload
  obtain ⟨h0, -⟩ := tableWrite_fields table bank first count mask contents
  refine ⟨fun hf => hrefused (checkWrite_unknown (h0 ▸ hf)), ?_⟩
  intro f hf position entries groups places lengthOf banked named
  have hnamed : named ↔ bank = (if isBanked table.toNat then 1#8 else 0#8) ∧
      namesExist f first.toNat count.toNat mask.toNat = true := and_congr Iff.rfl namesExist_bounds.symm
  have hpasses := writePasses_iff (table := table) (bank := bank) (first := first) (count := count) (mask := mask)
    (contents := contents) (f := f)
  refine ⟨fun hn => hfails (h0 ▸ hf) fun hp => ?_, fun hl => hfails (h0 ▸ hf) fun hp => ?_, fun hn hl => ?_⟩
  · obtain ⟨hbank, hexist, -⟩ := hpasses.mp hp
    exact hn (hnamed.mpr ⟨hbank, hexist⟩)
  · obtain ⟨-, -, hlength, -⟩ := hpasses.mp hp
    exact hl hlength
  obtain ⟨hbank, hexist⟩ := hnamed.mp hn
  obtain ⟨-, hcount, -⟩ := (namesExist_iff ..).mp hexist
  have hnodup := writeItems_nodup f first.toNat mask.toNat contents hcount
  obtain ⟨hjoin, hlengths⟩ := writeItems_bytes (first := first.toNat) hl
  have hplaces : (writeItems f first.toNat count.toNat mask.toNat contents).map (fun x => (x.index, x.group)) = places :=
    writeItems_places
  refine ⟨writeItems f first.toNat count.toNat mask.toNat contents, hplaces, hplaces ▸ hnodup, hjoin, hlengths, ?_⟩
  intro inRange
  constructor
  · rintro ⟨x, hx, hout⟩
    refine hfails (h0 ▸ hf) fun hp => ?_
    obtain ⟨-, -, -, hranges⟩ := hpasses.mp hp
    exact Bool.noConfusion (hout.symm.trans (hranges x hx))
  intro hin cancelled told
  have hstored := takeTableWrite_stored (c := cancelled) hs .fleetModem hf (hpasses.mpr ⟨hbank, hexist, hl, hin⟩) rfl
  generalize hitems : writeItems f first.toNat count.toNat mask.toNat contents = items at *
  have hindex : ∀ x ∈ items, x.index < 256 := fun x hx => (writeItems_fit hf hexist (hitems ▸ hx)).1
  have hgroup : ∀ x ∈ items, x.group < f.groups.length := fun x hx => (writeItems_fit hf hexist (hitems ▸ hx)).2
  obtain ⟨-, hgroups, hsingle⟩ := tableFormat_fits hf
  obtain ⟨hkeeps, hunbanked, hstandby⟩ := putItems_keeps table.toNat items s.tables
  refine ⟨_, hexec hstored, ?_, ?_, fun hb k => ?_, fun hb tb i hi => ?_, fun hne => ?_, ?_⟩
  · simp only [signAfterTable_keeps]
    rw [hkeeps]
  · simp only [signAfterTable_keeps]
    split
    case isTrue hb => exact hunbanked hb
    case isFalse hb => exact hstandby (Bool.eq_false_iff.mpr hb)
  · have hfind := find_putItems hnodup hindex hb (fun x hx => (hgroup x hx).trans_le hgroups) s.tables k
    simp only [signAfterTable_keeps, hfind]
    cases items.find? fun x => cellKey table.toNat x.index x.group = k <;> rfl
  · have hentry := unbankedEntry_putItems hnodup hindex hb
      (fun x hx => by have := hgroup x hx; have := hsingle hb; omega) s.tables tb i hi
    simp only [signAfterTable_keeps, hentry]
    cases items.find? fun x => tb = table.toNat ∧ x.index = i <;> rfl
  · simp only [signAfterTable_quiet (byte_ne_nine hne)]
    rfl
  · rintro rfl
    rfl

end Sys2Proof.Machine
end

