-- ==== Sys2Proof/Proofs/Reads.lean ====
section
/-! PROOF. The reads of the table store (03 R39), the payment controller (10 R174) and the shift accounting unit (11 R185, R189): each
answers from the state and changes nothing but the outbound queue. -/

namespace Sys2Proof.Machine

/-! The permission of the two readers (02 R20). -/

theorem mayRequest_readers {src : Station} (h : src = .meterHead ∨ src = .fleetModem) :
    mayRequest src .tableRead = true ∧ mayRequest src .journalRead = true := by
  rcases h with rfl | rfl
  all_goals decide

/-! TABLE READ (03 R39). -/

/-- The fields of a TABLE READ of the right length. -/
theorem tableRead_fields (table bank first count mask : Byte) :
    fieldAt [table, bank, first, count, mask] 0 1 = table.toNat ∧
      fieldAt [table, bank, first, count, mask] 1 1 = bank.toNat ∧
      fieldAt [table, bank, first, count, mask] 2 1 = first.toNat ∧
      fieldAt [table, bank, first, count, mask] 3 1 = count.toNat ∧
      fieldAt [table, bank, first, count, mask] 4 1 = mask.toNat :=
  ⟨fieldAt_byte rfl, fieldAt_byte rfl, fieldAt_byte rfl, fieldAt_byte rfl, fieldAt_byte rfl⟩

/-- The tests of a TABLE READ for a table of format f (03 R39). -/
structure ReadPasses (f : TableFormat) (table bank first count mask : Nat) : Prop where
  fits : readLength f bank count mask ≤ 54
  bank : if isBanked table then bank = 1 ∨ bank = 2 else bank = 0
  exist : namesExist f first count mask = true

section

variable {s : State} (hs : s.Ready) (src : Station)

include hs

theorem takeTableRead_length {payload : List Byte} (h : payload.length ≠ 5) :
    takeTableRead src payload s = s.answered src 10#8 .badValue [] := by
  rw [← refuse_answered _ _ _ _ hs]
  unfold takeTableRead
  dsimp only
  split
  · rfl
  · exact if_neg fun hp => h hp.1

variable {table bank first count mask : Byte} {f : TableFormat}

theorem takeTableRead_refused
    (h : ∀ f, tableFormat table.toNat = some f → ¬ReadPasses f table.toNat bank.toNat first.toNat count.toNat mask.toNat) :
    takeTableRead src [table, bank, first, count, mask] s = s.answered src 10#8 .badValue [] := by
  obtain ⟨h0, h1, h2, h3, h4⟩ := tableRead_fields table bank first count mask
  rw [← refuse_answered _ _ _ _ hs]
  simp only [takeTableRead, h0, h1, h2, h3, h4]
  split
  case h_1 => rfl
  case h_2 f hf =>
    refine if_neg ?_
    rintro ⟨-, hbank, hexist, hfits⟩
    exact h f hf ⟨hfits, hbank, hexist⟩

theorem takeTableRead_answered (hf : tableFormat table.toNat = some f)
    (h : ReadPasses f table.toNat bank.toNat first.toNat count.toNat mask.toNat) :
    takeTableRead src [table, bank, first, count, mask] s = s.answered src 10#8 .ok
      (readData s.tables f table.toNat bank.toNat first.toNat count.toNat mask.toNat) := by
  obtain ⟨h0, h1, h2, h3, h4⟩ := tableRead_fields table bank first count mask
  obtain ⟨hfits, hbank, hexist⟩ := h
  simp only [takeTableRead, h0, h1, h2, h3, h4, hf]
  rw [if_pos ⟨rfl, hbank, hexist, hfits⟩, reply_answered _ _ _ _ _ hs]
  rfl

end

theorem byte_toNat_eq_two (b : Byte) : b.toNat = 2 ↔ b = 2#8 :=
  ⟨fun h => BitVec.eq_of_toNat_eq h, fun h => by rw [h]; rfl⟩

/-! The other reads (10 R174; 11 R185, R189). -/

section

variable {s : State} (hs : s.Ready) (src : Station)

include hs

theorem takeDeferredRead_length {payload : List Byte} (h : payload.length ≠ 1) :
    takeDeferredRead src payload s = s.answered src 17#8 .badValue [] := by
  rw [← refuse_answered _ _ _ _ hs]
  exact if_pos (.inl h)

theorem takeJournalRead_length {payload : List Byte} (h : payload.length ≠ 2) :
    takeJournalRead src payload s = s.answered src 18#8 .badValue [] := by
  rw [← refuse_answered _ _ _ _ hs]
  exact if_pos (.inl h)

theorem takeReportRead_length {payload : List Byte} (h : payload.length ≠ 3) :
    takeReportRead src payload s = s.answered src 19#8 .badValue [] := by
  rw [← refuse_answered _ _ _ _ hs]
  exact if_pos (.inl h)

theorem takeDeferredRead_byte (a : Byte) :
    takeDeferredRead src [a] s =
      if 15 < a.toNat then s.answered src 17#8 .badValue []
      else s.answered src 17#8 .ok
        (beBytes 1 s.pay.deferred.length ++ beBytes 4 (deferredTotal s.pay.deferred) ++ [s.pay.capture.code] ++
          ((s.pay.deferred.drop a.toNat).take 2).flatMap deferredBytes) := by
  have h0 : fieldAt [a] 0 1 = a.toNat := fieldAt_byte rfl
  simp only [takeDeferredRead, h0, refuse_answered _ _ _ _ hs, reply_answered _ _ _ _ _ hs]
  by_cases hc : 15 < a.toNat
  · rw [if_pos hc, if_pos (.inr hc)]
    rfl
  · rw [if_neg hc, if_neg (by simpa using hc)]
    rfl

theorem takeJournalRead_bytes (a b : Byte) :
    takeJournalRead src [a, b] s =
      if 47 < a.toNat ∨ 3 < b.toNat then s.answered src 18#8 .badValue []
      else match s.shifts.journal[a.toNat]? with
        | none => s.answered src 18#8 .notFound (beBytes 1 s.shifts.journal.length)
        | some e => s.answered src 18#8 .ok
          (beBytes 1 a.toNat ++ beBytes 1 s.shifts.journal.length ++ beBytes 2 e.trip.shiftNumber ++
            beBytes 2 e.trip.tripNumber ++ beBytes 1 b.toNat ++ beBytes 1 4 ++ pageOf (journalBytes e) b.toNat) := by
  have h0 : fieldAt [a, b] 0 1 = a.toNat := fieldAt_byte rfl
  have h1 : fieldAt [a, b] 1 1 = b.toNat := fieldAt_byte rfl
  simp only [takeJournalRead, h0, h1, refuse_answered _ _ _ _ hs, reply_answered _ _ _ _ _ hs]
  by_cases hc : 47 < a.toNat ∨ 3 < b.toNat
  · rw [if_pos hc, if_pos (.inr hc)]
    rfl
  · rw [if_neg hc, if_neg (by simpa using hc)]
    cases s.shifts.journal[a.toNat]? <;> rfl

theorem takeReportRead_bytes (a b c : Byte) :
    takeReportRead src [a, b, c] s =
      if a.toNat * 256 + b.toNat = 0 ∨ 3 < c.toNat then s.answered src 19#8 .badValue []
      else match s.shifts.reports.find? fun r => r.record.number = a.toNat * 256 + b.toNat with
        | none => s.answered src 19#8 .notFound (beBytes 2 (oldestReport s))
        | some r => s.answered src 19#8 .ok
          (beBytes 2 (a.toNat * 256 + b.toNat) ++ beBytes 1 c.toNat ++ beBytes 1 4 ++ beBytes 1 s.shifts.reports.length ++
            pageOf (reportBytes r) c.toNat) := by
  have h0 : fieldAt [a, b, c] 0 2 = a.toNat * 256 + b.toNat := by simp [fieldAt, beNat]
  have h2 : fieldAt [a, b, c] 2 1 = c.toNat := fieldAt_byte rfl
  simp only [takeReportRead, h0, h2, refuse_answered _ _ _ _ hs, reply_answered _ _ _ _ _ hs]
  by_cases hc : a.toNat * 256 + b.toNat = 0 ∨ 3 < c.toNat
  · rw [if_pos hc, if_pos (.inr hc)]
    rfl
  · rw [if_neg hc, if_neg (not_or.mpr ⟨fun h => h rfl, hc⟩)]
    cases s.shifts.reports.find? fun r => r.record.number = a.toNat * 256 + b.toNat <;> rfl

end

/-- Settles O21: TABLE READ by its tests, the other reads by what each answers. -/
theorem readsAnswerAndKeep : Obligations.ReadsAnswerAndKeep := by
  have htable : ∀ {s src payload t}, s.Ready → src = .meterHead ∨ src = .fleetModem →
      takeTableRead src payload s = t → exec (.tableRead src payload) s = .next t := fun hs hsrc ht =>
    ht ▸ exec_permitted (r := .tableRead) rfl hs (mayRequest_readers hsrc).1
  have hjournal : ∀ {s src payload t}, s.Ready → src = .meterHead ∨ src = .fleetModem →
      takeJournalRead src payload s = t → exec (.journalRead src payload) s = .next t := fun hs hsrc ht =>
    ht ▸ exec_permitted (r := .journalRead) rfl hs (mayRequest_readers hsrc).2
  have hdeferred : ∀ {s payload t}, s.Ready → takeDeferredRead .fleetModem payload s = t →
      exec (.deferredRead .fleetModem payload) s = .next t := fun hs ht => ht ▸ exec_permitted (r := .deferredRead) rfl hs rfl
  have hreport : ∀ {s payload t}, s.Ready → takeReportRead .fleetModem payload s = t →
      exec (.reportRead .fleetModem payload) s = .next t := fun hs ht => ht ▸ exec_permitted (r := .reportRead) rfl hs rfl
  refine ⟨fun s src payload hs hsrc => ⟨fun h => htable hs hsrc (takeTableRead_length hs _ h), ?_,
    fun h => hdeferred hs (takeDeferredRead_length hs _ h), fun h => hjournal hs hsrc (takeJournalRead_length hs _ h),
    fun h => hreport hs (takeReportRead_length hs _ h)⟩, fun s src table bank first count mask f hs hsrc hf => ?_,
    fun s a b c src hs hsrc => ⟨?_, ?_, ?_⟩⟩
  · rintro table bank first count mask rfl
    refine ⟨fun h => htable hs hsrc (takeTableRead_refused hs _ fun f hf => ?_),
      fun hlo hhi h1 h2 => htable hs hsrc (takeTableRead_refused hs _ fun f hf hp => ?_),
      fun hlo hhi h0 => htable hs hsrc (takeTableRead_refused hs _ fun f hf hp => ?_)⟩
    · rw [(tableFormat_none_iff _).mpr h] at hf
      cases hf
    · have hb := hp.bank
      rw [if_pos ((isBanked_iff _).mpr ⟨hlo, hhi⟩)] at hb
      exact hb.elim (fun h => h1 (BitVec.eq_of_toNat_eq h)) fun h => h2 (BitVec.eq_of_toNat_eq h)
    · have hb := hp.bank
      rw [if_neg fun h => by have := (isBanked_iff _).mp h; omega] at hb
      exact h0 (BitVec.eq_of_toNat_eq hb)
  · intro length answer
    have hlength : readLength f bank.toNat count.toNat mask.toNat = length := by
      simp only [readLength, byte_toNat_eq_two, length]
    refine ⟨fun hbank hexist hfits => htable hs hsrc ?_, fun h => htable hs hsrc (takeTableRead_refused hs _ fun f' hf' hp => ?_)⟩
    · have hdata : readData s.tables f table.toNat bank.toNat first.toNat count.toNat mask.toNat =
          (if bank = 2#8 then beBytes 2 s.tables.activeVersion else []) ++
            (namedEntries f first.toNat count.toNat).flatMap (readEntry s.tables f table.toNat bank.toNat mask.toNat) := by
        simp only [readData, byte_toNat_eq_two]
      rw [← hdata]
      refine takeTableRead_answered hs _ hf ⟨hlength ▸ hfits, ?_, hexist⟩
      split
      case isTrue hb =>
        rw [if_pos hb] at hbank
        exact hbank.imp (fun h => by rw [h]; rfl) fun h => by rw [h]; rfl
      case isFalse hb =>
        rw [if_neg hb] at hbank
        rw [hbank]
        rfl
    · cases hf.symm.trans hf'
      have hexist := hp.exist
      have hfits := hp.fits
      rw [hlength] at hfits
      rcases h with h | h
      · exact Bool.noConfusion (hexist.symm.trans h)
      · omega
  · exact hdeferred hs (takeDeferredRead_byte hs _ a)
  · exact hjournal hs hsrc (takeJournalRead_bytes hs _ a b)
  · exact hreport hs (takeReportRead_bytes hs _ a b c)

end Sys2Proof.Machine
end

