-- ==== Sys2Proof/Proofs/Validation.lean ====
section
/-! PROOF. The validation of a bank (03 R40): each test on its own fields, and the failing entry of lowest table and index. -/

namespace Sys2Proof.Machine

/-! The first failing entry of tests made in order. -/

/-- The order of table and index in which validation reports (03 R40). -/
def entryLe (table i table' i' : Nat) : Prop := table < table' ∨ (table = table' ∧ i ≤ i')

/-- An answer that is the first entry with a property, in the order of table and index; none when no entry has it. -/
structure FirstEntry (answer : Option (Nat × Nat)) (P : Nat → Nat → Prop) : Prop where
  absent : answer = none → ∀ table i, ¬P table i
  least : ∀ table i, answer = some (table, i) → P table i ∧ ∀ table' i', P table' i' → entryLe table i table' i'

section

variable {answer rest : Option (Nat × Nat)} {P Q : Nat → Nat → Prop}

theorem FirstEntry.congr (h : FirstEntry answer P) (hpq : ∀ table i, P table i ↔ Q table i) : FirstEntry answer Q := by
  have : P = Q := funext fun table => funext fun i => propext (hpq table i)
  exact this ▸ h

/-- Of two tests the first that answers is the answer, when its entries come before the other's. -/
theorem FirstEntry.or (h : FirstEntry answer P) (k : FirstEntry rest Q)
    (hlt : ∀ table i table' i', P table i → Q table' i' → entryLe table i table' i') :
    FirstEntry (answer.or rest) fun table i => P table i ∨ Q table i := by
  cases answer with
  | none =>
    have hp := h.absent rfl
    exact ⟨fun hr table i hpq => hpq.elim (hp table i) (k.absent hr table i), fun table i hr =>
      ⟨.inr (k.least table i hr).1, fun table' i' hpq =>
        hpq.elim (fun hc => absurd hc (hp table' i')) ((k.least table i hr).2 table' i')⟩⟩
  | some entry =>
    refine ⟨nofun, fun table i hr => ?_⟩
    obtain ⟨hp, hleast⟩ := h.least table i hr
    exact ⟨.inl hp, fun table' i' hpq => hpq.elim (hleast table' i') (hlt table i table' i' hp)⟩

theorem FirstEntry.none_iff (h : FirstEntry answer P) : answer = none ↔ ∀ table i, ¬P table i := by
  refine ⟨h.absent, fun hno => ?_⟩
  cases answer with
  | none => rfl
  | some entry => exact absurd (h.least entry.1 entry.2 rfl).1 (hno _ _)

theorem FirstEntry.some_iff (h : FirstEntry answer P) (table i : Nat) :
    answer = some (table, i) ↔ P table i ∧ ∀ table' i', P table' i' → entryLe table i table' i' := by
  refine ⟨h.least table i, fun ⟨hp, hle⟩ => ?_⟩
  cases answer with
  | none => exact absurd hp (h.absent rfl table i)
  | some entry =>
    obtain ⟨hq, hle'⟩ := h.least entry.1 entry.2 rfl
    have h1 := hle _ _ hq
    have h2 := hle' _ _ hp
    unfold entryLe at h1 h2
    exact congrArg some (Prod.ext (by omega) (by omega))

end

/-- One test over the entries of a table (03 R40). -/
theorem firstFailing_first (b : Bank) (table first count : Nat) (passes : Nat → Bool) :
    FirstEntry (firstFailing b table first count passes) fun t i =>
      t = table ∧ first ≤ i ∧ i < first + count ∧ b.valid table i = true ∧ passes i = false := by
  unfold firstFailing
  rw [List.find?_map]
  constructor
  · rintro hnone t i ⟨-, hlo, hhi, hv, hp⟩
    simp only [Option.map_eq_none_iff, List.find?_eq_none, List.mem_range] at hnone
    have := hnone (i - first) (by omega)
    simp [Nat.add_sub_cancel' hlo, hv, hp] at this
  · intro t i hsome
    simp only [Option.map_eq_some_iff, List.find?_range_eq_some] at hsome
    obtain ⟨_, ⟨k, ⟨hk, hmem, hbefore⟩, rfl⟩, he⟩ := hsome
    cases he
    simp only [Function.comp_apply, Bool.and_eq_true, Bool.not_eq_true', List.mem_range] at hk hmem hbefore
    refine ⟨⟨rfl, by omega, by omega, hk.1, hk.2⟩, ?_⟩
    rintro t' i' ⟨rfl, hlo, hhi, hv, hp⟩
    refine .inr ⟨rfl, ?_⟩
    by_contra hlt
    have := hbefore (i' - first) (by omega)
    simp [Nat.add_sub_cancel' hlo, hv, hp] at this

/-! The tests (03 R40). -/

theorem startsInOrder_iff (l : List Nat) : startsInOrder l = true ↔ l.IsChain (· < ·) := by
  induction l with
  | nil => simp [startsInOrder]
  | cons a l ih =>
    cases l with
    | nil => simp [startsInOrder]
    | cons c l => simp [startsInOrder, ih]

/-- Starts listed from segment 1 rise strictly. -/
theorem startsInOrder_segments (n : Nat) (start : Nat → Nat) :
    startsInOrder ((List.range n).map fun i => start (i + 1)) = true ↔
      ∀ k, 1 ≤ k → k < n → start k < start (k + 1) := by
  rw [startsInOrder_iff, List.isChain_iff_getElem]
  simp only [List.length_map, List.length_range, List.getElem_map, List.getElem_range]
  refine ⟨fun h k hk hn => ?_, fun h k hn => h (k + 1) (by omega) (by omega)⟩
  obtain ⟨j, rfl⟩ := Nat.exists_eq_add_of_le' hk
  exact h j (by omega)

theorem tariffPasses_iff (b : Bank) (t : Nat) :
    tariffPasses b t = true ↔
      1 ≤ fieldAt (b.group 1 t 0) 9 1 ∧ fieldAt (b.group 1 t 1) 0 3 = 0 ∧
        (∀ k, 1 ≤ k → k < fieldAt (b.group 1 t 0) 9 1 → fieldAt (b.group 1 t k) 0 3 < fieldAt (b.group 1 t (k + 1)) 0 3) ∧
        (fieldAt (b.group 1 t 5) 0 1 = 3 → fieldAt (b.group 1 t 5) 1 1 + 3 ≤ 31) := by
  have hstarts := startsInOrder_segments (fieldAt (b.group 1 t 0) 9 1) fun k => fieldAt (b.group 1 t k) 0 3
  have hhead : ((List.range (fieldAt (b.group 1 t 0) 9 1)).map fun i => fieldAt (b.group 1 t (i + 1)) 0 3).head? = some 0 ↔
      1 ≤ fieldAt (b.group 1 t 0) 9 1 ∧ fieldAt (b.group 1 t 1) 0 3 = 0 := by
    cases fieldAt (b.group 1 t 0) 9 1 with
    | zero => simp
    | succ n => simp [List.range_succ_eq_map]
  have hsurcharge : (surchargeKind b t ≠ 3 || surchargeBase b t + 3 ≤ 31) = true ↔
      (fieldAt (b.group 1 t 5) 0 1 = 3 → fieldAt (b.group 1 t 5) 1 1 + 3 ≤ 31) := by
    rw [Bool.or_eq_true, decide_eq_true_eq, decide_eq_true_eq]
    exact imp_iff_not_or.symm
  unfold tariffPasses
  rw [Bool.and_eq_true, Bool.and_eq_true, decide_eq_true_eq, hsurcharge]
  exact (and_congr (and_congr hhead hstarts) Iff.rfl).trans (by rw [and_assoc, and_assoc])

theorem actionPasses_iff (b : Bank) (l : List Byte) :
    actionPasses b l = false ↔ fieldAt l 0 1 = 1 ∧ b.valid 1 (fieldAt l 1 1) = false := by
  unfold actionPasses readAction
  by_cases h : fieldAt l 0 1 = 1
  · simp [h]
  · simp [h]

theorem fallbackPasses_iff (b : Bank) :
    fallbackPasses b = true ↔ b.valid 3 3 = true ∧
      fieldAt (b.group 3 3 0) 0 1 = 1 ∧ b.valid 1 (fieldAt (b.group 3 3 0) 1 1) = true := by
  unfold fallbackPasses fallbackTariff readAction
  by_cases hv : b.valid 3 3 = true
  · by_cases hk : fieldAt (b.group 3 3 0) 0 1 = 1
    · simp [hv, hk]
    · simp [hv, hk]
  · simp [hv]

/-- An entry at which a bank fails (03 R40). -/
def BankFails (b : Bank) (table i : Nat) : Prop :=
  (table = 1 ∧ 1 ≤ i ∧ i ≤ 16 ∧ b.valid 1 i = true ∧
    ¬(1 ≤ fieldAt (b.group 1 i 0) 9 1 ∧ fieldAt (b.group 1 i 1) 0 3 = 0 ∧
      (∀ k, 1 ≤ k → k < fieldAt (b.group 1 i 0) 9 1 → fieldAt (b.group 1 i k) 0 3 < fieldAt (b.group 1 i (k + 1)) 0 3) ∧
      (fieldAt (b.group 1 i 5) 0 1 = 3 → fieldAt (b.group 1 i 5) 1 1 + 3 ≤ 31))) ∨
  (table = 2 ∧ i ≤ 63 ∧ b.valid 2 i = true ∧
    fieldAt (b.group 2 i 1) 0 1 = 1 ∧ b.valid 1 (fieldAt (b.group 2 i 1) 1 1) = false) ∨
  (table = 3 ∧ i ≤ 2 ∧ b.valid 3 i = true ∧
    fieldAt (b.group 3 i 0) 0 1 = 1 ∧ b.valid 1 (fieldAt (b.group 3 i 0) 1 1) = false) ∨
  (table = 3 ∧ i = 3 ∧ ¬(b.valid 3 3 = true ∧
    fieldAt (b.group 3 3 0) 0 1 = 1 ∧ b.valid 1 (fieldAt (b.group 3 3 0) 1 1) = true)) ∨
  (table = 4 ∧ i ≤ 7 ∧ b.valid 4 i = true ∧
    ¬(fieldAt (b.group 4 i 0) 0 2 ≤ 10079 ∧ fieldAt (b.group 4 i 0) 2 2 ≤ 10079))

/-- The fallback's own test, at the one entry it has (03 R40 test 4). -/
theorem fallback_first (b : Bank) :
    FirstEntry (if fallbackPasses b then none else some (3, 3)) fun table i =>
      table = 3 ∧ i = 3 ∧ fallbackPasses b = false := by
  cases h : fallbackPasses b with
  | true => exact ⟨fun _ _ _ hc => Bool.noConfusion hc.2.2, nofun⟩
  | false =>
    refine ⟨nofun, fun table i he => ?_⟩
    cases he
    exact ⟨⟨rfl, rfl, rfl⟩, fun table' i' hc => .inr ⟨hc.1.symm, hc.2.1.ge⟩⟩

/-- Validation reports the failing entry of lowest table and index (03 R40). -/
theorem validate_first (b : Bank) : FirstEntry (validate b) (BankFails b) := by
  have hcalendar := firstFailing_first b 4 0 8 fun i =>
    rangeFirst b i < Config.weekMinutes && rangeLast b i < Config.weekMinutes
  have hfallback := (fallback_first b).or hcalendar fun _ _ _ _ hp hq => .inl (by omega)
  have hdefaults := (firstFailing_first b 3 0 3 fun i => actionPasses b (b.group 3 i 0)).or hfallback
    fun _ _ _ _ hp hq => by unfold entryLe; omega
  have hselection := (firstFailing_first b 2 0 64 fun i => actionPasses b (b.group 2 i 1)).or hdefaults
    fun _ _ _ _ hp hq => .inl (by omega)
  have htariffs := (firstFailing_first b 1 1 16 (tariffPasses b)).or hselection fun _ _ _ _ hp hq => .inl (by omega)
  refine htariffs.congr fun table i => or_congr ?_ (or_congr ?_ (or_congr ?_ (or_congr ?_ ?_)))
  · rw [← Bool.not_eq_true, tariffPasses_iff]
    grind
  · rw [actionPasses_iff]
    grind
  · rw [actionPasses_iff]
    grind
  · rw [← fallbackPasses_iff, Bool.not_eq_true]
  · have hrange : (rangeFirst b i < Config.weekMinutes && rangeLast b i < Config.weekMinutes) = false ↔
        ¬(fieldAt (b.group 4 i 0) 0 2 ≤ 10079 ∧ fieldAt (b.group 4 i 0) 2 2 ≤ 10079) := by
      rw [← Bool.not_eq_true, Bool.and_eq_true, decide_eq_true_eq, decide_eq_true_eq]
      exact not_congr (and_congr Nat.lt_succ_iff Nat.lt_succ_iff)
    rw [hrange]
    grind

end Sys2Proof.Machine
end

