-- ==== Sys2Proof/Proofs/Activation.lean ====
section
/-! PROOF. TABLE ACTIVATE (03 R41) and what an activation does (03 R42), as a handling. -/

namespace Sys2Proof.Machine

/-! The activation as a handling. -/

/-- The calendar state follows the clock and the ACTIVE tables alone (04 R57). -/
theorem recomputeCalendar_of {s t : State} (htables : t.tables = s.tables) (htime : t.time = s.time) :
    recomputeCalendar t = { t with time := (recomputeCalendar s).time } := by
  simp only [recomputeCalendar, htables, htime]

theorem State.Sends.recomputed {s t : State} {es : List Event} {ms : List Outbound} (h : s.Sends t es ms) :
    (recomputeCalendar s).Sends (recomputeCalendar t) es ms := by
  obtain ⟨-, -, -, -, -, htables, htime, -⟩ := h.keeps
  rw [recomputeCalendar_of htables htime]
  exact h.time _

/-- An activation counted in the open shift (03 R42). -/
def activationCounted (r : ShiftRecord) : ShiftRecord := { r with activations := up16 r.activations }

/-- STANDBY copied into ACTIVE with a version, and the activation counted (03 R42). -/
def bankActivated (version : Nat) (s : State) : State :=
  withShift activationCounted { s with tables := copyBank version s.tables }

theorem performActivation_eq (version : Nat) (s : State) :
    performActivation version s = recomputeCalendar (raise .activationDone (bankActivated version s)) := rfl

theorem State.Sends.bankActivated {s t : State} {es : List Event} {ms : List Outbound} (h : s.Sends t es ms) (version : Nat) :
    (bankActivated version s).Sends (bankActivated version t) es ms := by
  obtain ⟨-, -, -, -, -, htables, -⟩ := h.keeps
  have ht : Machine.bankActivated version t =
      withShift activationCounted { t with tables := copyBank version s.tables } := by
    rw [← htables]
    rfl
  rw [ht]
  exact (h.tables (copyBank version s.tables) rfl).shift activationCounted fun _ _ _ => rfl

/-- An activation performed after a handling (03 R42). -/
theorem State.Sends.performed {s t : State} {es : List Event} {ms : List Outbound} (h : s.Sends t es ms) (version : Nat) :
    (recomputeCalendar (Machine.bankActivated version s)).Sends (performActivation version t) (es ++ [.activationDone])
      (ms ++ noticesOf .activationDone (s.disp.heardAll es)) := by
  rw [performActivation_eq]
  exact ((h.bankActivated version).raised .activationDone).recomputed

theorem State.Occurs.performed {s t : State} {es : List Event} {ms : List Outbound} (h : s.Occurs t ms es) (version : Nat) :
    (recomputeCalendar (Machine.bankActivated version s)).Occurs (performActivation version t) ms
      (es ++ [.activationDone]) := by
  refine State.Sends.occurs ?_
  have hnotices : noticesAll (es ++ [.activationDone]) s.disp =
      noticesAll es s.disp ++ noticesOf .activationDone (s.disp.heardAll es) := by
    simp [noticesAll_append, noticesAll]
  have hperformed := h.sends.performed version
  rw [List.append_assoc, ← hnotices] at hperformed
  exact hperformed

/-- What an activation does to the refresh places: the calendar state is not shown (07 R123). -/
theorem performActivation_placesFollow (version : Nat) (s : State) :
    (bankActivated version s).PlacesFollow (performActivation version s) :=
  raise_placesFollow .activationDone (bankActivated version s)

/-! TABLE ACTIVATE (03 R41). -/

/-- The fields of a TABLE ACTIVATE of the right length. -/
theorem tableActivate_fields (hi lo timing : Byte) :
    fieldAt [hi, lo, timing] 0 2 = hi.toNat * 256 + lo.toNat ∧ fieldAt [hi, lo, timing] 2 1 = timing.toNat :=
  ⟨by simp [fieldAt, beNat], fieldAt_byte rfl⟩

section

variable {s : State} (hs : s.Ready) (src : Station)

include hs

theorem takeTableActivate_malformed {payload : List Byte} (h : payload.length ≠ 3 ∨ 1 < fieldAt payload 2 1) :
    takeTableActivate src payload s = s.answered src 11#8 .badValue [] := by
  rw [← refuse_answered _ _ _ _ hs]
  exact if_pos h

variable {hi lo timing : Byte}

theorem takeTableActivate_now_inTrip (h : validate s.tables.standby = none) (htrip : inTrip s = true) :
    takeTableActivate src [hi, lo, 0#8] s = s.answered src 11#8 .refusedState [] := by
  rw [← refuse_answered _ _ _ _ hs]
  simp only [takeTableActivate, h, htrip]
  rfl

theorem takeTableActivate_atTripEnd (h : validate s.tables.standby = none) (htrip : inTrip s = true) :
    takeTableActivate src [hi, lo, 1#8] s =
      { s.answered src 11#8 .ok [1#8] with
        tables := { s.tables with pendingActivation := some (hi.toNat * 256 + lo.toNat) } } := by
  rw [← reply_answered _ _ _ _ _ hs, ← (tableActivate_fields hi lo 1#8).1]
  simp only [takeTableActivate, h, htrip, reply_answered _ _ _ _ _ hs]
  rfl

variable (ht : timing = 0#8 ∨ timing = 1#8)

include ht

theorem takeTableActivate_failing {table index : Nat} (h : validate s.tables.standby = some (table, index)) :
    takeTableActivate src [hi, lo, timing] s =
      s.answered src 11#8 .badTable (beBytes 1 table ++ beBytes 1 index) := by
  rw [← reply_answered _ _ _ _ _ hs]
  rcases ht with rfl | rfl
  all_goals
    simp only [takeTableActivate, h]
    rfl

theorem takeTableActivate_performed (h : validate s.tables.standby = none) (htrip : inTrip s = false) :
    takeTableActivate src [hi, lo, timing] s =
      performActivation (hi.toNat * 256 + lo.toNat) (s.answered src 11#8 .ok [0#8]) := by
  rw [← reply_answered _ _ _ _ _ hs, ← (tableActivate_fields hi lo timing).1]
  rcases ht with rfl | rfl
  all_goals
    simp only [takeTableActivate, h, htrip]
    rfl

end

/-- Settles O22: validation by `validate_first`, the refusals by their branches, and an activation at once as the REPLY and then
`State.Occurs.performed`. -/
theorem tableActivateOutcomes : Obligations.TableActivateOutcomes := by
  have hexec : ∀ {s payload t}, s.Ready → takeTableActivate .fleetModem payload s = t →
      exec (.tableActivate .fleetModem payload) s = .next t :=
    fun hs ht => ht ▸ exec_permitted (r := .tableActivate) rfl hs rfl
  refine ⟨fun b => ⟨(validate_first b).none_iff, (validate_first b).some_iff⟩, fun s payload hs h => hexec hs ?_,
    fun s hi lo timing hs ht => ⟨fun table index h => hexec hs (takeTableActivate_failing hs _ ht h),
      fun h htrip => ⟨_, hexec hs (takeTableActivate_performed hs _ ht h htrip), ?_, ?_⟩, ?_, ?_⟩⟩
  · refine takeTableActivate_malformed hs _ (h.imp_right ?_)
    rintro ⟨hi, lo, timing, rfl, h⟩
    rwa [(tableActivate_fields hi lo timing).2]
  · exact performActivation_placesFollow _ _
  · have hreply := reply_occurs .fleetModem 11#8 .ok [0#8] s hs.orderly
    rw [reply_answered _ _ _ _ _ hs] at hreply
    exact hreply.performed (hi.toNat * 256 + lo.toNat)
  · rintro h htrip rfl
    exact hexec hs (takeTableActivate_now_inTrip hs _ h htrip)
  · rintro h htrip rfl
    exact hexec hs (takeTableActivate_atTripEnd hs _ h htrip)

end Sys2Proof.Machine
end

