-- ==== Sys2Proof/Proofs/TripClose.lean ====
section
/-! PROOF. The close of a trip (07 R122): the shift accounting unit (11 R180 to R182), the activation that waits (03 R43), the open
flag and the prompt, and the change to VACANT, each as a handling. -/

namespace Sys2Proof.Machine

/-! The tenders in the shift record (11 R180 step 4). -/

/-- A total of the shift after the tenders of some kinds. -/
def tendered (tenders : List Tender) (kinds : List TenderKind) (amount : Tender → Nat) (total : Nat) : Nat :=
  (tenders.filter fun x => kinds.contains x.kind).foldl (fun total x => up32 total (amount x)) total

/-- Each tender raises the totals of its own kind. -/
theorem foldl_addTender (tenders : List Tender) (r : ShiftRecord) :
    tenders.foldl addTender r =
      { r with
        cashTotal := tendered tenders [.cash] (·.farePart) r.cashTotal
        cardOnlineTotal := tendered tenders [.cardOnline] (fun x => x.farePart + x.tip) r.cardOnlineTotal
        tipsTotal := tendered tenders [.cardOnline, .cardOffline] (·.tip) r.tipsTotal
        unpaidAmount := tendered tenders [.unpaid] (·.farePart) r.unpaidAmount
        unpaidCount := (tenders.filter fun x => x.kind = .unpaid).foldl (fun n _ => up16 n) r.unpaidCount } := by
  induction tenders generalizing r with
  | nil => rfl
  | cons x xs ih =>
    rw [List.foldl_cons, ih]
    cases hk : x.kind
    all_goals simp [addTender, tendered, hk]

/-! The closing record at the shift accounting unit (11 R180 to R182). -/

/-- The journal holds its 48 entries, so that the next one loses the oldest (11 R182). -/
def journalFull (s : State) : Bool := decide (48 ≤ s.shifts.journal.length)

/-- The shift accounting unit after a trip's figures and its journal entry (11 R180, R182). -/
def tripAccounted (tr : Trip) (s : State) : State :=
  { s with shifts := { s.shifts with
    record := s.shifts.record.map (addTrip tr)
    journal := ⟨tr, tripDistance s tr⟩ ::
      (if journalFull s then s.shifts.journal.take 47 else s.shifts.journal) } }

theorem accountTrip_eq {s : State} {tr : Trip} (ht : s.trip = some tr) :
    accountTrip s = raiseIf (journalFull s) .journalOverwrite (tripAccounted tr s) := by
  have hlength : (withShift (addTrip tr) s).shifts.journal = s.shifts.journal := withShift_journal _ s
  unfold accountTrip
  rw [ht]
  dsimp only
  unfold shiftTripClosed journalPlace tripAccounted raiseIf journalFull
  rw [hlength]
  by_cases hfull : 48 ≤ s.shifts.journal.length
  · simp only [hfull, if_true, decide_true]
    rfl
  · simp only [hfull, if_false, decide_false]
    rfl

/-! The activation that waits (03 R43). -/

/-- The state after a pending activation was performed and removed, but for ACTIVATION DONE. -/
def closeActivated (s : State) : State :=
  match s.tables.pendingActivation with
  | none => s
  | some version =>
    recomputeCalendar (bankActivated version { s with tables := { s.tables with pendingActivation := none } })

/-- The activation's event, when one is pending. -/
def activationEvents (s : State) : List Event := if s.tables.pendingActivation.isSome then [.activationDone] else []

variable {s t : State} {es : List Event} {ms : List Outbound}

theorem State.Occurs.activatedAtClose (h : s.Occurs t ms es) :
    (closeActivated s).Occurs (activationAtClose t) ms (es ++ activationEvents s) := by
  obtain ⟨-, -, -, -, -, htables, -⟩ := h.sends.keeps
  unfold activationAtClose closeActivated activationEvents
  rw [htables]
  cases s.tables.pendingActivation with
  | none => simpa using h
  | some version =>
    have hremoved := h.sends.tables { s.tables with pendingActivation := none } rfl
    exact (State.Sends.occurs hremoved).performed version

theorem State.Sends.of_eq (h : s.Sends t es ms) {u : State} (e : u = s) : u.Sends t es ms := e ▸ h

/-! The open flag, the prompt and the trip record (07 R118, R122; 09 R140). -/

theorem State.Sends.shownMode (h : s.Sends t es ms) :
    ({ s with intercom := { s.intercom with shownMode := shownModeOf s.intercom.floor (openFlagNow s) } } : State).Sends
      (updateShownMode t) es ms := by
  obtain ⟨-, -, -, -, -, -, -, -, htrip, -, hic, -⟩ := h.keeps
  have hopen : openFlagNow t = openFlagNow s := by simp only [openFlagNow, htrip]
  unfold updateShownMode
  rw [hopen, hic]
  dsimp only
  split
  case isTrue hm => rwa [hm]
  case isFalse => exact (h.intercom _).display

theorem State.Sends.openFlagCleared (h : s.Sends t es ms) {tr : Trip} (ht : s.trip = some tr) :
    ({ s with
      trip := some { tr with openFlag := false }
      intercom := { s.intercom with shownMode := shownModeOf s.intercom.floor false } } : State).Sends
      (setOpenFlag false t) es ms := by
  obtain ⟨-, -, -, -, -, -, -, -, htrip, -⟩ := h.keeps
  have hcleared := h.withTrip fun tr => { tr with openFlag := false }
  rw [ht] at hcleared
  unfold setOpenFlag
  split
  case isTrue hf =>
    have hsame : Machine.withTrip (fun tr => { tr with openFlag := false }) t = t := by
      have hfalse : tr.openFlag = false := by simpa only [openFlagNow, htrip, ht] using hf
      have hflag : { tr with openFlag := false } = tr := by rw [← hfalse]
      unfold Machine.withTrip
      rw [htrip, ht, Option.map_some, hflag, ← ht, ← htrip]
    rw [hsame] at hcleared
    exact hcleared.shownMode
  case isFalse => exact hcleared.display.shownMode

/-- The ENDED of a trip whose prompt mark is set (07 R118). -/
def endedMessages (tr : Trip) : List Outbound :=
  if tr.promptMark then [⟨.cardTerminal, kindPayPrompt, endedPayload tr⟩] else []

theorem State.Sends.ended (h : s.Sends t es ms) {tr : Trip} (ht : s.trip = some tr) :
    ({ s with trip := some { tr with promptMark := false } } : State).Sends (offerEnded t) es (ms ++ endedMessages tr) := by
  obtain ⟨-, -, -, -, -, -, -, -, htrip, -⟩ := h.keeps
  unfold offerEnded endedMessages
  rw [htrip, ht]
  dsimp only
  split
  case isTrue =>
    have hoffered := (h.offered ⟨.cardTerminal, kindPayPrompt, endedPayload tr⟩).withTrip
      fun tr => { tr with promptMark := false }
    rw [ht] at hoffered
    exact hoffered
  case isFalse hp =>
    have hsame : { tr with promptMark := false } = tr := by rw [← Bool.eq_false_iff.mpr hp]
    rw [hsame, ← ht, List.append_nil]
    exact h

/-- The trip record ceases to exist and the meter becomes VACANT (07 R122 step 5). -/
theorem State.Sends.tripEnded (h : s.Sends t es ms) :
    ({ s with
      meter := .vacant, trip := none, sign := s.signTold .vacant
      intercom := { s.intercom with shownMode := shownModeOf s.intercom.floor false } } : State).Sends (endTrip t)
      (es ++ [.stateChange]) (ms ++ noticesOf .stateChange (s.disp.heardAll es)) :=
  (h.trip none).shownMode.setMeter .vacant

/-! The refresh places at the close (07 R123, 08 R126). -/

theorem updateShownMode_signPlace (s : State) : (updateShownMode s).link.signPlace = s.link.signPlace := by
  unfold updateShownMode
  dsimp only
  split <;> simp

theorem setOpenFlag_signPlace (v : Bool) (s : State) : (setOpenFlag v s).link.signPlace = s.link.signPlace := by
  unfold setOpenFlag
  split <;> simp [updateShownMode_signPlace]

theorem offerEnded_signPlace (s : State) : (offerEnded s).link.signPlace = s.link.signPlace := by
  unfold offerEnded
  split
  · rfl
  · split <;> simp

theorem accountTrip_signPlace (s : State) : (accountTrip s).link.signPlace = s.link.signPlace := by
  unfold accountTrip shiftTripClosed journalPlace
  dsimp only
  repeat' split
  all_goals simp

theorem activationAtClose_signPlace (s : State) : (activationAtClose s).link.signPlace = s.link.signPlace := by
  unfold activationAtClose
  split
  · rfl
  · exact raise_signPlace _ _

/-- An occurrence leaves the SIGN SET that stands. -/
theorem raise_signs (e : Event) {s : State} (h : s.Signs) : (raise e s).Signs := by
  obtain ⟨restart, hplace⟩ := h
  refine ⟨restart, ?_⟩
  rw [raise_signPlace, hplace]
  simp [commandedSign]

/-- The state at which the meter is told of the close. -/
def closingState (s : State) : State :=
  offerEnded (setOpenFlag false (activationAtClose (accountTrip (setEndTime s))))

theorem closeTrip_eq (s : State) : closeTrip s = placeDisplay (raise .tripClosed (endTrip (closingState s))) := rfl

theorem closeTrip_signs (s : State) (h : s.sign.emergency = none) : (closeTrip s).Signs := by
  have hclosing : (closingState s).sign = s.sign := by simp [closingState]
  have hmeter : (endTrip (closingState s)).Signs := setMeter_signs .vacant _ (by simpa [hclosing] using h)
  exact raise_signs .tripClosed hmeter

theorem closeTrip_signPlace (s : State) (h : s.sign.emergency ≠ none) :
    (closeTrip s).link.signPlace = s.link.signPlace := by
  have hclosing : (closingState s).sign = s.sign := by simp [closingState]
  rw [closeTrip_eq, placeDisplay_signPlace, raise_signPlace, endTrip, setMeter_signPlace _ _ (by simpa [hclosing] using h),
    updateShownMode_signPlace]
  simp only [closingState, offerEnded_signPlace, setOpenFlag_signPlace, activationAtClose_signPlace, accountTrip_signPlace]
  rfl

/-! The close. -/

/-- The parts that the end of the trip record changes, but for its messages and the marks of its events (07 R122 steps 3 to 5). -/
def tripLeft (s : State) : State :=
  { s with
    meter := .vacant, trip := none, sign := s.signTold .vacant
    intercom := { s.intercom with shownMode := shownModeOf s.intercom.floor false } }

/-- The end of the trip record after a handling. -/
theorem State.Sends.left (h : s.Sends t es ms) {tr : Trip} (ht : s.trip = some tr) :
    (tripLeft s).Sends (placeDisplay (raise .tripClosed (endTrip (offerEnded (setOpenFlag false t)))))
      (es ++ [.stateChange, .tripClosed])
      (ms ++ endedMessages tr ++ noticesAll [.stateChange, .tripClosed] (s.disp.heardAll es)) := by
  have hleft := (((h.openFlagCleared ht).ended rfl).tripEnded.raised .tripClosed).display
  have hevents : es ++ [.stateChange, .tripClosed] = es ++ [.stateChange] ++ [Event.tripClosed] := by simp
  have hnotices : ms ++ endedMessages tr ++ noticesAll [.stateChange, .tripClosed] (s.disp.heardAll es) =
      ms ++ endedMessages tr ++ noticesOf .stateChange (s.disp.heardAll es) ++
        noticesOf .tripClosed (s.disp.heardAll (es ++ [.stateChange])) := by
    simp [noticesAll]
  rw [hevents, hnotices]
  exact hleft

/-- The events of a close before the meter changes. -/
def closeEvents (s : State) : List Event :=
  (if journalFull s then [.journalOverwrite] else []) ++ activationEvents s

/-- The shift accounting unit's part and the activation's part of a close, as a handling. -/
theorem accounted_occurs (ho : s.link.orderly) {tr : Trip} (ht : s.trip = some tr) :
    (closeActivated (tripAccounted tr s)).Occurs (activationAtClose (accountTrip s)) [] (closeEvents s) := by
  have haccounted := (State.Occurs.refl (s := tripAccounted tr s) ho).raisedIf (journalFull s) .journalOverwrite
  rw [← accountTrip_eq ht] at haccounted
  exact haccounted.activatedAtClose

/-- What the waiting activation does to each part of the state (03 R42, R43). -/
theorem closeActivated_parts (s : State) :
    (closeActivated s).tables =
        (match s.tables.pendingActivation with
        | none => s.tables
        | some v => { s.tables with active := s.tables.standby, activeVersion := v, pendingActivation := none }) ∧
      (closeActivated s).time = (if s.tables.pendingActivation.isSome then
        (recomputeCalendar { s with tables := (closeActivated s).tables }).time else s.time) ∧
      (closeActivated s).shifts = { s.shifts with
        record := s.shifts.record.map fun r => if s.tables.pendingActivation.isSome then activationCounted r else r } ∧
      ∀ m, (closeActivated s).signTold m = s.signTold m := by
  unfold closeActivated
  cases s.tables.pendingActivation with
  | none => exact ⟨rfl, rfl, by simp, fun _ => rfl⟩
  | some v => exact ⟨rfl, rfl, rfl, fun _ => rfl⟩

theorem closeActivated_keeps (s : State) :
    (closeActivated s).pending = s.pending ∧ (closeActivated s).running = s.running ∧
      (closeActivated s).emgLine = s.emgLine ∧ (closeActivated s).calLine = s.calLine ∧ (closeActivated s).link = s.link ∧
      (closeActivated s).disp = s.disp ∧ (closeActivated s).trip = s.trip ∧ (closeActivated s).intercom = s.intercom ∧
      (closeActivated s).pay = s.pay := by
  unfold closeActivated
  split <;> exact ⟨rfl, rfl, rfl, rfl, rfl, rfl, rfl, rfl, rfl⟩

/-- The whole close as one handling (07 R122). -/
theorem closeTrip_sends (ho : s.link.orderly) {tr ended : Trip} (ht : s.trip = some tr)
    (he : ended = { tr with endTime := some (clockNow s) }) :
    (tripLeft (closeActivated (tripAccounted ended { s with trip := some ended }))).Sends (closeTrip s)
      (closeEvents s ++ [.stateChange, .tripClosed])
      (noticesAll (closeEvents s) s.disp ++ endedMessages tr ++
        noticesAll [.stateChange, .tripClosed] (s.disp.heardAll (closeEvents s))) := by
  have hend : setEndTime s = { s with trip := some ended } := by rw [setEndTime, withTrip, ht, he]; rfl
  obtain ⟨-, -, -, -, -, hdisp, htrip, -⟩ := closeActivated_keeps (tripAccounted ended { s with trip := some ended })
  have hclosed := (accounted_occurs (s := { s with trip := some ended }) ho rfl).sends.left htrip
  have hprompt : endedMessages ended = endedMessages tr := by rw [he]; rfl
  rw [hprompt, hdisp] at hclosed
  rw [closeTrip_eq, closingState, hend]
  exact hclosed

/-- The shift record's figures of a trip (11 R180 steps 1 to 4). -/
theorem addTrip_eq (tr : Trip) (r : ShiftRecord) :
    addTrip tr r =
      { r with
        trips := up32 r.trips 1, hiredSeconds := up32 r.hiredSeconds tr.hiredSeconds
        fareTotal := up32 r.fareTotal (tr.fareDue.getD 0), extrasTotal := up32 r.extrasTotal tr.extrasTotal
        surchargeTotal := up32 r.surchargeTotal tr.surcharge
        roundingTotal := roundingAdd r.roundingTotal tr.roundingDiff
        cashTotal := tendered tr.tenders [.cash] (·.farePart) r.cashTotal
        cardOnlineTotal := tendered tr.tenders [.cardOnline] (fun x => x.farePart + x.tip) r.cardOnlineTotal
        tipsTotal := tendered tr.tenders [.cardOnline, .cardOffline] (·.tip) r.tipsTotal
        unpaidAmount := tendered tr.tenders [.unpaid] (·.farePart) r.unpaidAmount
        unpaidCount := (tr.tenders.filter fun x => x.kind = .unpaid).foldl (fun n _ => up16 n) r.unpaidCount } :=
  foldl_addTender tr.tenders _

/-- Settles O38: the close as one handling by `closeTrip_sends`, its shift record by `addTrip_eq`, its activation by
`closeActivated_parts`, and the refresh places. -/
theorem closeTripEffects : Obligations.CloseTripEffects := by
  intro s tr r ho ht hr ended entry full activates tables time raised tendered record before t
  refine ⟨rfl, closeTrip_signs s, closeTrip_signPlace s, (closeTrip_sends ho ht (ended := ended) rfl).of_eq ?_⟩
  obtain ⟨htables, htime, hshifts, hsign⟩ := closeActivated_parts (tripAccounted ended { s with trip := some ended })
  obtain ⟨hpending, hrunning, hemg, hcal, hlink, hdisp, -, hintercom, hpay⟩ :=
    closeActivated_keeps (tripAccounted ended { s with trip := some ended })
  have hrecord : (if activates then activationCounted (addTrip ended r) else addTrip ended r) = record := by
    rw [addTrip_eq]
    cases ha : activates <;> simp only [record, ha] <;> rfl
  refine State.ext' hpending.symm hrunning.symm hemg.symm hcal.symm hlink.symm hdisp.symm htables.symm ?_ rfl rfl
    (hsign _).symm ?_ hpay.symm ?_
  · refine Eq.trans ?_ htime.symm
    rw [htables]
    rfl
  · simp only [tripLeft, hintercom]
    rfl
  · refine Eq.trans ?_ hshifts.symm
    rw [← hrecord]
    unfold tripAccounted
    dsimp only
    rw [hr]
    rfl

end Sys2Proof.Machine
end

