-- ==== Sys2Proof/Proofs/ShiftStores.lean ====
section
/-! PROOF. The journal and the report store (11 R181, R187): what an operation other than a trip's close, a capture decline
and the requests of the shift accounting unit leaves of them. -/

namespace Sys2Proof.Machine

section

variable (s : State) (src st : Station) (payload : List Byte) (arg : Byte) (e : Event) (side : Side) (tr : Trip)
  (ref : Reference)

@[simp] theorem raise_stores :
    (raise e s).shifts.journal = s.shifts.journal ∧ (raise e s).shifts.reports = s.shifts.reports := by
  simp [raise_shifts]

@[simp] theorem raiseIf_stores (c : Bool) :
    (raiseIf c e s).shifts.journal = s.shifts.journal ∧ (raiseIf c e s).shifts.reports = s.shifts.reports := by
  unfold raiseIf; split <;> simp

@[simp] theorem emergencyBegins_stores :
    (emergencyBegins s).shifts.journal = s.shifts.journal ∧ (emergencyBegins s).shifts.reports = s.shifts.reports := by
  simp [emergencyBegins]

@[simp] theorem debounceTick_stores :
    (debounceTick s).shifts.journal = s.shifts.journal ∧ (debounceTick s).shifts.reports = s.shifts.reports := by
  unfold debounceTick; repeat' split
  all_goals simp

@[simp] theorem lampNewlyFailed_stores :
    (lampNewlyFailed s).shifts.journal = s.shifts.journal ∧ (lampNewlyFailed s).shifts.reports = s.shifts.reports := by
  simp [lampNewlyFailed]

@[simp] theorem checkLamp_stores (held reported : BitVec 3) (lamp : Nat) :
    (checkLamp held reported lamp s).shifts.journal = s.shifts.journal ∧
      (checkLamp held reported lamp s).shifts.reports = s.shifts.reports := by
  unfold checkLamp; split <;> simp

@[simp] theorem signStatusTaken_stores (ambient : Nat) (reported : BitVec 3) :
    (signStatusTaken ambient reported s).shifts.journal = s.shifts.journal ∧
      (signStatusTaken ambient reported s).shifts.reports = s.shifts.reports := by
  unfold signStatusTaken; dsimp only; split <;> simp

@[simp] theorem shiftPulse_stores :
    (shiftPulse s).shifts.journal = s.shifts.journal ∧ (shiftPulse s).shifts.reports = s.shifts.reports := by
  simp [shiftPulse]

@[simp] theorem shiftDrop_stores :
    (shiftDrop side s).shifts.journal = s.shifts.journal ∧ (shiftDrop side s).shifts.reports = s.shifts.reports := by
  simp [shiftDrop]

@[simp] theorem mixEvent_stores (x : Four Sample) :
    (mixEvent x s).shifts.journal = s.shifts.journal ∧ (mixEvent x s).shifts.reports = s.shifts.reports := by
  simp [mixEvent]

@[simp] theorem callTaken_stores :
    (callTaken s).shifts.journal = s.shifts.journal ∧ (callTaken s).shifts.reports = s.shifts.reports := by
  simp [callTaken]

@[simp] theorem testFareLimit_stores :
    (testFareLimit s).shifts.journal = s.shifts.journal ∧ (testFareLimit s).shifts.reports = s.shifts.reports := by
  unfold testFareLimit; split <;> (try split) <;> simp

@[simp] theorem fareChanged_stores :
    (fareChanged s).shifts.journal = s.shifts.journal ∧ (fareChanged s).shifts.reports = s.shifts.reports := by
  simp [fareChanged]

@[simp] theorem chargeDrop_stores :
    (chargeDrop side s).shifts.journal = s.shifts.journal ∧ (chargeDrop side s).shifts.reports = s.shifts.reports := by
  simp [chargeDrop]

@[simp] theorem chargeIfStepping_stores :
    (chargeIfStepping side tr s).shifts.journal = s.shifts.journal ∧
      (chargeIfStepping side tr s).shifts.reports = s.shifts.reports := by
  unfold chargeIfStepping; split <;> simp

@[simp] theorem expireSingle_stores :
    (expireSingle side tr s).shifts.journal = s.shifts.journal ∧
      (expireSingle side tr s).shifts.reports = s.shifts.reports := by
  simp [expireSingle]

@[simp] theorem expireDouble_stores :
    (expireDouble side tr s).shifts.journal = s.shifts.journal ∧
      (expireDouble side tr s).shifts.reports = s.shifts.reports := by
  unfold expireDouble; dsimp only; repeat' split
  all_goals simp

@[simp] theorem expire_stores :
    (expire side s).shifts.journal = s.shifts.journal ∧ (expire side s).shifts.reports = s.shifts.reports := by
  unfold expire; split <;> (try split) <;> simp

@[simp] theorem farePulse_stores :
    (farePulse s).shifts.journal = s.shifts.journal ∧ (farePulse s).shifts.reports = s.shifts.reports := by
  unfold farePulse; repeat' split
  all_goals simp

@[simp] theorem fareTick_stores :
    (fareTick s).shifts.journal = s.shifts.journal ∧ (fareTick s).shifts.reports = s.shifts.reports := by
  unfold fareTick; repeat' split
  all_goals simp

@[simp] theorem sideExpires_stores :
    (sideExpires side s).shifts.journal = s.shifts.journal ∧ (sideExpires side s).shifts.reports = s.shifts.reports := by
  unfold sideExpires; repeat' split
  all_goals simp

@[simp] theorem surchargeLookup_stores :
    (surchargeLookup s).shifts.journal = s.shifts.journal ∧ (surchargeLookup s).shifts.reports = s.shifts.reports := by
  unfold surchargeLookup; split <;> (try split) <;> simp

@[simp] theorem fareTariffChange_stores :
    (fareTariffChange s).shifts.journal = s.shifts.journal ∧ (fareTariffChange s).shifts.reports = s.shifts.reports := by
  simp [fareTariffChange]

@[simp] theorem addExtra_stores (item amount : Nat) :
    (addExtra item amount s).shifts.journal = s.shifts.journal ∧
      (addExtra item amount s).shifts.reports = s.shifts.reports := by
  unfold addExtra; split <;> simp

@[simp] theorem selectionEvents_stores (r : SelectionResult) :
    (selectionEvents r s).shifts.journal = s.shifts.journal ∧ (selectionEvents r s).shifts.reports = s.shifts.reports := by
  simp [selectionEvents]

@[simp] theorem addPeriod_stores :
    (addPeriod s).shifts.journal = s.shifts.journal ∧ (addPeriod s).shifts.reports = s.shifts.reports := by
  unfold addPeriod; repeat' split
  all_goals simp

@[simp] theorem changeTariff_stores (t : Nat) :
    (changeTariff t s).shifts.journal = s.shifts.journal ∧ (changeTariff t s).shifts.reports = s.shifts.reports := by
  simp [changeTariff]

@[simp] theorem runForTrip_stores :
    (runForTrip s).shifts.journal = s.shifts.journal ∧ (runForTrip s).shifts.reports = s.shifts.reports := by
  unfold runForTrip; dsimp only; repeat' split
  all_goals simp

@[simp] theorem selectionOccasion_stores :
    (selectionOccasion s).shifts.journal = s.shifts.journal ∧ (selectionOccasion s).shifts.reports = s.shifts.reports := by
  unfold selectionOccasion; split <;> simp

@[simp] theorem performActivation_stores (version : Nat) :
    (performActivation version s).shifts.journal = s.shifts.journal ∧
      (performActivation version s).shifts.reports = s.shifts.reports := by
  simp [performActivation]

@[simp] theorem activationAtClose_stores :
    (activationAtClose s).shifts.journal = s.shifts.journal ∧ (activationAtClose s).shifts.reports = s.shifts.reports := by
  unfold activationAtClose; split <;> simp

@[simp] theorem takeTableActivate_stores :
    (takeTableActivate src payload s).shifts.journal = s.shifts.journal ∧
      (takeTableActivate src payload s).shifts.reports = s.shifts.reports := by
  unfold takeTableActivate; dsimp only; repeat' split
  all_goals simp

@[simp] theorem setMeter_stores (m : MeterState) :
    (setMeter m s).shifts.journal = s.shifts.journal ∧ (setMeter m s).shifts.reports = s.shifts.reports := by
  simp [setMeter]

@[simp] theorem endTrip_stores :
    (endTrip s).shifts.journal = s.shifts.journal ∧ (endTrip s).shifts.reports = s.shifts.reports := by
  simp [endTrip]

@[simp] theorem openTrip_stores (t key : Nat) :
    (openTrip t key s).shifts.journal = s.shifts.journal ∧ (openTrip t key s).shifts.reports = s.shifts.reports := by
  simp [openTrip]

@[simp] theorem extraCapped_stores :
    (extraCapped s).shifts.journal = s.shifts.journal ∧ (extraCapped s).shifts.reports = s.shifts.reports := by
  simp [extraCapped]

@[simp] theorem keyExtra_stores :
    (keyExtra src arg s).shifts.journal = s.shifts.journal ∧ (keyExtra src arg s).shifts.reports = s.shifts.reports := by
  unfold keyExtra; dsimp only; (repeat' split) <;> simp

@[simp] theorem keyPassengers_stores :
    (keyPassengers src arg s).shifts.journal = s.shifts.journal ∧
      (keyPassengers src arg s).shifts.reports = s.shifts.reports := by
  unfold keyPassengers; dsimp only; (repeat' split) <;> simp

@[simp] theorem keyLuggage_stores :
    (keyLuggage src arg s).shifts.journal = s.shifts.journal ∧
      (keyLuggage src arg s).shifts.reports = s.shifts.reports := by
  unfold keyLuggage; dsimp only; (repeat' split) <;> simp

@[simp] theorem offlineApprove_stores (issuer cls farePart tip : Nat) (token : List Byte) :
    (offlineApprove ref issuer cls farePart tip token s).shifts.journal = s.shifts.journal ∧
      (offlineApprove ref issuer cls farePart tip token s).shifts.reports = s.shifts.reports := by
  simp [offlineApprove, shiftOfflineApproval]

@[simp] theorem offerVoid_stores (number : Nat) (farePart tip : Nat) :
    (offerVoid number ref farePart tip s).shifts.journal = s.shifts.journal ∧
      (offerVoid number ref farePart tip s).shifts.reports = s.shifts.reports := by
  simp [offerVoid, shiftVoid]

@[simp] theorem resolveDeferred_stores :
    (resolveDeferred ref s).shifts.journal = s.shifts.journal ∧
      (resolveDeferred ref s).shifts.reports = s.shifts.reports := by
  unfold resolveDeferred; split <;> simp [shiftResolved]

@[simp] theorem resolveLate_stores (e : LateEntry) (approved : Bool) :
    (resolveLate e approved s).shifts.journal = s.shifts.journal ∧
      (resolveLate e approved s).shifts.reports = s.shifts.reports := by
  unfold resolveLate; split <;> (try split) <;> simp

@[simp] theorem powerBreak_stores :
    (powerBreak s).shifts.journal = s.shifts.journal ∧ (powerBreak s).shifts.reports = s.shifts.reports := by
  unfold powerBreak; split <;> simp

@[simp] theorem stationAnswers_stores :
    (stationAnswers st s).shifts.journal = s.shifts.journal ∧ (stationAnswers st s).shifts.reports = s.shifts.reports := by
  unfold stationAnswers; dsimp only; split <;> simp

@[simp] theorem stationMisses_stores :
    (stationMisses st s).shifts.journal = s.shifts.journal ∧ (stationMisses st s).shifts.reports = s.shifts.reports := by
  unfold stationMisses; dsimp only; split <;> simp

@[simp] theorem stationTruncates_stores :
    (stationTruncates st s).shifts.journal = s.shifts.journal ∧
      (stationTruncates st s).shifts.reports = s.shifts.reports := by
  simp [stationTruncates]

@[simp] theorem stationFailsCheck_stores :
    (stationFailsCheck st s).shifts.journal = s.shifts.journal ∧
      (stationFailsCheck st s).shifts.reports = s.shifts.reports := by
  simp [stationFailsCheck]

@[simp] theorem receptionAdvances_stores (l : List Byte) :
    (receptionAdvances st l s).shifts.journal = s.shifts.journal ∧
      (receptionAdvances st l s).shifts.reports = s.shifts.reports := by
  unfold receptionAdvances; dsimp only; repeat' split
  all_goals simp

@[simp] theorem readUpLane_stores (grant : Option Station) (up : UpFrame) :
    (readUpLane grant up s).shifts.journal = s.shifts.journal ∧
      (readUpLane grant up s).shifts.reports = s.shifts.reports := by
  unfold readUpLane; repeat' split
  all_goals simp

end

end Sys2Proof.Machine
end

