-- ==== Sys2Proof/Proofs/Bounds.lean ====
section
/-! PROOF. The capacities and count ranges of the blocks (04 R48, R52, R53; 08 R128, R129, R134; 09 R147, R152; 10 R166, R169;
11 R182, R188), block by block, through the operations of each block. -/

namespace Sys2Proof.Machine

/-! The bounds of each block, and of the whole. -/

/-- The counts of the timebase within their ranges (04 R48, R52, R53). -/
structure TimeState.Within (t : TimeState) : Prop where
  frames : t.divFrames < Config.framesPerTick
  ticks : t.divTicks < Config.ticksPerSecond
  second : t.second < Config.daySeconds
  day : t.day < Config.dayCount
  accepted : t.accepted ≤ t.budget

/-- The counts of the sign controller within their ranges (08 R128, R129, R134). -/
structure SignState.Within (g : SignState) : Prop where
  debounce : ∀ n, g.debounce = some n → n < Config.debounceTicks
  refresh : g.refresh < Config.refreshSeconds
  stepping : g.stepping < 2

/-- The counts of the mixer within their ranges (09 R147, R152). -/
structure IntercomState.Within (ic : IntercomState) : Prop where
  hold : ∀ x, ic.floor = some x → x.count < Config.holdSeconds
  pin : ∀ n, ic.pin = some n → n < Config.pinSeconds

/-- The lists of the payment controller within their capacities (10 R166, R169). -/
structure PaymentState.Within (p : PaymentState) : Prop where
  late : p.late.length ≤ Config.lateCap
  deferred : p.deferred.length ≤ Config.deferredCap

/-- The stores of the shift accounting unit within their capacities (11 R182, R188). -/
structure ShiftState.Within (x : ShiftState) : Prop where
  journal : x.journal.length ≤ Config.journalCap
  reports : x.reports.length ≤ Config.reportCap

@[simp] theorem TimeState.within_iff (t : TimeState) :
    t.Within ↔ t.divFrames < Config.framesPerTick ∧ t.divTicks < Config.ticksPerSecond ∧ t.second < Config.daySeconds ∧
      t.day < Config.dayCount ∧ t.accepted ≤ t.budget :=
  ⟨fun ⟨a, b, c, d, e⟩ => ⟨a, b, c, d, e⟩, fun ⟨a, b, c, d, e⟩ => ⟨a, b, c, d, e⟩⟩

@[simp] theorem SignState.within_iff (g : SignState) :
    g.Within ↔ (∀ n, g.debounce = some n → n < Config.debounceTicks) ∧ g.refresh < Config.refreshSeconds ∧ g.stepping < 2 :=
  ⟨fun ⟨a, b, c⟩ => ⟨a, b, c⟩, fun ⟨a, b, c⟩ => ⟨a, b, c⟩⟩

@[simp] theorem IntercomState.within_iff (ic : IntercomState) :
    ic.Within ↔ (∀ x, ic.floor = some x → x.count < Config.holdSeconds) ∧ ∀ n, ic.pin = some n → n < Config.pinSeconds :=
  ⟨fun ⟨a, b⟩ => ⟨a, b⟩, fun ⟨a, b⟩ => ⟨a, b⟩⟩

@[simp] theorem PaymentState.within_iff (p : PaymentState) :
    p.Within ↔ p.late.length ≤ Config.lateCap ∧ p.deferred.length ≤ Config.deferredCap :=
  ⟨fun ⟨a, b⟩ => ⟨a, b⟩, fun ⟨a, b⟩ => ⟨a, b⟩⟩

@[simp] theorem ShiftState.within_iff (x : ShiftState) :
    x.Within ↔ x.journal.length ≤ Config.journalCap ∧ x.reports.length ≤ Config.reportCap :=
  ⟨fun ⟨a, b⟩ => ⟨a, b⟩, fun ⟨a, b⟩ => ⟨a, b⟩⟩

theorem State.withinBounds_iff (s : State) :
    s.WithinBounds ↔ s.time.Within ∧ s.sign.Within ∧ s.intercom.Within ∧ s.pay.Within ∧ s.shifts.Within :=
  ⟨fun h => ⟨⟨h.frames, h.ticks, h.second, h.day, h.accepted⟩, ⟨h.debounce, h.refresh, h.stepping⟩, ⟨h.hold, h.pin⟩,
      ⟨h.late, h.deferred⟩, ⟨h.journal, h.reports⟩⟩,
    fun ⟨t, g, i, p, x⟩ => ⟨p.late, p.deferred, x.journal, x.reports, t.frames, t.ticks, t.second, t.day, t.accepted,
      g.debounce, g.refresh, g.stepping, i.hold, i.pin⟩⟩

section

variable {s t : State} (h : s.WithinBounds)

include h

/-- An operation keeps a state within its bounds when it keeps every block so. -/
theorem State.WithinBounds.of_kept (k : (s.time.Within → t.time.Within) ∧ (s.sign.Within → t.sign.Within) ∧
    (s.intercom.Within → t.intercom.Within) ∧ (s.pay.Within → t.pay.Within) ∧ (s.shifts.Within → t.shifts.Within)) :
    t.WithinBounds := by
  obtain ⟨ht, hg, hi, hp, hx⟩ := s.withinBounds_iff.mp h
  obtain ⟨kt, kg, ki, kp, kx⟩ := k
  exact t.withinBounds_iff.mpr ⟨kt ht, kg hg, ki hi, kp hp, kx hx⟩

/-! The block that an operation changes, apart from the blocks that it leaves alone. -/

theorem State.WithinBounds.of_time (kt : s.time.Within → t.time.Within) (k : (s.sign.Within → t.sign.Within) ∧
    (s.intercom.Within → t.intercom.Within) ∧ (s.pay.Within → t.pay.Within) ∧ (s.shifts.Within → t.shifts.Within)) :
    t.WithinBounds := h.of_kept ⟨kt, k⟩

theorem State.WithinBounds.of_sign (kg : s.sign.Within → t.sign.Within) (k : (s.time.Within → t.time.Within) ∧
    (s.intercom.Within → t.intercom.Within) ∧ (s.pay.Within → t.pay.Within) ∧ (s.shifts.Within → t.shifts.Within)) :
    t.WithinBounds := h.of_kept ⟨k.1, kg, k.2⟩

theorem State.WithinBounds.of_intercom (ki : s.intercom.Within → t.intercom.Within) (k : (s.time.Within → t.time.Within) ∧
    (s.sign.Within → t.sign.Within) ∧ (s.pay.Within → t.pay.Within) ∧ (s.shifts.Within → t.shifts.Within)) :
    t.WithinBounds := by
  obtain ⟨kt, kg, kp, kx⟩ := k
  exact h.of_kept ⟨kt, kg, ki, kp, kx⟩

theorem State.WithinBounds.of_pay (kp : s.pay.Within → t.pay.Within) (k : (s.time.Within → t.time.Within) ∧
    (s.sign.Within → t.sign.Within) ∧ (s.intercom.Within → t.intercom.Within) ∧ (s.shifts.Within → t.shifts.Within)) :
    t.WithinBounds := by
  obtain ⟨kt, kg, ki, kx⟩ := k
  exact h.of_kept ⟨kt, kg, ki, kp, kx⟩

theorem State.WithinBounds.of_shifts (kx : s.shifts.Within → t.shifts.Within) (k : (s.time.Within → t.time.Within) ∧
    (s.sign.Within → t.sign.Within) ∧ (s.intercom.Within → t.intercom.Within) ∧ (s.pay.Within → t.pay.Within)) :
    t.WithinBounds := by
  obtain ⟨kt, kg, ki, kp⟩ := k
  exact h.of_kept ⟨kt, kg, ki, kp, kx⟩

end

/-! What the operations leave of the counts they do not make. -/

@[simp] theorem updateShownMode_counts (s : State) :
    (updateShownMode s).intercom.floor = s.intercom.floor ∧ (updateShownMode s).intercom.pin = s.intercom.pin := by
  unfold updateShownMode; dsimp only; split <;> simp

@[simp] theorem setOpenFlag_counts (v : Bool) (s : State) :
    (setOpenFlag v s).intercom.floor = s.intercom.floor ∧ (setOpenFlag v s).intercom.pin = s.intercom.pin := by
  unfold setOpenFlag; split <;> simp

@[simp] theorem mixEvent_counts (x : Four Sample) (s : State) :
    (mixEvent x s).intercom.floor = s.intercom.floor ∧ (mixEvent x s).intercom.pin = s.intercom.pin := by
  simp [mixEvent, clipCounted]

@[simp] theorem recomputeCalendar_counts (s : State) :
    (recomputeCalendar s).time.divTicks = s.time.divTicks ∧ (recomputeCalendar s).time.second = s.time.second ∧
      (recomputeCalendar s).time.day = s.time.day ∧ (recomputeCalendar s).time.accepted = s.time.accepted ∧
      (recomputeCalendar s).time.budget = s.time.budget := ⟨rfl, rfl, rfl, rfl, rfl⟩

@[simp] theorem setCapture_lists (c : CaptureState) (s : State) :
    (setCapture c s).pay.late = s.pay.late ∧ (setCapture c s).pay.deferred = s.pay.deferred := ⟨rfl, rfl⟩

@[simp] theorem captureCheck_lists (s : State) :
    (captureCheck s).pay.late = s.pay.late ∧ (captureCheck s).pay.deferred = s.pay.deferred := by
  unfold captureCheck; split <;> (try split) <;> simp

@[simp] theorem onlineBegins_lists (s : State) :
    (onlineBegins s).pay.late = s.pay.late ∧ (onlineBegins s).pay.deferred = s.pay.deferred := by
  unfold onlineBegins; split <;> simp

@[simp] theorem onlineAfter_lists (before s : State) :
    (onlineAfter before s).pay.late = s.pay.late ∧ (onlineAfter before s).pay.deferred = s.pay.deferred := by
  unfold onlineAfter; split <;> simp

@[simp] theorem captureExpires_lists (s : State) :
    (captureExpires s).pay.late = s.pay.late ∧ (captureExpires s).pay.deferred = s.pay.deferred := by
  unfold captureExpires; split <;> simp

@[simp] theorem captureWaitEnds_lists (s : State) :
    (captureWaitEnds s).pay.late = s.pay.late ∧ (captureWaitEnds s).pay.deferred = s.pay.deferred := by
  unfold captureWaitEnds; split <;> simp

@[simp] theorem captureSecond_lists (s : State) :
    (captureSecond s).pay.late = s.pay.late ∧ (captureSecond s).pay.deferred = s.pay.deferred := by
  unfold captureSecond; split <;> (try split) <;> simp

@[simp] theorem modemStatusTaken_lists (up : Bool) (s : State) :
    (modemStatusTaken up s).pay.late = s.pay.late ∧ (modemStatusTaken up s).pay.deferred = s.pay.deferred := by
  simp [modemStatusTaken]

/-! The floor (09 R144 to R147): whoever gets it starts its hold count at 0. -/

theorem grantFloor_within (p : Party) {ic : IntercomState} (h : ic.Within) : (grantFloor p ic).Within :=
  ⟨by simp [grantFloor], h.pin⟩

theorem passFloor_within {ic : IntercomState} (h : ic.Within) : (passFloor ic).Within := by
  refine ⟨?_, ?_⟩ <;> unfold passFloor <;> split <;> (try split) <;> simp <;> exact h.pin

theorem joinWaiting_within (p : Party) {ic : IntercomState} (h : ic.Within) : (joinWaiting p ic).Within := by
  cases p <;> exact ⟨h.hold, h.pin⟩

theorem leaveWaiting_within (p : Party) {ic : IntercomState} (h : ic.Within) : (leaveWaiting p ic).Within := by
  cases p <;> exact ⟨h.hold, h.pin⟩

theorem requestFloor_within (p : Party) {ic : IntercomState} (h : ic.Within) : (requestFloor p ic).Within := by
  unfold requestFloor
  split
  · exact grantFloor_within p h
  split
  · exact h
  split
  · exact grantFloor_within _ (joinWaiting_within _ h)
  · exact joinWaiting_within _ h

theorem releaseFloor_within (p : Party) {ic : IntercomState} (h : ic.Within) : (releaseFloor p ic).Within := by
  unfold releaseFloor
  split
  · split
    · exact passFloor_within h
    · exact leaveWaiting_within p h
  · exact leaveWaiting_within p h

section

variable {s : State} (h : s.WithinBounds)

include h

/-! The sign controller (08). -/

theorem placeSign_within : (placeSign s).WithinBounds :=
  h.of_sign (fun hs => ⟨hs.debounce, by simp, hs.stepping⟩) (by simp)

theorem signMeterChanged_within : (signMeterChanged s).WithinBounds := by
  unfold signMeterChanged
  split
  · exact placeSign_within h
  · exact h

theorem setMeter_within (m : MeterState) : (setMeter m s).WithinBounds :=
  signMeterChanged_within (h.of_kept (by simp))

theorem refreshSecond_within : (refreshSecond s).WithinBounds := by
  unfold refreshSecond
  split
  · exact placeSign_within h
  case isFalse hn => exact h.of_sign (fun hs => ⟨hs.debounce, Nat.lt_of_not_le hn, hs.stepping⟩) (by simp)

theorem brightnessStep_within : (brightnessStep s).WithinBounds := by
  have hstep : ({ s with sign := { s.sign with stepping := 0 } } : State).WithinBounds :=
    h.of_sign (fun hs => ⟨hs.debounce, hs.refresh, Nat.zero_lt_two⟩) (by simp)
  unfold brightnessStep
  dsimp only
  repeat' split
  · exact hstep
  · exact hstep
  · exact placeSign_within (hstep.of_kept (by simp))
  · exact hstep

theorem steppingSecond_within : (steppingSecond s).WithinBounds := by
  unfold steppingSecond
  split
  · exact brightnessStep_within h
  case isFalse hn => exact h.of_sign (fun hs => ⟨hs.debounce, hs.refresh, Nat.lt_of_not_le hn⟩) (by simp)

/-- A debounce count set within its range. -/
theorem debounce_within {d : Option Nat} (hd : ∀ n, d = some n → n < Config.debounceTicks) :
    ({ s with sign := { s.sign with debounce := d } } : State).WithinBounds :=
  h.of_sign (fun hs => ⟨hd, hs.refresh, hs.stepping⟩) (by simp)

theorem lineAsserted_within : (lineAsserted s).WithinBounds := by
  unfold lineAsserted
  split
  · exact debounce_within h (by simp)
  · exact h

theorem lineReleased_within : (lineReleased s).WithinBounds := debounce_within h nofun

theorem emergencyBegins_within : (emergencyBegins s).WithinBounds :=
  placeSign_within (h.of_sign (fun hs => ⟨by simp, by simpa using hs.refresh, by simpa using hs.stepping⟩) (by simp))

theorem debounceTick_within : (debounceTick s).WithinBounds := by
  unfold debounceTick
  split
  · split
    · split
      · exact emergencyBegins_within h
      case isFalse hn => exact debounce_within h fun n e => by cases e; exact Nat.lt_of_not_le hn
    · exact h
  · exact h

theorem debounceCompletes_within : (debounceCompletes s).WithinBounds := by
  unfold debounceCompletes
  split
  · exact emergencyBegins_within h
  · exact h

theorem emergencyEnds_within : (emergencyEnds s).WithinBounds := by
  have hcleared : ({ s with sign := { s.sign with emergency := none } } : State).WithinBounds := h.of_kept (by simp)
  refine debounce_within (placeSign_within hcleared) fun n e => ?_
  split at e <;> cases e
  decide

theorem signStatusTaken_within (ambient : Nat) (reported : BitVec 3) : (signStatusTaken ambient reported s).WithinBounds := by
  unfold signStatusTaken
  dsimp only
  split <;> exact h.of_kept (by simp)

theorem signAfterTable_within (table : Nat) : (signAfterTable table s).WithinBounds := by
  unfold signAfterTable
  split
  · exact placeSign_within h
  · exact h

/-! The mixer (09). -/

/-- A change of the floor that keeps its hold count within the range. -/
theorem changeFloor_within {f : IntercomState → IntercomState} (hf : s.intercom.Within → (f s.intercom).Within) :
    (changeFloor f s).WithinBounds :=
  h.of_intercom (by simpa [changeFloor] using hf) (by simp)

theorem holdExpires_within : (holdExpires s).WithinBounds := by
  unfold holdExpires
  split
  · exact changeFloor_within h passFloor_within
  · exact h

theorem holdSecond_within : (holdSecond s).WithinBounds := by
  unfold holdSecond
  split
  · exact h
  · split
    · exact holdExpires_within h
    case isFalse hn =>
      exact h.of_intercom (fun hi => ⟨fun x e => by cases e; exact Nat.lt_of_not_le hn, hi.pin⟩) (by simp)

/-- A PIN count set within its range. -/
theorem pin_within {p : Option Nat} (hp : ∀ n, p = some n → n < Config.pinSeconds) :
    ({ s with intercom := { s.intercom with pin := p } } : State).WithinBounds :=
  h.of_intercom (fun hi => ⟨hi.hold, hp⟩) (by simp)

theorem pinOff_within : (pinOff s).WithinBounds := pin_within h nofun

theorem pinSecond_within : (pinSecond s).WithinBounds := by
  unfold pinSecond
  split
  · exact h
  · split
    · exact pinOff_within h
    case isFalse hn => exact pin_within h fun n e => by cases e; exact Nat.lt_of_not_le hn

theorem pinStateTaken_within (begins : Bool) : (pinStateTaken begins s).WithinBounds := by
  unfold pinStateTaken
  split
  · split
    · exact pin_within h (by simp)
    · exact h
  · exact pinOff_within h

theorem talkDownTaken_within (src : Station) : (talkDownTaken src s).WithinBounds := by
  unfold talkDownTaken
  split
  · exact changeFloor_within h (requestFloor_within _)
  · exact h

/-! The payment controller (10). -/

theorem offlineApprove_within (ref : Reference) (issuer cls farePart tip : Nat) (token : List Byte)
    (hroom : s.pay.deferred.length < Config.deferredCap) :
    (offlineApprove ref issuer cls farePart tip token s).WithinBounds :=
  h.of_pay (fun hp => ⟨by simpa [offlineApprove] using hp.late, by simpa [offlineApprove] using hroom⟩) (by simp)

omit h in
/-- A full late list loses its oldest entry to the one that joins. -/
theorem length_lateJoin (e : LateEntry) {l : List LateEntry} (hl : l.length ≤ Config.lateCap) :
    (lateJoin e l).length ≤ Config.lateCap := by
  unfold lateJoin
  split
  case isTrue hfull =>
    rw [List.length_append, List.length_drop, List.length_singleton, Nat.sub_add_cancel (le_trans (by decide) hfull)]
    exact hl
  case isFalse hroom =>
    rw [List.length_append, List.length_singleton]
    exact Nat.lt_of_not_le hroom

theorem joinLate_within (a : Auth) (ending : Ending) : (joinLate a ending s).WithinBounds :=
  h.of_pay (fun hp => ⟨length_lateJoin _ hp.late, hp.deferred⟩) (by simp)

theorem lateSecond_within : (lateSecond s).WithinBounds :=
  h.of_pay (fun hp => ⟨by simpa [lateSecond] using (List.length_filter_le _ _).trans hp.late, hp.deferred⟩) (by simp)

theorem lateExpires_within (position : Nat) : (lateExpires position s).WithinBounds :=
  h.of_pay (fun hp => ⟨(List.length_eraseIdx_le _ _).trans hp.late, hp.deferred⟩) (by simp)

/-- A deferred queue that lost entries. -/
theorem deferred_within {l : List DeferredEntry} (hl : l.length ≤ s.pay.deferred.length) :
    ({ s with pay := { s.pay with deferred := l } } : State).WithinBounds :=
  h.of_pay (fun hp => ⟨hp.late, hl.trans hp.deferred⟩) (by simp)

theorem resolveDeferred_within (ref : Reference) : (resolveDeferred ref s).WithinBounds := by
  have hleft := deferred_within h (l := s.pay.deferred.filter fun e => e.ref ≠ ref) (List.length_filter_le _ _)
  unfold resolveDeferred
  dsimp only
  split <;> exact hleft.of_shifts (by simp [shiftResolved]) (by simp)

theorem resolveLate_within (e : LateEntry) (approved : Bool) : (resolveLate e approved s).WithinBounds := by
  unfold resolveLate
  split
  · split
    · exact resolveDeferred_within h _
    · exact h.of_kept (by simp)
  · exact h

/-! The shift accounting unit (11). -/

/-- A full journal loses its oldest entry to the one that is placed. -/
theorem journalPlace_within (e : JournalEntry) : (journalPlace e s).WithinBounds := by
  unfold journalPlace
  split
  · refine h.of_shifts (fun hx => ⟨?_, by simpa using hx.reports⟩) (by simp)
    simp
  case isFalse hn => exact h.of_shifts (fun hx => ⟨Nat.lt_of_not_le hn, hx.reports⟩) (by simp)

theorem accountTrip_within : (accountTrip s).WithinBounds := by
  unfold accountTrip shiftTripClosed
  split
  · exact h
  · exact journalPlace_within (h.of_kept (by simp)) _

omit h in
theorem length_markJournal (ref : Reference) (l : List JournalEntry) : (markJournal ref l).length = l.length := by
  induction l with
  | nil => rfl
  | cons e es ih =>
    unfold markJournal
    split <;> simp [ih]

theorem shiftMarkDeclined_within (ref : Reference) : (shiftMarkDeclined ref s).WithinBounds :=
  h.of_shifts (by simp [shiftMarkDeclined, length_markJournal]) (by simp)

theorem captureResponseTaken_within (ref : Reference) (accepted : Bool) :
    (captureResponseTaken ref accepted s).WithinBounds := by
  unfold captureResponseTaken
  split
  · exact h
  case h_2 e rest he =>
    split
    · have hleft : ({ s with pay := { s.pay with deferred := rest, capture := .idle } } : State).WithinBounds :=
        (deferred_within h (l := rest) (by simp [he])).of_kept (by simp)
      dsimp only
      split
      · exact hleft.of_shifts (by simp [shiftResolved]) (by simp)
      · have hmarked : (shiftMarkDeclined ref (shiftDeclined (e.farePart + e.tip)
            (raise .captureDeclined { s with pay := { s.pay with deferred := rest, capture := .idle } }))).WithinBounds :=
          shiftMarkDeclined_within (hleft.of_shifts (by simp [shiftDeclined]) (by simp)) ref
        exact hmarked.of_kept (by simp)
    · exact h

theorem takeShiftClose_within (src : Station) (payload : List Byte) : (takeShiftClose src payload s).WithinBounds := by
  unfold takeShiftClose
  repeat' split
  case h_2.isFalse hn =>
    have hroom : s.shifts.reports.length < Config.reportCap := Nat.lt_of_not_le hn
    exact setMeter_within (h.of_shifts (fun hx => ⟨by simpa using hx.journal, by simpa using hroom⟩) (by simp)) _
  all_goals exact h.of_kept (by simp)

theorem takeReportRelease_within (src : Station) (payload : List Byte) :
    (takeReportRelease src payload s).WithinBounds := by
  unfold takeReportRelease
  repeat' split
  case h_2.isTrue r rest hr _ =>
    refine h.of_shifts (fun hx => ⟨by simpa using hx.journal, ?_⟩) (by simp)
    have := hx.reports
    rw [hr] at this
    exact Nat.le_of_succ_le this
  all_goals exact h.of_kept (by simp)

/-! The timebase (04). -/

theorem windowEnds_within : (windowEnds s).WithinBounds := by
  unfold windowEnds
  dsimp only
  split <;> exact h.of_time (by simp +contextual [beginWindow]) (by simp)

theorem clockAdvanced_within : ({ s with time := clockAdvanced s.time } : State).WithinBounds := by
  refine h.of_time (fun ht => ?_) (by simp)
  dsimp only
  unfold clockAdvanced
  split
  · exact ⟨ht.frames, ht.ticks, by simp, Nat.mod_lt _ (by decide), ht.accepted⟩
  case isFalse hn => exact ⟨ht.frames, ht.ticks, Nat.lt_of_not_le hn, ht.day, ht.accepted⟩

theorem performActivation_within (version : Nat) : (performActivation version s).WithinBounds :=
  h.of_time (by simp [performActivation]) (by simp)

theorem activationAtClose_within : (activationAtClose s).WithinBounds := by
  unfold activationAtClose
  split
  · exact h
  · exact performActivation_within (h.of_kept (by simp)) _

theorem takeTableActivate_within (src : Station) (payload : List Byte) : (takeTableActivate src payload s).WithinBounds := by
  unfold takeTableActivate
  dsimp only
  repeat' split
  case h_2.isFalse => exact performActivation_within (h.of_kept (by simp)) _
  all_goals exact h.of_kept (by simp)

/-- A pulse below the budget is counted in the window, and no other is. -/
theorem pulseArrives_within : (pulseArrives s).WithinBounds := by
  unfold pulseArrives
  dsimp only
  repeat' split
  · exact h.of_kept (by simp)
  case isFalse.isTrue hlt =>
    exact h.of_time (fun ht => by simpa using ⟨ht.frames, ht.ticks, ht.second, ht.day, hlt⟩) (by simp)
  · exact h
  · exact h.of_kept (by simp)

end


end Sys2Proof.Machine
end

