-- ==== Sys2Proof/Proofs/BoundsStep.lean ====
section
/-! PROOF. Every command keeps the capacities and count ranges: the keys and requests, the reports, the divider, the frame and
the starts. -/

namespace Sys2Proof.Machine

section

variable {s : State} (h : s.WithinBounds)

include h

/-! Operations that leave every bounded list and count alone. -/

theorem placeDisplay_within : (placeDisplay s).WithinBounds := h.of_kept (by simp)
theorem raise_within (e : Event) : (raise e s).WithinBounds := h.of_kept (by simp)
theorem raiseIf_within (c : Bool) (e : Event) : (raiseIf c e s).WithinBounds := h.of_kept (by simp)
theorem reply_within (dest : Station) (kind : Byte) (r : Result) (data : List Byte) :
    (reply dest kind r data s).WithinBounds := h.of_kept (by simp)
theorem offerDue_within : (offerDue s).WithinBounds := h.of_kept (by simp)
theorem runForTrip_within : (runForTrip s).WithinBounds := h.of_kept (by simp)
theorem captureCheck_within : (captureCheck s).WithinBounds := h.of_kept (by simp)
theorem onlineAfter_within (before : State) : (onlineAfter before s).WithinBounds := h.of_kept (by simp)
theorem endAuth_within : (endAuth s).WithinBounds := h.of_pay (fun hp => ⟨hp.late, hp.deferred⟩) (by simp)

/-! The opening and the close of a trip (07 R113, R122), and the keys (07 R107). -/

theorem closeTrip_within : (closeTrip s).WithinBounds := by
  have haccounted : (accountTrip (setEndTime s)).WithinBounds := accountTrip_within (h.of_kept (by simp))
  have hactivated := activationAtClose_within haccounted
  have hleft : (updateShownMode { offerEnded (setOpenFlag false (activationAtClose (accountTrip (setEndTime s)))) with
      trip := none }).WithinBounds := hactivated.of_kept (by simp)
  exact placeDisplay_within (raise_within (setMeter_within hleft .vacant) _)

theorem recordTender_within (kind : TenderKind) (farePart tip : Nat) : (recordTender kind farePart tip s).WithinBounds := by
  unfold recordTender
  dsimp only
  repeat' split
  · exact h
  · exact closeTrip_within (h.of_kept (by simp))
  · exact h.of_kept (by simp)

theorem openTrip_within (t key : Nat) : (openTrip t key s).WithinBounds := by
  have hopened : (firstPeriod (applySurcharge (updateShownMode { s with trip := some (newTrip s t key) }))).WithinBounds :=
    h.of_kept (by simp)
  exact placeDisplay_within (setMeter_within hopened .hired)

@[simp] theorem keyHire_within (src : Station) (arg : Byte) : (keyHire src arg s).WithinBounds := by
  unfold keyHire
  dsimp only
  repeat' split
  case h_2 => exact openTrip_within (h.of_kept (by simp)) _ _
  all_goals exact h.of_kept (by simp)

@[simp] theorem keyStop_within (src : Station) (arg : Byte) : (keyStop src arg s).WithinBounds := by
  unfold keyStop withNoArgument
  dsimp only
  repeat' split
  case h_1.isTrue => exact closeTrip_within (setMeter_within (h.of_kept (by simp)) _)
  case h_1.isFalse => exact offerDue_within (setMeter_within (h.of_kept (by simp)) _)
  all_goals exact h.of_kept (by simp)

@[simp] theorem keyResume_within (src : Station) (arg : Byte) : (keyResume src arg s).WithinBounds := by
  unfold keyResume withNoArgument
  dsimp only
  repeat' split
  case h_1.isTrue => exact placeDisplay_within (runForTrip_within (setMeter_within (h.of_kept (by simp)) _))
  all_goals exact h.of_kept (by simp)

theorem keyTender_within (kind : TenderKind) (src : Station) : (keyTender kind src s).WithinBounds := by
  unfold keyTender
  repeat' split
  case h_1.isFalse => exact recordTender_within (h.of_kept (by simp)) _ _ _
  all_goals exact h.of_kept (by simp)

@[simp] theorem keyCash_within (src : Station) (arg : Byte) : (keyCash src arg s).WithinBounds := by
  unfold keyCash withNoArgument
  split
  · exact keyTender_within h _ _
  · exact h.of_kept (by simp)

@[simp] theorem keyUnpaid_within (src : Station) (arg : Byte) : (keyUnpaid src arg s).WithinBounds := by
  unfold keyUnpaid withNoArgument
  split
  · exact keyTender_within h _ _
  · exact h.of_kept (by simp)

theorem keyMove_within (old new : MeterState) (src : Station) (arg : Byte) : (keyMove old new src arg s).WithinBounds := by
  unfold keyMove withNoArgument
  dsimp only
  repeat' split
  case isTrue.isTrue => exact setMeter_within (h.of_kept (by simp)) _
  all_goals exact h.of_kept (by simp)

theorem keyTalk_within {f : IntercomState → IntercomState} (hf : s.intercom.Within → (f s.intercom).Within)
    (src : Station) : (keyTalk f src s).WithinBounds :=
  changeFloor_within (h.of_kept (by simp)) (by simpa only [reply_keeps] using hf)

@[simp] theorem keyTalkDown_within (src : Station) (arg : Byte) : (keyTalkDown src arg s).WithinBounds := by
  unfold keyTalkDown withNoArgument
  split
  · exact keyTalk_within h (requestFloor_within _) _
  · exact h.of_kept (by simp)

@[simp] theorem keyTalkUp_within (src : Station) (arg : Byte) : (keyTalkUp src arg s).WithinBounds := by
  unfold keyTalkUp withNoArgument
  split
  · exact keyTalk_within h (releaseFloor_within _) _
  · exact h.of_kept (by simp)

@[simp] theorem keyOpenToggle_within (src : Station) (arg : Byte) : (keyOpenToggle src arg s).WithinBounds := by
  unfold keyOpenToggle withNoArgument
  dsimp only
  repeat' split
  all_goals exact h.of_kept (by simp)

theorem takeKey_within (src : Station) (payload : List Byte) : (takeKey src payload s).WithinBounds := by
  unfold takeKey
  split
  · split
    case h_7 | h_8 | h_9 | h_10 => exact keyMove_within h _ _ _ _
    case h_6 | h_11 | h_12 | h_13 | h_17 => exact h.of_kept (by simp)
    all_goals simp [h]
  · exact h.of_kept (by simp)

/-! Payments (10). -/

theorem paySucceeds_within (number : Nat) (ref : Reference) (o : PayOutcome) (kind : TenderKind) (farePart tip : Nat) :
    (paySucceeds number ref o kind farePart tip s).WithinBounds := recordTender_within (h.of_kept (by simp)) _ _ _

omit h in
/-- An offline approval finds a free place in the deferred queue (10 R164). -/
theorem offlineApproves_room {cls amount : Nat} (ha : offlineApproves s cls amount = true) :
    s.pay.deferred.length < Config.deferredCap := by
  simp only [offlineApproves, Bool.and_eq_true, decide_eq_true_eq] at ha
  exact ha.1.2

theorem authExpires_within : (authExpires s).WithinBounds := by
  have hraised := raise_within (endAuth_within h) .authTimeout
  unfold authExpires
  dsimp only
  repeat' split
  · exact h
  · exact joinLate_within (endAuth_within h) _ _
  case isTrue a _ _ ha =>
    have happroved := offlineApprove_within hraised a.ref a.issuer a.cls a.farePart a.tip a.token (offlineApproves_room ha)
    exact captureCheck_within (paySucceeds_within (joinLate_within happroved _ _) _ _ _ _ _ _)
  case isFalse a _ _ _ => exact (joinLate_within hraised a .endedDeclined).of_kept (by simp)

theorem authSecond_within : (authSecond s).WithinBounds := by
  unfold authSecond
  split
  · exact h
  · split
    · exact authExpires_within h
    · exact h.of_kept (by simp)

theorem authResponseTaken_within (number : Nat) (ref : Reference) (approved : Bool) :
    (authResponseTaken number ref approved s).WithinBounds := by
  have hlate : ∀ e : LateEntry, ({ s with pay := { s.pay with late := s.pay.late.erase e } } : State).WithinBounds :=
    fun e =>
      h.of_pay (fun hp => ⟨List.length_erase_le.trans hp.late, hp.deferred⟩) (by simp)
  unfold authResponseTaken
  dsimp only
  split
  · split
    · exact h
    · exact resolveLate_within (hlate _) _ _
  · split
    · repeat' split
      case isTrue.isFalse.isTrue => exact paySucceeds_within (endAuth_within h) _ _ _ _ _ _
      all_goals exact (endAuth_within h).of_kept (by simp)
    · split
      · exact h
      · exact resolveLate_within (hlate _) _ _

theorem takePayRequest_within (src : Station) (payload : List Byte) : (takePayRequest src payload s).WithinBounds := by
  unfold takePayRequest payOnline payOffline
  dsimp only
  repeat' split
  case h_2.isFalse.isTrue ha =>
    exact captureCheck_within (paySucceeds_within
      (offlineApprove_within (reply_within h _ _ _ _) _ _ _ _ _ _ (offlineApproves_room ha)) _ _ _ _ _ _)
  all_goals exact h.of_kept (by simp)

/-! Requests (02 R18). -/

omit h in
/-- Bytes spell a number below the power that their count allows (00, Codes). -/
theorem beNat_lt (l : List Byte) : beNat l < 256 ^ l.length := by
  induction l using List.reverseRecOn with
  | nil => decide
  | append_singleton l b ih =>
    have hb : b.toNat < 256 := b.isLt
    rw [List.length_append, List.length_singleton, Nat.pow_succ, beNat, List.foldl_append]
    change beNat l * 256 + b.toNat < _
    omega

omit h in
theorem fieldAt_lt (l : List Byte) (off len : Nat) : fieldAt l off len < 256 ^ len :=
  (beNat_lt _).trans_le (Nat.pow_le_pow_right (by decide) (List.length_take_le _ _))

theorem takeClockSet_within (src : Station) (payload : List Byte) : (takeClockSet src payload s).WithinBounds := by
  unfold takeClockSet
  dsimp only
  repeat' split
  case isFalse.isFalse hform _ =>
    have hsecond : fieldAt payload 2 3 < Config.daySeconds := Nat.lt_of_not_le fun hle => hform (.inr hle)
    have hday : fieldAt payload 0 2 < Config.dayCount := fieldAt_lt payload 0 2
    exact h.of_time (fun ht => by simpa using ⟨ht.frames, ht.ticks, hsecond, hday, ht.accepted⟩) (by simp)
  all_goals exact h.of_kept (by simp)

theorem takeShiftOpen_within (src : Station) (payload : List Byte) : (takeShiftOpen src payload s).WithinBounds := by
  unfold takeShiftOpen
  dsimp only
  repeat' split
  case isFalse.isFalse.isFalse => exact setMeter_within (h.of_kept (by simp)) _
  all_goals exact h.of_kept (by simp)

theorem takeDispatch_within (src : Station) (payload : List Byte) : (takeDispatch src payload s).WithinBounds := by
  unfold takeDispatch
  repeat' split
  case isFalse.isTrue => exact setMeter_within (h.of_kept (by simp)) _
  all_goals exact h.of_kept (by simp)

theorem takeTableWrite_within (src : Station) (payload : List Byte) : (takeTableWrite src payload s).WithinBounds := by
  unfold takeTableWrite
  split
  · exact h.of_kept (by simp)
  · exact signAfterTable_within (h.of_kept (by simp)) _

theorem takeTableClear_within (src : Station) (payload : List Byte) : (takeTableClear src payload s).WithinBounds := by
  unfold takeTableClear
  dsimp only
  repeat' split
  case h_2.isTrue.isFalse => exact signAfterTable_within (h.of_kept (by simp)) _
  all_goals exact h.of_kept (by simp)

theorem takeEmergencyClear_within (src : Station) (payload : List Byte) :
    (takeEmergencyClear src payload s).WithinBounds := by
  unfold takeEmergencyClear
  repeat' split
  case h_2 => exact emergencyEnds_within (reply_within h _ _ _ _)
  all_goals exact h.of_kept (by simp)

theorem takeCalibrate_within (src : Station) (payload : List Byte) : (takeCalibrate src payload s).WithinBounds := by
  unfold takeCalibrate
  dsimp only
  repeat' split
  all_goals exact h.of_kept (by simp)

theorem takePayCancel_within (src : Station) (payload : List Byte) : (takePayCancel src payload s).WithinBounds := by
  unfold takePayCancel
  dsimp only
  repeat' split
  all_goals exact h.of_kept (by simp)

theorem takeSnapshotTake_within (src : Station) (payload : List Byte) :
    (takeSnapshotTake src payload s).WithinBounds := by
  unfold takeSnapshotTake
  repeat' split
  all_goals exact h.of_kept (by simp)

theorem takeSnapshotRelease_within (src : Station) (payload : List Byte) :
    (takeSnapshotRelease src payload s).WithinBounds := by
  unfold takeSnapshotRelease
  repeat' split
  all_goals exact h.of_kept (by simp)

theorem takeRequest_within (src : Station) (kind : Request) (payload : List Byte) :
    (takeRequest src kind payload s).WithinBounds := by
  cases kind
  all_goals unfold takeRequest
  case key => exact takeKey_within h _ _
  case shiftOpen => exact takeShiftOpen_within h _ _
  case shiftClose => exact takeShiftClose_within h _ _
  case dispatch => exact takeDispatch_within h _ _
  case tableWrite => exact takeTableWrite_within h _ _
  case tableClear => exact takeTableClear_within h _ _
  case tableActivate => exact takeTableActivate_within h _ _
  case calibrate => exact takeCalibrate_within h _ _
  case clockSet => exact takeClockSet_within h _ _
  case emergencyClear => exact takeEmergencyClear_within h _ _
  case payRequest => exact takePayRequest_within h _ _
  case payCancel => exact takePayCancel_within h _ _
  case reportRelease => exact takeReportRelease_within h _ _
  case snapshotTake => exact takeSnapshotTake_within h _ _
  case snapshotRelease => exact takeSnapshotRelease_within h _ _
  all_goals exact h.of_kept (by simp)

/-! Reports, and the dispatcher (02 R19, R22). -/

theorem selectionOccasion_within : (selectionOccasion s).WithinBounds := h.of_kept (by simp)

theorem zoneUpdateTaken_within (zone : Nat) : (zoneUpdateTaken zone s).WithinBounds := by
  unfold zoneUpdateTaken
  split
  · exact h
  · exact selectionOccasion_within (h.of_kept (by simp))

theorem takeReport_within (src : Station) (kind : ReportKind) (payload : List Byte) :
    (takeReport src kind payload s).WithinBounds := by
  cases kind
  all_goals unfold takeReport
  case signStatus => exact signStatusTaken_within h _ _
  case pinState => exact pinStateTaken_within h _
  case modemStatus => exact h.of_kept (by simp)
  case zoneUpdate => exact zoneUpdateTaken_within h _
  case authResponse => exact authResponseTaken_within h _ _ _
  case captureResponse => exact captureResponseTaken_within h _ _
  case talkDown => exact talkDownTaken_within h _
  case talkUp => exact changeFloor_within h (releaseFloor_within _)
  case call => exact h.of_kept (by simp)

theorem handleMessage_within (m : Inbound) : (handleMessage m s).WithinBounds := by
  unfold handleMessage
  repeat' split
  case h_2.isTrue => exact takeRequest_within h _ _ _
  case h_4.isTrue => exact takeReport_within h _ _ _
  all_goals exact h.of_kept (by simp)

omit h in
theorem drain_within (n : Nat) {s : State} (h : s.WithinBounds) : (drain n s).WithinBounds := by
  induction n generalizing s with
  | zero => exact h
  | succ n ih =>
    unfold drain
    repeat' split
    · exact h
    · exact ih (handleMessage_within (h.of_kept (by simp)) _)
    · exact h

theorem dispatchInbound_within : (dispatchInbound s).WithinBounds := drain_within _ h

theorem deliver_within (m : Inbound) : (deliver m s).WithinBounds := by
  unfold deliver
  split
  · exact dispatchInbound_within (h.of_kept (by simp))
  · exact h

/-! The divider and the wall clock (04 R52, R53). -/

theorem hiredSecond_within : (hiredSecond s).WithinBounds := h.of_kept (by simp)

theorem intercomSecond_within : (intercomSecond s).WithinBounds := by
  have hcleared : (clearClipMarks s).WithinBounds := h.of_intercom (fun hi => ⟨hi.hold, hi.pin⟩) (by simp)
  exact pinSecond_within (holdSecond_within hcleared)

theorem captureSecond_within : (captureSecond s).WithinBounds := h.of_kept (by simp)

theorem fareSecondOccurs_within : (fareSecondOccurs s).WithinBounds := by
  have hmeter := hiredSecond_within (windowEnds_within h)
  have hsign := steppingSecond_within (refreshSecond_within hmeter)
  exact authSecond_within (lateSecond_within (captureSecond_within (intercomSecond_within hsign)))

/-- The divider's counts set within their ranges. -/
theorem divider_within {frames ticks : Nat} (hf : frames < Config.framesPerTick) (ht : ticks < Config.ticksPerSecond) :
    ({ s with time := { s.time with divFrames := frames, divTicks := ticks } } : State).WithinBounds :=
  h.of_time (fun k => ⟨hf, ht, k.second, k.day, k.accepted⟩) (by simp)

theorem countTick_within : (countTick s).WithinBounds := by
  unfold countTick
  split
  · exact fareSecondOccurs_within (divider_within h h.frames (by decide))
  case isFalse hn => exact divider_within h h.frames (Nat.lt_of_not_le hn)

theorem tickOccurs_within : (tickOccurs s).WithinBounds := by
  have hfare : (fareTick s).WithinBounds := h.of_kept (by simp)
  exact countTick_within (debounceTick_within hfare)

theorem countFrame_within : (countFrame s).WithinBounds := by
  unfold countFrame
  split
  · exact tickOccurs_within (divider_within h (by decide) h.ticks)
  case isFalse hn => exact divider_within h (Nat.lt_of_not_le hn) h.ticks

theorem boundaryFires_within : (boundaryFires s).WithinBounds := selectionOccasion_within (h.of_kept (by simp))

theorem clockSecondRunning_within : (clockSecondRunning s).WithinBounds := by
  have hclock : (displayIfClockShown s.time { s with time := clockAdvanced s.time }).WithinBounds :=
    (clockAdvanced_within h).of_kept (by simp)
  unfold clockSecondRunning
  dsimp only
  split
  · exact boundaryFires_within hclock
  · exact hclock

/-! The frame (01). -/

theorem setRecord_within (st : Station) (r : StationRecord) : (setRecord st r s).WithinBounds := h.of_kept (by simp)

theorem setReception_within (r : Option Reception) : (setReception r s).WithinBounds := h.of_kept (by simp)

theorem stationFoundActs_within (st : Station) : (stationFoundActs st s).WithinBounds := by
  unfold stationFoundActs
  split
  · exact placeSign_within h
  · exact h

theorem stationLostActs_within (st : Station) : (stationLostActs st s).WithinBounds := by
  cases st
  all_goals unfold stationLostActs
  case cardTerminal => exact pinOff_within h
  case passengerA | passengerB => exact changeFloor_within h (releaseFloor_within _)
  all_goals exact h.of_kept (by simp)

theorem stationAnswers_within (st : Station) : (stationAnswers st s).WithinBounds := by
  rw [stationAnswers_eq]
  split
  · exact setRecord_within h _ _
  · exact onlineAfter_within (stationFoundActs_within (raise_within (setRecord_within h _ _) _) _) _

theorem stationMisses_within (st : Station) : (stationMisses st s).WithinBounds := by
  rw [stationMisses_eq]
  split
  · exact stationLostActs_within (raiseIf_within (setRecord_within h _ _) _ _) _
  · exact setRecord_within h _ _

theorem stationTruncates_within (st : Station) : (stationTruncates st s).WithinBounds :=
  raise_within (stationMisses_within (setRecord_within h _ _) st) _

theorem receptionAdvances_within (st : Station) (l : List Byte) : (receptionAdvances st l s).WithinBounds :=
  h.of_kept (by simp)

theorem readUpLane_within (grant : Option Station) (up : UpFrame) : (readUpLane grant up s).WithinBounds := by
  unfold readUpLane
  repeat' split
  · exact receptionAdvances_within h _ _
  · exact stationTruncates_within (setReception_within h _) _
  · exact h
  · exact setReception_within (stationAnswers_within h _) _
  · exact stationAnswers_within h _
  · exact stationMisses_within h _

theorem frameRuns_within (up : UpFrame) : (frameRuns up s).WithinBounds := by
  have hread : (frameRead up s).WithinBounds := readUpLane_within (dispatchInbound_within (h.of_kept (by simp))) _ _
  rw [frameRuns_eq]
  exact countFrame_within (dispatchInbound_within (hread.of_kept (by simp)))

/-! The starts, and every command. -/

omit h in
/-- A debounce that a start begins for an asserted line stands at 0 (08 R136). -/
theorem startDebounce_within (c : Prop) [Decidable c] :
    ∀ n, (if c then some 0 else none : Option Nat) = some n → n < Config.debounceTicks := by
  intro n e
  split at e <;> cases e
  decide

omit h in
theorem coldStarts_within (s : State) : (coldStarts s).WithinBounds := by
  rw [coldStarts_eq]
  exact (debounce_within reset_withinBounds (startDebounce_within (s.emgLine = true))).of_kept (by simp)

theorem warmPayment_within : (warmPayment s).WithinBounds := by
  have hpay : ∀ {t : State}, t.WithinBounds →
      ({ t with pay := { t.pay with capture := .idle, bearerUp := false } } : State).WithinBounds :=
    fun ht => ht.of_kept (by simp)
  unfold warmPayment
  dsimp only
  split
  · exact hpay h
  · exact hpay (joinLate_within (endAuth_within h) _ _)

theorem startTimebase_within : (startTimebase s).WithinBounds := by
  unfold startTimebase
  exact h.of_time (fun ht => by simpa [beginWindow] using ⟨ht.second, ht.day⟩) (by simp)

theorem startSign_within : (startSign s).WithinBounds := by
  have hc := startDebounce_within (s.sign.emergency = none ∧ s.emgLine = true)
  unfold startSign
  exact h.of_sign (fun _ => ⟨hc, by simp, by simp⟩) (by simp)

theorem startShownMode_within : (startShownMode s).WithinBounds := by
  unfold startShownMode
  exact h.of_kept (by simp)

theorem warmBase_within : (warmBase s).WithinBounds := by
  unfold warmBase
  refine startShownMode_within (startSign_within (startTimebase_within (warmPayment_within ?_)))
  unfold startLink
  exact h.of_intercom (fun _ => ⟨nofun, nofun⟩) (by simp)

theorem powerBreak_within : (powerBreak s).WithinBounds := by
  unfold powerBreak
  split
  · exact h.of_kept (by simp)
  · exact h

theorem warmStarts_within : (warmStarts s).WithinBounds := by
  have hbroken := powerBreak_within (warmBase_within h)
  exact placeSign_within (placeDisplay_within (selectionOccasion_within hbroken))

theorem supplyLost_within : (supplyLost s).WithinBounds := by
  unfold supplyLost
  exact h.of_kept (by simp)

omit h in
theorem ite_within {c : Prop} [Decidable c] {t u : State} (ht : t.WithinBounds) (hu : u.WithinBounds) :
    (if c then t else u).WithinBounds := by
  split
  · exact ht
  · exact hu

theorem sensed_within (c : Instr) : (sensed c s).WithinBounds := by
  have hlevel : sensed c s = { s with calLine := (sensed c s).calLine } := by cases c <;> rfl
  rw [hlevel]
  exact h.of_kept (by simp)

/-- Every command keeps the capacities and count ranges. -/
theorem exec_within (c : Instr) {t : State} (e : exec c s = .next t) : t.WithinBounds := by
  cases hm : messageOf c with
  | some m =>
    rw [exec_deliver c m s hm, Host.Outcome.next.injEq] at e
    exact e ▸ ite_within (deliver_within (sensed_within h c) m) (sensed_within h c)
  | none =>
    cases c <;> simp only [messageOf, reduceCtorEq] at hm
    all_goals obtain rfl := Host.Outcome.next.inj e
    case coldStart => exact coldStarts_within s
    case warmStart => exact warmStarts_within h
    case mainSupplyLoss => exact supplyLost_within h
    case wallClockSecond => exact ite_within (clockSecondRunning_within h) (clockAdvanced_within h)
    case emergencyLineAssert => exact ite_within (lineAsserted_within (h.of_kept (by simp))) (h.of_kept (by simp))
    case emergencyLineRelease => exact ite_within (lineReleased_within (h.of_kept (by simp))) (h.of_kept (by simp))
    case frame => exact ite_within (frameRuns_within (h.of_kept (by simp)) _) (h.of_kept (by simp))
    all_goals refine ite_within ?_ h
    case tick => exact tickOccurs_within (divider_within h (by decide) h.ticks)
    case fareSecond => exact fareSecondOccurs_within (divider_within h (by decide) (by decide))
    case odometerPulse => exact pulseArrives_within h
    case distanceExpiry | timeExpiry => exact h.of_kept (by simp)
    case boundaryAlarm => exact boundaryFires_within h
    case emergencyDebounceComplete => exact debounceCompletes_within h
    case signRefreshDue => exact placeSign_within h
    case brightnessStep => exact brightnessStep_within h
    case talkHoldExpiry => exact holdExpires_within h
    case pinEntryTimeout => exact pinOff_within h
    case authTimerExpiry => exact authExpires_within h
    case lateEntryExpiry => exact lateExpires_within h _
    case captureExpiry | captureWaitEnd => exact h.of_kept (by simp)

end

/-- Settles O6: a step is the front command, and every command keeps the bounds. -/
theorem stepKeepsWithinBounds : Obligations.StepKeepsWithinBounds := by
  intro s t h e
  cases hp : s.pending with
  | nil =>
    rw [step_nil s hp, Host.Outcome.next.injEq] at e
    exact e ▸ h
  | cons c rest =>
    rw [step_cons s c rest hp] at e
    exact exec_within (s := { s with pending := rest }) (h.of_kept (by simp)) c e

end Sys2Proof.Machine
end

