-- ==== Sys2Proof/Proofs/Clock.lean ====
section
/-! PROOF. CALIBRATE (04 R47), CLOCK SET (04 R54) and the wall-clock second (04 R53, R59). -/

namespace Sys2Proof.Machine

/-! CALIBRATE (04 R47): its tests in order. -/

section

variable {s : State} (hs : s.Ready) (src : Station)

include hs

theorem takeCalibrate_malformed {payload : List Byte} (h : payload.length ≠ 2) :
    takeCalibrate src payload s = s.answered src 12#8 .badValue [] := by
  rw [← refuse_answered _ _ _ _ hs]
  exact if_pos h

/-- The tests of a CALIBRATE of the right length. -/
theorem takeCalibrate_eq (hi lo : Byte) :
    takeCalibrate src [hi, lo] s =
      if s.calLine = false then s.answered src 12#8 .calibrationLocked []
      else if s.meter ≠ .closed then s.answered src 12#8 .refusedState []
      else if hi.toNat * 256 + lo.toNat < 200 ∨ 50000 < hi.toNat * 256 + lo.toNat then s.answered src 12#8 .badValue []
      else { s.answered src 12#8 .ok (beBytes 2 s.time.k ++ beBytes 4 s.time.lifetime) with
        time := { s.time with k := hi.toNat * 256 + lo.toNat } } := by
  have hk : beNat [hi, lo] = hi.toNat * 256 + lo.toNat := by simp [beNat]
  simp only [← refuse_answered _ _ _ _ hs, ← reply_answered _ _ _ _ _ hs, ← hk]
  rw [takeCalibrate, if_neg (by simp)]
  simp only [reply_keeps]
  rfl

end

/-- Settles O23: the request is permitted to both stations, and its tests answer in order. -/
theorem calibrateSetsK : Obligations.CalibrateSetsK := by
  intro s src cal hs hsrc sensed answer
  have hsensed : sensed.Ready := ⟨hs.running, hs.inbound, hs.held, hs.room⟩
  have hexec : ∀ {payload t}, takeCalibrate src payload sensed = t → exec (.calibrate src cal payload) s = .next t := by
    intro payload t ht
    have hpermitted : mayRequest src .calibrate = true := by rcases hsrc with rfl | rfl <;> decide
    exact ht ▸ exec_permitted (r := .calibrate) rfl hs hpermitted
  refine ⟨fun payload h => hexec (takeCalibrate_malformed hsensed src h), ?_⟩
  intro hi lo k
  have htests := takeCalibrate_eq hsensed src hi lo
  refine ⟨fun hcal => hexec ?_, fun hcal hm => hexec ?_, fun hcal hm hk => hexec ?_, fun hcal hm hlo hhi => hexec ?_⟩
  · rw [htests, if_pos hcal]
  · rw [htests, if_neg (by simp [sensed, hcal]), if_pos hm]
  · rw [htests, if_neg (by simp [sensed, hcal]), if_neg (not_not.mpr hm), if_pos hk]
  · rw [htests, if_neg (by simp [sensed, hcal]), if_neg (not_not.mpr hm), if_neg (by omega)]

/-! CLOCK SET (04 R54). -/

/-- The fields of a CLOCK SET of the right length. -/
theorem clockSet_fields (d1 d0 t2 t1 t0 : Byte) :
    fieldAt [d1, d0, t2, t1, t0] 0 2 = d1.toNat * 256 + d0.toNat ∧
      fieldAt [d1, d0, t2, t1, t0] 2 3 = t2.toNat * 65536 + t1.toNat * 256 + t0.toNat := by
  simp only [fieldAt, beNat, List.drop, List.take, List.foldl]
  omega

/-- The clock set to a day and a second of day (04 R54). -/
def TimeState.setTo (t : TimeState) (day second : Nat) : TimeState :=
  { t with day := day, second := second, subSecond := 0, clockUnset := false }

section

variable {s : State} (hs : s.Ready) (src : Station)

include hs

theorem takeClockSet_malformed {payload : List Byte} (h : payload.length ≠ 5) :
    takeClockSet src payload s = s.answered src 13#8 .badValue [] := by
  rw [← refuse_answered _ _ _ _ hs]
  exact if_pos (.inl h)

/-- The tests of a CLOCK SET of the right length. -/
theorem takeClockSet_eq {d1 d0 t2 t1 t0 : Byte} {day second : Nat} (hd : day = d1.toNat * 256 + d0.toNat)
    (ht : second = t2.toNat * 65536 + t1.toNat * 256 + t0.toNat) :
    takeClockSet src [d1, d0, t2, t1, t0] s =
      if 86400 ≤ second then s.answered src 13#8 .badValue []
      else if inTrip s then s.answered src 13#8 .refusedState []
      else displayIfClockShown s.time (recomputeCalendar
        { s.answered src 13#8 .ok (beBytes 2 s.time.day ++ beBytes 3 s.time.second) with
          time := s.time.setTo day second }) := by
  obtain ⟨hday, hsecond⟩ := clockSet_fields d1 d0 t2 t1 t0
  simp only [← refuse_answered _ _ _ _ hs, ← reply_answered _ _ _ _ _ hs, hd, ht, ← hday, ← hsecond]
  have hlength : ∀ p : Prop, ([d1, d0, t2, t1, t0].length ≠ 5 ∨ p) = p := by simp
  rw [takeClockSet]
  simp only [hlength, reply_keeps]
  rfl

end

/-- A DISPLAY placed for the clock is no occurrence (07 R123). -/
theorem State.Sends.clockShown {s t : State} {es : List Event} {ms : List Outbound} (h : s.Sends t es ms)
    (before : TimeState) : s.Sends (displayIfClockShown before t) es ms := by
  unfold displayIfClockShown
  split
  · exact h
  · exact h.display

/-- What the DISPLAY of the clock does to the refresh places (07 R123, log 18). -/
theorem displayIfClockShown_places (before : TimeState) (s : State) :
    (displayIfClockShown before s).link.signPlace = s.link.signPlace ∧
      (if before.second / 60 = s.time.second / 60 ∧ before.clockUnset = s.time.clockUnset then
        (displayIfClockShown before s).link.displayPlace = s.link.displayPlace
      else (displayIfClockShown before s).Shows) := by
  unfold displayIfClockShown
  split
  · exact ⟨rfl, rfl⟩
  · exact ⟨rfl, placeDisplay_shows s⟩

/-- Settles O24: the tests in order, and the clock set after the REPLY as one handling. -/
theorem clockSetSetsClock : Obligations.ClockSetSetsClock := by
  have hexec : ∀ {s payload t}, s.Ready → takeClockSet .fleetModem payload s = t →
      exec (.clockSet .fleetModem payload) s = .next t :=
    fun hs ht => ht ▸ exec_permitted (r := .clockSet) rfl hs rfl
  refine ⟨fun s payload hs h => hexec hs (takeClockSet_malformed hs _ h), ?_⟩
  intro s d1 d0 t2 t1 t0 hs day second command
  have htests := takeClockSet_eq hs .fleetModem (day := day) (second := second) (d1 := d1) (d0 := d0) (t2 := t2) (t1 := t1)
    (t0 := t0) rfl rfl
  refine ⟨fun h => hexec hs ?_, fun h hm => hexec hs ?_, fun h h1 h2 => ?_⟩
  · rw [htests, if_pos h]
  · rw [htests, if_neg (Nat.not_le.mpr h), if_pos (by simpa [inTrip] using hm)]
  · rw [if_neg (Nat.not_le.mpr h), if_neg (by simp [inTrip, h1, h2])] at htests
    obtain ⟨hsign, hdisplay⟩ := displayIfClockShown_places s.time (recomputeCalendar
      { s.answered .fleetModem 13#8 .ok (beBytes 2 s.time.day ++ beBytes 3 s.time.second) with
        time := s.time.setTo day second })
    refine ⟨_, hexec hs htests, hsign, ?_, hdisplay⟩
    have hreply := (State.Sends.refl hs.orderly).replied .fleetModem 13#8 .ok
      (beBytes 2 s.time.day ++ beBytes 3 s.time.second)
    rw [reply_answered _ _ _ _ _ hs] at hreply
    exact ((hreply.time (s.time.setTo day second)).recomputed.clockShown s.time).occurs

/-! The wall-clock second (04 R53, R59). -/

theorem clockAdvanced_eq {t : TimeState} (h : t.second < 86400) :
    clockAdvanced t =
      if t.second = 86399 then { t with second := 0, day := (t.day + 1) % 65536, subSecond := 0 }
      else { t with second := t.second + 1, subSecond := 0 } := by
  have hlast : Config.daySeconds ≤ t.second + 1 ↔ t.second = 86399 := by
    change 86400 ≤ t.second + 1 ↔ _
    omega
  simp only [clockAdvanced, hlast]

/-- The minute of day changes exactly with the last second of a minute (07 R123). -/
theorem displayIfClockShown_advanced (s : State) (h : s.time.second < 86400) :
    displayIfClockShown s.time { s with time := clockAdvanced s.time } =
      if s.time.second % 60 = 59 then placeDisplay { s with time := clockAdvanced s.time }
      else { s with time := clockAdvanced s.time } := by
  have hunset : s.time.clockUnset = (clockAdvanced s.time).clockUnset := by
    rw [clockAdvanced_eq h]
    split <;> rfl
  have hminute : s.time.second / 60 = (clockAdvanced s.time).second / 60 ↔ ¬s.time.second % 60 = 59 := by
    rw [clockAdvanced_eq h]
    split
    · dsimp only
      omega
    · dsimp only
      omega
  unfold displayIfClockShown
  dsimp only
  simp only [hminute, ← hunset, and_true, ite_not]

/-- Settles O25: the clock by `clockAdvanced_eq`, the DISPLAY by the minute, and the alarm as BOUNDARY_ALARM. -/
theorem clockSecondAdvances : Obligations.ClockSecondAdvances := by
  intro s h time
  have htime : clockAdvanced s.time = time := clockAdvanced_eq h
  have hshown := displayIfClockShown_advanced s h
  rw [htime] at hshown
  have halarm : atAlarm (displayIfClockShown s.time { s with time := time }).time = true ↔
      time.day = s.time.alarmDay ∧ time.second = s.time.alarmSecond := by
    have hkept : time.alarmDay = s.time.alarmDay ∧ time.alarmSecond = s.time.alarmSecond := by
      simp only [time]
      split <;> exact ⟨rfl, rfl⟩
    simp [atAlarm, hkept]
  have hrunning : s.running = true → exec .wallClockSecond s = .next (if atAlarm
      (displayIfClockShown s.time { s with time := time }).time then
        boundaryFires (displayIfClockShown s.time { s with time := time })
      else displayIfClockShown s.time { s with time := time }) := by
    intro hr
    rw [← htime]
    exact congrArg _ (if_pos hr)
  refine ⟨fun hr => ?_, fun hr hn => ?_, fun hr hd hsec => ?_⟩
  · rw [← htime]
    exact congrArg _ (if_neg (by simp [hr]))
  · rw [hrunning hr, if_neg (halarm.not.mpr hn), hshown]
  · rw [hrunning hr, if_pos (halarm.mpr ⟨hd, hsec⟩), ← hshown]
    exact (congrArg _ (if_pos (by simpa using hr))).symm

end Sys2Proof.Machine
end

