-- ==== Sys2Proof/Proofs/Odometer.lean ====
section
/-! PROOF. The odometer pulse (04 R49): at the window, at the fare engine (06 R86) and at the open shift (11 R179). -/

namespace Sys2Proof.Machine

/-! At the fare engine (06 R86). -/

/-- A pulse counted in the trip. -/
def Trip.pulsed (tr : Trip) : Trip := { tr with pulses := min 4294967295 (tr.pulses + 1) }

theorem farePulse_idle {s : State} (h : s.meter ≠ .hired) : farePulse s = s := by
  unfold farePulse
  split
  case h_1 hm _ => exact absurd hm h
  case h_2 => rfl

section

variable {s : State} {tr : Trip} (hm : s.meter = .hired) (ht : s.trip = some tr)

include hm ht

theorem farePulse_inactive (hd : tr.dc = none) : farePulse s = { s with trip := some tr.pulsed } := by
  simp [farePulse, hm, ht, hd, withTrip, satAdd, Trip.pulsed]

theorem farePulse_counts {n : Nat} (hd : tr.dc = some (n + 2)) :
    farePulse s = { s with trip := some { tr.pulsed with dc := some (n + 1) } } := by
  simp [farePulse, hm, ht, hd, withTrip, satAdd, Trip.pulsed]

theorem farePulse_expires (hd : tr.dc = some 1) :
    farePulse s = expire .distance { s with trip := some tr.pulsed } := by
  simp [farePulse, hm, ht, hd, withTrip, satAdd, Trip.pulsed]

end

/-! At the open shift (11 R179). -/

theorem shiftPulse_hired {s : State} (h : s.meter = .hired) :
    shiftPulse s = { s with shifts := { s.shifts with record := s.shifts.record.map fun r =>
      { r with totalPulses := min 4294967295 (r.totalPulses + 1)
               paidPulses := min 4294967295 (r.paidPulses + 1) } } } := by
  simp [shiftPulse, withShift, h, up32, satAdd]

theorem shiftPulse_idle {s : State} (h : s.meter ≠ .hired) :
    shiftPulse s = { s with shifts := { s.shifts with record := s.shifts.record.map fun r =>
      { r with totalPulses := min 4294967295 (r.totalPulses + 1) } } } := by
  simp [shiftPulse, withShift, h, up32, satAdd]

/-! At the window (04 R49). -/

/-- A pulse counted to the lifetime odometer. -/
def TimeState.counted (t : TimeState) : TimeState := { t with lifetime := min 4294967295 (t.lifetime + 1) }

/-- A pulse accepted in the window. -/
def TimeState.pulsed (t : TimeState) : TimeState := { t.counted with accepted := t.accepted + 1 }

theorem pulseArrives_unmeasured {s : State} (h : s.time.windowK = 0) :
    pulseArrives s = { s with time := s.time.counted } := if_pos h

theorem pulseArrives_accepted {s : State} (h : s.time.windowK ≠ 0) (ha : s.time.accepted < s.time.budget) :
    pulseArrives s = shiftPulse (farePulse { s with time := s.time.pulsed }) := (if_neg h).trans (if_pos ha)

theorem pulseArrives_rejected {s : State} (h : s.time.windowK ≠ 0) (ha : s.time.budget ≤ s.time.accepted) :
    pulseArrives s =
      if s.time.clampMark then s else raise .odoClamp { s with time := { s.time with clampMark := true } } :=
  (if_neg h).trans (if_neg (Nat.not_lt.mpr ha))

/-- Settles O26: the window's three branches, the accepted pulse by what the fare engine does with it. -/
theorem odometerPulseOutcomes : Obligations.OdometerPulseOutcomes := by
  intro s hr counted accepted shifted
  have hexec : exec .odometerPulse s = .next (pulseArrives s) := congrArg _ (if_pos hr)
  rw [hexec]
  refine ⟨fun hk => congrArg _ (pulseArrives_unmeasured hk), fun hk ha => ?_, fun hk ha => ?_⟩
  · rw [pulseArrives_accepted hk ha]
    refine ⟨fun hm => ?_, fun tr hm ht => ?_⟩
    · rw [farePulse_idle (by exact hm), shiftPulse_idle (by exact hm)]
      rfl
    refine ⟨fun hd => ?_, fun n hd => ?_, fun hd => ?_⟩
    · rw [farePulse_inactive (by exact hm) (by exact ht) hd, shiftPulse_hired (by exact hm)]
      rfl
    · rw [farePulse_counts (by exact hm) (by exact ht) hd, shiftPulse_hired (by exact hm)]
      rfl
    · rw [farePulse_expires (by exact hm) (by exact ht) hd]
      rfl
  · rw [pulseArrives_rejected hk ha]
    refine ⟨fun hc => congrArg _ (if_pos hc), fun hc ho => ⟨_, congrArg _ (if_neg (by simp [hc])), ?_, ?_⟩⟩
    · exact raise_placesFollow _ _
    · exact raise_occurs _ _ ho

end Sys2Proof.Machine
end

