-- ==== Sys2Proof/Proofs/Divider.lean ====
section
/-! PROOF. The tick (04 R52): the time counter (06 R87), the debounce count (08 R129) and the tick count. -/

namespace Sys2Proof.Machine

/-! At the fare engine (06 R87). -/

theorem fareTick_idle {s : State} (h : s.meter ≠ .hired) : fareTick s = s := by
  unfold fareTick
  split
  case h_1 hm _ => exact absurd hm h
  case h_2 => rfl

section

variable {s : State} {tr : Trip} (hm : s.meter = .hired) (ht : s.trip = some tr)

include hm ht

theorem fareTick_inactive (hc : tr.tc = none) : fareTick s = s := by
  simp [fareTick, hm, ht, hc]

theorem fareTick_counts {n : Nat} (hc : tr.tc = some (n + 2)) :
    fareTick s = { s with trip := some { tr with tc := some (n + 1) } } := by
  simp [fareTick, hm, ht, hc, withTrip]

/-- The tick that brings the time counter to 0 is its expiry. -/
theorem fareTick_expires (hc : tr.tc = some 1) : fareTick s = sideExpires .time s := by
  simp [fareTick, sideExpires, hm, ht, hc]

end

/-! At the debounce count (08 R129). -/

theorem debounceTick_idle {s : State} (h : s.sign.emergency ≠ none ∨ s.sign.debounce = none ∨ s.emgLine = false) :
    debounceTick s = s := by
  unfold debounceTick
  split
  case h_1 he hd => simp_all
  case h_2 => rfl

section

variable {s : State} {n : Nat} (he : s.sign.emergency = none) (hd : s.sign.debounce = some n) (hl : s.emgLine = true)

include he hd hl

theorem debounceTick_counts (hn : n + 1 < 20) :
    debounceTick s = { s with sign := { s.sign with debounce := some (n + 1) } } := by
  simp [debounceTick, he, hd, hl, Nat.not_le.mpr hn]

/-- The twentieth tick completes the debounce. -/
theorem debounceTick_due (hn : 20 ≤ n + 1) : debounceTick s = debounceCompletes s := by
  simp [debounceTick, debounceCompletes, he, hd, hl, hn]

end

/-! The tick count (04 R52). -/

theorem countTick_counts {s : State} (h : s.time.divTicks + 1 < 10) :
    countTick s = { s with time := { s.time with divTicks := s.time.divTicks + 1 } } := if_neg (Nat.not_le.mpr h)

theorem countTick_due {s : State} (h : 10 ≤ s.time.divTicks + 1) :
    countTick s = fareSecondOccurs { s with time := { s.time with divTicks := 0 } } := if_pos h

/-- Settles O27: the three parts of a tick, each by its rule. -/
theorem tickCounts : Obligations.TickCounts := by
  intro s hr started
  obtain ⟨-, hurun, huline, -, -, hutime, -, husign, -, -⟩ := fareTick_keeps started
  obtain ⟨-, hvrun, -, -, -, hvtime, -, -, -, -⟩ := debounceTick_keeps (fareTick started)
  rw [hutime] at hvtime
  refine ⟨countTick (debounceTick (fareTick started)), fareTick started, debounceTick (fareTick started),
    congrArg _ (if_pos hr), fun hm => fareTick_idle hm, fun tr hm ht => ?_, fun h => ?_, fun n he hd hl => ?_,
    hvtime, fun h => ?_, fun h => ?_⟩
  · have hmeter : started.meter = .hired := hm
    have htrip : started.trip = some tr := ht
    refine ⟨fareTick_inactive hmeter htrip, fun n hc => fareTick_counts hmeter htrip hc, fun hc => ?_⟩
    rw [fareTick_expires hmeter htrip hc]
    exact congrArg _ (if_pos hr)
  · exact debounceTick_idle (by rwa [husign, huline])
  · rw [← husign] at he hd
    have huline := huline.trans hl
    refine ⟨fun hn => ?_, fun hn => ?_⟩
    · rw [debounceTick_counts he hd huline hn, husign]
    · rw [debounceTick_due he hd huline hn]
      exact congrArg _ (if_pos (hurun.trans hr))
  · rw [countTick_counts (by rwa [hvtime]), hvtime]
  · rw [countTick_due (by rwa [hvtime])]
    have hexec : exec .fareSecond (debounceTick (fareTick started)) = .next (fareSecondOccurs
        { debounceTick (fareTick started) with
          time := { (debounceTick (fareTick started)).time with divFrames := 0, divTicks := 0 } }) :=
      congrArg _ (if_pos (hvrun.trans (hurun.trans hr)))
    rw [hexec, hvtime]

end Sys2Proof.Machine
end

