-- ==== Sys2Proof/Proofs/FareSecond.lean ====
section
/-! PROOF. The fare second (04 R52): the window, the hired seconds and each block's counts. -/

namespace Sys2Proof.Machine

/-! The end of a window (04 R48, R50). -/

/-- The divider starts again at a fare second (04 R52). -/
def restarted (s : State) : State := { s with time := { s.time with divFrames := 0, divTicks := 0 } }

/-- The window that begins, with the speed of the one that ended, at a fare second. -/
def windowed (s : State) : State :=
  { s with time := { s.time with
    divFrames := 0, divTicks := 0, speed := windowSpeed s.time, windowK := s.time.k, accepted := 0, clampMark := false
    budget := windowBudget (vmaxSetting s.tables.unbanked) s.time.k } }

/-- The DISPLAY shows the speed of the window that ended, and nothing of the one that begins. -/
theorem windowEnds_eq (s : State) :
    windowEnds (restarted s) =
      if windowSpeed s.time = s.time.speed then windowed s else placeDisplay (windowed s) := by
  by_cases h : windowSpeed s.time = s.time.speed
  · rw [if_pos h]
    exact congrArg beginWindow (if_pos h)
  · rw [if_neg h]
    exact (congrArg beginWindow (if_neg h)).trans rfl

@[simp] theorem windowEnds_time (s : State) :
    (windowEnds (restarted s)).time = (windowed s).time := by
  rw [windowEnds_eq]
  split <;> rfl

/-- What the end of a window leaves alone, and the DISPLAY of a changed speed. -/
theorem windowEnds_leaves (s : State) :
    (windowEnds (restarted s)).link.waiting = s.link.waiting ∧
      (windowSpeed s.time ≠ s.time.speed → (windowEnds (restarted s)).Shows) := by
  rw [windowEnds_eq]
  split
  case isTrue h => exact ⟨rfl, fun hn => absurd h hn⟩
  case isFalse => exact ⟨rfl, fun _ => placeDisplay_shows _⟩

/-! At the meter controller (07 R115). -/

theorem hiredSecond_windowEnds (s : State) :
    hiredSecond (windowEnds s) =
      if s.meter = .hired then
        placeDisplay { windowEnds s with
          trip := s.trip.map fun tr => { tr with hiredSeconds := min 4294967295 (tr.hiredSeconds + 1) } }
      else windowEnds s := by
  obtain ⟨-, -, -, -, -, -, hmeter, htrip, -⟩ := windowEnds_keeps s
  rw [← hmeter, ← htrip]
  rfl

/-! At the sign controller (08 R128, R134). -/

section

variable {s : State}

theorem refreshSecond_counts (h : s.sign.refresh + 1 < 5) :
    refreshSecond s = { s with sign := { s.sign with refresh := s.sign.refresh + 1 } } := if_neg (Nat.not_le.mpr h)

theorem refreshSecond_due (h : 5 ≤ s.sign.refresh + 1) : refreshSecond s = signRefreshDue s := if_pos h

theorem steppingSecond_counts (h : s.sign.stepping + 1 < 2) :
    steppingSecond s = { s with sign := { s.sign with stepping := s.sign.stepping + 1 } } := if_neg (Nat.not_le.mpr h)

theorem steppingSecond_due (h : 2 ≤ s.sign.stepping + 1) : steppingSecond s = brightnessStep s := if_pos h

/-- What a fare second at the refresh count leaves, and the SIGN SET of a refresh due. -/
theorem refreshSecond_leaves (s : State) :
    (refreshSecond s).sign.stepping = s.sign.stepping ∧
      (refreshSecond s).sign.refresh = (if 5 ≤ s.sign.refresh + 1 then 0 else s.sign.refresh + 1) ∧
      (refreshSecond s).link.waiting = s.link.waiting ∧ (5 ≤ s.sign.refresh + 1 → (refreshSecond s).Signs) ∧
      (s.Shows → (refreshSecond s).Shows) := by
  rcases Nat.lt_or_ge (s.sign.refresh + 1) 5 with h | h
  · rw [refreshSecond_counts h, if_neg (Nat.not_le.mpr h)]
    exact ⟨rfl, rfl, rfl, fun hd => absurd hd (Nat.not_le.mpr h), id⟩
  · rw [refreshSecond_due h, if_pos h]
    exact ⟨rfl, rfl, rfl, fun _ => placeSign_signs s, id⟩

/-! At the intercom mixer (09 R147, R152). -/

theorem holdSecond_free (h : s.intercom.floor = none) : holdSecond s = s := by
  simp [holdSecond, h]

theorem holdSecond_counts {x : FloorHold} (h : s.intercom.floor = some x) (hx : x.count + 1 < 30) :
    holdSecond s = { s with intercom := { s.intercom with floor := some ⟨x.party, x.count + 1⟩ } } := by
  simp [holdSecond, h, Nat.not_le.mpr hx]

theorem holdSecond_due {x : FloorHold} (h : s.intercom.floor = some x) (hx : 30 ≤ x.count + 1) :
    holdSecond s = holdExpires s := by
  simp [holdSecond, h, hx]

theorem pinSecond_off (h : s.intercom.pin = none) : pinSecond s = s := by
  simp [pinSecond, h]

theorem pinSecond_counts {n : Nat} (h : s.intercom.pin = some n) (hn : n + 1 < 60) :
    pinSecond s = { s with intercom := { s.intercom with pin := some (n + 1) } } := by
  simp [pinSecond, h, Nat.not_le.mpr hn]

theorem pinSecond_due {n : Nat} (h : s.intercom.pin = some n) (hn : 60 ≤ n + 1) : pinSecond s = pinOff s := by
  simp [pinSecond, h, hn]

/-! At the payment controller (10 R160, R166, R170, R172). -/

theorem captureSecond_idle (h : s.pay.capture = .idle) : captureSecond s = s := by
  simp [captureSecond, h]

theorem captureSecond_counts_inFlight {ref : Reference} {n limit : Nat} (h : s.pay.capture = .inFlight ref n limit)
    (hn : n + 1 < limit) :
    captureSecond s = { s with pay := { s.pay with capture := .inFlight ref (n + 1) limit } } := by
  simp [captureSecond, h, Nat.not_le.mpr hn, setCapture]

theorem captureSecond_expires {ref : Reference} {n limit : Nat} (h : s.pay.capture = .inFlight ref n limit)
    (hn : limit ≤ n + 1) : captureSecond s = captureExpires s := by
  simp [captureSecond, h, hn]

theorem captureSecond_counts_waiting {n interval : Nat} (h : s.pay.capture = .waiting n interval)
    (hn : n + 1 < interval) :
    captureSecond s = { s with pay := { s.pay with capture := .waiting (n + 1) interval } } := by
  simp [captureSecond, h, Nat.not_le.mpr hn, setCapture]

theorem captureSecond_ends {n interval : Nat} (h : s.pay.capture = .waiting n interval)
    (hn : interval ≤ n + 1) : captureSecond s = captureWaitEnds s := by
  simp [captureSecond, h, hn]

theorem captureCheck_auth (s : State) : (captureCheck s).pay.auth = s.pay.auth := by
  unfold captureCheck
  repeat' split
  all_goals simp [setCapture]

/-- A capture is apart from the pending authorization. -/
theorem captureSecond_auth (s : State) : (captureSecond s).pay.auth = s.pay.auth := by
  cases h : s.pay.capture with
  | idle => rw [captureSecond_idle h]
  | inFlight ref n limit =>
    rcases Nat.lt_or_ge (n + 1) limit with hn | hn
    · rw [captureSecond_counts_inFlight h hn]
    · rw [captureSecond_expires h hn]
      simp [captureExpires, h, setCapture]
  | waiting n interval =>
    rcases Nat.lt_or_ge (n + 1) interval with hn | hn
    · rw [captureSecond_counts_waiting h hn]
    · rw [captureSecond_ends h hn]
      simp [captureWaitEnds, h, captureCheck_auth, setCapture]

theorem authSecond_none (h : s.pay.auth = none) : authSecond s = s := by
  simp [authSecond, h]

theorem authSecond_counts {x : Auth} (h : s.pay.auth = some x) (hx : x.count + 1 < x.timeout) :
    authSecond s = { s with pay := { s.pay with auth := some { x with count := x.count + 1 } } } := by
  simp [authSecond, h, Nat.not_le.mpr hx]

theorem authSecond_due {x : Auth} (h : s.pay.auth = some x) (hx : x.timeout ≤ x.count + 1) :
    authSecond s = authExpires s := by
  simp [authSecond, h, hx]

end

/-- A fare second at the PIN count is about that count alone. -/
theorem pinSecond_eq (s : State) :
    pinSecond s = { s with intercom := { s.intercom with
      pin := s.intercom.pin.bind fun n => if 60 ≤ n + 1 then none else some (n + 1) } } := by
  cases h : s.intercom.pin with
  | none =>
    rw [pinSecond_off h, Option.bind_none, ← h]
  | some n =>
    rcases Nat.lt_or_ge (n + 1) 60 with hn | hn
    · rw [pinSecond_counts h hn, Option.bind_some, if_neg (Nat.not_le.mpr hn)]
    · rw [pinSecond_due h hn, Option.bind_some, if_pos hn, pinOff]

theorem pinSecond_shows {s : State} (h : s.Shows) : (pinSecond s).Shows := by
  rw [pinSecond_eq]
  exact h.trans (congrArg _ (congrArg _ (displayPayload_intercom s _ rfl).symm))

theorem lateSecond_shows {s : State} (h : s.Shows) : (lateSecond s).Shows := h

theorem clearClipMarks_shows {s : State} (h : s.Shows) : (clearClipMarks s).Shows :=
  h.trans (congrArg _ (congrArg _ (displayPayload_intercom s _ rfl).symm))

/-! What the floor's change leaves alone. -/

/-- What passing the floor leaves of the mixer. -/
theorem passFloor_leaves (ic : IntercomState) :
    (passFloor ic).pin = ic.pin ∧ (passFloor ic).clipMarks = ic.clipMarks ∧ (passFloor ic).shownMode = ic.shownMode := by
  unfold passFloor
  split
  · exact ⟨rfl, rfl, rfl⟩
  · split <;> exact ⟨rfl, rfl, rfl⟩

/-- Who holds the floor next depends on who waits alone. -/
theorem passFloor_floor (ic : IntercomState) :
    (passFloor ic).floor =
      if ic.waitA then some ⟨.passengerA, 0⟩ else if ic.waitB then some ⟨.passengerB, 0⟩ else none := by
  unfold passFloor
  split
  · rfl
  · split <;> rfl

theorem changeFloor_intercom (f : IntercomState → IntercomState) (s : State) :
    (changeFloor f s).intercom = { f s.intercom with shownMode := (changeFloor f s).intercom.shownMode } := by
  unfold changeFloor updateShownMode
  dsimp only
  split <;> rfl

theorem changeFloor_link (f : IntercomState → IntercomState) (s : State) :
    (changeFloor f s).link.signPlace = s.link.signPlace ∧ (changeFloor f s).link.waiting = s.link.waiting := by
  unfold changeFloor updateShownMode
  dsimp only
  split <;> exact ⟨rfl, rfl⟩

/-- A DISPLAY that shows the values that stand follows a change of the floor. -/
theorem changeFloor_shows {f : IntercomState → IntercomState} {s : State} (h : s.Shows)
    (hf : (f s.intercom).shownMode = s.intercom.shownMode) : (changeFloor f s).Shows := by
  unfold changeFloor updateShownMode
  dsimp only
  split
  · exact h.trans (congrArg _ (congrArg _ (displayPayload_intercom s _ hf).symm))
  · exact placeDisplay_shows _

theorem holdExpires_floor {s : State} {x : FloorHold} (h : s.intercom.floor = some x) :
    (holdExpires s).intercom.floor = (passFloor s.intercom).floor := by
  have hpassed : holdExpires s = changeFloor passFloor s := by simp [holdExpires, h]
  rw [hpassed, changeFloor_intercom]

/-- What a fare second at the hold count leaves alone. -/
theorem holdSecond_leaves (s : State) :
    (holdSecond s).intercom.pin = s.intercom.pin ∧ (holdSecond s).intercom.clipMarks = s.intercom.clipMarks ∧
      (holdSecond s).link.signPlace = s.link.signPlace ∧ (holdSecond s).link.waiting = s.link.waiting ∧
      (s.Shows → (holdSecond s).Shows) := by
  cases h : s.intercom.floor with
  | none =>
    rw [holdSecond_free h]
    exact ⟨rfl, rfl, rfl, rfl, id⟩
  | some x =>
    rcases Nat.lt_or_ge (x.count + 1) 30 with hx | hx
    · rw [holdSecond_counts h hx]
      exact ⟨rfl, rfl, rfl, rfl, fun hs => hs.trans (congrArg _ (congrArg _ (displayPayload_intercom s _ rfl).symm))⟩
    · have hdue : holdSecond s = changeFloor passFloor s := by simp [holdSecond_due h hx, holdExpires, h]
      obtain ⟨hpin, hmarks, hmode⟩ := passFloor_leaves s.intercom
      obtain ⟨hsign, hwaiting⟩ := changeFloor_link passFloor s
      rw [hdue, changeFloor_intercom]
      exact ⟨hpin, hmarks, hsign, hwaiting, fun hs => changeFloor_shows hs hmode⟩

/-! The parts of a fare second, each from the state the part before it left. -/

/-- The refresh and the stepping count at a fare second. -/
theorem signSecond_parts {s u : State} (hr : s.running = true) (hu : s.sign = u.sign) :
    (u.sign.refresh + 1 < 5 → refreshSecond s = { s with sign := { u.sign with refresh := u.sign.refresh + 1 } }) ∧
      (5 ≤ u.sign.refresh + 1 → exec .signRefreshDue s = .next (refreshSecond s)) ∧
      (u.sign.stepping + 1 < 2 → signSecond s =
        { refreshSecond s with sign := { (refreshSecond s).sign with stepping := u.sign.stepping + 1 } }) ∧
      (2 ≤ u.sign.stepping + 1 → exec .brightnessStep (refreshSecond s) = .next (signSecond s)) := by
  have hstepping : (refreshSecond s).sign.stepping = u.sign.stepping := hu ▸ (refreshSecond_leaves s).1
  refine ⟨fun h => ?_, fun h => ?_, fun h => ?_, fun h => ?_⟩
  · rw [refreshSecond_counts (by rwa [hu]), hu]
  · rw [refreshSecond_due (by rwa [hu])]
    exact congrArg _ (if_pos hr)
  · rw [signSecond, steppingSecond_counts (by rwa [hstepping]), hstepping]
  · rw [signSecond, steppingSecond_due (by rwa [hstepping])]
    have hrefreshed : (refreshSecond s).running = true := by simpa using hr
    exact congrArg _ (if_pos hrefreshed)

/-- The hold count of the floor at a fare second. -/
theorem holdSecond_parts {s : State} (hr : s.running = true) :
    (s.intercom.floor = none → holdSecond s = s) ∧
      ∀ x, s.intercom.floor = some x →
        (x.count + 1 < 30 → holdSecond s =
          { s with intercom := { s.intercom with floor := some ⟨x.party, x.count + 1⟩ } }) ∧
        (30 ≤ x.count + 1 → exec .talkHoldExpiry s = .next (holdSecond s)) := by
  refine ⟨holdSecond_free, fun x hx => ⟨holdSecond_counts hx, fun h => ?_⟩⟩
  rw [holdSecond_due hx h]
  exact congrArg _ (if_pos hr)

/-- The PIN count at a fare second. -/
theorem pinSecond_parts {s : State} (hr : s.running = true) :
    (s.intercom.pin = none → pinSecond s = s) ∧
      ∀ n, s.intercom.pin = some n →
        (n + 1 < 60 → pinSecond s = { s with intercom := { s.intercom with pin := some (n + 1) } }) ∧
        (60 ≤ n + 1 → exec .pinEntryTimeout s = .next (pinSecond s)) := by
  refine ⟨pinSecond_off, fun n hn => ⟨pinSecond_counts hn, fun h => ?_⟩⟩
  rw [pinSecond_due hn h]
  exact congrArg _ (if_pos hr)

/-- The capture timers at a fare second. -/
theorem captureSecond_parts {s : State} (hr : s.running = true) :
    (s.pay.capture = .idle → captureSecond s = s) ∧
      (∀ ref n limit, s.pay.capture = .inFlight ref n limit →
        (n + 1 < limit → captureSecond s = { s with pay := { s.pay with capture := .inFlight ref (n + 1) limit } }) ∧
        (limit ≤ n + 1 → exec .captureExpiry s = .next (captureSecond s))) ∧
      ∀ n interval, s.pay.capture = .waiting n interval →
        (n + 1 < interval → captureSecond s = { s with pay := { s.pay with capture := .waiting (n + 1) interval } }) ∧
        (interval ≤ n + 1 → exec .captureWaitEnd s = .next (captureSecond s)) := by
  refine ⟨captureSecond_idle, fun ref n limit hc => ⟨captureSecond_counts_inFlight hc, fun h => ?_⟩,
    fun n interval hc => ⟨captureSecond_counts_waiting hc, fun h => ?_⟩⟩
  · rw [captureSecond_expires hc h]
    exact congrArg _ (if_pos hr)
  · rw [captureSecond_ends hc h]
    exact congrArg _ (if_pos hr)

/-- The authorization timer at a fare second. -/
theorem authSecond_parts {s : State} (hr : s.running = true) :
    (s.pay.auth = none → authSecond s = s) ∧
      ∀ x, s.pay.auth = some x →
        (x.count + 1 < x.timeout →
          authSecond s = { s with pay := { s.pay with auth := some { x with count := x.count + 1 } } }) ∧
        (x.timeout ≤ x.count + 1 → exec .authTimerExpiry s = .next (authSecond s)) := by
  refine ⟨authSecond_none, fun x hx => ⟨authSecond_counts hx, fun h => ?_⟩⟩
  rw [authSecond_due hx h]
  exact congrArg _ (if_pos hr)

/-- The SIGN SET of the values that stand stays one while those values stay. -/
theorem State.Signs.of_kept {s t : State} (h : s.Signs) (hplace : t.link.signPlace = s.link.signPlace)
    (htables : t.tables = s.tables) (hmeter : t.meter = s.meter) (hemergency : t.sign.emergency = s.sign.emergency)
    (hlevel : t.sign.level = s.sign.level) : t.Signs := by
  simpa only [State.Signs, commandedSign, hplace, htables, hmeter, hemergency, hlevel] using h

/-! A fare second with no payment timer and no step due. -/

/-- The state at a quiet fare second after its window and its refresh and stepping counts. -/
def quietSigned (s : State) : State :=
  { refreshSecond s with sign := { (refreshSecond s).sign with stepping := 1 } }

theorem quietSigned_shows {s : State} (h : s.Shows) : (quietSigned s).Shows := by
  obtain ⟨-, -, -, -, hshows⟩ := refreshSecond_leaves s
  have hpayload : displayPayload (refreshSecond s) = displayPayload (quietSigned s) :=
    displayPayload_congr rfl rfl rfl rfl rfl rfl rfl
  unfold State.Shows at hshows ⊢
  rw [← hpayload]
  exact hshows h

/-- The state after a quiet fare second. -/
def quietSecond (s : State) : State :=
  lateSecond (pinSecond (holdSecond (clearClipMarks (quietSigned (windowEnds (restarted s))))))

section

variable (s : State)

theorem fareSecondOccurs_quiet (hm : s.meter ≠ .hired) (ha : s.pay.auth = none) (hc : s.pay.capture = .idle)
    (hstep : s.sign.stepping = 0) : fareSecondOccurs (restarted s) = quietSecond s := by
  obtain ⟨-, -, -, -, -, -, hmeter, -, hsign, -⟩ := windowEnds_keeps (restarted s)
  have hhired : hiredSecond (windowEnds (restarted s)) = windowEnds (restarted s) := if_neg (by rwa [hmeter])
  have hstepping : (refreshSecond (windowEnds (restarted s))).sign.stepping = 0 := by
    rw [(refreshSecond_leaves _).1, hsign]
    exact hstep
  have hsigned : signSecond (windowEnds (restarted s)) = quietSigned (windowEnds (restarted s)) := by
    rw [signSecond, steppingSecond_counts (by omega), hstepping, quietSigned]
  rw [fareSecondOccurs, hhired, hsigned, paymentSecond, captureSecond_idle, authSecond_none, intercomSecond, quietSecond]
  · simp [lateSecond, quietSigned, restarted, ha]
  · simp [quietSigned, restarted, hc]

theorem quietSecond_keeps :
    (quietSecond s).time = (windowed s).time ∧ (quietSecond s).disp = s.disp ∧ (quietSecond s).tables = s.tables ∧
      (quietSecond s).meter = s.meter ∧ (quietSecond s).trip = s.trip ∧ (quietSecond s).shifts = s.shifts ∧
      (quietSecond s).pay = (lateSecond s).pay := by
  have htime : (quietSecond s).time = (windowed s).time := by simp [quietSecond, quietSigned]
  exact ⟨htime, by simp [quietSecond, lateSecond, quietSigned, restarted]⟩

/-- The sign at a quiet fare second (08 R128, R134). -/
theorem quietSecond_sign :
    (quietSecond s).sign.stepping = 1 ∧
      (quietSecond s).sign.refresh = (if 5 ≤ s.sign.refresh + 1 then 0 else s.sign.refresh + 1) ∧
      (5 ≤ s.sign.refresh + 1 → (quietSecond s).Signs) := by
  have hsign : (windowEnds (restarted s)).sign = s.sign := by simp [restarted]
  obtain ⟨-, hrefresh, -, hsigns, -⟩ := refreshSecond_leaves (windowEnds (restarted s))
  obtain ⟨-, -, hplace, -, -⟩ := holdSecond_leaves (clearClipMarks (quietSigned (windowEnds (restarted s))))
  rw [hsign] at hrefresh hsigns
  refine ⟨by simp [quietSecond, lateSecond, quietSigned], by simpa [quietSecond, lateSecond, quietSigned] using hrefresh,
    fun h => (hsigns h).of_kept ?_ ?_ ?_ ?_ ?_⟩
  · simpa [quietSecond, quietSigned] using hplace
  all_goals simp [quietSecond, lateSecond, quietSigned]

/-- The mixer at a quiet fare second (09 R143, R147, R152). -/
theorem quietSecond_intercom :
    (quietSecond s).intercom.clipMarks = .all false ∧
      (quietSecond s).intercom.pin = (s.intercom.pin.bind fun n => if 60 ≤ n + 1 then none else some (n + 1)) ∧
      (∀ h, s.intercom.floor = some h → h.count + 1 < 30 →
        (quietSecond s).intercom.floor = some ⟨h.party, h.count + 1⟩) ∧
      (∀ h, s.intercom.floor = some h → 30 ≤ h.count + 1 →
        (quietSecond s).intercom.floor = (passFloor s.intercom).floor) ∧
      (s.intercom.floor = none → (quietSecond s).intercom.floor = none) := by
  have hmixer : (clearClipMarks (quietSigned (windowEnds (restarted s)))).intercom =
      { s.intercom with clipMarks := .all false } := by
    simp [clearClipMarks, quietSigned, restarted]
  unfold quietSecond
  generalize clearClipMarks (quietSigned (windowEnds (restarted s))) = mixer at hmixer
  have hfloor : mixer.intercom.floor = s.intercom.floor := by rw [hmixer]
  obtain ⟨hpin, hmarks, -⟩ := holdSecond_leaves mixer
  have hintercom : (lateSecond (pinSecond (holdSecond mixer))).intercom = { (holdSecond mixer).intercom with
      pin := s.intercom.pin.bind fun n => if 60 ≤ n + 1 then none else some (n + 1) } := by
    rw [pinSecond_eq, hpin, hmixer]
    rfl
  rw [hintercom]
  refine ⟨hmarks.trans (by rw [hmixer]), rfl, fun x hx hn => ?_, fun x hx hn => ?_, fun hx => ?_⟩
  · simp only [holdSecond_counts (hfloor.trans hx) hn]
  · simp only [holdSecond_due (hfloor.trans hx) hn, holdExpires_floor (hfloor.trans hx), hmixer, passFloor_floor]
  · simp only [holdSecond_free (hfloor.trans hx), hfloor.trans hx]

/-- The link at a quiet fare second, and the DISPLAY of a changed speed. -/
theorem quietSecond_link :
    (quietSecond s).link.waiting = s.link.waiting ∧ (windowSpeed s.time ≠ s.time.speed → (quietSecond s).Shows) := by
  obtain ⟨hwaiting, hshows⟩ := windowEnds_leaves s
  obtain ⟨-, -, hrefreshed, -, -⟩ := refreshSecond_leaves (windowEnds (restarted s))
  obtain ⟨-, -, -, hheld, hkept⟩ := holdSecond_leaves (clearClipMarks (quietSigned (windowEnds (restarted s))))
  refine ⟨?_, fun h => lateSecond_shows (pinSecond_shows (hkept (clearClipMarks_shows (quietSigned_shows (hshows h)))))⟩
  simpa [quietSecond, quietSigned] using hheld.trans (hrefreshed.trans hwaiting)

end

/-- Settles O28: each part by its own lemma from the state before it, then what stands after a quiet fare second. -/
theorem fareSecondAdvancesTimers : Obligations.FareSecondAdvancesTimers := by
  refine ⟨?_, ?_⟩
  · intro s hr speed _ shown hired
    have hshown : windowEnds (restarted s) = shown := windowEnds_eq s
    have hhired : hiredSecond (windowEnds (restarted s)) = hired := by
      rw [hiredSecond_windowEnds, hshown]
      rfl
    have hkept : hired.running = s.running ∧ hired.sign = s.sign ∧ hired.intercom = s.intercom ∧
        hired.pay = s.pay := by
      rw [← hhired]
      simp [restarted]
    have hexec : exec .fareSecond s = .next (paymentSecond (intercomSecond (signSecond hired))) := by
      rw [← hhired]
      exact congrArg _ (if_pos hr)
    clear_value hired
    obtain ⟨hrun, hsign, hintercom, hpay⟩ := hkept
    obtain ⟨hrefresh, hrefreshed, hstep, hstepped⟩ := signSecond_parts (hrun.trans hr) hsign
    let b := signSecond hired
    let cleared : State := { b with intercom := { s.intercom with clipMarks := .all false } }
    let c := holdSecond cleared
    let d := pinSecond c
    let e := captureSecond d
    have hb : b.running = true ∧ b.intercom = s.intercom ∧ b.pay = s.pay := by simp [b, hrun, hr, hintercom, hpay]
    obtain ⟨hbrun, hbintercom, hbpay⟩ := hb
    have hcleared : clearClipMarks b = cleared := by
      simp only [cleared, ← hbintercom]
      rfl
    rw [intercomSecond, hcleared] at hexec
    have hcpin : c.intercom.pin = s.intercom.pin := (holdSecond_leaves cleared).1
    have hcrun : c.running = true := by simpa [c, cleared] using hbrun
    have hdrun : d.running = true := by simpa [d] using hcrun
    have hdpay : d.pay = s.pay := by simpa [d, c, cleared] using hbpay
    have helate : e.pay.late = s.pay.late := by simp [e, hdpay]
    have heauth : (lateSecond e).pay.auth = s.pay.auth := by simp [lateSecond, e, captureSecond_auth, hdpay]
    have herun : (lateSecond e).running = true := by simpa [e] using hdrun
    have hhold := holdSecond_parts (s := cleared) hbrun
    have hpin := pinSecond_parts hcrun
    have hcapture := captureSecond_parts hdrun
    have hauth := authSecond_parts herun
    rw [hcpin] at hpin
    rw [hdpay] at hcapture
    rw [heauth] at hauth
    obtain ⟨hpinOff, hpinOn⟩ := hpin
    obtain ⟨hidle, hinFlight, hwaiting⟩ := hcapture
    refine ⟨refreshSecond hired, b, c, d, e, authSecond (lateSecond e), hexec, hrefresh, hrefreshed, hstep, hstepped,
      hhold, hpinOff, hpinOn, hidle, hinFlight, hwaiting, ?_⟩
    rw [← helate]
    exact hauth
  · intro s hr _ hm ha hc hstep speed vmax time
    have hexec : exec .fareSecond s = .next (quietSecond s) := by
      rw [← fareSecondOccurs_quiet s hm ha hc hstep]
      exact congrArg _ (if_pos hr)
    obtain ⟨htime, hdisp, htables, hmeter, htrip, hshifts, hpay⟩ := quietSecond_keeps s
    obtain ⟨hstepping, hrefresh, hsigns⟩ := quietSecond_sign s
    obtain ⟨hmarks, hpin, hcounts, hdue, hfree⟩ := quietSecond_intercom s
    obtain ⟨hwaiting, hshows⟩ := quietSecond_link s
    exact ⟨_, hexec, htime, hstepping, hrefresh, hsigns, hmarks, hpin, hcounts, hdue, hfree, hpay, htables, hmeter, htrip,
      hshifts, hdisp, hwaiting, hshows⟩

end Sys2Proof.Machine
end

