-- ==== Sys2Proof/Proofs/Calendar.lean ====
section
/-! PROOF. The calendar state (04 R55, R56), the boundary alarm (04 R58, R59) and the zone (04 R60). -/

namespace Sys2Proof.Machine

/-! The calendar flags (04 R55). -/

/-- The sum of the powers of two below 2 ^ n that a test keeps. -/
def bitSum (p : Nat → Bool) (n : Nat) : Nat := ((List.range n).map fun r => if p r then 2 ^ r else 0).sum

theorem bitSum_succ (p : Nat → Bool) (n : Nat) : bitSum p (n + 1) = (if p n then 2 ^ n else 0) + bitSum p n := by
  rw [bitSum, List.sum_range_succ, Nat.add_comm, bitSum]

theorem bitSum_lt (p : Nat → Bool) (n : Nat) : bitSum p n < 2 ^ n := by
  induction n with
  | zero => simp [bitSum]
  | succ n ih =>
    rw [bitSum_succ, Nat.pow_succ]
    split <;> omega

theorem bitSum_testBit (p : Nat → Bool) {n r : Nat} (hr : r < n) : (bitSum p n).testBit r = p r := by
  induction n with
  | zero => omega
  | succ n ih =>
    rw [bitSum_succ]
    rcases Nat.lt_succ_iff_lt_or_eq.mp hr with h | rfl
    · split
      · rw [Nat.testBit_two_pow_add_gt h, ih h]
      · rw [Nat.zero_add, ih h]
    · have hlow : (bitSum p r).testBit r = false := Nat.testBit_lt_two_pow (bitSum_lt p r)
      split
      case isTrue h => rw [Nat.testBit_two_pow_add_eq, hlow, h]; rfl
      case isFalse h => rw [Nat.zero_add, hlow]; simpa using h

theorem calendarFlagsOf_bit (b : Bank) (m : Nat) {r : Nat} (hr : r < 8) :
    (calendarFlagsOf b m).getLsbD r = calendarFlag b m r := by
  have hbits : (bitSum (calendarFlag b m) 8).testBit r = calendarFlag b m r := bitSum_testBit _ hr
  rw [calendarFlagsOf, BitVec.getLsbD_ofNat, decide_eq_true hr, Bool.true_and]
  exact hbits

theorem calendarFlag_iff (b : Bank) (m r : Nat) :
    calendarFlag b m r = true ↔ b.valid 4 r = true ∧
      (if rangeFirst b r ≤ rangeLast b r then rangeFirst b r ≤ m ∧ m ≤ rangeLast b r
        else rangeFirst b r ≤ m ∨ m ≤ rangeLast b r) := by
  rw [calendarFlag, Bool.and_eq_true, rangeHolds]
  split <;> simp

/-! The day type (04 R56). -/

theorem isHoliday_iff (b : Bank) (day : Nat) :
    isHoliday b day = true ↔ ∃ i, i < 16 ∧ b.valid 5 i = true ∧ fieldAt (b.group 5 i 0) 0 2 = day := by
  simp [isHoliday]

/-! The boundary alarm (04 R58). -/

/-- The least of a bound and the values of a list: one of them, and at most each of them. -/
theorem foldl_min_spec {α : Type} (f : α → Nat) (l : List α) (bound : Nat) :
    (l.foldl (fun best c => min best (f c)) bound = bound ∨ ∃ c ∈ l, l.foldl (fun best c => min best (f c)) bound = f c) ∧
      l.foldl (fun best c => min best (f c)) bound ≤ bound ∧
      ∀ c ∈ l, l.foldl (fun best c => min best (f c)) bound ≤ f c := by
  induction l generalizing bound with
  | nil => simp
  | cons a l ih =>
    obtain ⟨hmem, hbound, hle⟩ := ih (min bound (f a))
    rw [List.foldl_cons]
    refine ⟨?_, by omega, ?_⟩
    · rcases hmem with h | ⟨c, hc, h⟩
      · rcases Nat.le_total bound (f a) with hle | hle
        · exact .inl (h.trans (Nat.min_eq_left hle))
        · exact .inr ⟨a, List.mem_cons_self, h.trans (Nat.min_eq_right hle)⟩
      · exact .inr ⟨c, List.mem_cons_of_mem a hc, h⟩
    · intro c hc
      rcases List.mem_cons.mp hc with rfl | hc
      · omega
      · exact hle c hc

theorem boundaryDistance_eq (m c : Nat) : boundaryDistance m c = (c + 10079 - m) % 10080 + 1 := rfl

theorem boundaryDistance_range (m c : Nat) : 1 ≤ boundaryDistance m c ∧ boundaryDistance m c ≤ 10080 := by
  rw [boundaryDistance_eq]
  omega

/-- The distance to a minute is the one count of minutes ahead, 1 to a week, that ends at it. -/
theorem boundaryDistance_iff {m c n : Nat} (hm : m < 10080) (h1 : 1 ≤ n) (hn : n ≤ 10080) :
    boundaryDistance m c = n ↔ (m + n) % 10080 = c % 10080 := by
  rw [boundaryDistance_eq]
  omega

/-- The nearest boundary is the distance of a candidate, and no candidate lies nearer. -/
theorem nearestBoundary_spec (m : Nat) {l : List Nat} (hl : l ≠ []) :
    (∃ c ∈ l, nearestBoundary m l = boundaryDistance m c) ∧ ∀ c ∈ l, nearestBoundary m l ≤ boundaryDistance m c := by
  obtain ⟨hmem, -, hle⟩ := foldl_min_spec (boundaryDistance m) l 10080
  refine ⟨?_, hle⟩
  rcases hmem with h | h
  · obtain ⟨c, hc⟩ := List.exists_mem_of_ne_nil l hl
    have hfar : 10080 ≤ boundaryDistance m c := h ▸ hle c hc
    exact ⟨c, hc, h.trans (Nat.le_antisymm hfar (boundaryDistance_range m c).2)⟩
  · exact h

/-- The minutes of week at which a calendar state may change (04 R58). -/
def IsBoundary (b : Bank) (day m : Nat) : Prop :=
  m = (day % 7 + 1) % 7 * 1440 ∨
    ∃ r, r < 8 ∧ b.valid 4 r = true ∧ (m = rangeFirst b r % 10080 ∨ m = (rangeLast b r + 1) % 10080)

/-- The candidates are the boundaries, but for a first minute past the week's end. -/
theorem isBoundary_iff (b : Bank) (day m : Nat) :
    IsBoundary b day m ↔ ∃ c ∈ boundaryCandidates b day, m = c % 10080 := by
  have hmidnight : (day % 7 + 1) % 7 * 1440 % 10080 = (day % 7 + 1) % 7 * 1440 := by omega
  constructor
  · rintro (rfl | ⟨r, hr, hv, rfl | rfl⟩)
    · exact ⟨_, by simp [boundaryCandidates, dayOfWeek], hmidnight.symm⟩
    · refine ⟨rangeFirst b r, List.mem_append_left _ (List.mem_flatMap.mpr ⟨r, List.mem_range.mpr hr, ?_⟩), rfl⟩
      simp [hv]
    · refine ⟨(rangeLast b r + 1) % 10080,
        List.mem_append_left _ (List.mem_flatMap.mpr ⟨r, List.mem_range.mpr hr, ?_⟩), (Nat.mod_mod _ _).symm⟩
      simp [hv]
  · rintro ⟨c, hc, rfl⟩
    rcases List.mem_append.mp hc with hc | hc
    · obtain ⟨r, hr, hc⟩ := List.mem_flatMap.mp hc
      right
      refine ⟨r, List.mem_range.mp hr, ?_⟩
      by_cases hv : b.valid 4 r = true
      · refine ⟨hv, ?_⟩
        simp only [hv, if_true, List.mem_cons, List.not_mem_nil, or_false] at hc
        rcases hc with rfl | rfl
        · exact .inl rfl
        · exact .inr (Nat.mod_mod _ _)
      · simp [hv] at hc
    · left
      rw [List.mem_singleton.mp hc]
      exact hmidnight

/-- The nearest boundary is ahead by at most a week, and there is none before it (04 R58). -/
theorem nearestBoundary_isFirst (b : Bank) (day : Nat) {m : Nat} (hm : m < 10080) :
    let n := nearestBoundary m (boundaryCandidates b day)
    1 ≤ n ∧ n ≤ 10080 ∧ IsBoundary b day ((m + n) % 10080) ∧
      ∀ k, 1 ≤ k → k < n → ¬IsBoundary b day ((m + k) % 10080) := by
  intro n
  obtain ⟨⟨c, hc, hn⟩, hleast⟩ := nearestBoundary_spec m (l := boundaryCandidates b day) (by simp [boundaryCandidates])
  obtain ⟨h1, hweek⟩ := boundaryDistance_range m c
  rw [← hn] at h1 hweek
  refine ⟨h1, hweek, ?_, fun k hk hkn hb => ?_⟩
  · exact (isBoundary_iff b day _).mpr ⟨c, hc, (boundaryDistance_iff hm h1 hweek).mp hn.symm⟩
  · obtain ⟨d, hd, hkd⟩ := (isBoundary_iff b day _).mp hb
    have hdist : boundaryDistance m d = k := (boundaryDistance_iff hm hk (by omega)).mpr hkd
    have hle : n ≤ boundaryDistance m d := hleast d hd
    omega

/-! The commands (04 R59, R60). -/

/-- On a Ready controller a well-formed report of a permitted station is handled by its owner. -/
theorem exec_report {c : Instr} {src : Station} {kind : ReportKind} {payload : List Byte} {s : State}
    (hc : messageOf c = some ⟨src, kind.code, payload⟩) (hs : s.Ready) (hp : mayReport src kind = true)
    (hf : reportFormOk kind payload = true) : exec c s = .next (takeReport src kind payload s) := by
  have hk : classify kind.code = .report kind := by cases kind <;> rfl
  rw [exec_message c _ s hc hs, sensed_report c _ kind s hc hk]
  simp [handleMessage, hk, hp, hf]

/-- Settles O29: the parts of the calendar state by their rules, and the two occasions by the meter state. -/
theorem boundaryAndZoneOccasions : Obligations.BoundaryAndZoneOccasions := by
  refine ⟨?_, fun s => ⟨fun hr => ?_, fun hs zone hz => ?_⟩⟩
  · intro s hsecond b weekday minute first last time
    have hminute : minute < 10080 := by
      simp only [minute, weekday]
      omega
    refine ⟨rfl, fun r hr => ?_, fun h => ?_, fun h => ?_, ?_⟩
    · exact (Bool.eq_iff_iff.mp (calendarFlagsOf_bit b minute hr)).trans (calendarFlag_iff b minute r)
    · exact if_pos ((isHoliday_iff b _).mpr h)
    · refine if_neg fun hh => ?_
      obtain ⟨i, hi, hv, hday⟩ := (isHoliday_iff b _).mp hh
      exact h i hi hv hday
    · obtain ⟨h1, hweek, hat, hfirst⟩ := nearestBoundary_isFirst b s.time.day hminute
      exact ⟨_, h1, hweek, hat, hfirst, rfl, rfl⟩
  · have hexec : exec .boundaryAlarm s = .next (boundaryFires s) := congrArg _ (if_pos hr)
    rw [hexec]
    exact ⟨fun hm => congrArg _ (if_neg hm), fun hm => congrArg _ (if_pos hm)⟩
  · have hfield : fieldAt [zone] 0 1 = zone.toNat := fieldAt_byte rfl
    have hform : reportFormOk .zoneUpdate [zone] = true := by
      simp [reportFormOk, hfield, hz]
    have hexec : exec (.zoneUpdate .fleetModem [zone]) s = .next (zoneUpdateTaken zone.toNat s) := by
      rw [exec_report (kind := .zoneUpdate) rfl hs rfl hform]
      exact congrArg (fun z => Host.Outcome.next (zoneUpdateTaken z s)) hfield
    rw [hexec]
    refine ⟨fun h => congrArg _ (if_pos h), fun h hm => congrArg _ ?_, fun h hm => congrArg _ ?_⟩
    · exact (if_neg h).trans (if_neg hm)
    · exact (if_neg h).trans (if_pos hm)

end Sys2Proof.Machine
end

