-- ==== Sys2Proof/Proofs/Selection.lean ====
section
/-! PROOF. The selection run (05 R65 to R68): the entry a stage takes, the stages followed by NEXT, the result and its events. -/

namespace Sys2Proof.Machine

/-! An entry of a stage (05 R63, R65). -/

theorem fieldAt_getD (l : List Byte) (i : Nat) : fieldAt l i 1 = (l.getD i 0#8).toNat := by
  rcases Nat.lt_or_ge i l.length with hi | hi
  · rw [fieldAt_byte (List.getElem?_eq_getElem hi), List.getD_eq_getElem _ _ hi]
  · rw [fieldAt, List.drop_eq_nil_of_le hi, List.getD_eq_default _ _ hi]
    rfl

/-- No member of a set is outside another. -/
theorem and_not_eq_zero_iff (a b : Byte) :
    a &&& ~~~b = 0#8 ↔ ∀ r, r < 8 → a.getLsbD r = true → b.getLsbD r = true := by
  rw [BitVec.eq_of_getLsbD_eq_iff]
  refine forall₂_congr fun r hr => ?_
  simp [hr]

/-- Two sets have no member in common. -/
theorem and_eq_zero_iff (a b : Byte) :
    a &&& b = 0#8 ↔ ∀ r, r < 8 → a.getLsbD r = true → b.getLsbD r = false := by
  rw [BitVec.eq_of_getLsbD_eq_iff]
  refine forall₂_congr fun r hr => ?_
  simp

/-- A valid entry whose ten match fields hold (05 R63, R65). -/
theorem entryMatches_iff (b : Bank) (inp : SelectionInput) (stage g i : Nat) :
    let l := b.group 2 i 0
    let byte := fun j => (l.getD j 0#8).toNat
    entryMatches b inp stage g i = true ↔
      b.valid 2 i = true ∧ byte 0 = stage ∧ (byte 1 = 16 ∨ byte 1 = g) ∧
        (∀ r, r < 8 → (l.getD 2 0#8).getLsbD r = true → inp.flags.getLsbD r = true) ∧
        (∀ r, r < 8 → (l.getD 3 0#8).getLsbD r = true → inp.flags.getLsbD r = false) ∧
        (l.getD 4 0#8).getLsbD inp.dayType.member = true ∧
        byte 5 ≤ inp.zone ∧ inp.zone ≤ byte 6 ∧ byte 7 ≤ inp.passengers ∧ inp.passengers ≤ byte 8 ∧
        (byte 9 = 5 ∨ byte 9 = inp.key) := by
  intro l byte
  rw [← and_not_eq_zero_iff, ← and_eq_zero_iff]
  simp only [entryMatches, groupMatches, Bool.and_eq_true, Bool.or_eq_true, decide_eq_true_eq, and_assoc, l, byte]

/-! The action of a stage (05 R64 to R66). -/

theorem readAction_tariff {l : List Byte} (h : (l.getD 0 0#8).toNat = 1) :
    readAction l = .tariff (l.getD 1 0#8).toNat := by
  simp only [readAction, fieldAt_getD, h, if_true]

theorem readAction_next {l : List Byte} (h : (l.getD 0 0#8).toNat ≠ 1) : readAction l = .next (l.getD 1 0#8).toNat := by
  simp only [readAction, fieldAt_getD, h, if_false]

section

variable {b : Bank} {inp : SelectionInput} {n g : Nat}

/-- The matching entry of lowest index gives the action (05 R65). -/
theorem stageAction_entry {i : Nat} (hi : i < 64) (hm : entryMatches b inp n g i = true)
    (hfirst : ∀ j, j < i → entryMatches b inp n g j = false) :
    stageAction b inp n g = some (readAction (b.group 2 i 1)) := by
  have hfind : (List.range 64).find? (entryMatches b inp n g) = some i :=
    List.find?_range_eq_some.mpr ⟨hm, List.mem_range.mpr hi, fun j hj => by simp [hfirst j hj]⟩
  rw [stageAction, hfind]

/-- With no matching entry the stage's default gives the action, when it is valid (05 R66, R67). -/
theorem stageAction_default (hnone : ∀ i, i < 64 → entryMatches b inp n g i = false) :
    stageAction b inp n g = if b.valid 3 (n - 1) then some (readAction (b.group 3 (n - 1) 0)) else none := by
  have hfind : (List.range 64).find? (entryMatches b inp n g) = none :=
    List.find?_range_eq_none.mpr fun i hi => by simp [hnone i hi]
  rw [stageAction, hfind]

/-! The stages (05 R66, R67). -/

variable {left : Nat}

theorem runStages_tariff {t : Nat} (h : stageAction b inp n g = some (.tariff t)) :
    runStages b inp left n g = .candidate t := by
  rw [runStages, h]

theorem runStages_unusable (h : stageAction b inp n g = none) : runStages b inp left n g = .unusableDefault := by
  rw [runStages, h]

theorem runStages_deep {g' : Nat} (h : stageAction b inp n g = some (.next g')) : runStages b inp 0 n g = .depth := by
  rw [runStages, h]

theorem runStages_next {g' : Nat} (h : stageAction b inp n g = some (.next g')) :
    runStages b inp (left + 1) n g = runStages b inp left (n + 1) g' := by
  rw [runStages, h]

/-- A run whose stages before the nth each take NEXT reaches the nth with the group named last. -/
theorem runStages_reaches {group : Nat → Nat} (hstart : group 1 = 0) (hn : 1 ≤ n) (h3 : n ≤ 3)
    (hnext : ∀ m, 1 ≤ m → m < n → stageAction b inp m (group m) = some (.next (group (m + 1)))) :
    runStages b inp 2 1 0 = runStages b inp (3 - n) n (group n) := by
  induction n, hn using Nat.le_induction with
  | base => rw [hstart]
  | succ n hn ih =>
    have hleft : 3 - n = 3 - (n + 1) + 1 := by omega
    rw [ih (by omega) fun m h1 hm => hnext m h1 (by omega), hleft, runStages_next (hnext n hn (by omega))]

end

/-! The result (05 R66 to R68). -/

theorem fallbackTariff_eq (b : Bank) :
    let last := b.group 3 3 0
    let byte := fun j => (last.getD j 0#8).toNat
    fallbackTariff b =
      if b.valid 3 3 = true ∧ byte 0 = 1 ∧ b.valid 1 (byte 1) = true then some (byte 1) else none := by
  intro last byte
  unfold fallbackTariff
  by_cases hv : b.valid 3 3 = true
  · by_cases hk : byte 0 = 1
    · rw [readAction_tariff hk]
      simp only [hv, hk, if_true, true_and]
      rfl
    · rw [readAction_next hk]
      simp only [hv, hk, if_true, true_and, false_and, if_false]
  · simp only [hv, false_and, if_false, Bool.false_eq_true]

theorem fallbackTariff_valid {b : Bank} {t : Nat} (h : fallbackTariff b = some t) : b.valid 1 t = true := by
  rw [fallbackTariff_eq] at h
  split at h
  case isTrue hf => exact Option.some.inj h ▸ hf.2.2
  case isFalse => exact nomatch h

/-- What a run can end with: a valid candidate and no mark, or the fallback tariff and one of the two marks. -/
theorem selectionRun_cases (b : Bank) (inp : SelectionInput) :
    (∃ t, b.valid 1 t = true ∧ selectionRun b inp = ⟨some t, false, false⟩) ∨
      selectionRun b inp = ⟨fallbackTariff b, false, true⟩ ∨ selectionRun b inp = ⟨fallbackTariff b, true, false⟩ := by
  unfold selectionRun
  cases runStages b inp 2 1 0 with
  | candidate t =>
    by_cases hv : b.valid 1 t = true
    · exact .inl ⟨t, hv, if_pos hv⟩
    · exact .inr (.inl (if_neg hv))
  | unusableDefault => exact .inr (.inl rfl)
  | depth => exact .inr (.inr rfl)

/-- The events of a run, in order, as occurrences and nothing else (05 R68). -/
theorem selectionEvents_occurs (r : SelectionResult) (s : State) (ho : s.link.orderly) :
    s.Occurs (selectionEvents r s) [] r.events ∧ s.PlacesFollow (selectionEvents r s) := by
  have hstart : s.Occurs s [] [] := .refl ho
  have hdepth := hstart.raisedIf r.depthMark .selectDepth
  exact ⟨hdepth.raisedIf r.fallbackMark .selectFallback,
    ((State.PlacesFollow.refl s).raisedIf hstart _ _).raisedIf hdepth _ _⟩

/-- Settles O30: the entry that a stage takes by `stageAction_entry` and `stageAction_default`, the stage reached by
`runStages_reaches`, the result by `selectionRun_cases` and the events by `selectionEvents_occurs`. -/
theorem selectionRunFollowsStages : Obligations.SelectionRunFollowsStages := by
  refine ⟨?_, fun s r ho => (selectionEvents_occurs r s ho).symm⟩
  intro b inp byte matched unmatched takes last fallback r
  have hfallback : fallback = fallbackTariff b := (fallbackTariff_eq b).symm
  have hmatched : ∀ n g i, matched n g i ↔ entryMatches b inp n g i = true := fun n g i =>
    (entryMatches_iff b inp n g i).symm
  have hunmatched : ∀ {n g i}, ¬matched n g i → entryMatches b inp n g i = false := fun h =>
    Bool.eq_false_iff.mpr fun hm => h ((hmatched _ _ _).mpr hm)
  have htakes : ∀ {n g action}, takes n g action → stageAction b inp n g = some (readAction action) := by
    rintro n g action (⟨i, hi, hm, hfirst, rfl⟩ | ⟨hnone, hvalid, rfl⟩)
    · exact stageAction_entry hi ((hmatched n g i).mp hm) fun j hj => hunmatched (hfirst j hj)
    · rw [stageAction_default fun i hi => hunmatched (hnone i hi), if_pos hvalid]
  refine ⟨fun n group action hn h3 hstart hnext => ?_, ?_⟩
  · have hreach : runStages b inp 2 1 0 = runStages b inp (3 - n) n (group n) :=
      runStages_reaches hstart hn h3 fun m h1 hm => by
        obtain ⟨htake, hkind, hgroup⟩ := hnext m h1 hm
        rw [htakes htake, readAction_next (by simp only [byte] at hkind; omega), hgroup]
    refine ⟨fun htake hkind => ?_, fun htake hkind hlast => ?_, fun hnone hvalid => ?_⟩
    · have hend := hreach.trans (runStages_tariff ((htakes htake).trans (congrArg _ (readAction_tariff hkind))))
      simp only [r, selectionRun, hend, hfallback, byte]
    · subst hlast
      have hnext3 := readAction_next (l := action 3) (by simp only [byte] at hkind; omega)
      have hend := hreach.trans (runStages_deep ((htakes htake).trans (congrArg _ hnext3)))
      simp only [r, selectionRun, hend, hfallback]
    · have hstage := stageAction_default fun i hi => hunmatched (hnone i hi)
      rw [if_neg (Bool.eq_false_iff.mp hvalid)] at hstage
      simp only [r, selectionRun, hreach.trans (runStages_unusable hstage), hfallback]
  · rcases selectionRun_cases b inp with ⟨t, hv, hr⟩ | hr | hr
    · simp [r, hr, hv]
    · simpa [r, hr] using fun t => fallbackTariff_valid
    · simpa [r, hr] using fun t => fallbackTariff_valid

end Sys2Proof.Machine
end

