-- ==== Sys2Proof/Proofs/Keys.lean ====
section
/-! PROOF. The KEY request on a Ready controller: which handler a key reaches, and the keys refused by their form (07 R107). -/

namespace Sys2Proof.Machine

/-- On a Ready controller a key command is what the key's handler does. -/
theorem exec_key {c : Instr} {code : Byte} {args : List Byte} {s : State}
    (hc : messageOf c = some (keyMessage .meterHead code args)) (hs : s.Ready) :
    exec c s = .next (takeKey .meterHead (code :: args) (sensed c s)) :=
  exec_permitted (r := .key) hc hs rfl

/-- Only a payload of two bytes names a key and its argument (07 R107). -/
theorem takeKey_length (src : Station) (code : Byte) {args : List Byte} (h : args.length ≠ 1) (s : State) :
    takeKey src (code :: args) s = refuse src keyCode .badValue s := by
  unfold takeKey
  split
  case h_1 hp =>
    obtain ⟨-, rfl⟩ := List.cons.inj hp
    exact absurd rfl h
  case h_2 => rfl

/-- The codes of the keys that have no argument (07 R107). -/
def bareKeys : List Byte := [2#8, 3#8, 4#8, 5#8, 6#8, 7#8, 8#8, 9#8, 10#8, 14#8, 15#8, 16#8]

/-- A key that has no argument is refused with any but the byte 0 (07 R107). -/
theorem takeKey_argument (src : Station) {code : Byte} (hcode : code ∈ bareKeys) {args : List Byte} (h : args ≠ [0#8])
    (s : State) : takeKey src (code :: args) s = refuse src keyCode .badValue s := by
  by_cases hlength : args.length = 1
  · obtain ⟨arg, rfl⟩ := List.length_eq_one_iff.mp hlength
    have harg : arg ≠ 0#8 := fun ha => h (by rw [ha])
    simp only [bareKeys, List.mem_cons, List.not_mem_nil, or_false] at hcode
    rcases hcode with rfl | rfl | rfl | rfl | rfl | rfl | rfl | rfl | rfl | rfl | rfl | rfl
    all_goals exact if_neg harg
  · exact takeKey_length src code hlength s

theorem withNoArgument_zero (src : Station) (f : State → State) (s : State) : withNoArgument src 0#8 f s = f s := rfl

end Sys2Proof.Machine
end

