-- ==== Sys2Proof/Proofs/Surcharge.lean ====
section
/-! PROOF. The surcharge lookup (06 R93 to R95) and the fare limit (06 R100), and the keys of the party (07 R116). -/

namespace Sys2Proof.Machine

variable {s t : State} {es : List Event} {ms : List Outbound} {tr : Trip}

/-! Changes of the open trip inside a handling. -/

theorem State.Occurs.display (h : s.Occurs t ms es) : s.Occurs (placeDisplay t) ms es :=
  State.Sends.occurs h.sends.display

theorem State.Occurs.raised (h : s.Occurs t ms es) (e : Event) : s.Occurs (raise e t) ms (es ++ [e]) :=
  h.trans (raise_occurs e t h.orderly)

theorem State.Occurs.tripSet (h : s.Occurs t ms es) (x : Trip) :
    ({ s with trip := some x } : State).Occurs { t with trip := some x } ms es :=
  State.Sends.occurs (h.sends.trip (some x))

theorem State.Occurs.withTrip (h : s.Occurs t ms es) (ht : s.trip = some tr) (f : Trip → Trip) :
    ({ s with trip := some (f tr) } : State).Occurs (withTrip f t) ms es := by
  have hchanged := h.sends.withTrip f
  rw [ht] at hchanged
  exact State.Sends.occurs hchanged

theorem State.Occurs.trip_eq (h : s.Occurs t ms es) : t.trip = s.trip := by rw [h.rest]

/-! The fare limit (06 R100). -/

/-- FARE LIMIT is due: the sum is above the limit for the first time. -/
def Trip.exceeds (tr : Trip) : Bool := decide (999999 < tr.fareSum ∧ tr.fareLimit = false)

/-- The trip after the fare limit test. -/
def Trip.limited (tr : Trip) : Trip := { tr with fareLimit := tr.fareLimit || tr.exceeds }

theorem Trip.limited_flag (tr : Trip) : tr.limited.fareLimit = (tr.fareLimit || decide (999999 < tr.fareSum)) := by
  unfold limited exceeds
  cases tr.fareLimit <;> simp

theorem testFareLimit_exceeds (ht : s.trip = some tr) (he : tr.exceeds = true) :
    testFareLimit s = raise .fareLimit (withTrip (fun tr => { tr with fareLimit := true }) s) := by
  simp only [testFareLimit, ht]
  exact if_pos (of_decide_eq_true he)

theorem testFareLimit_within (ht : s.trip = some tr) (he : tr.exceeds = false) : testFareLimit s = s := by
  simp only [testFareLimit, ht]
  exact if_neg (of_decide_eq_false he)

theorem State.Occurs.limitTested (h : s.Occurs t ms es) (ht : s.trip = some tr) :
    ({ s with trip := some tr.limited } : State).Occurs (testFareLimit t) ms
      (es ++ if tr.exceeds then [.fareLimit] else []) := by
  cases he : tr.exceeds with
  | true =>
    have hflag : tr.limited = { tr with fareLimit := true } := by rw [Trip.limited, he, Bool.or_true]
    rw [hflag, testFareLimit_exceeds (h.trip_eq.trans ht) he]
    exact (h.withTrip ht fun tr => { tr with fareLimit := true }).raised .fareLimit
  | false =>
    have hsame : tr.limited = tr := by rw [Trip.limited, he, Bool.or_false]
    rw [hsame, testFareLimit_within (h.trip_eq.trans ht) he, ← ht]
    simpa using h

theorem State.Occurs.fareChanged (h : s.Occurs t ms es) (ht : s.trip = some tr) :
    ({ s with trip := some tr.limited } : State).Occurs (fareChanged t) ms
      (es ++ if tr.exceeds then [.fareLimit] else []) :=
  (h.limitTested ht).display

theorem fareChanged_signPlace (s : State) : (fareChanged s).link.signPlace = s.link.signPlace := by
  unfold fareChanged testFareLimit
  repeat' split
  all_goals simp

/-! What a lookup finds (06 R93, R94). -/

/-- Row and entry of a lookup, by the tariff's key kind and base row (06 R94). -/
theorem surchargePlace_eq (s : State) (tr : Trip) :
    let kind := surchargeKind s.tables.active tr.tariff
    let base := surchargeBase s.tables.active tr.tariff
    let row := if kind = 3 then base + s.time.zone / 8 else base
    let entry :=
      if kind = 1 then tr.passengers - 1 else if kind = 2 then (if 7 < tr.luggage then 7 else tr.luggage)
      else s.time.zone % 8
    surchargePlace s tr = if kind = 1 ∨ kind = 2 ∨ kind = 3 then some (row, entry) else none := by
  intro kind base row entry
  have hmin : min 7 tr.luggage = if 7 < tr.luggage then 7 else tr.luggage := by split <;> omega
  unfold surchargePlace
  split
  case h_1 hk => simp [row, entry, kind, hk, base]
  case h_2 hk => simp [row, entry, kind, hk, base, hmin]
  case h_3 hk => simp [row, entry, kind, hk, base]
  case h_4 h1 h2 h3 => exact (if_neg fun h => h.elim h1 fun h => h.elim h2 h3).symm

/-- The amount of a map entry whose member the row's enable set names, while both are valid (06 R93). -/
def enabledAmount (b : Bank) (row entry member offset : Nat) : Nat :=
  if b.valid 6 (row * 8 + entry) = true ∧ b.valid 7 row = true ∧
      ((b.group 7 row 0).getD 0 0#8).getLsbD member = true then
    fieldAt (b.group 6 (row * 8 + entry) 0) offset 2
  else 0

theorem surchargeAmounts_eq (b : Bank) (row entry : Nat) :
    surchargeAmounts b row entry =
      (enabledAmount b row entry 0 0, enabledAmount b row entry 1 2, enabledAmount b row entry 2 4) := by
  have hset : BitVec.ofNat 8 (fieldAt (b.group 7 row 0) 0 1) = (b.group 7 row 0).getD 0 0#8 := by
    rw [fieldAt_getD, BitVec.ofNat_toNat, BitVec.setWidth_eq]
  unfold surchargeAmounts enabledAmount
  rw [hset]
  by_cases h6 : b.valid 6 (row * 8 + entry) = true
  · by_cases h7 : b.valid 7 row = true
    · simp only [h6, h7, Bool.and_self, if_true, true_and]
    · simp only [h7, Bool.and_false, Bool.false_eq_true, if_false, false_and, and_false]
  · simp only [h6, Bool.false_and, Bool.false_eq_true, if_false, false_and]

/-- The trip after a lookup (06 R94). -/
def Trip.surcharged (s : State) (tr : Trip) : Trip :=
  { tr with surcharge := (surchargeFound s tr).1, stepAdd := (surchargeFound s tr).2 }

theorem State.Occurs.surcharged (h : s.Occurs t ms es) (ht : s.trip = some tr) :
    ({ s with trip := some (tr.surcharged s) } : State).Occurs (applySurcharge t) ms es := by
  have hfound : tr.surcharged t = tr.surcharged s := by rw [h.rest]; rfl
  rw [← hfound]
  exact h.withTrip ht (Trip.surcharged t)

theorem surchargeLookup_same (ht : s.trip = some tr) (h : surchargeFound s tr = (tr.surcharge, tr.stepAdd)) :
    surchargeLookup s = s := by
  simp only [surchargeLookup, ht, h, if_true]

theorem surchargeLookup_changed (ht : s.trip = some tr) (h : surchargeFound s tr ≠ (tr.surcharge, tr.stepAdd)) :
    surchargeLookup s = fareChanged (applySurcharge s) := by
  simp only [surchargeLookup, ht, h, if_false]

/-! The keys of the party (07 R116). -/

/-- Outside a trip a count in range is refused (07 R108). -/
theorem keyPassengers_outside (src : Station) {n : Byte} (h1 : 1 ≤ n.toNat) (h8 : n.toNat ≤ 8) (hh : s.meter ≠ .hired)
    (hs : s.meter ≠ .settling) : keyPassengers src n s = refuse src keyCode .refusedState s := by
  have hrange : ¬(n.toNat < 1 ∨ 8 < n.toNat) := by omega
  exact (if_neg hrange).trans (if_neg (by simp [inTrip, hh, hs]))

theorem keyLuggage_outside (src : Station) {n : Byte} (h15 : n.toNat ≤ 15) (hh : s.meter ≠ .hired)
    (hs : s.meter ≠ .settling) : keyLuggage src n s = refuse src keyCode .refusedState s := by
  have hrange : ¬15 < n.toNat := by omega
  exact (if_neg hrange).trans (if_neg (by simp [inTrip, hh, hs]))

/-- In a trip a PASSENGERS in range is answered and held; in HIRED a run and a lookup follow (07 R116, 05 R74). -/
theorem keyPassengers_held {src : Station} {n : Byte} (hs : s.Ready) (h1 : 1 ≤ n.toNat) (h8 : n.toNat ≤ 8)
    (hin : inTrip s = true) :
    keyPassengers src n s =
      let held := withTrip (fun tr => { tr with passengers := n.toNat }) (s.answered src keyCode .ok (beBytes 1 n.toNat))
      if s.meter = .hired then surchargeLookup (runForTrip held) else held := by
  have hrange : ¬(n.toNat < 1 ∨ 8 < n.toNat) := by omega
  simp only [keyPassengers, hrange, if_false, hin, if_true, reply_answered _ _ _ _ _ hs]

/-- In a trip a LUGGAGE in range is answered and held; in HIRED a lookup follows (07 R116). -/
theorem keyLuggage_held {src : Station} {n : Byte} (hs : s.Ready) (h15 : n.toNat ≤ 15) (hin : inTrip s = true) :
    keyLuggage src n s =
      let held := withTrip (fun tr => { tr with luggage := n.toNat }) (s.answered src keyCode .ok (beBytes 1 n.toNat))
      if s.meter = .hired then surchargeLookup held else held := by
  have hrange : ¬15 < n.toNat := by omega
  simp only [keyLuggage, hrange, if_false, hin, if_true, reply_answered _ _ _ _ _ hs]

theorem withTrip_answered (ht : s.trip = some tr) (f : Trip → Trip) (dest : Station) (kind : Byte) (r : Result)
    (data : List Byte) :
    withTrip f (s.answered dest kind r data) = { s.answered dest kind r data with trip := some (f tr) } := by
  simp [Machine.withTrip, ht]

/-- Settles O41: the keys by their handlers' equations, what a lookup finds by `surchargePlace_eq` and `surchargeAmounts_eq`, and
its application by `State.Occurs.surcharged` and `State.Occurs.fareChanged`. -/
theorem partyCountsAndLookup : Obligations.PartyCountsAndLookup := by
  have hpassengers : ∀ {s : State} {n : Byte}, s.Ready →
      exec (.passengers .meterHead [n]) s = .next (keyPassengers .meterHead n s) := fun {s n} hs =>
    exec_key (c := .passengers .meterHead [n]) (code := 12#8) rfl hs
  have hluggage : ∀ {s : State} {n : Byte}, s.Ready →
      exec (.luggage .meterHead [n]) s = .next (keyLuggage .meterHead n s) := fun {s n} hs =>
    exec_key (c := .luggage .meterHead [n]) (code := 13#8) rfl hs
  refine ⟨fun s n hs => ?_, fun s tr => ?_, fun s tr n hs ht => ?_,
    fun s tr ho ht => ⟨surchargeLookup_same ht, fun hne => ?_⟩⟩
  · intro answers outside
    have hrefused : ∀ r, refuse .meterHead keyCode r s = s.answered .meterHead 1#8 r [] := fun r =>
      refuse_answered _ _ r s hs
    simp only [answers, hpassengers hs, hluggage hs, ← hrefused]
    exact ⟨fun h => congrArg _ (if_pos h), fun h1 h8 ⟨hh, hset⟩ => congrArg _ (keyPassengers_outside _ h1 h8 hh hset),
      fun h => congrArg _ (if_pos h), fun h15 ⟨hh, hset⟩ => congrArg _ (keyLuggage_outside _ h15 hh hset)⟩
  · intro b kind base row entry amount
    have hplace : surchargePlace s tr = if kind = 1 ∨ kind = 2 ∨ kind = 3 then some (row, entry) else none :=
      surchargePlace_eq s tr
    rw [surchargeFound, hplace]
    by_cases hkind : kind = 1 ∨ kind = 2 ∨ kind = 3
    · rw [if_pos hkind, if_pos hkind]
      dsimp only
      rw [surchargeAmounts_eq]
      rfl
    · rw [if_neg hkind, if_neg hkind]
  · intro told
    have htold : ∀ f, withTrip f told = { told with trip := some (f tr) } := fun f =>
      withTrip_answered ht f _ _ _ _
    refine ⟨fun h1 h8 => ?_, fun h15 => ?_⟩
    · rw [hpassengers hs, ← htold fun tr => { tr with passengers := n.toNat }]
      refine ⟨fun hm => congrArg _ ?_, fun hm => congrArg _ ?_⟩
      · exact (keyPassengers_held hs h1 h8 (by simp [inTrip, hm])).trans (if_neg (by simp [hm]))
      · exact (keyPassengers_held hs h1 h8 (by simp [inTrip, hm])).trans (if_pos hm)
    · rw [hluggage hs, ← htold fun tr => { tr with luggage := n.toNat }]
      refine ⟨fun hm => congrArg _ ?_, fun hm => congrArg _ ?_⟩
      · exact (keyLuggage_held hs h15 (by simp [inTrip, hm])).trans (if_neg (by simp [hm]))
      · exact (keyLuggage_held hs h15 (by simp [inTrip, hm])).trans (if_pos hm)
  · intro found beyond
    have hchanged : ({ s with trip := some found.limited } : State).Occurs (surchargeLookup s) []
        (if found.exceeds then [.fareLimit] else []) := by
      rw [surchargeLookup_changed ht hne]
      exact ((State.Occurs.refl ho).surcharged ht).fareChanged rfl
    rw [surchargeLookup_changed ht hne] at hchanged ⊢
    exact ⟨placeDisplay_shows _, by rw [fareChanged_signPlace]; simp, hchanged⟩

end Sys2Proof.Machine
end

