-- ==== Sys2Proof/Proofs/TariffChange.lean ====
section
/-! PROOF. What the outcome of a selection run does to the open trip (05 R70 to R73, 06 R92). -/

namespace Sys2Proof.Machine

variable {s t : State} {es : List Event} {ms : List Outbound} {tr : Trip}

/-! The fare engine's part of a tariff change (06 R83, R91, R92), step by step on the open trip. -/

/-- The trip with its segment in force re-evaluated by trip distance (06 R83). -/
def Trip.resegmented (s : State) (tr : Trip) : Trip :=
  { tr with segment := segmentAt s.tables.active tr.tariff (tripDistance s tr) }

/-- The trip whose waiting sides begin to step: under DOUBLE, in ALLOWANCE with an inactive counter (06 R92 step 3). -/
def Trip.sidesStarted (s : State) (tr : Trip) : Trip :=
  let double := (currentHeader s tr).double
  let seg := currentSegment s tr
  let distanceStarts := double = true ∧ tr.distancePhase = .allowance ∧ tr.dc = none
  let timeStarts := double = true ∧ tr.timePhase = .allowance ∧ tr.tc = none
  { tr with
    dc := if distanceStarts then some (pulsesFor s.time.k seg.d) else tr.dc
    distancePhase := if distanceStarts then .stepping else tr.distancePhase
    tc := if timeStarts then timeLoad seg.t else tr.tc
    timePhase := if timeStarts then .stepping else tr.timePhase }

/-- The time counter adjusted to the step time of the segment in force: a side in STEPPING starts or stops (06 R91). -/
def adjustedTc (phase : Phase) (tc load : Option Nat) : Option Nat :=
  if phase = .stepping then (if tc = none ∨ load = none then load else tc) else tc

/-- The trip with its time side adjusted (06 R91). -/
def Trip.timeAdjusted (s : State) (tr : Trip) : Trip :=
  { tr with tc := adjustedTc tr.timePhase tr.tc (timeLoad (currentSegment s tr).t) }

/-- The trip under its new tariff, before the fare limit test and the new period (06 R92). -/
def Trip.retariffed (s : State) (tariff : Nat) (tr : Trip) : Trip :=
  ((({ tr with tariff := tariff }.resegmented s).sidesStarted s).timeAdjusted s).surcharged s

theorem reevaluateSegment_eq (ht : s.trip = some tr) :
    reevaluateSegment s = { s with trip := some (tr.resegmented s) } := by
  simp only [reevaluateSegment, withTrip, ht, Option.map_some]
  rfl

theorem startWaitingSides_eq (ht : s.trip = some tr) :
    startWaitingSides s = { s with trip := some (tr.sidesStarted s) } := by
  simp only [startWaitingSides, withTrip, ht, Option.map_some]
  refine congrArg (fun x => { s with trip := some x }) ?_
  unfold Trip.sidesStarted
  by_cases hdouble : (currentHeader s tr).double = true
  · simp only [hdouble, true_and, if_true]
    split <;> split <;> rfl
  · simp only [hdouble, false_and, if_false, Bool.false_eq_true]

theorem adjustTimeSide_eq (ht : s.trip = some tr) :
    adjustTimeSide s = { s with trip := some (tr.timeAdjusted s) } := by
  simp only [adjustTimeSide, withTrip, ht, Option.map_some]
  refine congrArg (fun x => { s with trip := some x }) ?_
  unfold Trip.timeAdjusted
  split
  case h_1 n hphase htc hload => simp [adjustedTc, hphase, htc, hload]
  case h_2 n hphase htc hload => simp [adjustedTc, hphase, htc, hload]
  case h_3 hstarts hstops =>
    have hkept : adjustedTc tr.timePhase tr.tc (timeLoad (currentSegment s tr).t) = tr.tc := by
      unfold adjustedTc
      split
      case isFalse => rfl
      case isTrue hphase =>
        cases hc : tr.tc with
        | none =>
          cases hl : timeLoad (currentSegment s tr).t with
          | none => rfl
          | some n => exact absurd hl (hstarts n hphase hc)
        | some n => exact if_neg fun h => h.elim nofun (hstops n hphase hc)
    rw [hkept]

/-- A time side that begins to step holds the step time already. -/
theorem adjustedTc_started (starts : Prop) [Decidable starts] (phase : Phase) (tc load : Option Nat) :
    adjustedTc (if starts then .stepping else phase) (if starts then load else tc) load =
      if starts then load else adjustedTc phase tc load := by
  by_cases h : starts
  · simp only [h, if_true, adjustedTc, ite_self]
  · simp only [h, if_false]

theorem applySurcharge_eq (ht : s.trip = some tr) : applySurcharge s = { s with trip := some (tr.surcharged s) } := by
  simp only [applySurcharge, withTrip, ht, Option.map_some]
  rfl

theorem fareTariffChange_eq (ht : s.trip = some tr) (tariff : Nat) :
    fareTariffChange (withTrip (fun tr => { tr with tariff := tariff }) s) =
      fareChanged { s with trip := some (tr.retariffed s tariff) } := by
  have hset : withTrip (fun tr => { tr with tariff := tariff }) s = { s with trip := some { tr with tariff := tariff } } := by
    simp only [withTrip, ht, Option.map_some]
  unfold fareTariffChange
  rw [hset, reevaluateSegment_eq rfl, startWaitingSides_eq rfl, adjustTimeSide_eq rfl, applySurcharge_eq rfl]
  rfl

/-! The list of tariff periods (05 R72, R73). -/

/-- The trip with the period that begins now, or with its list marked full (05 R73). -/
def Trip.withPeriod (s : State) (tr : Trip) : Trip :=
  { tr with
    periods := if tr.periods.length < 4 then tr.periods ++ [periodNow s tr] else tr.periods
    tariffListFull := tr.tariffListFull || decide (4 ≤ tr.periods.length) }

/-- TARIFF LIST FULL occurs at the change that first finds the list full (05 R72 step 4). -/
def Trip.listFullEvents (tr : Trip) : List Event :=
  if 4 ≤ tr.periods.length ∧ tr.tariffListFull = false then [.tariffListFull] else []

theorem State.Occurs.periodAdded (h : s.Occurs t ms es) (ht : s.trip = some tr) :
    ({ s with trip := some (tr.withPeriod s) } : State).Occurs (addPeriod t) ms
      (es ++ [.tariffChange] ++ tr.listFullEvents) := by
  unfold addPeriod
  rw [h.trip_eq, ht]
  dsimp only
  by_cases hroom : tr.periods.length < 4
  · have hperiod : periodNow t tr = periodNow s tr := by rw [h.rest]; rfl
    have hadded : tr.withPeriod s = { tr with periods := tr.periods ++ [periodNow t tr] } := by
      simp [Trip.withPeriod, hroom, hperiod]
    have hevents : tr.listFullEvents = [] := if_neg fun hf => absurd hf.1 (by omega)
    rw [if_pos hroom, hadded, hevents, List.append_nil]
    exact (h.withTrip ht fun tr => { tr with periods := tr.periods ++ [periodNow t tr] }).raised .tariffChange
  · have hmarked : tr.withPeriod s = { tr with tariffListFull := true } := by
      simp [Trip.withPeriod, hroom, Nat.le_of_not_lt hroom]
    rw [if_neg hroom, hmarked]
    cases hfull : tr.tariffListFull with
    | true =>
      have hsame : { tr with tariffListFull := true } = tr := by rw [← hfull]
      have hevents : tr.listFullEvents = [] := if_neg fun hf => by simp [hfull] at hf
      rw [hsame, ← ht, hevents, List.append_nil]
      exact h.raised .tariffChange
    | false =>
      have hevents : tr.listFullEvents = [.tariffListFull] := if_pos ⟨Nat.le_of_not_lt hroom, hfull⟩
      rw [hevents]
      exact ((h.raised .tariffChange).withTrip ht fun tr => { tr with tariffListFull := true }).raised .tariffListFull

theorem addPeriod_signPlace (s : State) : (addPeriod s).link.signPlace = s.link.signPlace := by
  unfold addPeriod
  repeat' split
  all_goals simp

/-! The outcome of a run (05 R71). -/

/-- The trip after a change to a tariff (05 R72, 06 R92). -/
def Trip.changed (s : State) (tariff : Nat) (tr : Trip) : Trip := ((tr.retariffed s tariff).limited).withPeriod s

/-- The new step time starts or stops a time side in STEPPING, and loads one that begins to step (06 R91, R92). -/
theorem Trip.changed_tc (s : State) (tariff : Nat) (tr : Trip) :
    let new := tariffSegment s.tables.active tariff (segmentAt s.tables.active tariff (tripDistance s tr))
    let load := if new.t = 0 then none else some new.t
    (tr.changed s tariff).tc =
      if (tariffHeader s.tables.active tariff).double = true ∧ tr.timePhase = .allowance ∧ tr.tc = none then load
      else if tr.timePhase = .stepping then (if tr.tc = none ∨ new.t = 0 then load else tr.tc) else tr.tc := by
  intro new load
  have hload : load = none ↔ new.t = 0 := by simp [load]
  have hstarted : (tr.changed s tariff).tc =
      if (tariffHeader s.tables.active tariff).double = true ∧ tr.timePhase = .allowance ∧ tr.tc = none then load
      else adjustedTc tr.timePhase tr.tc load := adjustedTc_started _ tr.timePhase tr.tc load
  simp only [hstarted, adjustedTc, hload]

theorem Trip.changed_fareLimit (s : State) (tariff : Nat) (tr : Trip) :
    (tr.changed s tariff).fareLimit = (tr.fareLimit || decide (999999 < (tr.changed s tariff).fareSum)) :=
  (tr.retariffed s tariff).limited_flag

theorem State.Occurs.tariffChanged (h : s.Occurs t ms es) (ht : s.trip = some tr) (tariff : Nat) :
    ({ s with trip := some (tr.changed s tariff) } : State).Occurs (changeTariff tariff t) ms
      (es ++ (if (tr.retariffed s tariff).exceeds then [.fareLimit] else []) ++ [.tariffChange] ++ tr.listFullEvents) := by
  have hnew : tr.retariffed t tariff = tr.retariffed s tariff := by rw [h.rest]; rfl
  unfold changeTariff
  rw [fareTariffChange_eq (h.trip_eq.trans ht), hnew]
  exact (((h.tripSet (tr.retariffed s tariff)).fareChanged rfl).periodAdded rfl).display

theorem changeTariff_signPlace (tariff : Nat) (s : State) : (changeTariff tariff s).link.signPlace = s.link.signPlace := by
  unfold changeTariff fareTariffChange
  rw [placeDisplay_signPlace, addPeriod_signPlace, fareChanged_signPlace]
  simp

theorem runForTrip_same (ht : s.trip = some tr) {r : SelectionResult}
    (hr : r = selectionRun s.tables.active (selectionInput s tr.passengers tr.tariffKey))
    (h : r.tariff = none ∨ r.tariff = some tr.tariff) : runForTrip s = selectionEvents r s := by
  subst hr
  unfold runForTrip
  rw [ht]
  rcases h with h | h <;> simp [h]

theorem runForTrip_other (ht : s.trip = some tr) {r : SelectionResult}
    (hr : r = selectionRun s.tables.active (selectionInput s tr.passengers tr.tariffKey)) {tariff : Nat}
    (h : r.tariff = some tariff) (hne : tariff ≠ tr.tariff) :
    runForTrip s = changeTariff tariff (selectionEvents r s) := by
  subst hr
  unfold runForTrip
  rw [ht]
  simp [h, hne]

/-- Settles O31: the run's events by `selectionEvents_occurs`, and a change of tariff by `State.Occurs.tariffChanged`. -/
theorem runOutcomeApplied : Obligations.RunOutcomeApplied := by
  intro s tr ho ht r
  obtain ⟨hevents, hplaces⟩ := selectionEvents_occurs r s ho
  refine ⟨fun hsame => ?_, fun tariff hr hne => ⟨tr.changed s tariff, ?_⟩⟩
  · rw [runForTrip_same ht rfl hsame]
    exact ⟨hevents, hplaces⟩
  · have hrun := runForTrip_other ht rfl hr hne
    rw [hrun]
    refine ⟨?_, placeDisplay_shows _, (changeTariff_signPlace _ _).trans hplaces.1, ?_⟩
    · have hchange := hevents.tariffChanged ht tariff
      have hlimit : (if (tr.retariffed s tariff).exceeds then [Event.fareLimit] else []) =
          if 999999 < (tr.changed s tariff).fareSum ∧ tr.fareLimit = false then [Event.fareLimit] else [] := by
        simp only [Trip.exceeds, decide_eq_true_eq]
        rfl
      rw [hlimit] at hchange
      exact hchange
    · calc tr.changed s tariff
          = { tr.changed s tariff with
              tc := (tr.changed s tariff).tc, fareLimit := (tr.changed s tariff).fareLimit } := rfl
        _ = _ := by
          rw [Trip.changed_tc, Trip.changed_fareLimit]
          rfl

end Sys2Proof.Machine
end

