-- ==== Sys2Proof/Proofs/HireResume.lean ====
section
/-! PROOF. HIRE (07 R113, R114; 06 R84, R85), the refusals of a KEY by its form (07 R107) and RESUME (07 R121). -/

namespace Sys2Proof.Machine

variable {s u : State} {es : List Event} {ms : List Outbound} {tr : Trip}

/-! A change of meter state that ends a handling (07 R106). -/

theorem State.Occurs.meterSet (h : s.Occurs u ms es) (m : MeterState) :
    ({ s with meter := m, sign := s.signTold m } : State).Occurs (setMeter m u) ms (es ++ [.stateChange]) := by
  refine State.Sends.occurs ?_
  have hnotices : noticesAll (es ++ [.stateChange]) s.disp =
      noticesAll es s.disp ++ noticesOf .stateChange (s.disp.heardAll es) := by
    simp [noticesAll_append, noticesAll]
  have hset := h.sends.setMeter m
  rw [List.append_assoc, ← hnotices] at hset
  exact hset

/-! The numbers of the next trip (07 R114). -/

/-- Occurrences leave a shift's number and its trips. -/
theorem countAll_numbers (map : Four EventSet) (es : List Event) (r : ShiftRecord) :
    (countAll map es r).number = r.number ∧ (countAll map es r).trips = r.trips := by
  induction es generalizing r with
  | nil => exact ⟨rfl, rfl⟩
  | cons e es ih => exact ih (countEvent map e r)

theorem State.Occurs.tripNumbers (h : s.Occurs u ms es) :
    nextTripNumber u = nextTripNumber s ∧ shiftNumberNow u = shiftNumberNow s := by
  rw [h.rest]
  simp only [nextTripNumber, shiftNumberNow, State.shiftsCounted]
  cases s.shifts.record with
  | none => exact ⟨rfl, rfl⟩
  | some r =>
    obtain ⟨hnumber, htrips⟩ := countAll_numbers (exceptionMap s.tables.unbanked) es r
    simp only [Option.map_some, hnumber, htrips, and_self]

/-- A trip opened after a run's events has the values that stood before them. -/
theorem State.Occurs.newTrip_eq (h : s.Occurs u ms es) (tariff key : Nat) : newTrip u tariff key = newTrip s tariff key := by
  obtain ⟨htrip, hshift⟩ := h.tripNumbers
  have htables : u.tables = s.tables := by rw [h.rest]
  have htime : u.time = s.time := by rw [h.rest]
  simp only [newTrip, clockNow, htrip, hshift, htables, htime]

/-! The two sides at HIRE (06 R85). -/

theorem openDistance_cases (k : Nat) (h : TariffHeader) (seg : Segment) :
    (0 < h.d0 → openDistance k h seg = (.allowance, some (pulsesFor k h.d0))) ∧
      (h.d0 = 0 → (h.double = true ∨ h.t0 = 0) → openDistance k h seg = (.stepping, some (pulsesFor k seg.d))) ∧
      (h.d0 = 0 → h.double = false → 0 < h.t0 → openDistance k h seg = (.allowance, none)) := by
  unfold openDistance
  refine ⟨fun h0 => if_pos h0, fun h0 hsteps => ?_, fun h0 hsingle ht => ?_⟩
  · rw [if_neg (by omega), if_pos (by simpa using hsteps)]
  · rw [if_neg (by omega), if_neg (by simp [hsingle]; omega)]

theorem openTime_cases (h : TariffHeader) (seg : Segment) :
    (0 < h.t0 → openTime h seg = (.allowance, some h.t0)) ∧
      (h.t0 = 0 → (h.double = true ∨ h.d0 = 0) → openTime h seg = (.stepping, timeLoad seg.t)) ∧
      (h.t0 = 0 → h.double = false → 0 < h.d0 → openTime h seg = (.allowance, none)) := by
  unfold openTime
  refine ⟨fun h0 => if_pos h0, fun h0 hsteps => ?_, fun h0 hsingle hd => ?_⟩
  · rw [if_neg (by omega), if_pos (by simpa using hsteps)]
  · rw [if_neg (by omega), if_neg (by simp [hsingle]; omega)]

/-! Opening a trip (07 R113). -/

/-- The trip record that HIRE opens, with its surcharge and its first period (07 R113, 05 R73). -/
def openedTrip (s : State) (tariff key : Nat) : Trip :=
  let tr := (newTrip s tariff key).surcharged s
  { tr with periods := [periodNow s tr] }

theorem State.Occurs.firstPeriod (h : s.Occurs u ms es) (ht : s.trip = some tr) :
    ({ s with trip := some { tr with periods := [periodNow s tr] } } : State).Occurs (firstPeriod u) ms es := by
  have hperiod : periodNow u tr = periodNow s tr := by rw [h.rest]; rfl
  rw [← hperiod]
  exact h.withTrip ht fun tr => { tr with periods := [periodNow u tr] }

theorem State.Occurs.shownMode (h : s.Occurs u ms es) :
    ({ s with intercom := { s.intercom with shownMode := shownModeOf s.intercom.floor (openFlagNow s) } } : State).Occurs
      (updateShownMode u) ms es :=
  State.Sends.occurs h.sends.shownMode

theorem State.Occurs.opened (h : s.Occurs u ms es) (tariff key : Nat) :
    ({ s with
      meter := .hired, trip := some (openedTrip s tariff key), sign := s.signTold .hired
      intercom := { s.intercom with shownMode := shownModeOf s.intercom.floor false } } : State).Occurs
      (openTrip tariff key u) ms (es ++ [.stateChange]) := by
  have hnew := (h.tripSet (newTrip u tariff key)).shownMode
  rw [h.newTrip_eq] at hnew
  unfold openTrip
  rw [h.newTrip_eq]
  exact (((hnew.surcharged rfl).firstPeriod rfl).meterSet .hired).display

theorem openTrip_shows (tariff key : Nat) (s : State) : (openTrip tariff key s).Shows := placeDisplay_shows _

theorem openTrip_signs (tariff key : Nat) (h : s.sign.emergency = none) : (openTrip tariff key s).Signs := by
  have hmeter : (setMeter .hired (firstPeriod (applySurcharge (updateShownMode
      { s with trip := some (newTrip s tariff key) })))).Signs := setMeter_signs .hired _ (by simpa [firstPeriod] using h)
  exact hmeter

theorem openTrip_signPlace (tariff key : Nat) (h : s.sign.emergency ≠ none) :
    (openTrip tariff key s).link.signPlace = s.link.signPlace := by
  unfold openTrip
  dsimp only
  rw [placeDisplay_signPlace, setMeter_signPlace _ _ (by simpa [firstPeriod] using h)]
  simp [firstPeriod, updateShownMode_signPlace]

/-! HIRE (07 R113, 05 R69). -/

theorem keyHire_range (src : Station) {key : Byte} (h : 4 < key.toNat) (s : State) :
    keyHire src key s = refuse src keyCode .badValue s := if_pos h

theorem keyHire_state (src : Station) {key : Byte} (h : key.toNat ≤ 4) (hv : s.meter ≠ .vacant) (hc : s.meter ≠ .onCall) :
    keyHire src key s = refuse src keyCode .refusedState s :=
  (if_neg (by omega)).trans (if_neg fun hm => hm.elim hv hc)

section

variable {src : Station} {key : Byte} {r : SelectionResult} (hkey : key.toNat ≤ 4)
  (hmeter : s.meter = .vacant ∨ s.meter = .onCall)
  (hr : r = selectionRun s.tables.active (selectionInput s 1 key.toNat))

include hkey hmeter hr

/-- Without a result a HIRE is refused with NO_TARIFF, and the run's events follow (05 R69). -/
theorem keyHire_noTariff (h : r.tariff = none) :
    keyHire src key s = selectionEvents r (refuse src keyCode .noTariff s) := by
  subst hr
  refine (if_neg (by omega)).trans ((if_pos hmeter).trans ?_)
  simp only [h]

/-- With a result a HIRE is answered, the run's events follow, and the trip opens (07 R113). -/
theorem keyHire_opens {tariff : Nat} (h : r.tariff = some tariff) :
    keyHire src key s =
      openTrip tariff key.toNat (selectionEvents r (reply src keyCode .ok
        (beBytes 2 (nextTripNumber s) ++ beBytes 1 tariff ++ beBytes 1 (tariffHeader s.tables.active tariff).label) s)) := by
  subst hr
  refine (if_neg (by omega)).trans ((if_pos hmeter).trans ?_)
  simp only [h]

end

/-- A REPLY and then the events of a run: what the two are, what they do to the refresh places, and that the sign's state stands. -/
theorem repliedRun_occurs (ho : s.link.orderly) (dest : Station) (kind : Byte) (result : Result) (data : List Byte)
    (r : SelectionResult) :
    s.Occurs (selectionEvents r (reply dest kind result data s)) [replyMessage dest kind result data] r.events ∧
      s.PlacesFollow (selectionEvents r (reply dest kind result data s)) ∧
      (selectionEvents r (reply dest kind result data s)).sign = s.sign := by
  have hreply := reply_occurs dest kind result data s ho
  obtain ⟨hevents, hplaces⟩ := selectionEvents_occurs r _ hreply.orderly
  exact ⟨hreply.trans hevents, ((State.PlacesFollow.refl s).offered _).trans hplaces hreply.sends hevents.sends, by simp⟩

/-- A key command of the wrong length, or with an argument where the key has none, is refused with BAD_VALUE (07 R107). -/
theorem exec_key_refused {c : Instr} {code : Byte} {args : List Byte}
    (hc : messageOf c = some (keyMessage .meterHead code args)) (hsensed : sensed c s = s) (hs : s.Ready)
    (h : args.length ≠ 1 ∨ code ∈ bareKeys ∧ args ≠ [0#8]) :
    exec c s = .next (s.answered .meterHead 1#8 .badValue []) := by
  rw [exec_key hc hs, hsensed]
  refine congrArg _ (Eq.trans ?_ (refuse_answered .meterHead keyCode .badValue s hs))
  rcases h with hlength | ⟨hbare, hargs⟩
  · exact takeKey_length .meterHead code hlength s
  · exact takeKey_argument .meterHead hbare hargs s

/-- Settles O36: the refusals by `exec_key_refused` and the equations of `keyHire`, the trip opened by `State.Occurs.opened`, its
sides by `openDistance_cases` and `openTime_cases`. -/
theorem hireOpensTrip : Obligations.HireOpensTrip := by
  refine ⟨?_, ?_⟩
  · intro s command args hs bare keyed hform
    rcases hform with ⟨hbare, hargs⟩ | ⟨hkeyed, hlength⟩
    · simp only [bare, List.mem_cons, List.not_mem_nil, or_false] at hbare
      rcases hbare with rfl | rfl | rfl | rfl | rfl | rfl | rfl | rfl | rfl | rfl | rfl | rfl
      all_goals exact exec_key_refused rfl rfl hs (.inr ⟨by decide, hargs⟩)
    · simp only [keyed, List.mem_cons, List.not_mem_nil, or_false] at hkeyed
      rcases hkeyed with rfl | rfl | rfl | rfl
      all_goals exact exec_key_refused rfl rfl hs (.inl hlength)
  · intro s key hs command
    have hexec : exec command s = .next (keyHire .meterHead key s) :=
      exec_key (c := .hire .meterHead [key]) (code := 1#8) rfl hs
    have hrefused : ∀ r, refuse .meterHead keyCode r s = s.answered .meterHead 1#8 r [] := fun r =>
      refuse_answered _ _ r s hs
    have ho := hs.orderly
    refine ⟨fun hrange => ?_, fun hkey hv hc => ?_, fun hkey hmeter => ?_⟩
    · rw [hexec, keyHire_range _ hrange, hrefused]
    · rw [hexec, keyHire_state _ hkey hv hc, hrefused]
    · intro r
      refine ⟨fun hr => ?_, fun t hr => ?_⟩
      · obtain ⟨hrun, hplaces, -⟩ := repliedRun_occurs ho .meterHead keyCode .noTariff [] r
        exact ⟨_, hexec.trans (congrArg _ (keyHire_noTariff hkey hmeter rfl hr)), hrun, hplaces⟩
      · intro h seg
        have hopens := hexec.trans (congrArg _ (keyHire_opens hkey hmeter rfl hr))
        obtain ⟨hrun, hplaces, hsign⟩ := repliedRun_occurs ho .meterHead keyCode .ok
          (beBytes 2 (nextTripNumber s) ++ beBytes 1 t ++ beBytes 1 h.label) r
        obtain ⟨hallowance, hsteps, hwaits⟩ := openDistance_cases s.time.k h seg
        obtain ⟨tallowance, tsteps, twaits⟩ := openTime_cases h seg
        refine ⟨_, openedTrip s t key.toNat, hopens, openTrip_shows _ _ _,
          fun he => openTrip_signs _ _ (by rw [hsign, he]), fun he => (openTrip_signPlace _ _ (by rwa [hsign])).trans hplaces.1,
          hrun.opened t key.toNat, rfl, rfl, rfl, rfl, rfl, rfl, rfl, rfl, rfl, rfl, rfl,
          ⟨rfl, rfl, rfl, rfl, rfl, rfl, rfl, rfl, rfl, rfl, rfl, rfl, rfl, rfl⟩, ⟨rfl, rfl, rfl, rfl, rfl, rfl⟩,
          fun h0 => Prod.ext_iff.mp (hallowance h0), fun h0 hd => Prod.ext_iff.mp (hsteps h0 hd),
          fun h0 hd ht => Prod.ext_iff.mp (hwaits h0 hd ht), fun h0 => Prod.ext_iff.mp (tallowance h0),
          fun h0 hd => Prod.ext_iff.mp (tsteps h0 hd), fun h0 hd ht => Prod.ext_iff.mp (twaits h0 hd ht)⟩

/-! RESUME (07 R121). -/

theorem keyResume_state (src : Station) (h : s.meter ≠ .settling) :
    keyResume src 0#8 s = refuse src keyCode .refusedState s := by
  rw [keyResume, withNoArgument_zero]
  split
  case h_1 hm _ => exact absurd hm h
  case h_2 => rfl

theorem keyResume_settling (src : Station) (hm : s.meter = .settling) (ht : s.trip = some tr) :
    keyResume src 0#8 s =
      if tr.tenders = [] ∧ authPending s = false then
        placeDisplay (runForTrip (setMeter .hired (offerEnded (dropFareDue (reply src keyCode .ok [] s)))))
      else refuse src keyCode .refusedState s := by
  rw [keyResume, withNoArgument_zero, hm, ht]

/-- The trip back in HIRED, before the run (07 R121, 06 R102). -/
theorem resumed_sends (ho : s.link.orderly) (ht : s.trip = some tr) (src : Station) :
    ({ s with
      meter := .hired, sign := s.signTold .hired
      trip := some { tr with fareDue := none, roundingDiff := 0, promptMark := false } } : State).Sends
      (setMeter .hired (offerEnded (dropFareDue (reply src keyCode .ok [] s)))) [.stateChange]
      (replyMessage src keyCode .ok [] :: endedMessages tr ++ noticesOf .stateChange s.disp) := by
  have hdropped := ((State.Sends.refl ho).replied src keyCode .ok []).withTrip
    fun tr => { tr with fareDue := none, roundingDiff := 0 }
  rw [ht] at hdropped
  exact (hdropped.ended rfl).setMeter .hired

/-- Settles O40: the refusals by the equations of `keyResume`, and the return to HIRED by `resumed_sends`. -/
theorem resumeReturnsToHired : Obligations.ResumeReturnsToHired := by
  have hexec : ∀ {s : State}, s.Ready → exec (.resume .meterHead [0#8]) s = .next (keyResume .meterHead 0#8 s) :=
    fun {s} hs => exec_key (c := .resume .meterHead [0#8]) (code := 3#8) rfl hs
  have hrefused : ∀ {s : State}, s.Ready →
      refuse .meterHead keyCode .refusedState s = s.answered .meterHead 1#8 .refusedState [] := fun hs =>
    refuse_answered _ _ _ _ hs
  refine ⟨fun s hs hm => ?_, fun s tr hs hm ht => ?_⟩
  · rw [hexec hs, keyResume_state _ hm, hrefused hs]
  · have hpending : authPending s = false ↔ s.pay.auth = none := by simp [authPending]
    rw [hexec hs, keyResume_settling _ hm ht]
    refine ⟨fun h => ?_, fun htenders hauth => ⟨_, congrArg _ (if_pos ⟨htenders, hpending.mpr hauth⟩),
      setMeter_shows _ _, fun he => setMeter_signs .hired _ (by simpa using he), fun he => ?_, resumed_sends hs.orderly ht _⟩⟩
    · rw [if_neg fun ⟨htenders, hauth⟩ => h.elim (· htenders) (· (hpending.mp hauth)), hrefused hs]
    · rw [setMeter_signPlace _ _ (by simpa using he), offerEnded_signPlace]
      simp [reply]

end Sys2Proof.Machine
end

