-- ==== Sys2Proof/Proofs/TripStanding.lean ====
section
/-! PROOF. What the operations leave of the things that the agreement of 07 R114, 06 R81, 11 R177 and 10 R160 speaks of: whether
a trip record with or without a fare due stands, whether a shift record stands, and whether an authorization is pending. -/

namespace Sys2Proof.Machine

/-- Whether a trip record stands, and whether with a fare due (07 R114, 06 R81). -/
def dueIn (trip : Option Trip) : Option Bool := trip.map fun tr => tr.fareDue.isSome

@[simp] theorem dueIn_none : dueIn none = none := rfl

@[simp] theorem dueIn_some (tr : Trip) : dueIn (some tr) = some tr.fareDue.isSome := rfl

/-- A change of the trip record that leaves the presence of its fare due. -/
@[simp] theorem dueIn_map {f : Trip → Trip} (h : ∀ tr, (f tr).fareDue.isSome = tr.fareDue.isSome) (trip : Option Trip) :
    dueIn (trip.map f) = dueIn trip := by
  cases trip with
  | none => rfl
  | some tr => exact congrArg some (h tr)

section

variable (s : State) (src st : Station) (payload : List Byte) (arg : Byte) (e : Event) (side : Side) (tr : Trip)
  (ref : Reference)

/-! Events and the shift record (02 R25; 11 R177 to R183): counting in a shift record neither opens nor closes it. -/

@[simp] theorem raise_shiftOpen : (raise e s).shifts.record.isSome = s.shifts.record.isSome := by simp [raise_shifts]

@[simp] theorem raiseIf_shiftOpen (c : Bool) : (raiseIf c e s).shifts.record.isSome = s.shifts.record.isSome := by
  unfold raiseIf; split <;> simp

@[simp] theorem emergencyBegins_shiftOpen : (emergencyBegins s).shifts.record.isSome = s.shifts.record.isSome := by
  simp [emergencyBegins]

@[simp] theorem debounceTick_shiftOpen : (debounceTick s).shifts.record.isSome = s.shifts.record.isSome := by
  unfold debounceTick; repeat' split
  all_goals simp

@[simp] theorem debounceCompletes_shiftOpen : (debounceCompletes s).shifts.record.isSome = s.shifts.record.isSome := by
  unfold debounceCompletes; split <;> simp

@[simp] theorem lampNewlyFailed_shiftOpen : (lampNewlyFailed s).shifts.record.isSome = s.shifts.record.isSome := by
  simp [lampNewlyFailed]

@[simp] theorem checkLamp_shiftOpen (held reported : BitVec 3) (lamp : Nat) :
    (checkLamp held reported lamp s).shifts.record.isSome = s.shifts.record.isSome := by
  unfold checkLamp; split <;> simp

@[simp] theorem signStatusTaken_shiftOpen (ambient : Nat) (reported : BitVec 3) :
    (signStatusTaken ambient reported s).shifts.record.isSome = s.shifts.record.isSome := by
  unfold signStatusTaken; dsimp only; split <;> simp

@[simp] theorem shiftPulse_shiftOpen : (shiftPulse s).shifts.record.isSome = s.shifts.record.isSome := by simp [shiftPulse]

@[simp] theorem shiftDrop_shiftOpen : (shiftDrop side s).shifts.record.isSome = s.shifts.record.isSome := by simp [shiftDrop]

@[simp] theorem accountTrip_shiftOpen : (accountTrip s).shifts.record.isSome = s.shifts.record.isSome := by
  unfold accountTrip shiftTripClosed journalPlace
  dsimp only
  repeat' split
  all_goals simp

@[simp] theorem shiftMarkDeclined_shiftOpen : (shiftMarkDeclined ref s).shifts.record.isSome = s.shifts.record.isSome := rfl

@[simp] theorem mixEvent_shiftOpen (x : Four Sample) : (mixEvent x s).shifts.record.isSome = s.shifts.record.isSome := by
  simp [mixEvent]

@[simp] theorem selectionEvents_shiftOpen (r : SelectionResult) :
    (selectionEvents r s).shifts.record.isSome = s.shifts.record.isSome := by
  simp [selectionEvents]

@[simp] theorem performActivation_shiftOpen (version : Nat) :
    (performActivation version s).shifts.record.isSome = s.shifts.record.isSome := by
  simp [performActivation]

@[simp] theorem activationAtClose_shiftOpen : (activationAtClose s).shifts.record.isSome = s.shifts.record.isSome := by
  unfold activationAtClose; split <;> simp

@[simp] theorem takeTableActivate_shiftOpen :
    (takeTableActivate src payload s).shifts.record.isSome = s.shifts.record.isSome := by
  unfold takeTableActivate; dsimp only; repeat' split
  all_goals simp

@[simp] theorem setMeter_shiftOpen (m : MeterState) : (setMeter m s).shifts.record.isSome = s.shifts.record.isSome := by
  simp [setMeter]

@[simp] theorem takeReportRelease_shiftOpen :
    (takeReportRelease src payload s).shifts.record.isSome = s.shifts.record.isSome := by
  unfold takeReportRelease; dsimp only; repeat' split
  all_goals simp

@[simp] theorem takeSnapshotTake_shiftOpen :
    (takeSnapshotTake src payload s).shifts.record.isSome = s.shifts.record.isSome := by
  unfold takeSnapshotTake; dsimp only; repeat' split
  all_goals simp

@[simp] theorem takeSnapshotRelease_shiftOpen :
    (takeSnapshotRelease src payload s).shifts.record.isSome = s.shifts.record.isSome := by
  unfold takeSnapshotRelease; dsimp only; repeat' split
  all_goals simp

@[simp] theorem stationFailsCheck_shiftOpen : (stationFailsCheck st s).shifts.record.isSome = s.shifts.record.isSome := by
  simp [stationFailsCheck]

@[simp] theorem receptionAdvances_shiftOpen (l : List Byte) :
    (receptionAdvances st l s).shifts.record.isSome = s.shifts.record.isSome := by
  unfold receptionAdvances; dsimp only; repeat' split
  all_goals simp

/-! The fare engine, the tariff selector and the party's keys (05, 06, 07 R116): no drop, segment, surcharge or period gives a
trip its fare due. -/

@[simp] theorem setOpenFlag_dueIn (v : Bool) : dueIn (setOpenFlag v s).trip = dueIn s.trip := by
  unfold setOpenFlag; split <;> simp

@[simp] theorem keyOpenToggle_dueIn : dueIn (keyOpenToggle src arg s).trip = dueIn s.trip := by
  unfold keyOpenToggle withNoArgument; dsimp only; repeat' split
  all_goals simp

@[simp] theorem callTaken_standing :
    dueIn (callTaken s).trip = dueIn s.trip ∧ (callTaken s).shifts.record.isSome = s.shifts.record.isSome := by
  simp [callTaken]

@[simp] theorem testFareLimit_standing :
    dueIn (testFareLimit s).trip = dueIn s.trip ∧ (testFareLimit s).shifts.record.isSome = s.shifts.record.isSome := by
  unfold testFareLimit; split <;> (try split) <;> simp

@[simp] theorem fareChanged_standing :
    dueIn (fareChanged s).trip = dueIn s.trip ∧ (fareChanged s).shifts.record.isSome = s.shifts.record.isSome := by
  simp [fareChanged]

@[simp] theorem reevaluateSegment_dueIn : dueIn (reevaluateSegment s).trip = dueIn s.trip := by simp [reevaluateSegment]

@[simp] theorem loadDc_dueIn : dueIn (loadDc s).trip = dueIn s.trip := by simp [loadDc]

@[simp] theorem loadTc_dueIn : dueIn (loadTc s).trip = dueIn s.trip := by simp [loadTc]

@[simp] theorem applySurcharge_dueIn : dueIn (applySurcharge s).trip = dueIn s.trip := by simp [applySurcharge]

@[simp] theorem adjustTimeSide_dueIn : dueIn (adjustTimeSide s).trip = dueIn s.trip := by
  refine dueIn_map (fun tr => ?_) s.trip
  split <;> rfl

@[simp] theorem startWaitingSides_dueIn : dueIn (startWaitingSides s).trip = dueIn s.trip := by
  refine dueIn_map (fun tr => ?_) s.trip
  repeat' split
  all_goals rfl

@[simp] theorem chargeDrop_standing :
    dueIn (chargeDrop side s).trip = dueIn s.trip ∧ (chargeDrop side s).shifts.record.isSome = s.shifts.record.isSome := by
  cases side <;> simp [chargeDrop, shiftDrop, Trip.withDrop]

@[simp] theorem chargeIfStepping_standing :
    dueIn (chargeIfStepping side tr s).trip = dueIn s.trip ∧
      (chargeIfStepping side tr s).shifts.record.isSome = s.shifts.record.isSome := by
  unfold chargeIfStepping; split <;> simp

@[simp] theorem expireSingle_standing :
    dueIn (expireSingle side tr s).trip = dueIn s.trip ∧
      (expireSingle side tr s).shifts.record.isSome = s.shifts.record.isSome := by
  simp [expireSingle]

@[simp] theorem expireDouble_standing :
    dueIn (expireDouble side tr s).trip = dueIn s.trip ∧
      (expireDouble side tr s).shifts.record.isSome = s.shifts.record.isSome := by
  cases side
  all_goals unfold expireDouble; dsimp only
  case distance => split <;> simp [Trip.step]
  case time => simp [Trip.step]

@[simp] theorem expire_standing :
    dueIn (expire side s).trip = dueIn s.trip ∧ (expire side s).shifts.record.isSome = s.shifts.record.isSome := by
  unfold expire; split <;> (try split) <;> simp

@[simp] theorem farePulse_standing :
    dueIn (farePulse s).trip = dueIn s.trip ∧ (farePulse s).shifts.record.isSome = s.shifts.record.isSome := by
  unfold farePulse; repeat' split
  all_goals simp

@[simp] theorem fareTick_standing :
    dueIn (fareTick s).trip = dueIn s.trip ∧ (fareTick s).shifts.record.isSome = s.shifts.record.isSome := by
  unfold fareTick; repeat' split
  all_goals simp

@[simp] theorem sideExpires_standing :
    dueIn (sideExpires side s).trip = dueIn s.trip ∧ (sideExpires side s).shifts.record.isSome = s.shifts.record.isSome := by
  unfold sideExpires; repeat' split
  all_goals simp

@[simp] theorem pulseArrives_standing :
    dueIn (pulseArrives s).trip = dueIn s.trip ∧ (pulseArrives s).shifts.record.isSome = s.shifts.record.isSome := by
  unfold pulseArrives; dsimp only; repeat' split
  all_goals simp

@[simp] theorem surchargeLookup_standing :
    dueIn (surchargeLookup s).trip = dueIn s.trip ∧
      (surchargeLookup s).shifts.record.isSome = s.shifts.record.isSome := by
  unfold surchargeLookup; split <;> (try split) <;> simp

@[simp] theorem fareTariffChange_standing :
    dueIn (fareTariffChange s).trip = dueIn s.trip ∧
      (fareTariffChange s).shifts.record.isSome = s.shifts.record.isSome := by
  simp [fareTariffChange]

@[simp] theorem addPeriod_standing :
    dueIn (addPeriod s).trip = dueIn s.trip ∧ (addPeriod s).shifts.record.isSome = s.shifts.record.isSome := by
  unfold addPeriod; repeat' split
  all_goals simp

@[simp] theorem changeTariff_standing (t : Nat) :
    dueIn (changeTariff t s).trip = dueIn s.trip ∧ (changeTariff t s).shifts.record.isSome = s.shifts.record.isSome := by
  simp [changeTariff]

@[simp] theorem runForTrip_standing :
    dueIn (runForTrip s).trip = dueIn s.trip ∧ (runForTrip s).shifts.record.isSome = s.shifts.record.isSome := by
  unfold runForTrip; dsimp only; repeat' split
  all_goals simp

@[simp] theorem selectionOccasion_standing :
    dueIn (selectionOccasion s).trip = dueIn s.trip ∧
      (selectionOccasion s).shifts.record.isSome = s.shifts.record.isSome := by
  unfold selectionOccasion; split <;> simp

@[simp] theorem zoneUpdateTaken_standing (zone : Nat) :
    dueIn (zoneUpdateTaken zone s).trip = dueIn s.trip ∧
      (zoneUpdateTaken zone s).shifts.record.isSome = s.shifts.record.isSome := by
  unfold zoneUpdateTaken; split <;> simp

@[simp] theorem boundaryFires_standing :
    dueIn (boundaryFires s).trip = dueIn s.trip ∧ (boundaryFires s).shifts.record.isSome = s.shifts.record.isSome := by
  simp [boundaryFires]

@[simp] theorem clockSecondRunning_standing :
    dueIn (clockSecondRunning s).trip = dueIn s.trip ∧
      (clockSecondRunning s).shifts.record.isSome = s.shifts.record.isSome := by
  unfold clockSecondRunning; dsimp only; split <;> simp

@[simp] theorem hiredSecond_dueIn : dueIn (hiredSecond s).trip = dueIn s.trip := by
  unfold hiredSecond; split <;> simp

@[simp] theorem keyPassengers_standing :
    dueIn (keyPassengers src arg s).trip = dueIn s.trip ∧
      (keyPassengers src arg s).shifts.record.isSome = s.shifts.record.isSome := by
  unfold keyPassengers; dsimp only; (repeat' split) <;> simp

@[simp] theorem keyLuggage_standing :
    dueIn (keyLuggage src arg s).trip = dueIn s.trip ∧
      (keyLuggage src arg s).shifts.record.isSome = s.shifts.record.isSome := by
  unfold keyLuggage; dsimp only; (repeat' split) <;> simp

/-! The payment prompt and the extras cap (07 R118, 06 R97). -/

@[simp] theorem offerDue_dueIn : dueIn (offerDue s).trip = dueIn s.trip := by
  unfold offerDue; split <;> (try split) <;> simp

@[simp] theorem offerEnded_dueIn : dueIn (offerEnded s).trip = dueIn s.trip := by
  unfold offerEnded; split <;> (try split) <;> simp

@[simp] theorem keyPrompt_dueIn : dueIn (keyPrompt src arg s).trip = dueIn s.trip := by
  unfold keyPrompt withNoArgument; dsimp only; repeat' split
  all_goals simp

@[simp] theorem dueIfRaised_dueIn : dueIn (dueIfRaised tr s).trip = dueIn s.trip := by
  unfold dueIfRaised; split <;> (try split) <;> simp

@[simp] theorem extraCapped_standing :
    dueIn (extraCapped s).trip = dueIn s.trip ∧ (extraCapped s).shifts.record.isSome = s.shifts.record.isSome := by
  simp [extraCapped]

/-! The payment controller (10): captures, the deferred queue and the late list leave the pending authorization. -/

@[simp] theorem setCapture_auth (c : CaptureState) : (setCapture c s).pay.auth = s.pay.auth := rfl

@[simp] theorem onlineBegins_auth : (onlineBegins s).pay.auth = s.pay.auth := by
  unfold onlineBegins; split <;> simp [captureCheck_auth]

@[simp] theorem onlineAfter_auth (before : State) : (onlineAfter before s).pay.auth = s.pay.auth := by
  unfold onlineAfter; split <;> simp

@[simp] theorem modemStatusTaken_auth (up : Bool) : (modemStatusTaken up s).pay.auth = s.pay.auth := by
  simp [modemStatusTaken]

@[simp] theorem captureExpires_auth : (captureExpires s).pay.auth = s.pay.auth := by
  unfold captureExpires; split <;> simp

@[simp] theorem captureWaitEnds_auth : (captureWaitEnds s).pay.auth = s.pay.auth := by
  unfold captureWaitEnds; split <;> simp [captureCheck_auth]

@[simp] theorem joinLate_auth (a : Auth) (ending : Ending) : (joinLate a ending s).pay.auth = s.pay.auth := rfl

@[simp] theorem lateSecond_auth : (lateSecond s).pay.auth = s.pay.auth := rfl

@[simp] theorem lateExpires_auth (position : Nat) : (lateExpires position s).pay.auth = s.pay.auth := rfl

@[simp] theorem endAuth_auth : (endAuth s).pay.auth = none := rfl

@[simp] theorem offerVoid_shiftOpen (number farePart tip : Nat) :
    (offerVoid number ref farePart tip s).shifts.record.isSome = s.shifts.record.isSome := by
  simp [offerVoid, shiftVoid]

@[simp] theorem offlineApprove_standing (issuer cls farePart tip : Nat) (token : List Byte) :
    (offlineApprove ref issuer cls farePart tip token s).shifts.record.isSome = s.shifts.record.isSome ∧
      (offlineApprove ref issuer cls farePart tip token s).pay.auth = s.pay.auth := by
  simp [offlineApprove, shiftOfflineApproval]

@[simp] theorem resolveDeferred_standing :
    (resolveDeferred ref s).shifts.record.isSome = s.shifts.record.isSome ∧
      (resolveDeferred ref s).pay.auth = s.pay.auth := by
  unfold resolveDeferred; dsimp only; split <;> simp [shiftResolved, captureCheck_auth]

@[simp] theorem resolveLate_standing (x : LateEntry) (approved : Bool) :
    (resolveLate x approved s).shifts.record.isSome = s.shifts.record.isSome ∧
      (resolveLate x approved s).pay.auth = s.pay.auth := by
  unfold resolveLate; split <;> (try split) <;> simp

@[simp] theorem captureResponseTaken_standing (accepted : Bool) :
    (captureResponseTaken ref accepted s).shifts.record.isSome = s.shifts.record.isSome ∧
      (captureResponseTaken ref accepted s).pay.auth = s.pay.auth := by
  unfold captureResponseTaken; dsimp only; repeat' split
  all_goals simp [shiftResolved, shiftDeclined, captureCheck_auth]

/-! The stations (01 R12). -/

@[simp] theorem stationLostActs_auth : (stationLostActs st s).pay.auth = s.pay.auth := by
  cases st <;> simp [stationLostActs]

@[simp] theorem stationAnswers_standing :
    (stationAnswers st s).shifts.record.isSome = s.shifts.record.isSome ∧ (stationAnswers st s).pay.auth = s.pay.auth := by
  unfold stationAnswers; dsimp only; split <;> simp

@[simp] theorem stationMisses_standing :
    (stationMisses st s).shifts.record.isSome = s.shifts.record.isSome ∧ (stationMisses st s).pay.auth = s.pay.auth := by
  unfold stationMisses; dsimp only; split <;> simp

@[simp] theorem stationTruncates_standing :
    (stationTruncates st s).shifts.record.isSome = s.shifts.record.isSome ∧
      (stationTruncates st s).pay.auth = s.pay.auth := by
  simp [stationTruncates]

@[simp] theorem readUpLane_standing (grant : Option Station) (up : UpFrame) :
    (readUpLane grant up s).shifts.record.isSome = s.shifts.record.isSome ∧
      (readUpLane grant up s).pay.auth = s.pay.auth := by
  unfold readUpLane; repeat' split
  all_goals simp

end

end Sys2Proof.Machine
end

