-- ==== Sys2Proof/Proofs/TripAgreement.lean ====
section
/-! PROOF. Every command keeps the agreement of meter state, trip record, fare due, shift record and pending authorization
(07 R114, 06 R81, 11 R177, 10 R160): an operation that moves the meter makes the agreement of the new meter state, and every other
operation leaves what the agreement speaks of. -/

namespace Sys2Proof.Machine

/-! The agreement as one value of each part. -/

/-- What a meter state says of the trip record: none, or one without or with a fare due (07 R114, 06 R81). -/
@[simp] def MeterState.due : MeterState → Option Bool
  | .hired => some false
  | .settling => some true
  | .closed | .vacant | .onCall | .offDuty => none

theorem State.tripSound_iff (s : State) :
    s.TripSound ↔ dueIn s.trip = s.meter.due ∧ s.shifts.record.isSome = decide (s.meter ≠ .closed) ∧
      (s.pay.auth.isSome = true → s.meter = .settling) := by
  constructor
  · intro ⟨htrip, hdue, hshift, hauth⟩
    refine ⟨?_, Bool.eq_iff_iff.mpr (by simpa using hshift), hauth⟩
    cases ht : s.trip with
    | none => rw [ht] at htrip; cases hm : s.meter <;> simp_all [MeterState.due]
    | some tr => have hd := hdue tr ht; rw [ht] at htrip; cases hm : s.meter <;> simp_all [MeterState.due]
  · intro ⟨hdue, hshift, hauth⟩
    refine ⟨?_, fun tr ht => ?_, by simp [hshift], hauth⟩
    · cases ht : s.trip <;> cases hm : s.meter <;> simp_all [MeterState.due]
    · cases hm : s.meter <;> simp_all [MeterState.due]

section

variable {s t : State}

/-- An operation that leaves what the agreement speaks of keeps the agreement. -/
theorem State.TripSound.of_kept (h : s.TripSound) (k : t.meter = s.meter ∧ dueIn t.trip = dueIn s.trip ∧
    t.shifts.record.isSome = s.shifts.record.isSome ∧ t.pay.auth.isSome = s.pay.auth.isSome) : t.TripSound := by
  obtain ⟨hmeter, hdue, hopen, hauth⟩ := k
  rw [State.tripSound_iff] at h ⊢
  rwa [hmeter, hdue, hopen, hauth]

/-- An authorization is pending in SETTLING only. -/
theorem State.TripSound.noAuth (h : s.TripSound) (hm : s.meter ≠ .settling) : s.pay.auth = none := by
  rw [← Option.not_isSome_iff_eq_none]
  exact mt h.auth hm

theorem State.TripSound.shiftOpen (h : s.TripSound) (hm : s.meter ≠ .closed) : s.shifts.record.isSome = true := h.shift.mpr hm

/-- An open trip has its shift. -/
theorem State.TripSound.tripShift (h : s.TripSound) {tr : Trip} (ht : s.trip = some tr) :
    s.shifts.record.isSome = true := by
  refine h.shiftOpen fun hm => ?_
  have htrip := h.trip.mp (by simp [ht])
  simp [hm] at htrip

/-- The agreement after a change of meter state. -/
theorem setMeter_tripSound {m : MeterState} (hdue : dueIn s.trip = m.due)
    (hopen : s.shifts.record.isSome = decide (m ≠ .closed)) (hauth : s.pay.auth.isSome = true → m = .settling) :
    (setMeter m s).TripSound :=
  (State.tripSound_iff _).mpr ⟨by simpa using hdue, by simpa using hopen, by simpa using hauth⟩

/-- A move between two meter states without a trip and with a shift. -/
theorem State.TripSound.moved (h : s.TripSound) {m : MeterState} (hold : s.meter.due = none) (hopen : s.meter ≠ .closed)
    (hnew : m.due = none) (hshift : m ≠ .closed) : (setMeter m s).TripSound := by
  obtain ⟨hdue, -⟩ := s.tripSound_iff.mp h
  have hauth : s.pay.auth = none := h.noAuth fun hm => by simp [hm] at hold
  exact setMeter_tripSound (hdue.trans (hold.trans hnew.symm)) (by simp [h.shiftOpen hopen, hshift]) (by simp [hauth])

/-! The opening and the close of a trip (07 R113, R119, R122). -/

theorem closeTrip_tripSound (hopen : s.shifts.record.isSome = true) (hauth : s.pay.auth = none) :
    (closeTrip s).TripSound := by
  simp [State.tripSound_iff, closeTrip, endTrip, MeterState.due, hopen, hauth]

theorem openTrip_tripSound (hopen : s.shifts.record.isSome = true) (hauth : s.pay.auth = none) (tariff key : Nat) :
    (openTrip tariff key s).TripSound := by
  simp [State.tripSound_iff, openTrip, firstPeriod, newTrip, MeterState.due, hopen, hauth]

section

variable (h : s.TripSound)

include h

theorem recordTender_tripSound (hauth : s.pay.auth = none) (kind : TenderKind) (farePart tip : Nat) :
    (recordTender kind farePart tip s).TripSound := by
  unfold recordTender
  split
  case h_1 => exact h
  case h_2 tr ht =>
    dsimp only
    split
    · exact closeTrip_tripSound (by simpa using h.tripShift ht) (by simpa using hauth)
    · exact h.of_kept (by simp)

/-! The keys (07 R107). -/

theorem refuse_tripSound (dest : Station) (kind : Byte) (r : Result) : (refuse dest kind r s).TripSound := h.of_kept (by simp)

theorem withNoArgument_tripSound {f : State → State} (hf : (f s).TripSound) (src : Station) (arg : Byte) :
    (withNoArgument src arg f s).TripSound := by
  unfold withNoArgument
  split
  · exact hf
  · exact refuse_tripSound h _ _ _

theorem keyHire_tripSound (src : Station) (arg : Byte) : (keyHire src arg s).TripSound := by
  unfold keyHire
  dsimp only
  split
  · exact h.of_kept (by simp)
  split
  case isFalse.isTrue hm =>
    split
    · exact h.of_kept (by simp)
    · have hshift : s.meter ≠ .closed := by rcases hm with hm | hm <;> simp [hm]
      have hunpaid : s.meter ≠ .settling := by rcases hm with hm | hm <;> simp [hm]
      exact openTrip_tripSound (by simpa using h.shiftOpen hshift) (by simpa using h.noAuth hunpaid) _ _
  case isFalse.isFalse => exact h.of_kept (by simp)

theorem offerDue_tripSound : (offerDue s).TripSound := h.of_kept (by simp)

omit h in
/-- A trip whose fare due is fixed holds one. -/
theorem fixFareDue_dueIn (htrip : (dueIn s.trip).isSome = true) : dueIn (fixFareDue s).trip = some true := by
  cases ht : s.trip with
  | none => simp [ht] at htrip
  | some tr => simp [fixFareDue, ht]

/-- STOP gives the trip its fare due on the way to SETTLING; a fare due of 0 closes it. -/
theorem keyStop_tripSound (src : Station) (arg : Byte) : (keyStop src arg s).TripSound := by
  refine withNoArgument_tripSound h ?_ src arg
  dsimp only
  split
  case h_1 tr hm ht =>
    have hauth := h.noAuth (by simp [hm])
    have hopen := h.tripShift ht
    split
    · exact closeTrip_tripSound (by simpa using hopen) (by simpa using hauth)
    · exact offerDue_tripSound
        (setMeter_tripSound (fixFareDue_dueIn (by simp [ht])) (by simpa using hopen) fun _ => rfl)
  case h_2 => exact refuse_tripSound h _ _ _

/-- RESUME takes the fare due away again; no authorization is pending then. -/
theorem keyResume_tripSound (src : Station) (arg : Byte) : (keyResume src arg s).TripSound := by
  refine withNoArgument_tripSound h ?_ src arg
  dsimp only
  split
  case h_1 tr hm ht =>
    split
    case isTrue hallowed =>
      have hauth : s.pay.auth = none := by simpa [authPending] using hallowed.2
      have hhired : (setMeter .hired (offerEnded (dropFareDue (reply src keyCode .ok [] s)))).TripSound :=
        setMeter_tripSound (by simp [dropFareDue, ht]) (by simpa using h.tripShift ht) (by simp [hauth])
      exact hhired.of_kept (by simp)
    case isFalse => exact refuse_tripSound h _ _ _
  case h_2 => exact refuse_tripSound h _ _ _

theorem keyTender_tripSound (kind : TenderKind) (src : Station) : (keyTender kind src s).TripSound := by
  unfold keyTender
  split
  · split
    · exact refuse_tripSound h _ _ _
    case isFalse hpending =>
      have hauth : s.pay.auth = none := by simpa [authPending] using hpending
      exact recordTender_tripSound (h.of_kept (by simp)) (by simpa using hauth) _ _ _
  · exact refuse_tripSound h _ _ _

theorem keyMove_tripSound {old new : MeterState} (hold : old.due = none) (hopen : old ≠ .closed) (hnew : new.due = none)
    (hshift : new ≠ .closed) (src : Station) (arg : Byte) : (keyMove old new src arg s).TripSound := by
  refine withNoArgument_tripSound h ?_ src arg
  split
  case isTrue hm => exact (h.of_kept (by simp)).moved (by simpa [hm] using hold) (by simpa [hm] using hopen) hnew hshift
  case isFalse => exact refuse_tripSound h _ _ _

/-- In SETTLING an extra fixes the fare due anew. -/
theorem addExtra_tripSound (item amount : Nat) : (addExtra item amount s).TripSound := by
  have hadded : (fareChanged (withTrip (fun tr => tr.withExtra item amount) s)).TripSound :=
    h.of_kept (by simp [Trip.withExtra])
  unfold addExtra
  dsimp only
  split
  case isTrue hm =>
    obtain ⟨hdue, hopen, hauth⟩ := (State.tripSound_iff _).mp hadded
    have hfixed := fixFareDue_dueIn (s := fareChanged (withTrip (fun tr => tr.withExtra item amount) s))
      (by rw [hdue]; simp [hm])
    exact (State.tripSound_iff _).mpr ⟨by simpa [hm] using hfixed, by simpa using hopen, by simpa using hauth⟩
  case isFalse => exact hadded

theorem dueIfRaised_tripSound (before : Trip) : (dueIfRaised before s).TripSound := h.of_kept (by simp)

theorem keyExtra_tripSound (src : Station) (arg : Byte) : (keyExtra src arg s).TripSound := by
  unfold keyExtra
  dsimp only
  repeat' split
  case h_2.isFalse.isFalse.isFalse.isFalse =>
    exact dueIfRaised_tripSound (addExtra_tripSound (h.of_kept (by simp)) _ _) _
  all_goals exact h.of_kept (by simp)

theorem takeKey_tripSound (src : Station) (payload : List Byte) : (takeKey src payload s).TripSound := by
  unfold takeKey
  split
  · split
    case h_1 => exact keyHire_tripSound h _ _
    case h_2 => exact keyStop_tripSound h _ _
    case h_3 => exact keyResume_tripSound h _ _
    case h_4 | h_5 => exact withNoArgument_tripSound h (keyTender_tripSound h _ _) _ _
    case h_7 | h_8 | h_9 | h_10 => exact keyMove_tripSound h rfl (by decide) rfl (by decide) _ _
    case h_11 => exact keyExtra_tripSound h _ _
    all_goals exact h.of_kept (by simp)
  · exact refuse_tripSound h _ _ _

/-! Payments (10): a tender is recorded once no authorization is pending. -/

theorem endAuth_tripSound : (endAuth s).TripSound := by
  obtain ⟨hdue, hopen, -⟩ := s.tripSound_iff.mp h
  exact (State.tripSound_iff _).mpr ⟨by simpa using hdue, by simpa using hopen, by simp⟩

theorem paySucceeds_tripSound (hauth : s.pay.auth = none) (number : Nat) (ref : Reference) (o : PayOutcome)
    (kind : TenderKind) (farePart tip : Nat) : (paySucceeds number ref o kind farePart tip s).TripSound :=
  recordTender_tripSound (h.of_kept (by simp)) (by simpa using hauth) _ _ _

theorem captureCheck_tripSound : (captureCheck s).TripSound := h.of_kept (by simp [captureCheck_auth])

theorem authExpires_tripSound : (authExpires s).TripSound := by
  have hended := endAuth_tripSound h
  unfold authExpires
  dsimp only
  repeat' split
  case h_2.isFalse.isTrue a _ _ _ =>
    exact captureCheck_tripSound (paySucceeds_tripSound (hended.of_kept (by simp)) (by simp) _ _ _ _ _ _)
  case h_1 => exact h
  all_goals exact hended.of_kept (by simp)

theorem authSecond_tripSound : (authSecond s).TripSound := by
  unfold authSecond
  split
  case h_1 => exact h
  case h_2 a ha =>
    split
    · exact authExpires_tripSound h
    · exact h.of_kept (by simp [ha])

theorem authResponseTaken_tripSound (number : Nat) (ref : Reference) (approved : Bool) :
    (authResponseTaken number ref approved s).TripSound := by
  have hended := endAuth_tripSound h
  unfold authResponseTaken
  dsimp only
  repeat' split
  case isTrue.isFalse.isTrue => exact paySucceeds_tripSound hended rfl _ _ _ _ _ _
  case isTrue.isTrue.isTrue | isTrue.isTrue.isFalse | isTrue.isFalse.isFalse => exact hended.of_kept (by simp)
  all_goals exact h.of_kept (by simp)

theorem takePayRequest_tripSound (src : Station) (payload : List Byte) : (takePayRequest src payload s).TripSound := by
  unfold takePayRequest
  split
  · exact refuse_tripSound h _ _ _
  split
  case h_1 f _ _ _ tr hm ht =>
    split
    · exact refuse_tripSound h _ _ _
    case h_2 hcheck =>
      have hauth : s.pay.auth = none := by
        by_contra hpending
        have hbusy : payCheck s tr f = some .busy := if_pos (Option.isSome_iff_ne_none.mpr hpending)
        simp [hbusy] at hcheck
      split
      · obtain ⟨hdue, hopen, -⟩ := s.tripSound_iff.mp h
        exact (State.tripSound_iff _).mpr
          ⟨by simpa [payOnline] using hdue, by simpa [payOnline] using hopen, by simp [payOnline, hm]⟩
      · unfold payOffline
        dsimp only
        split
        · exact captureCheck_tripSound (paySucceeds_tripSound (h.of_kept (by simp)) (by simpa using hauth) _ _ _ _ _ _)
        · exact h.of_kept (by simp)
  case h_2 => exact refuse_tripSound h _ _ _

theorem takePayCancel_tripSound (src : Station) (payload : List Byte) : (takePayCancel src payload s).TripSound := by
  unfold takePayCancel
  dsimp only
  repeat' split
  case h_2.isFalse a ha _ => exact h.of_kept (by simp [ha])
  all_goals exact h.of_kept (by simp)

/-! Shifts and the dispatch request (07 R109 to R111). -/

theorem takeShiftOpen_tripSound (src : Station) (payload : List Byte) : (takeShiftOpen src payload s).TripSound := by
  unfold takeShiftOpen
  dsimp only
  split
  · exact refuse_tripSound h _ _ _
  split
  · exact refuse_tripSound h _ _ _
  case isFalse.isFalse hm =>
    have hclosed : s.meter = .closed := not_not.mp hm
    split
    · exact refuse_tripSound h _ _ _
    · obtain ⟨hdue, -⟩ := s.tripSound_iff.mp h
      exact setMeter_tripSound (by simpa [hclosed] using hdue) rfl (by simp [h.noAuth (by simp [hclosed])])

theorem takeShiftClose_tripSound (src : Station) (payload : List Byte) : (takeShiftClose src payload s).TripSound := by
  unfold takeShiftClose
  dsimp only
  split
  · exact refuse_tripSound h _ _ _
  split
  · exact refuse_tripSound h _ _ _
  case isFalse.isFalse hm =>
    have hidle : s.meter = .vacant ∨ s.meter = .offDuty := by rwa [not_and_or, not_not, not_not] at hm
    split
    · exact refuse_tripSound h _ _ _
    split
    · exact refuse_tripSound h _ _ _
    · obtain ⟨hdue, -⟩ := s.tripSound_iff.mp h
      refine setMeter_tripSound ?_ rfl ?_
      · rcases hidle with hm | hm <;> simpa [hm] using hdue
      · rcases hidle with hm | hm <;> simp [h.noAuth (by rw [hm]; decide)]

theorem takeDispatch_tripSound (src : Station) (payload : List Byte) : (takeDispatch src payload s).TripSound := by
  unfold takeDispatch
  dsimp only
  split
  · exact refuse_tripSound h _ _ _
  split
  case isTrue hm => exact (h.of_kept (by simp)).moved (by simp [hm]) (by simp [hm]) rfl (by decide)
  case isFalse => exact refuse_tripSound h _ _ _

/-! The dispatcher (02 R19). -/

theorem takeRequest_tripSound (src : Station) (kind : Request) (payload : List Byte) :
    (takeRequest src kind payload s).TripSound := by
  cases kind
  all_goals unfold takeRequest
  case key => exact takeKey_tripSound h _ _
  case shiftOpen => exact takeShiftOpen_tripSound h _ _
  case shiftClose => exact takeShiftClose_tripSound h _ _
  case dispatch => exact takeDispatch_tripSound h _ _
  case payRequest => exact takePayRequest_tripSound h _ _
  case payCancel => exact takePayCancel_tripSound h _ _
  all_goals exact h.of_kept (by simp)

theorem takeReport_tripSound (src : Station) (kind : ReportKind) (payload : List Byte) :
    (takeReport src kind payload s).TripSound := by
  cases kind
  all_goals unfold takeReport
  case authResponse => exact authResponseTaken_tripSound h _ _ _
  all_goals exact h.of_kept (by simp)

theorem handleMessage_tripSound (m : Inbound) : (handleMessage m s).TripSound := by
  unfold handleMessage
  repeat' split
  case h_2.isTrue => exact takeRequest_tripSound h _ _ _
  case h_4.isTrue => exact takeReport_tripSound h _ _ _
  all_goals exact h.of_kept (by simp)

omit h in
theorem drain_tripSound (n : Nat) {s : State} (h : s.TripSound) : (drain n s).TripSound := by
  induction n generalizing s with
  | zero => exact h
  | succ n ih =>
    unfold drain
    repeat' split
    · exact h
    · exact ih (handleMessage_tripSound (h.of_kept (by simp)) _)
    · exact h

theorem dispatchInbound_tripSound : (dispatchInbound s).TripSound := drain_tripSound _ h

theorem deliver_tripSound (m : Inbound) : (deliver m s).TripSound := by
  unfold deliver
  split
  · exact dispatchInbound_tripSound (h.of_kept (by simp))
  · exact h

/-! Fare seconds, ticks and frames (04 R52, 01 R1). -/

theorem fareSecondOccurs_tripSound : (fareSecondOccurs s).TripSound := by
  have hbefore : (lateSecond (captureSecond (intercomSecond (signSecond (hiredSecond (windowEnds s)))))).TripSound :=
    h.of_kept (by simp [captureSecond_auth])
  exact authSecond_tripSound hbefore

theorem countTick_tripSound : (countTick s).TripSound := by
  unfold countTick
  split
  · exact fareSecondOccurs_tripSound (h.of_kept (by simp))
  · exact h.of_kept (by simp)

theorem tickOccurs_tripSound : (tickOccurs s).TripSound := by
  have hbefore : (debounceTick (fareTick s)).TripSound := h.of_kept (by simp)
  exact countTick_tripSound hbefore

theorem countFrame_tripSound : (countFrame s).TripSound := by
  unfold countFrame
  split
  · exact tickOccurs_tripSound (h.of_kept (by simp))
  · exact h.of_kept (by simp)

theorem frameRuns_tripSound (up : UpFrame) : (frameRuns up s).TripSound := by
  have hstarted : (dispatchInbound { s with link := (linkFrameStarts s.link).2 }).TripSound :=
    dispatchInbound_tripSound (h.of_kept (by simp))
  have hread : (mixEvent (frameSamples s.link.stations up) (frameRead up s)).TripSound :=
    hstarted.of_kept (by simp [frameRead])
  rw [frameRuns_eq]
  exact countFrame_tripSound (dispatchInbound_tripSound hread)

/-! The starts (07 R124, 10 R175), and every command. -/

omit h in
theorem coldStarts_tripSound (s : State) : (coldStarts s).TripSound := by
  rw [coldStarts_eq]
  exact reset_tripSound.of_kept (by simp)

/-- A warm start ends the pending authorization and leaves the rest of the agreement. -/
theorem warmPayment_tripSound : (warmPayment s).TripSound := by
  unfold warmPayment
  dsimp only
  split
  · exact h.of_kept (by simp)
  · exact (endAuth_tripSound h).of_kept (by simp)

theorem warmStarts_tripSound : (warmStarts s).TripSound := by
  have hkept : ({ startLink { s with running := true } with
      disp := { s.disp with headPending := 0#24, modemPending := 0#24 }, intercom := .start
      shifts := { s.shifts with snapshot := none } } : State).TripSound := h.of_kept (by simp [startLink])
  have hbase : (warmBase s).TripSound :=
    (warmPayment_tripSound hkept).of_kept (by simp [warmBase, startTimebase, startSign, startShownMode, startLink])
  have hbroken : (powerBreak (warmBase s)).TripSound := by
    unfold powerBreak
    split
    · exact hbase.of_kept (by simp)
    · exact hbase
  exact hbroken.of_kept (by simp [warmStarts, startMessages])

omit h in
theorem ite_tripSound {c : Prop} [Decidable c] {t u : State} (ht : t.TripSound) (hu : u.TripSound) :
    (if c then t else u).TripSound := by
  split
  · exact ht
  · exact hu

theorem sensed_tripSound (c : Instr) : (sensed c s).TripSound := by
  cases c <;> exact h.of_kept ⟨rfl, rfl, rfl, rfl⟩

/-- Every command keeps the agreement. -/
theorem exec_tripSound (c : Instr) (e : exec c s = .next t) : t.TripSound := by
  cases hm : messageOf c with
  | some m =>
    rw [exec_deliver c m s hm, Host.Outcome.next.injEq] at e
    exact e ▸ ite_tripSound (deliver_tripSound (sensed_tripSound h c) m) (sensed_tripSound h c)
  | none =>
    cases c <;> simp only [messageOf, reduceCtorEq] at hm
    all_goals obtain rfl := Host.Outcome.next.inj e
    case coldStart => exact coldStarts_tripSound s
    case warmStart => exact warmStarts_tripSound h
    case mainSupplyLoss => exact h.of_kept (by simp [supplyLost])
    case wallClockSecond => exact ite_tripSound (h.of_kept (by simp)) (h.of_kept (by simp))
    case emergencyLineAssert | emergencyLineRelease => exact ite_tripSound (h.of_kept (by simp)) (h.of_kept (by simp))
    case frame => exact ite_tripSound (frameRuns_tripSound (h.of_kept (by simp)) _) (h.of_kept (by simp))
    all_goals refine ite_tripSound ?_ h
    case tick => exact tickOccurs_tripSound (h.of_kept (by simp))
    case fareSecond => exact fareSecondOccurs_tripSound (h.of_kept (by simp))
    case authTimerExpiry => exact authExpires_tripSound h
    all_goals exact h.of_kept (by simp)

end

end

/-- Settles O5: a step is the front command, and every command keeps the agreement. -/
theorem stepKeepsTripSound : Obligations.StepKeepsTripSound := by
  intro s t h e
  cases hp : s.pending with
  | nil =>
    rw [step_nil s hp, Host.Outcome.next.injEq] at e
    exact e ▸ h
  | cons c rest =>
    rw [step_cons s c rest hp] at e
    exact exec_tripSound (s := { s with pending := rest }) (h.of_kept (by simp)) c e

end Sys2Proof.Machine
end

