-- ==== Sys2Proof/Proofs/Expiry.lean ====
section
/-! PROOF. An expiry of the distance or the time side (06 R82, R83, R88 to R91): the drop it charges, the segment it re-evaluates
and the counters it loads, under SINGLE and under DOUBLE. -/

namespace Sys2Proof.Machine

variable {s t : State} {es : List Event} {ms : List Outbound} {tr : Trip}

/-! What a DISPLAY shows of a trip (07 R123). -/

/-- The values of a trip that a DISPLAY shows: label's tariff, running fare, fare due, remaining due, extras total, open flag. -/
def Trip.shown (tr : Trip) : Nat × Nat × Nat × Nat × Nat × Bool :=
  (tr.tariff, tr.runningFare, tr.fareDue.getD 0, tr.remaining, tr.extrasTotal, tr.openFlag)

theorem displayPayload_shown {tr' : Trip} (ht : s.trip = some tr) (h : tr'.shown = tr.shown) :
    displayPayload { s with trip := some tr' } = displayPayload s := by
  simp only [Trip.shown, Prod.mk.injEq] at h
  obtain ⟨htariff, hfare, hdue, hremaining, hextras, hopen⟩ := h
  have hamounts : shownAmounts { s with trip := some tr' } = shownAmounts s := by
    simp only [shownAmounts, ht]
    cases s.meter <;> simp only [hfare, hdue, hremaining]
  simp only [displayPayload, hamounts, shownLabel, shownExtras, openFlagNow, ht, htariff, hextras, hopen]

/-- A change of the trip that no DISPLAY shows leaves the DISPLAY of the values that stand. -/
theorem State.Shows.tripSet (h : s.Shows) (ht : s.trip = some tr) {tr' : Trip} (hshown : tr'.shown = tr.shown) :
    ({ s with trip := some tr' } : State).Shows := by
  unfold State.Shows
  rw [displayPayload_shown ht hshown]
  exact h

/-- A change of the trip record, the open trip given. -/
theorem withTrip_eq (ht : s.trip = some tr) (f : Trip → Trip) : withTrip f s = { s with trip := some (f tr) } := by
  simp only [withTrip, ht, Option.map_some]

/-! The drop (06 R88, 11 R179). -/

/-- A charged drop counted in a shift record (11 R179). -/
def dropCounted (side : Side) (r : ShiftRecord) : ShiftRecord :=
  match side with
  | .distance => { r with distanceDrops := up32 r.distanceDrops 1 }
  | .time => { r with timeDrops := up32 r.timeDrops 1 }

/-- The trip with the drop of a side charged at the segment that stands (06 R88). -/
def Trip.charged (s : State) (side : Side) (tr : Trip) : Trip := tr.withDrop side (dropAmount s tr side)

/-- The drop is counted in the trip and in the shift before the fare limit is tested. -/
theorem chargeDrop_eq (ht : s.trip = some tr) (side : Side) :
    chargeDrop side s = fareChanged { s with
      trip := some (tr.charged s side)
      shifts := { s.shifts with record := s.shifts.record.map (dropCounted side) } } := by
  unfold chargeDrop
  rw [withTrip_eq ht]
  rfl

theorem chargeDrop_occurs (ho : s.link.orderly) (ht : s.trip = some tr) (side : Side) :
    ({ s with
      trip := some (tr.charged s side).limited
      shifts := { s.shifts with record := s.shifts.record.map (dropCounted side) } } : State).Occurs (chargeDrop side s) []
      (if (tr.charged s side).exceeds then [.fareLimit] else []) := by
  rw [chargeDrop_eq ht]
  exact (State.Occurs.refl (s := { s with
    trip := some (tr.charged s side)
    shifts := { s.shifts with record := s.shifts.record.map (dropCounted side) } }) ho).fareChanged rfl

theorem chargeDrop_signPlace (side : Side) (s : State) : (chargeDrop side s).link.signPlace = s.link.signPlace :=
  fareChanged_signPlace _

/-! The segment and the counters (06 R82, R83, R89 to R91). -/

/-- The trip with DC loaded from its segment in force (06 R82). -/
def Trip.dcLoaded (s : State) (tr : Trip) : Trip := { tr with dc := some (pulsesFor s.time.k (currentSegment s tr).d) }

/-- The trip with TC loaded from its segment in force, or made inactive (06 R82). -/
def Trip.tcLoaded (s : State) (tr : Trip) : Trip := { tr with tc := timeLoad (currentSegment s tr).t }

theorem loadDc_eq (ht : s.trip = some tr) : loadDc s = { s with trip := some (tr.dcLoaded s) } :=
  withTrip_eq ht (Trip.dcLoaded s)

theorem loadTc_eq (ht : s.trip = some tr) : loadTc s = { s with trip := some (tr.tcLoaded s) } :=
  withTrip_eq ht (Trip.tcLoaded s)

/-- After an expiry under SINGLE both sides step, and both counters load from the segment re-evaluated (06 R89). -/
def Trip.singleStepped (s : State) (tr : Trip) : Trip :=
  ((({ tr with distancePhase := .stepping, timePhase := .stepping }).resegmented s).dcLoaded s).tcLoaded s

/-- After an expiry under DOUBLE the side steps and its own counter loads from the segment re-evaluated; a segment that changed at
a distance expiry adjusts the time side (06 R90, R91). -/
def Trip.doubleStepped (s : State) (side : Side) (tr : Trip) : Trip :=
  let moved := (tr.step side).resegmented s
  match side with
  | .distance => if moved.segment = tr.segment then moved.dcLoaded s else (moved.dcLoaded s).timeAdjusted s
  | .time => moved.tcLoaded s

/-- The trip after an expiry whose drop, if any, is charged (06 R89, R90). -/
def Trip.expired (s : State) (side : Side) (tr : Trip) : Trip :=
  if (currentHeader s tr).double then tr.doubleStepped s side else tr.singleStepped s

/-- What an expiry under SINGLE does after its charge. -/
theorem singleSteps_eq (ht : s.trip = some tr) :
    loadTc (loadDc (reevaluateSegment (withTrip (fun tr => { tr with distancePhase := .stepping, timePhase := .stepping }) s))) =
      { s with trip := some (tr.singleStepped s) } := by
  rw [withTrip_eq ht, reevaluateSegment_eq rfl, loadDc_eq rfl, loadTc_eq rfl]
  rfl

/-- What an expiry of the time side under DOUBLE does after its charge. -/
theorem doubleSteps_time (ht : s.trip = some tr) :
    loadTc (reevaluateSegment (withTrip (fun tr => tr.step .time) s)) =
      { s with trip := some (tr.doubleStepped s .time) } := by
  rw [withTrip_eq ht, reevaluateSegment_eq rfl, loadTc_eq rfl]
  rfl

/-- What an expiry of the distance side under DOUBLE does after its charge. -/
theorem doubleSteps_distance (ht : s.trip = some tr) :
    (let moved := reevaluateSegment (withTrip (fun tr => tr.step .distance) s)
      if segmentNow moved = tr.segment then loadDc moved else adjustTimeSide (loadDc moved)) =
      { s with trip := some (tr.doubleStepped s .distance) } := by
  have hmoved : reevaluateSegment (withTrip (fun tr => tr.step .distance) s) =
      { s with trip := some ((tr.step .distance).resegmented s) } := by
    rw [withTrip_eq ht, reevaluateSegment_eq rfl]
    rfl
  rw [hmoved]
  by_cases hsame : ((tr.step .distance).resegmented s).segment = tr.segment
  · have hstepped : tr.doubleStepped s .distance = ((tr.step .distance).resegmented s).dcLoaded s := if_pos hsame
    rw [hstepped]
    exact (if_pos hsame).trans (loadDc_eq rfl)
  · have hstepped : tr.doubleStepped s .distance = (((tr.step .distance).resegmented s).dcLoaded s).timeAdjusted s :=
      if_neg hsame
    rw [hstepped]
    refine (if_neg hsame).trans ?_
    rw [loadDc_eq rfl]
    exact adjustTimeSide_eq rfl

/-- An expiry charges as the side's phase says and then steps (06 R89, R90). -/
theorem expire_eq {side : Side} {before : Trip} (hbefore : s.trip = some before) {charged : State}
    (hcharged : chargeIfStepping side before s = charged) (ht : charged.trip = some tr) (htables : charged.tables = s.tables)
    (htariff : tr.tariff = before.tariff) (hsegment : tr.segment = before.segment) :
    expire side s = { charged with trip := some (tr.expired charged side) } := by
  have hheader : currentHeader charged tr = currentHeader s before := by simp only [currentHeader, htables, htariff]
  simp only [expire, hbefore, Trip.expired, hheader]
  split
  · unfold expireDouble
    rw [hcharged, ← hsegment]
    cases side with
    | distance => exact doubleSteps_distance ht
    | time => exact doubleSteps_time ht
  · unfold expireSingle
    rw [hcharged]
    exact singleSteps_eq ht

/-- A side in ALLOWANCE charges nothing (06 R89, R90). -/
theorem expire_allowance {side : Side} (ht : s.trip = some tr) (hphase : tr.phase side = .allowance) :
    expire side s = { s with trip := some (tr.expired s side) } := by
  have hnone : chargeIfStepping side tr s = s := by simp [chargeIfStepping, hphase]
  exact expire_eq ht hnone ht rfl rfl rfl

/-- No DISPLAY shows a phase, a segment or a counter. -/
theorem Trip.expired_shown (s : State) (side : Side) (tr : Trip) : (tr.expired s side).shown = tr.shown := by
  have hsingle : (tr.singleStepped s).shown = tr.shown := rfl
  have hdouble : (tr.doubleStepped s side).shown = tr.shown := by
    cases side with
    | distance => unfold Trip.doubleStepped; dsimp only; split <;> rfl
    | time => rfl
  unfold Trip.expired
  split
  · exact hdouble
  · exact hsingle

theorem Trip.charged_keeps (s : State) (side : Side) (tr : Trip) :
    (tr.charged s side).limited.tariff = tr.tariff ∧ (tr.charged s side).limited.segment = tr.segment := by
  cases side <;> exact ⟨rfl, rfl⟩

/-- A side in STEPPING charges its drop, and FARE LIMIT occurs when the sum first exceeds the limit (06 R88 to R90, R100). -/
theorem expire_stepping {side : Side} (ho : s.link.orderly) (ht : s.trip = some tr) (hphase : tr.phase side = .stepping) :
    (expire side s).Shows ∧ (expire side s).link.signPlace = s.link.signPlace ∧
      ({ s with
        trip := some ((tr.charged s side).limited.expired s side)
        shifts := { s.shifts with record := s.shifts.record.map (dropCounted side) } } : State).Occurs (expire side s) []
        (if (tr.charged s side).exceeds then [.fareLimit] else []) := by
  have hcharges : chargeIfStepping side tr s = chargeDrop side s := by simp [chargeIfStepping, hphase]
  have hoccurs := chargeDrop_occurs ho ht side
  have htrip : (chargeDrop side s).trip = some (tr.charged s side).limited := hoccurs.trip_eq
  obtain ⟨htariff, hsegment⟩ := tr.charged_keeps s side
  have hexpire := expire_eq ht hcharges htrip (by simp) htariff hsegment
  have hexpired : (tr.charged s side).limited.expired (chargeDrop side s) side =
      (tr.charged s side).limited.expired s side := by rw [hoccurs.rest]; rfl
  rw [hexpired] at hexpire
  rw [hexpire]
  exact ⟨State.Shows.tripSet (placeDisplay_shows _) htrip (Trip.expired_shown _ _ _), chargeDrop_signPlace side s,
    hoccurs.tripSet _⟩

/-! The commands (log 2). -/

theorem exec_distanceExpiry (hrun : s.running = true) (hm : s.meter = .hired) (ht : s.trip = some tr)
    (hdc : tr.dc.isSome = true) : exec .distanceExpiry s = .next (expire .distance s) := by
  have hside : sideExpires .distance s = expire .distance s := by simp [sideExpires, hm, ht, hdc]
  exact congrArg _ ((if_pos hrun).trans hside)

theorem exec_timeExpiry (hrun : s.running = true) (hm : s.meter = .hired) (ht : s.trip = some tr)
    (htc : tr.tc.isSome = true) : exec .timeExpiry s = .next (expire .time s) := by
  have hside : sideExpires .time s = expire .time s := by simp [sideExpires, hm, ht, htc]
  exact congrArg _ ((if_pos hrun).trans hside)

theorem Trip.expired_single {side : Side} (h : (currentHeader s tr).double = false) : tr.expired s side = tr.singleStepped s := by
  simp [Trip.expired, h]

theorem Trip.expired_double {side : Side} (h : (currentHeader s tr).double = true) :
    tr.expired s side = tr.doubleStepped s side := if_pos h

/-- The trip after an expiry under SINGLE, field by field (06 R80, R82, R83, R89). -/
theorem Trip.singleStepped_eq (s : State) (tr : Trip) :
    let segment := segmentAt s.tables.active tr.tariff (tripDistance s tr)
    let new := tariffSegment s.tables.active tr.tariff segment
    tr.singleStepped s = { tr with
      distancePhase := .stepping, timePhase := .stepping, segment := segment
      dc := some (max 1 ((s.time.k * new.d + 500) / 1000)), tc := if new.t = 0 then none else some new.t } := rfl

/-- Settles O32: the commands are the expiries, charged by `expire_stepping` and stepped by `Trip.singleStepped`. -/
theorem singleExpiryCharges : Obligations.SingleExpiryCharges := by
  intro s tr c side hrun ho hm ht hsingle hcommand old segment new stepped
  have hexec : exec c s = .next (expire side s) := by
    rcases hcommand with ⟨rfl, rfl, hdc⟩ | ⟨rfl, rfl, htc⟩
    · exact exec_distanceExpiry hrun hm ht hdc
    · exact exec_timeExpiry hrun hm ht htc
  refine ⟨fun hphase => ?_, fun hphase => ?_⟩
  · rw [hexec, expire_allowance ht hphase, Trip.expired_single hsingle, Trip.singleStepped_eq]
  · intro charged beyond counted
    obtain ⟨hshows, hsign, hoccurs⟩ := expire_stepping ho ht hphase
    have hheader : (currentHeader s (tr.charged s side).limited).double = false := by
      rw [currentHeader, (tr.charged_keeps s side).1]
      exact hsingle
    rw [Trip.expired_single hheader, Trip.singleStepped_eq] at hoccurs
    exact ⟨_, hexec, hshows, hsign, by cases side <;> exact hoccurs⟩

/-- The time counter after a distance expiry under DOUBLE: adjusted only to a segment that changed (06 R91). -/
theorem Trip.doubleStepped_distance (s : State) (tr : Trip) :
    let segment := segmentAt s.tables.active tr.tariff (tripDistance s tr)
    let new := tariffSegment s.tables.active tr.tariff segment
    let load := if new.t = 0 then none else some new.t
    tr.doubleStepped s .distance = { tr with
      distancePhase := .stepping, segment := segment, dc := some (max 1 ((s.time.k * new.d + 500) / 1000))
      tc :=
        if segment ≠ tr.segment ∧ tr.timePhase = .stepping then (if tr.tc = none ∨ new.t = 0 then load else tr.tc)
        else tr.tc } := by
  intro segment new load
  have hload : load = none ↔ new.t = 0 := by simp [load]
  by_cases hsame : segment = tr.segment
  · have hkept : tr.doubleStepped s .distance = ((tr.step .distance).resegmented s).dcLoaded s := if_pos hsame
    simp only [hkept, hsame, ne_eq, not_true_eq_false, false_and, if_false]
    rw [← hsame]
    rfl
  · have hmoved : tr.doubleStepped s .distance = (((tr.step .distance).resegmented s).dcLoaded s).timeAdjusted s :=
      if_neg hsame
    simp only [hmoved, hsame, ne_eq, not_false_eq_true, true_and, ← hload]
    rfl

theorem Trip.doubleStepped_time (s : State) (tr : Trip) :
    let segment := segmentAt s.tables.active tr.tariff (tripDistance s tr)
    let new := tariffSegment s.tables.active tr.tariff segment
    tr.doubleStepped s .time = { tr with
      timePhase := .stepping, segment := segment, tc := if new.t = 0 then none else some new.t } := rfl

/-- Settles O33: the commands are the expiries, charged by `expire_stepping` and stepped by `Trip.doubleStepped`. -/
theorem doubleExpiryCharges : Obligations.DoubleExpiryCharges := by
  intro s tr hrun ho hm ht hdouble old segment new load otherTc beyond events limited
  have hheader : ∀ side, (currentHeader s (tr.charged s side).limited).double = true := fun side => by
    rw [currentHeader, (tr.charged_keeps s side).1]
    exact hdouble
  refine ⟨fun hdc => ?_, fun htc => ?_⟩
  · intro steps
    have hexec := exec_distanceExpiry hrun hm ht hdc
    refine ⟨fun hphase => ?_, fun hphase => ?_⟩
    · rw [hexec, expire_allowance (side := .distance) ht hphase, Trip.expired_double hdouble, Trip.doubleStepped_distance]
    · intro charged
      obtain ⟨hshows, hsign, hoccurs⟩ := expire_stepping (side := .distance) ho ht hphase
      rw [Trip.expired_double (hheader _), Trip.doubleStepped_distance] at hoccurs
      exact ⟨_, hexec, hshows, hsign, hoccurs⟩
  · intro steps
    have hexec := exec_timeExpiry hrun hm ht htc
    refine ⟨fun hphase => ?_, fun hphase => ?_⟩
    · rw [hexec, expire_allowance (side := .time) ht hphase, Trip.expired_double hdouble, Trip.doubleStepped_time]
    · intro charged
      obtain ⟨hshows, hsign, hoccurs⟩ := expire_stepping (side := .time) ho ht hphase
      rw [Trip.expired_double (hheader _), Trip.doubleStepped_time] at hoccurs
      exact ⟨_, hexec, hshows, hsign, hoccurs⟩

end Sys2Proof.Machine
end

