-- ==== Sys2Proof/Proofs/FareDue.lean ====
section
/-! PROOF. The fare due: its rounding (06 R101), the DUE of the payment prompt (07 R118), and STOP, which fixes it (07 R117). -/

namespace Sys2Proof.Machine

variable {s t : State} {es : List Event} {ms : List Outbound} {tr : Trip}

/-! The rounding (06 R101). -/

/-- The multiple of the unit that a fare rounds to, a half up, before the limit. -/
theorem roundFare_eq (r : Nat) {unit : Nat} (hunit : 0 < unit) :
    ∃ q, unit ∣ q ∧ q ≤ r + unit / 2 ∧ r + unit / 2 < q + unit ∧
      roundFare r unit = if 999999 < q then q - unit else q :=
  ⟨(r + unit / 2) / unit * unit, Nat.dvd_mul_left _ _, Nat.div_mul_le_self _ _, Nat.lt_div_mul_add hunit, rfl⟩

/-- Settles O34: by `roundFare_eq`, the limit case giving the multiple one unit lower. -/
theorem fareDueRounds : Obligations.FareDueRounds := by
  intro r unit hr hmem due
  have hunit : 0 < unit ∧ unit ≤ 100 := by
    have hunits : ∀ u ∈ [1, 2, 5, 10, 20, 50, 100], 0 < u ∧ u ≤ 100 := by decide
    exact hunits unit hmem
  obtain ⟨q, hdvd, hle, hlt, hdue⟩ := roundFare_eq r hunit.1
  change due = _ at hdue
  by_cases hlimit : 999999 < q
  · rw [if_pos hlimit] at hdue
    rw [hdue]
    exact ⟨Nat.dvd_sub hdvd dvd_rfl, by omega, by omega, by omega, by omega⟩
  · rw [if_neg hlimit] at hdue
    rw [hdue]
    exact ⟨hdvd, by omega, by omega, by omega, by omega⟩

/-! The fare due fixed (06 R101). -/

/-- The trip with its fare due and rounding difference fixed from the running fare (06 R101). -/
def Trip.dueFixed (s : State) (tr : Trip) : Trip :=
  let due := roundFare tr.runningFare (tariffHeader s.tables.active tr.tariff).unit
  { tr with fareDue := some due, roundingDiff := (due : Int) - (tr.runningFare : Int) }

theorem State.Occurs.dueFixed (h : s.Occurs t ms es) (ht : s.trip = some tr) :
    ({ s with trip := some (tr.dueFixed s) } : State).Occurs (fixFareDue t) ms es := by
  have hfixed : tr.dueFixed t = tr.dueFixed s := by rw [h.rest]; rfl
  rw [← hfixed]
  exact h.withTrip ht (Trip.dueFixed t)

/-! The DUE (07 R118). -/

/-- Whether a DUE is offered in SETTLING: the terminal is PRESENT and something remains due (07 R118). -/
def dueOffered (s : State) (tr : Trip) : Bool := isPresent s .cardTerminal && decide (0 < tr.remaining)

theorem offerDue_eq (ht : s.trip = some tr) (hm : s.meter = .settling) :
    offerDue s =
      if dueOffered s tr then
        withTrip (fun tr => { tr with promptMark := true }) (offer ⟨.cardTerminal, kindPayPrompt, duePayload s tr⟩ s)
      else s := by
  simp only [offerDue, ht, hm, dueOffered, true_and, Bool.and_eq_true, decide_eq_true_eq]

theorem State.Sends.dueOffered (h : s.Sends t es ms) (ht : s.trip = some tr) (hm : s.meter = .settling) :
    ({ s with trip := some { tr with promptMark := tr.promptMark || dueOffered s tr } } : State).Sends (offerDue t) es
      (ms ++ if dueOffered s tr then [⟨.cardTerminal, kindPayPrompt, duePayload s tr⟩] else []) := by
  obtain ⟨-, -, -, -, -, htables, -, hmeter, htrip, -⟩ := h.keeps
  obtain ⟨hstations, -⟩ := h.link.keeps
  have hsame : Machine.dueOffered t tr = Machine.dueOffered s tr := by
    simp only [Machine.dueOffered, isPresent, hstations]
  have hpayload : duePayload t tr = duePayload s tr := by simp only [duePayload, tipCap, htables]
  rw [offerDue_eq (htrip.trans ht) (hmeter.trans hm), hsame, hpayload]
  cases Machine.dueOffered s tr with
  | true =>
    have hmarked := (h.offered ⟨.cardTerminal, kindPayPrompt, duePayload s tr⟩).withTrip
      fun tr => { tr with promptMark := true }
    rw [ht] at hmarked
    simpa using hmarked
  | false => simpa [← ht] using h

theorem offerDue_signPlace (s : State) : (offerDue s).link.signPlace = s.link.signPlace := by
  unfold offerDue
  repeat' split
  all_goals simp

/-- No DISPLAY shows the prompt mark. -/
theorem offerDue_shows (h : s.Shows) : (offerDue s).Shows := by
  unfold offerDue
  split
  case h_1 => exact h
  case h_2 tr ht =>
    split
    case isTrue =>
      have hoffered : (offer ⟨.cardTerminal, kindPayPrompt, duePayload s tr⟩ s).Shows := by
        unfold State.Shows
        rw [(offer_places _ s).2, h, displayPayload_congr] <;> simp
      rw [withTrip_eq (tr := tr) (by simpa using ht)]
      exact hoffered.tripSet (tr := tr) (by simpa using ht) rfl
    case isFalse => exact h

theorem offerDue_signs (h : s.Signs) : (offerDue s).Signs := by
  obtain ⟨restart, hplace⟩ := h
  exact ⟨restart, by rw [offerDue_signPlace, hplace]; simp [commandedSign]⟩

/-! STOP (07 R117). -/

theorem keyStop_state (src : Station) (h : s.meter ≠ .hired) : keyStop src 0#8 s = refuse src keyCode .refusedState s := by
  rw [keyStop, withNoArgument_zero]
  split
  case h_1 hm _ => exact absurd hm h
  case h_2 => rfl

/-- The meter in SETTLING with the trip's fare due fixed, after the REPLY (07 R117). -/
def stopped (src : Station) (s : State) (tr : Trip) : State :=
  let due := roundFare tr.runningFare (tariffHeader s.tables.active tr.tariff).unit
  setMeter .settling (fixFareDue
    (reply src keyCode .ok (beBytes 3 due ++ signedBytes 1 ((due : Int) - (tr.runningFare : Int))) s))

theorem keyStop_hired (src : Station) (hm : s.meter = .hired) (ht : s.trip = some tr) :
    keyStop src 0#8 s =
      if roundFare tr.runningFare (tariffHeader s.tables.active tr.tariff).unit = 0 then closeTrip (stopped src s tr)
      else offerDue (stopped src s tr) := by
  rw [keyStop, withNoArgument_zero, hm, ht]
  rfl

theorem stopped_occurs (ho : s.link.orderly) (ht : s.trip = some tr) (src : Station) :
    let due := roundFare tr.runningFare (tariffHeader s.tables.active tr.tariff).unit
    ({ s with meter := .settling, sign := s.signTold .settling, trip := some (tr.dueFixed s) } : State).Occurs
      (stopped src s tr)
      [replyMessage src keyCode .ok (beBytes 3 due ++ signedBytes 1 ((due : Int) - (tr.runningFare : Int)))]
      [.stateChange] :=
  ((reply_occurs src keyCode .ok _ s ho).dueFixed ht).meterSet .settling

theorem stopped_places (src : Station) (s : State) (tr : Trip) :
    (stopped src s tr).Shows ∧ (s.sign.emergency = none → (stopped src s tr).Signs) ∧
      (s.sign.emergency ≠ none → (stopped src s tr).link.signPlace = s.link.signPlace) := by
  refine ⟨setMeter_shows _ _, fun he => setMeter_signs _ _ (by simpa using he), fun he => ?_⟩
  unfold stopped
  dsimp only
  rw [setMeter_signPlace _ _ (by simpa using he)]
  simp [fixFareDue, reply]

/-- Settles O37: the meter in SETTLING by `stopped_occurs`, and the DUE by `State.Sends.dueOffered`. -/
theorem stopFixesFareDue : Obligations.StopFixesFareDue := by
  have hexec : ∀ {s : State}, s.Ready → exec (.stop .meterHead [0#8]) s = .next (keyStop .meterHead 0#8 s) :=
    fun {s} hs => exec_key (c := .stop .meterHead [0#8]) (code := 2#8) rfl hs
  refine ⟨fun s hs hm => ?_, fun s tr hs hm ht => ?_⟩
  · exact (hexec hs).trans (congrArg _ ((keyStop_state _ hm).trans (refuse_answered _ _ _ s hs)))
  · intro due diff settled answer
    have hstop := hexec hs
    rw [keyStop_hired _ hm ht] at hstop
    have hoccurs := stopped_occurs hs.orderly ht .meterHead
    obtain ⟨hshows, hsigns, hsignPlace⟩ := stopped_places .meterHead s tr
    refine ⟨fun hdue htenders => ?_, fun hzero => ⟨_, _, hstop.trans (congrArg _ (if_pos hzero)), rfl, hshows, hsigns,
      hsignPlace, hoccurs⟩⟩
    intro prompted
    rw [if_neg (Nat.pos_iff_ne_zero.mp hdue)] at hstop
    refine ⟨_, hstop, offerDue_shows hshows, fun he => offerDue_signs (hsigns he),
      fun he => (offerDue_signPlace _).trans (hsignPlace he), ?_⟩
    have hoffered : dueOffered { s with meter := .settling, sign := s.signTold .settling, trip := some (tr.dueFixed s) }
        (tr.dueFixed s) = prompted := by
      have hremaining : (tr.dueFixed s).remaining = due := by
        simp [Trip.remaining, Trip.paid, Trip.dueFixed, htenders, due]
      simp [dueOffered, hremaining, hdue, prompted, isPresent]
    have hsends := hoccurs.sends.dueOffered rfl rfl
    rw [hoffered] at hsends
    simp only [noticesAll, List.append_nil] at hsends
    exact hsends

end Sys2Proof.Machine
end

