-- ==== Sys2Proof/Proofs/Extras.lean ====
section
/-! PROOF. EXTRA (06 R96 to R98): its tests in their order, the refusal at the cap, the extra added, and the DUE that follows in
SETTLING (07 R118). -/

namespace Sys2Proof.Machine

variable {s t : State} {es : List Event} {ms : List Outbound} {tr : Trip}

/-! The tests (06 R97). -/

theorem keyExtra_range (src : Station) {item : Byte} (h : item.toNat < 1 ∨ 8 < item.toNat) (s : State) :
    keyExtra src item s = refuse src keyCode .badValue s := if_pos h

theorem keyExtra_noTrip (src : Station) {item : Byte} (h1 : 1 ≤ item.toNat) (h8 : item.toNat ≤ 8) (ht : s.trip = none) :
    keyExtra src item s = refuse src keyCode .refusedState s := by
  have hrange : ¬(item.toNat < 1 ∨ 8 < item.toNat) := by omega
  simp only [keyExtra, hrange, if_false, ht]

theorem extraAllowed_iff (s : State) (tr : Trip) :
    extraAllowed s tr = true ↔ s.meter = .hired ∨ (s.meter = .settling ∧ tr.tenders = [] ∧ s.pay.auth = none) := by
  simp [extraAllowed, authPending, and_assoc]

/-- The data of the REPLY to an EXTRA that passes every test: item, count and total (06 R98). -/
def extraData (item : Nat) (s : State) (tr : Trip) : List Byte :=
  beBytes 1 item ++ beBytes 1 (tr.presses item + 1) ++ beBytes 3 (tr.extrasTotal + extraAmount s.tables.active item)

/-- What an EXTRA that passes every test does (06 R98, 07 R118). -/
def extraMade (src : Station) (item : Nat) (s : State) (tr : Trip) : State :=
  dueIfRaised tr (addExtra item (extraAmount s.tables.active item) (reply src keyCode .ok (extraData item s tr) s))

section

variable (src : Station) {item : Byte} (h1 : 1 ≤ item.toNat) (h8 : item.toNat ≤ 8) (ht : s.trip = some tr)

include h1 h8 ht

/-- The tests of an EXTRA in their order, the open trip given (06 R97). -/
theorem keyExtra_trip :
    keyExtra src item s =
      if extraAllowed s tr = false then refuse src keyCode .refusedState s
      else if s.tables.active.valid 8 item.toNat = false then refuse src keyCode .badValue s
      else if extraLimit s.tables.active item.toNat ≤ tr.presses item.toNat then refuse src keyCode .capReached s
      else if (currentHeader s tr).extrasCap < tr.extrasTotal + extraAmount s.tables.active item.toNat then
        extraCapped (refuse src keyCode .capReached s)
      else extraMade src item.toNat s tr := by
  have hrange : ¬(item.toNat < 1 ∨ 8 < item.toNat) := by omega
  simp only [keyExtra, hrange, if_false, ht]
  rfl

theorem keyExtra_notAllowed (ha : extraAllowed s tr = false) : keyExtra src item s = refuse src keyCode .refusedState s :=
  (keyExtra_trip src h1 h8 ht).trans (if_pos ha)

variable (ha : extraAllowed s tr = true)

include ha

theorem keyExtra_notValid (hv : s.tables.active.valid 8 item.toNat = false) :
    keyExtra src item s = refuse src keyCode .badValue s :=
  (keyExtra_trip src h1 h8 ht).trans ((if_neg (by simp [ha])).trans (if_pos hv))

variable (hv : s.tables.active.valid 8 item.toNat = true)

include hv

theorem keyExtra_pressed (hp : extraLimit s.tables.active item.toNat ≤ tr.presses item.toNat) :
    keyExtra src item s = refuse src keyCode .capReached s :=
  (keyExtra_trip src h1 h8 ht).trans ((if_neg (by simp [ha])).trans ((if_neg (by simp [hv])).trans (if_pos hp)))

variable (hp : tr.presses item.toNat < extraLimit s.tables.active item.toNat)

include hp

theorem keyExtra_unpressed :
    keyExtra src item s =
      if (currentHeader s tr).extrasCap < tr.extrasTotal + extraAmount s.tables.active item.toNat then
        extraCapped (refuse src keyCode .capReached s)
      else extraMade src item.toNat s tr :=
  (keyExtra_trip src h1 h8 ht).trans
    ((if_neg (by simp [ha])).trans ((if_neg (by simp [hv])).trans (if_neg (Nat.not_le.mpr hp))))

end

/-- A refusal at the extras cap: the flag and EXTRA CAP after the REPLY (06 R97). -/
theorem extraCapped_refused (hs : s.Ready) (ht : s.trip = some tr) (src : Station) :
    s.PlacesFollow (extraCapped (refuse src keyCode .capReached s)) ∧
      ({ s with trip := some { tr with extraCap := true } } : State).Occurs (extraCapped (refuse src keyCode .capReached s))
        [replyMessage src keyCode .capReached []] [.extraCap] := by
  refine ⟨?_, ((reply_occurs src keyCode .capReached [] s hs.orderly).withTrip ht
    fun tr => { tr with extraCap := true }).raised .extraCap⟩
  unfold extraCapped
  rw [refuse_answered _ _ _ _ hs, withTrip_answered ht]
  exact raise_placesFollow .extraCap { s.answered src keyCode .capReached [] with trip := some { tr with extraCap := true } }

/-! The extra added (06 R98). -/

section

variable (item amount : Nat)

/-- The extra added to the trip, the fare limit tested, and the fare handed on (06 R98). -/
theorem extraAdded_occurs (h : s.Occurs t ms []) (ht : s.trip = some tr) :
    ({ s with trip := some (tr.withExtra item amount).limited } : State).Occurs
      (fareChanged (withTrip (fun tr => tr.withExtra item amount) t)) ms
      (if (tr.withExtra item amount).exceeds then [.fareLimit] else []) :=
  (h.withTrip ht fun tr => tr.withExtra item amount).fareChanged rfl

/-- In HIRED an extra leaves the fare due absent, so that no DUE follows (06 R98). -/
theorem extra_hired (h : s.Occurs t ms []) (ht : s.trip = some tr) (hm : s.meter = .hired) :
    dueIfRaised tr (addExtra item amount t) = fareChanged (withTrip (fun tr => tr.withExtra item amount) t) := by
  have htrip := (extraAdded_occurs item amount h ht).trip_eq
  have hmeter : t.meter ≠ .settling := by rw [h.rest]; simp [hm]
  have hadded : addExtra item amount t = fareChanged (withTrip (fun tr => tr.withExtra item amount) t) := if_neg hmeter
  have hkept : (tr.withExtra item amount).limited.fareDue = tr.fareDue := rfl
  simp only [hadded, dueIfRaised, htrip, hkept, lt_irrefl, if_false]

/-- The trip with the extra and its fare due computed again (06 R98, R101). -/
def Trip.extraSettled (s : State) (tr : Trip) : Trip := (tr.withExtra item amount).limited.dueFixed s

/-- In SETTLING the fare due is computed again before the DUE is decided (06 R98, 07 R118). -/
theorem extraSettled_occurs (h : s.Occurs t ms []) (ht : s.trip = some tr) (hm : s.meter = .settling) :
    ({ s with trip := some (tr.extraSettled item amount s) } : State).Occurs (addExtra item amount t) ms
      (if (tr.withExtra item amount).exceeds then [.fareLimit] else []) := by
  have hmeter : t.meter = .settling := by rw [h.rest]; exact hm
  have hadded : addExtra item amount t =
      placeDisplay (fixFareDue (fareChanged (withTrip (fun tr => tr.withExtra item amount) t))) := if_pos hmeter
  rw [hadded]
  exact ((extraAdded_occurs item amount h ht).dueFixed rfl).display

theorem addExtra_shows (t : State) : (addExtra item amount t).Shows := by
  unfold addExtra
  dsimp only
  split <;> exact placeDisplay_shows _

theorem addExtra_signPlace (t : State) : (addExtra item amount t).link.signPlace = t.link.signPlace := by
  unfold addExtra
  dsimp only
  split <;> simp [fareChanged_signPlace]

end

/-! The DUE after an extra (07 R118). -/

theorem dueIfRaised_shows (h : s.Shows) (before : Trip) : (dueIfRaised before s).Shows := by
  unfold dueIfRaised
  repeat' split
  · exact offerDue_shows h
  · exact h
  · exact h

theorem dueIfRaised_signPlace (before : Trip) (s : State) : (dueIfRaised before s).link.signPlace = s.link.signPlace := by
  unfold dueIfRaised
  repeat' split
  · exact offerDue_signPlace s
  · rfl
  · rfl

/-- A DUE follows an extra in SETTLING exactly when the fare due rose (log 16). -/
theorem State.Sends.dueRaised (h : s.Sends t es ms) (ht : s.trip = some tr) (hm : s.meter = .settling) (before : Trip) :
    let raised := decide (before.fareDue.getD 0 < tr.fareDue.getD 0) && Machine.dueOffered s tr
    ({ s with trip := some { tr with promptMark := tr.promptMark || raised } } : State).Sends (dueIfRaised before t) es
      (ms ++ if raised then [⟨.cardTerminal, kindPayPrompt, duePayload s tr⟩] else []) := by
  obtain ⟨-, -, -, -, -, -, -, -, htrip, -⟩ := h.keeps
  unfold dueIfRaised
  rw [htrip, ht]
  dsimp only
  by_cases hrise : before.fareDue.getD 0 < tr.fareDue.getD 0
  · simpa only [hrise, decide_true, Bool.true_and, if_true] using h.dueOffered ht hm
  · simpa [hrise, ← ht] using h

/-! The extra made as one handling. -/

section

variable (src : Station) (item : Nat)

theorem extraMade_places (s : State) (tr : Trip) :
    (extraMade src item s tr).Shows ∧ (extraMade src item s tr).link.signPlace = s.link.signPlace := by
  refine ⟨dueIfRaised_shows (addExtra_shows _ _ _) tr, ?_⟩
  rw [extraMade, dueIfRaised_signPlace, addExtra_signPlace]
  simp [reply]

theorem extraMade_hired (ho : s.link.orderly) (ht : s.trip = some tr) (hm : s.meter = .hired) :
    let added := tr.withExtra item (extraAmount s.tables.active item)
    ({ s with trip := some added.limited } : State).Occurs (extraMade src item s tr)
      [replyMessage src keyCode .ok (extraData item s tr)] (if added.exceeds then [.fareLimit] else []) := by
  intro added
  have hreply := reply_occurs src keyCode .ok (extraData item s tr) s ho
  rw [extraMade, extra_hired item _ hreply ht hm]
  exact extraAdded_occurs item _ hreply ht

theorem extraMade_settling (ho : s.link.orderly) (ht : s.trip = some tr) (hm : s.meter = .settling)
    (htenders : tr.tenders = []) :
    let added := tr.withExtra item (extraAmount s.tables.active item)
    let due := roundFare added.limited.runningFare (tariffHeader s.tables.active tr.tariff).unit
    let settled := added.limited.dueFixed s
    let es := if added.exceeds then [.fareLimit] else []
    let prompted := decide (tr.fareDue.getD 0 < due) && isPresent s .cardTerminal && decide (0 < due)
    ({ s with trip := some { settled with promptMark := tr.promptMark || prompted } } : State).Sends
      (extraMade src item s tr) es
      (replyMessage src keyCode .ok (extraData item s tr) :: noticesAll es s.disp ++
        if prompted then [⟨.cardTerminal, kindPayPrompt, duePayload s settled⟩] else []) := by
  intro added due settled es prompted
  have hreply := reply_occurs src keyCode .ok (extraData item s tr) s ho
  have hsends := (extraSettled_occurs item (extraAmount s.tables.active item) hreply ht hm).sends.dueRaised rfl hm tr
  have hremaining : settled.remaining = due := by
    have hunpaid : settled.tenders = [] := htenders
    simp only [Trip.remaining, Trip.paid, hunpaid, List.map_nil, List.sum_nil, Nat.sub_zero]
    rfl
  have hprompted : (decide (tr.fareDue.getD 0 < due) && dueOffered s settled) = prompted := by
    rw [dueOffered, hremaining, ← Bool.and_assoc]
  rw [← hprompted]
  exact hsends

end

/-- Settles O35: the tests by the equations of `keyExtra`, the refusal at the cap by `extraCapped_refused`, and the extra added by
`extraMade_hired` and `extraMade_settling`. -/
theorem extraOutcomes : Obligations.ExtraOutcomes := by
  intro s item hs command answer
  have hexec : exec command s = .next (keyExtra .meterHead item s) :=
    exec_key (c := .extra .meterHead [item]) (code := 11#8) rfl hs
  have hrefused : ∀ {r}, keyExtra .meterHead item s = refuse .meterHead keyCode r s → answer r := fun {r} h =>
    hexec.trans (congrArg _ (h.trans (refuse_answered _ _ r s hs)))
  refine ⟨fun hrange => hrefused (keyExtra_range _ hrange s), fun h1 h8 ht => hrefused (keyExtra_noTrip _ h1 h8 ht),
    fun tr ht h1 h8 => ?_⟩
  intro amount presses allowed
  have hallowed : extraAllowed s tr = true ↔ allowed := extraAllowed_iff s tr
  refine ⟨fun hno => hrefused (keyExtra_notAllowed _ h1 h8 ht (Bool.eq_false_iff.mpr (mt hallowed.mp hno))),
    fun hok hv => hrefused (keyExtra_notValid _ h1 h8 ht (hallowed.mpr hok) hv),
    fun hok hv => ⟨fun hp => hrefused (keyExtra_pressed _ h1 h8 ht (hallowed.mpr hok) hv hp), fun hp => ?_⟩⟩
  rw [keyExtra_unpressed .meterHead h1 h8 ht (hallowed.mpr hok) hv hp] at hexec
  refine ⟨fun hcap => ?_, fun hroom => ?_⟩
  · obtain ⟨hplaces, hoccurs⟩ := extraCapped_refused hs ht .meterHead
    exact ⟨_, hexec.trans (congrArg _ (if_pos hcap)), hplaces, hoccurs⟩
  · have hmade := hexec.trans (congrArg _ (if_neg (Nat.not_lt.mpr hroom)))
    obtain ⟨hshows, hsign⟩ := extraMade_places .meterHead item.toNat s tr
    rcases hok with hm | ⟨hm, htenders, -⟩
    · refine ⟨_, [], hmade, hshows, hsign, fun _ => ⟨rfl, ?_⟩, fun hsettling => ?_⟩
      · rw [List.append_nil]
        exact (extraMade_hired .meterHead item.toNat hs.orderly ht hm).sends
      · rw [hm] at hsettling
        cases hsettling
    · refine ⟨_, _, hmade, hshows, hsign, fun hhired => ?_, fun _ => ⟨rfl, ?_⟩⟩
      · rw [hm] at hhired
        cases hhired
      · exact extraMade_settling .meterHead item.toNat hs.orderly ht hm htenders

end Sys2Proof.Machine
end

