-- ==== Sys2Proof/Proofs/MeterMoves.lean ====
section
/-! PROOF. The requests that are a REPLY and a change of meter state: the call and break keys and DISPATCH (07 R111, R112), SHIFT
OPEN and SHIFT CLOSE (07 R109, R110; 11 R178, R186). -/

namespace Sys2Proof.Machine

variable {s : State}

/-! A REPLY, a change of the shift accounting unit, and a change of meter state (07 R106). -/

/-- The state after an OK with its data, the shift accounting unit set, and the meter moved. -/
def meterMoved (dest : Station) (kind : Byte) (data : List Byte) (m : MeterState) (x : ShiftState) (s : State) : State :=
  setMeter m { s.answered dest kind .ok data with shifts := x }

theorem meterMoved_places (dest : Station) (kind : Byte) (data : List Byte) (m : MeterState) (x : ShiftState) (s : State) :
    (meterMoved dest kind data m x s).Shows ∧ (s.sign.emergency = none → (meterMoved dest kind data m x s).Signs) ∧
      (s.sign.emergency ≠ none → (meterMoved dest kind data m x s).link.signPlace = s.link.signPlace) :=
  ⟨setMeter_shows _ _, fun he => setMeter_signs _ _ he, fun he => setMeter_signPlace _ _ he⟩

theorem meterMoved_occurs (hs : s.Ready) (dest : Station) (kind : Byte) (data : List Byte) (m : MeterState) (x : ShiftState) :
    ({ s with meter := m, sign := s.signTold m, shifts := x } : State).Occurs (meterMoved dest kind data m x s)
      [replyMessage dest kind .ok data] [.stateChange] := by
  have hready : ({ s with shifts := x } : State).Ready := ⟨hs.running, hs.inbound, hs.held, hs.room⟩
  have hreply := reply_occurs dest kind .ok data { s with shifts := x } hready.orderly
  rw [reply_answered _ _ _ _ _ hready] at hreply
  exact hreply.meterSet m

/-! The keys of a call and a break, and DISPATCH (07 R111, R112). -/

theorem keyMove_moves {old : MeterState} (hs : s.Ready) (h : s.meter = old) (new : MeterState) (src : Station) :
    keyMove old new src 0#8 s = meterMoved src keyCode [] new s.shifts s := by
  rw [keyMove, withNoArgument_zero, if_pos h, reply_answered _ _ _ _ _ hs]
  rfl

theorem keyMove_refused {old : MeterState} (hs : s.Ready) (h : s.meter ≠ old) (new : MeterState) (src : Station) :
    keyMove old new src 0#8 s = s.answered src keyCode .refusedState [] := by
  rw [keyMove, withNoArgument_zero, if_neg h, refuse_answered _ _ _ _ hs]

theorem takeDispatch_payload (hs : s.Ready) (src : Station) {payload : List Byte} (h : payload ≠ []) :
    takeDispatch src payload s = s.answered src 4#8 .badValue [] :=
  (if_pos h).trans (refuse_answered _ _ _ _ hs)

theorem takeDispatch_moves (hs : s.Ready) (h : s.meter = .vacant) (src : Station) :
    takeDispatch src [] s = meterMoved src 4#8 [] .onCall s.shifts s := by
  refine (if_pos h).trans ?_
  rw [reply_answered _ _ _ _ _ hs]
  rfl

theorem takeDispatch_refused (hs : s.Ready) (h : s.meter ≠ .vacant) (src : Station) :
    takeDispatch src [] s = s.answered src 4#8 .refusedState [] :=
  (if_neg h).trans (refuse_answered _ _ _ _ hs)

/-- Settles O9: the keys by the equations of `keyMove`, DISPATCH by its own, and the move by `meterMoved_occurs`. -/
theorem callAndBreakMoves : Obligations.CallAndBreakMoves := by
  have hdispatch : ∀ {s : State} payload, s.Ready →
      exec (.dispatch .fleetModem payload) s = .next (takeDispatch .fleetModem payload s) := fun _ hs =>
    exec_permitted (r := .dispatch) rfl hs rfl
  refine ⟨fun s payload hs hpayload => ?_, fun s c src kind old new hs hc => ?_⟩
  · rw [hdispatch _ hs, takeDispatch_payload hs _ hpayload]
  · have houtcome : (s.meter = old → exec c s = .next (meterMoved src kind [] new s.shifts s)) ∧
        (s.meter ≠ old → exec c s = .next (s.answered src kind .refusedState [])) := by
      have hkey : ∀ {c code old new}, messageOf c = some (keyMessage .meterHead code [0#8]) →
          takeKey .meterHead (code :: [0#8]) (sensed c s) = keyMove old new .meterHead 0#8 s →
          (s.meter = old → exec c s = .next (meterMoved .meterHead keyCode [] new s.shifts s)) ∧
            (s.meter ≠ old → exec c s = .next (s.answered .meterHead keyCode .refusedState [])) := fun hm hk => by
        rw [exec_key hm hs, hk]
        exact ⟨fun h => congrArg _ (keyMove_moves hs h _ _), fun h => congrArg _ (keyMove_refused hs h _ _)⟩
      simp only [List.mem_cons, List.not_mem_nil, or_false, Prod.mk.injEq] at hc
      rcases hc with ⟨rfl, rfl, rfl, rfl, rfl⟩ | ⟨rfl, rfl, rfl, rfl, rfl⟩ | ⟨rfl, rfl, rfl, rfl, rfl⟩ |
        ⟨rfl, rfl, rfl, rfl, rfl⟩ | ⟨rfl, rfl, rfl, rfl, rfl⟩
      case inr.inr.inr.inr =>
        rw [hdispatch _ hs]
        exact ⟨fun h => congrArg _ (takeDispatch_moves hs h _), fun h => congrArg _ (takeDispatch_refused hs h _)⟩
      all_goals exact hkey rfl rfl
    obtain ⟨hmoves, hrefused⟩ := houtcome
    obtain ⟨hshows, hsigns, hsignPlace⟩ := meterMoved_places src kind [] new s.shifts s
    exact ⟨fun h => ⟨_, hmoves h, meterMoved_occurs hs src kind [] new s.shifts, hshows, hsigns, hsignPlace⟩, hrefused⟩

/-! SHIFT OPEN (07 R109, 11 R178). -/

/-- The shift accounting unit after a shift has opened (11 R178). -/
def shiftOpened (driver : Nat) (s : State) : ShiftState :=
  { s.shifts with record := some (newShift s driver), nextShift := nextNumber s.shifts.nextShift }

theorem takeShiftOpen_length (hs : s.Ready) (src : Station) {payload : List Byte} (h : payload.length ≠ 3) :
    takeShiftOpen src payload s = s.answered src 2#8 .badValue [] :=
  (if_pos (.inl h)).trans (refuse_answered _ _ _ _ hs)

/-- The tests of a SHIFT OPEN of the right length in their order (07 R109). -/
theorem takeShiftOpen_eq (hs : s.Ready) (src : Station) (b2 b1 b0 : Byte) {driver : Nat}
    (hdriver : driver = b2.toNat * 65536 + b1.toNat * 256 + b0.toNat) :
    takeShiftOpen src [b2, b1, b0] s =
      if driver < 1 ∨ 99999 < driver then s.answered src 2#8 .badValue []
      else if s.meter ≠ .closed then s.answered src 2#8 .refusedState []
      else if s.time.k = 0 ∨ s.time.clockUnset then s.answered src 2#8 .notReady []
      else meterMoved src 2#8 (beBytes 2 s.shifts.nextShift) .vacant (shiftOpened driver s) s := by
  have hfield : fieldAt [b2, b1, b0] 0 3 = driver := by
    simp only [fieldAt, List.drop_zero, List.take, beNat, List.foldl]
    omega
  simp only [takeShiftOpen, hfield, refuse_answered _ _ _ _ hs, reply_answered _ _ _ _ _ hs, List.length_cons,
    List.length_nil, ne_eq, not_true_eq_false, false_or]
  rfl

/-! SHIFT CLOSE (07 R110, 11 R186). -/

/-- The shift accounting unit after a shift record has become the newest report (11 R186). -/
def shiftReported (r : ShiftRecord) (s : State) : ShiftState :=
  { s.shifts with record := none, reports := s.shifts.reports ++ [makeReport s r] }

theorem takeShiftClose_payload (hs : s.Ready) (src : Station) {payload : List Byte} (h : payload ≠ []) :
    takeShiftClose src payload s = s.answered src 3#8 .badValue [] :=
  (if_pos h).trans (refuse_answered _ _ _ _ hs)

theorem takeShiftClose_state (hs : s.Ready) (src : Station) (hv : s.meter ≠ .vacant) (ho : s.meter ≠ .offDuty) :
    takeShiftClose src [] s = s.answered src 3#8 .refusedState [] :=
  (if_pos (⟨hv, ho⟩ : s.meter ≠ .vacant ∧ s.meter ≠ .offDuty)).trans (refuse_answered _ _ _ _ hs)

/-- With the meter VACANT or OFF DUTY the open shift closes unless the reports are full (11 R186, R188). -/
theorem takeShiftClose_open (hs : s.Ready) (src : Station) (hm : s.meter = .vacant ∨ s.meter = .offDuty)
    {r : ShiftRecord} (hr : s.shifts.record = some r) :
    takeShiftClose src [] s =
      if 4 ≤ s.shifts.reports.length then s.answered src 3#8 .reportFull []
      else meterMoved src 3#8 (beBytes 2 r.number) .closed (shiftReported r s) s := by
  have hstate : ¬(s.meter ≠ .vacant ∧ s.meter ≠ .offDuty) := fun ⟨hv, ho⟩ => hm.elim hv ho
  refine (if_neg hstate).trans ?_
  simp only [hr, refuse_answered _ _ _ _ hs, reply_answered _ _ _ _ _ hs]
  rfl

/-- Settles O42: the tests in their order by `takeShiftOpen_eq` and the equations of `takeShiftClose`, and the move by
`meterMoved_occurs`. -/
theorem shiftOpensAndCloses : Obligations.ShiftOpensAndCloses := by
  have hopen : ∀ {s : State} payload, s.Ready →
      exec (.shiftOpen .meterHead payload) s = .next (takeShiftOpen .meterHead payload s) := fun _ hs =>
    exec_permitted (r := .shiftOpen) rfl hs rfl
  have hclose : ∀ {s : State} payload, s.Ready →
      exec (.shiftClose .meterHead payload) s = .next (takeShiftClose .meterHead payload s) := fun _ hs =>
    exec_permitted (r := .shiftClose) rfl hs rfl
  refine ⟨fun s hs => ⟨fun payload h => ?_, ?_⟩, fun s hs => ?_⟩
  · rw [hopen _ hs, takeShiftOpen_length hs _ h]
  · intro b2 b1 b0 driver command answer
    have hexec := (hopen [b2, b1, b0] hs).trans (congrArg _ (takeShiftOpen_eq hs .meterHead b2 b1 b0 (driver := driver) rfl))
    refine ⟨fun h => hexec.trans (congrArg _ (if_pos h)), fun h1 h9 => ?_⟩
    rw [if_neg (by omega)] at hexec
    refine ⟨fun hm => hexec.trans (congrArg _ (if_pos hm)), fun hm hunready => ?_, fun hm hk hclock => ?_⟩
    · exact hexec.trans (congrArg _ ((if_neg (not_not.mpr hm)).trans (if_pos hunready)))
    · rw [if_neg (not_not.mpr hm), if_neg (by simp [hk, hclock])] at hexec
      obtain ⟨hshows, hsigns, hsignPlace⟩ := meterMoved_places .meterHead 2#8 (beBytes 2 s.shifts.nextShift) .vacant
        (shiftOpened driver s) s
      exact ⟨_, hexec, hshows, hsigns, hsignPlace, meterMoved_occurs hs _ _ _ _ _⟩
  · intro answer
    refine ⟨fun payload h => ?_, fun hv ho => ?_, fun r hm hr => ?_⟩
    · exact (hclose _ hs).trans (congrArg _ (takeShiftClose_payload hs _ h))
    · exact (hclose _ hs).trans (congrArg _ (takeShiftClose_state hs _ hv ho))
    · have hexec := (hclose [] hs).trans (congrArg _ (takeShiftClose_open hs .meterHead hm hr))
      refine ⟨fun hfull => hexec.trans (congrArg _ (if_pos hfull)), fun hroom => ?_⟩
      rw [if_neg (Nat.not_le.mpr hroom)] at hexec
      obtain ⟨hshows, hsigns, hsignPlace⟩ := meterMoved_places .meterHead 3#8 (beBytes 2 r.number) .closed
        (shiftReported r s) s
      exact ⟨_, hexec, hshows, hsigns, hsignPlace, meterMoved_occurs hs _ _ _ _ _⟩

end Sys2Proof.Machine
end

