-- ==== Sys2Proof/Proofs/Tenders.lean ====
section
/-! PROOF. A tender that joins the list, with the DUE or the close that follows it (07 R118, R119), and the keys CASH, UNPAID and
PROMPT (07 R118, R120). -/

namespace Sys2Proof.Machine

variable {s t : State} {es : List Event} {ms : List Outbound} {tr : Trip}

/-! The DUE in any meter state (07 R118). -/

/-- Outside SETTLING no DUE is offered. -/
theorem offerDue_notSettling (hm : s.meter ≠ .settling) : offerDue s = s := by
  unfold offerDue
  split
  case h_1 => rfl
  case h_2 => exact if_neg fun ⟨_, hsettling, _⟩ => hm hsettling

theorem offerDue_displayPlace (s : State) : (offerDue s).link.displayPlace = s.link.displayPlace := by
  unfold offerDue
  repeat' split
  all_goals simp

theorem State.Sends.dueIfSettling (h : s.Sends t es ms) (ht : s.trip = some tr) :
    let prompted := decide (s.meter = .settling) && Machine.dueOffered s tr
    ({ s with trip := some { tr with promptMark := tr.promptMark || prompted } } : State).Sends (offerDue t) es
      (ms ++ if prompted then [⟨.cardTerminal, kindPayPrompt, duePayload s tr⟩] else []) := by
  obtain ⟨-, -, -, -, -, -, -, hmeter, -⟩ := h.keeps
  by_cases hm : s.meter = .settling
  · simpa only [hm, decide_true, Bool.true_and] using h.dueOffered ht hm
  · rw [offerDue_notSettling (hmeter ▸ hm)]
    simpa [hm, ← ht] using h

/-! A tender in the list (07 R119). -/

/-- The trip with a settled tender of the next index at the end of its list (07 R119). -/
def Trip.withTender (kind : TenderKind) (farePart tip : Nat) (tr : Trip) : Trip :=
  { tr with tenders := tr.tenders ++ [⟨kind, farePart, tip, tr.tenders.length + 1, .settled⟩] }

section

variable (kind : TenderKind) (farePart tip : Nat)

theorem Trip.withTender_remaining (tr : Trip) :
    (tr.withTender kind farePart tip).remaining = tr.remaining - farePart := by
  simp [Trip.remaining, Trip.paid, withTender, Nat.sub_sub]

theorem Trip.withTender_tips (tr : Trip) : (tr.withTender kind farePart tip).tips = tr.tips + tip := by
  simp [Trip.tips, withTender]

/-- The state after a tender has joined the list: with something left due, the DUE offered and a DISPLAY placed (07 R119). -/
def tenderJoined (tr : Trip) (s : State) : State :=
  let joined : State := { s with trip := some (tr.withTender kind farePart tip) }
  if farePart < tr.remaining then placeDisplay (offerDue joined) else joined

/-- A tender joins the list, and the trip closes when nothing is left due (07 R119). -/
theorem recordTender_eq (ht : s.trip = some tr) :
    recordTender kind farePart tip s =
      if farePart < tr.remaining then tenderJoined kind farePart tip tr s
      else closeTrip (tenderJoined kind farePart tip tr s) := by
  have hleft : tr.remaining - farePart = 0 ↔ ¬farePart < tr.remaining := by omega
  unfold recordTender tenderJoined
  simp only [ht, withTrip_eq ht, hleft]
  by_cases h : farePart < tr.remaining <;> simp only [h, not_true_eq_false, not_false_eq_true, if_true, if_false] <;> rfl

theorem tenderJoined_closing (h : tr.remaining ≤ farePart) (s : State) :
    tenderJoined kind farePart tip tr s = { s with trip := some (tr.withTender kind farePart tip) } :=
  if_neg (Nat.not_lt.mpr h)

theorem tenderJoined_shows (h : farePart < tr.remaining) (s : State) : (tenderJoined kind farePart tip tr s).Shows := by
  rw [tenderJoined, if_pos h]
  exact placeDisplay_shows _

theorem tenderJoined_signPlace (tr : Trip) (s : State) :
    (tenderJoined kind farePart tip tr s).link.signPlace = s.link.signPlace := by
  unfold tenderJoined
  dsimp only
  split
  · rw [placeDisplay_signPlace, offerDue_signPlace]
  · rfl

/-- Whether a DUE follows a tender: the terminal is PRESENT, the meter SETTLING and something left due (07 R118). -/
def tenderPrompts (s : State) (tr : Trip) : Bool :=
  isPresent s .cardTerminal && decide (s.meter = .settling ∧ farePart < tr.remaining)

theorem State.Sends.tenderJoined (h : s.Sends t es ms) (tr : Trip) :
    let paid := tr.withTender kind farePart tip
    ({ s with trip := some { paid with promptMark := tr.promptMark || tenderPrompts farePart s tr } } : State).Sends
      (Machine.tenderJoined kind farePart tip tr t) es
      (ms ++ if tenderPrompts farePart s tr then [⟨.cardTerminal, kindPayPrompt, duePayload s paid⟩] else []) := by
  intro paid
  have hjoined := h.trip (some paid)
  by_cases hleft : farePart < tr.remaining
  · have hprompts : (decide (s.meter = .settling) && Machine.dueOffered s paid) = tenderPrompts farePart s tr := by
      have hremaining : 0 < paid.remaining := by rw [Trip.withTender_remaining]; omega
      simp [Machine.dueOffered, tenderPrompts, hremaining, hleft, Bool.and_comm]
    have hdue := (hjoined.dueIfSettling rfl).display
    rw [show Machine.tenderJoined kind farePart tip tr t = _ from if_pos hleft, ← hprompts]
    exact hdue
  · have hprompts : tenderPrompts farePart s tr = false := by simp [tenderPrompts, hleft]
    rw [tenderJoined_closing _ _ _ (Nat.not_lt.mp hleft), hprompts]
    simpa [paid, Trip.withTender] using hjoined

end

/-! CASH and UNPAID (07 R120). -/

theorem keyTender_state (kind : TenderKind) (src : Station) (h : s.meter ≠ .settling) :
    keyTender kind src s = refuse src keyCode .refusedState s := by
  unfold keyTender
  split
  case h_1 hm _ => exact absurd hm h
  case h_2 => rfl

/-- In SETTLING the whole remaining due is recorded and the trip closes, unless an authorization is pending (07 R120, R122). -/
theorem keyTender_settling (hs : s.Ready) (hm : s.meter = .settling) (ht : s.trip = some tr) (kind : TenderKind)
    (src : Station) :
    keyTender kind src s =
      if authPending s then s.answered src keyCode .refusedState []
      else closeTrip
        { s.answered src keyCode .ok (beBytes 1 (tr.tenders.length + 1) ++ beBytes 3 tr.remaining) with
          trip := some (tr.withTender kind tr.remaining 0) } := by
  simp only [keyTender, hm, ht, refuse_answered _ _ _ _ hs, reply_answered _ _ _ _ _ hs]
  rw [recordTender_eq _ _ _ (tr := tr) (by simpa using ht), if_neg (lt_irrefl _), tenderJoined_closing _ _ _ le_rfl]

/-! PROMPT (07 R118). -/

theorem keyPrompt_state (src : Station) (h : s.meter ≠ .settling) :
    keyPrompt src 0#8 s = refuse src keyCode .refusedState s := if_neg h

theorem keyPrompt_settling (src : Station) (h : s.meter = .settling) :
    keyPrompt src 0#8 s =
      if isPresent s .cardTerminal then offerDue (reply src keyCode .ok [] s) else refuse src keyCode .notReady s := if_pos h

/-- Settles O39: the keys by their handlers' equations, and the DUE by `State.Sends.dueOffered`. -/
theorem cashUnpaidAndPrompt : Obligations.CashUnpaidAndPrompt := by
  have hcash : ∀ {s : State}, s.Ready → exec (.cash .meterHead [0#8]) s = .next (keyTender .cash .meterHead s) :=
    fun {s} hs => exec_key (c := .cash .meterHead [0#8]) (code := 4#8) rfl hs
  have hunpaid : ∀ {s : State}, s.Ready → exec (.unpaid .meterHead [0#8]) s = .next (keyTender .unpaid .meterHead s) :=
    fun {s} hs => exec_key (c := .unpaid .meterHead [0#8]) (code := 5#8) rfl hs
  have hprompt : ∀ {s : State}, s.Ready → exec (.prompt .meterHead [0#8]) s = .next (keyPrompt .meterHead 0#8 s) :=
    fun {s} hs => exec_key (c := .prompt .meterHead [0#8]) (code := 6#8) rfl hs
  refine ⟨fun s c hs hm hc => ?_, fun s tr hs hm ht => ?_⟩
  · have hrefused := refuse_answered .meterHead keyCode .refusedState s hs
    simp only [List.mem_cons, List.not_mem_nil, or_false] at hc
    rcases hc with rfl | rfl | rfl
    · exact (hcash hs).trans (congrArg _ ((keyTender_state _ _ hm).trans hrefused))
    · exact (hunpaid hs).trans (congrArg _ ((keyTender_state _ _ hm).trans hrefused))
    · exact (hprompt hs).trans (congrArg _ ((keyPrompt_state _ hm).trans hrefused))
  · intro left
    refine ⟨fun c kind hc => ?_, fun hpresent => ?_, fun hpresent hleft => ?_⟩
    · have hexec : exec c s = .next (keyTender kind .meterHead s) := by
        simp only [List.mem_cons, List.not_mem_nil, or_false, Prod.mk.injEq] at hc
        rcases hc with ⟨rfl, rfl⟩ | ⟨rfl, rfl⟩
        · exact hcash hs
        · exact hunpaid hs
      rw [hexec, keyTender_settling hs hm ht]
      refine ⟨fun hauth => congrArg _ (if_pos ?_), fun hauth => congrArg _ (if_neg ?_)⟩
      · exact Option.isSome_iff_ne_none.mpr hauth
      · simp [authPending, hauth]
    · have hrefused := refuse_answered .meterHead keyCode .notReady s hs
      have habsent := (keyPrompt_settling .meterHead hm).trans (if_neg (Bool.eq_false_iff.mp hpresent))
      exact (hprompt hs).trans (congrArg _ (habsent.trans hrefused))
    · refine ⟨_, (hprompt hs).trans (congrArg _ ((keyPrompt_settling _ hm).trans (if_pos hpresent))), ?_, ?_, ?_⟩
      · rw [offerDue_displayPlace]
        exact (offer_places _ _).2
      · rw [offerDue_signPlace]
        exact (offer_places _ _).1
      · have hoffered : dueOffered s tr = true := by
          simp only [dueOffered, hpresent, Bool.true_and, decide_eq_true_eq]
          exact hleft
        have hsends := ((State.Sends.refl hs.orderly).replied .meterHead keyCode .ok []).dueOffered ht hm
        rw [hoffered, Bool.or_true] at hsends
        exact hsends

end Sys2Proof.Machine
end

