-- ==== Sys2Proof/Proofs/CardPayments.lean ====
section
/-! PROOF. The parts of a card payment, each as a handling: its end with and without a tender (10 R165), the offline decision and
what an approval does (10 R164, R169), the late list (10 R166) and VOID (10 R168). -/

namespace Sys2Proof.Machine

variable {s t : State} {es : List Event} {ms : List Outbound} {tr : Trip}

/-! PAY RESULT (10 R165). -/

section

variable (number : Nat) (ref : Reference) (o : PayOutcome) (farePart tip : Nat)

/-- A PAY RESULT (10 R165). -/
def payResult (left : Nat) : Outbound :=
  ⟨.cardTerminal, kindPayResult,
    beBytes 2 number ++ refBytes ref ++ [o.code] ++ beBytes 3 farePart ++ beBytes 3 tip ++ beBytes 3 left⟩

theorem remainingNow_trip (ht : s.trip = some tr) : remainingNow s = tr.remaining := by simp only [remainingNow, ht]

/-- Without a tender the remaining due stands (10 R165). -/
theorem payFails_eq (s : State) :
    payFails number ref o farePart tip s = offer (payResult number ref o farePart tip (remainingNow s)) s := rfl

/-- The state after a card payment's PAY RESULT and tender, before the close if one follows (07 R119, 10 R165). -/
def cardPaid (kind : TenderKind) (tr : Trip) (s : State) : State :=
  tenderJoined kind farePart tip tr (offer (payResult number ref o farePart tip (tr.remaining - farePart)) s)

theorem paySucceeds_eq (ht : s.trip = some tr) (kind : TenderKind) :
    paySucceeds number ref o kind farePart tip s =
      if farePart < tr.remaining then cardPaid number ref o farePart tip kind tr s
      else closeTrip (cardPaid number ref o farePart tip kind tr s) := by
  unfold paySucceeds
  rw [remainingNow_trip ht]
  exact recordTender_eq kind farePart tip (by simpa [offerPayResult] using ht)

theorem cardPaid_signPlace (kind : TenderKind) (tr : Trip) (s : State) :
    (cardPaid number ref o farePart tip kind tr s).link.signPlace = s.link.signPlace :=
  (tenderJoined_signPlace _ _ _ _ _).trans (offer_places _ _).1

theorem cardPaid_shows (h : farePart < tr.remaining) (kind : TenderKind) (s : State) :
    (cardPaid number ref o farePart tip kind tr s).Shows := tenderJoined_shows _ _ _ h _

/-- The payment ends with a DISPLAY when something is left due, else with the close (07 R119). -/
theorem cardPaid_ends (kind : TenderKind) (tr : Trip) (s : State) :
    let u := cardPaid number ref o farePart tip kind tr s
    let t := if farePart < tr.remaining then u else closeTrip u
    if farePart < tr.remaining then t = u ∧ u.Shows else t = closeTrip u := by
  intro u t
  by_cases hleft : farePart < tr.remaining
  · rw [if_pos hleft]
    exact ⟨if_pos hleft, cardPaid_shows _ _ _ _ _ hleft _ _⟩
  · rw [if_neg hleft]
    exact if_neg hleft

/-- When nothing is left due, no DISPLAY is placed before the close. -/
theorem cardPaid_displayPlace (h : tr.remaining ≤ farePart) (kind : TenderKind) (s : State) :
    (cardPaid number ref o farePart tip kind tr s).link.displayPlace = s.link.displayPlace := by
  rw [cardPaid, tenderJoined_closing _ _ _ h]
  exact (offer_places _ _).2

/-- The DUE that follows a tender names what is left of the fare and of the tip cap (07 R118). -/
theorem duePayload_withTender (s : State) (tr : Trip) (kind : TenderKind) :
    duePayload s (tr.withTender kind farePart tip) =
      [0#8] ++ beBytes 2 tr.shiftNumber ++ beBytes 2 tr.tripNumber ++ beBytes 3 (tr.fareDue.getD 0) ++
        beBytes 3 (tr.remaining - farePart) ++
        beBytes 3 (tr.fareDue.getD 0 * tipPercent s.tables.unbanked / 100 - (tr.tips + tip)) := by
  rw [duePayload, Trip.withTender_remaining, Trip.withTender_tips]
  rfl

theorem State.Sends.cardPaid (h : s.Sends t es ms) (kind : TenderKind) (tr : Trip) :
    let paid := tr.withTender kind farePart tip
    ({ s with trip := some { paid with promptMark := tr.promptMark || tenderPrompts farePart s tr } } : State).Sends
      (Machine.cardPaid number ref o farePart tip kind tr t) es
      (ms ++ [payResult number ref o farePart tip (tr.remaining - farePart)] ++
        if tenderPrompts farePart s tr then [⟨.cardTerminal, kindPayPrompt, duePayload s paid⟩] else []) :=
  (h.offered _).tenderJoined kind farePart tip tr

end

/-! The offline decision (10 R164). -/

theorem offlineApproves_iff (s : State) (cls amount : Nat) :
    offlineApproves s cls amount = true ↔
      classPolicy s.tables.unbanked cls = 2 ∧ amount ≤ classFloor s.tables.unbanked cls ∧ s.pay.deferred.length < 16 ∧
        ∃ r, s.shifts.record = some r ∧ r.offlineAmount + amount ≤ r.offlineCap := by
  have hroom : offlineRoom s amount = true ↔ ∃ r, s.shifts.record = some r ∧ r.offlineAmount + amount ≤ r.offlineCap := by
    cases hr : s.shifts.record <;> simp [offlineRoom, hr]
  simp only [offlineApproves, Bool.and_eq_true, decide_eq_true_eq, hroom, and_assoc]

/-- Occurrences leave a shift's card offline amount and its cap. -/
theorem countAll_offline (map : Four EventSet) (es : List Event) (r : ShiftRecord) :
    (countAll map es r).offlineAmount = r.offlineAmount ∧ (countAll map es r).offlineCap = r.offlineCap := by
  induction es generalizing r with
  | nil => exact ⟨rfl, rfl⟩
  | cons e es ih => exact ih (countEvent map e r)

/-- The offline decision does not depend on the messages and events of a handling. -/
theorem State.Sends.offlineApproves_eq (h : s.Sends t es ms) (cls amount : Nat) :
    offlineApproves t cls amount = offlineApproves s cls amount := by
  obtain ⟨-, -, -, -, -, htables, -, -, -, -, -, hpay, hshifts⟩ := h.keeps
  have hroom : offlineRoom t amount = offlineRoom s amount := by
    simp only [offlineRoom, hshifts, State.shiftsCounted]
    cases s.shifts.record with
    | none => rfl
    | some r =>
      obtain ⟨hamount, hcap⟩ := countAll_offline (exceptionMap s.tables.unbanked) es r
      simp only [Option.map_some, hamount, hcap]
  simp only [offlineApproves, htables, hpay, hroom]

/-! An offline approval (10 R164, R169). -/

/-- A shift record with an offline approval counted (11 R179). -/
def offlineCounted (amount : Nat) (r : ShiftRecord) : ShiftRecord :=
  { r with offlineCount := up16 r.offlineCount, offlineAmount := up32 r.offlineAmount amount }

/-- The state with an offline approval's entry in the deferred queue and in the shift's count and amount (10 R164). -/
def offlineHeld (e : DeferredEntry) (s : State) : State :=
  { s with
    pay := { s.pay with deferred := s.pay.deferred ++ [e] }
    shifts := { s.shifts with record := s.shifts.record.map (offlineCounted (e.farePart + e.tip)) } }

theorem State.Sends.offlineApproved (h : s.Sends t es ms) (e : DeferredEntry) (he : e.time = clockNow s) :
    (offlineHeld e s).Sends (offlineApprove e.ref e.issuer e.cls e.farePart e.tip e.token t) (es ++ [.offlineApproval])
      (ms ++ noticesOf .offlineApproval (s.disp.heardAll es)) := by
  have hentry : ({ ref := e.ref, issuer := e.issuer, cls := e.cls, farePart := e.farePart, tip := e.tip
                   token := e.token, time := clockNow t } : DeferredEntry) = e := by
    have hclock : clockNow t = e.time := by rw [he, h.rest]; rfl
    rw [hclock]
  unfold offlineApprove
  rw [hentry, h.pay_eq]
  exact ((h.pay { s.pay with deferred := s.pay.deferred ++ [e] }).shift (offlineCounted (e.farePart + e.tip))
    fun _ _ _ => rfl).raised .offlineApproval

theorem offlineApprove_signPlace (e : DeferredEntry) (s : State) :
    (offlineApprove e.ref e.issuer e.cls e.farePart e.tip e.token s).link.signPlace = s.link.signPlace :=
  raise_signPlace _ _

/-! The late list (10 R166) and VOID (10 R168). -/

theorem State.Sends.lateJoined (h : s.Sends t es ms) (a : Auth) (ending : Ending) :
    (joinLate a ending s).Sends (joinLate a ending t) es ms := by
  obtain ⟨-, -, -, -, -, htables, -⟩ := h.keeps
  have hjoined : joinLate a ending t = { t with pay := (joinLate a ending s).pay } := by
    simp only [joinLate, h.pay_eq, htables]
  rw [hjoined]
  exact h.pay _

/-- A shift record with a VOID counted (11 R179). -/
def voidCounted (r : ShiftRecord) : ShiftRecord := { r with voids := up16 r.voids }

/-- A VOID (10 R168). -/
def voidMessage (number : Nat) (ref : Reference) (farePart tip : Nat) : Outbound :=
  ⟨.fleetModem, kindVoid, beBytes 2 number ++ refBytes ref ++ beBytes 3 farePart ++ beBytes 3 tip⟩

theorem State.Sends.voided (h : s.Sends t es ms) (number : Nat) (ref : Reference) (farePart tip : Nat) :
    ({ s with shifts := { s.shifts with record := s.shifts.record.map voidCounted } } : State).Sends
      (offerVoid number ref farePart tip t) es (ms ++ [voidMessage number ref farePart tip]) :=
  (h.offered _).shift voidCounted fun _ _ _ => rfl

theorem offerVoid_places (number : Nat) (ref : Reference) (farePart tip : Nat) (s : State) :
    (offerVoid number ref farePart tip s).link.displayPlace = s.link.displayPlace ∧
      (offerVoid number ref farePart tip s).link.signPlace = s.link.signPlace :=
  (offer_places _ s).symm

/-! Online, and the check that starts a capture (10 R161, R170). -/

theorem isOnline_congr (hlink : t.link.bare = s.link.bare) (hpay : t.pay.bearerUp = s.pay.bearerUp) :
    isOnline t = isOnline s := by
  have hstations : t.link.stations = s.link.stations := (LinkState.bare_keeps hlink).1
  simp only [isOnline, isPresent, hstations, hpay]

/-- Offline no capture starts (10 R170). -/
theorem captureCheck_offline (h : isOnline s = false) : captureCheck s = s := by
  unfold captureCheck
  split
  · exact if_neg (Bool.eq_false_iff.mp h)
  · rfl

end Sys2Proof.Machine
end

