-- ==== Sys2Proof/Proofs/PayRequest.lean ====
section
/-! PROOF. PAY REQUEST (10 R158 to R161, R164, R165, R169): its fields and checks, the online path and the offline path. -/

namespace Sys2Proof.Machine

variable {s : State} {tr : Trip} {f : PayFields} {payload : List Byte}

/-! The fields (10 R158). -/

theorem payFields_iff (payload : List Byte) (f : PayFields) :
    payFields payload = some f ↔
      10 ≤ payload.length ∧ payload.length = 10 + fieldAt payload 9 1 ∧ 8 ≤ fieldAt payload 9 1 ∧
        fieldAt payload 9 1 ≤ 32 ∧ f.issuer ≤ 999999 ∧ f.farePart ≤ 999999 ∧ f.tip ≤ 999999 ∧
        f = ⟨fieldAt payload 0 3, fieldAt payload 3 3, fieldAt payload 6 3, payload.drop 10⟩ := by
  unfold payFields
  dsimp only
  constructor
  · intro h
    obtain ⟨hform, hf⟩ := Option.ite_none_right_eq_some.mp h
    obtain rfl := Option.some.inj hf
    obtain ⟨hlength, htoken, h8, h32, hissuer, hfare, htip⟩ := hform
    exact ⟨hlength, htoken, h8, h32, hissuer, hfare, htip, rfl⟩
  · rintro ⟨hlength, htoken, h8, h32, hissuer, hfare, htip, rfl⟩
    exact if_pos ⟨hlength, htoken, h8, h32, hissuer, hfare, htip⟩

/-! The tests in their order (10 R158). -/

theorem takePayRequest_malformed (src : Station) (h : payFields payload = none) (s : State) :
    takePayRequest src payload s = refuse src 15#8 .badValue s := by
  simp only [takePayRequest, h]
  rfl

theorem takePayRequest_state (src : Station) (h : payFields payload = some f) (hm : s.meter ≠ .settling) :
    takePayRequest src payload s = refuse src 15#8 .refusedState s := by
  simp only [takePayRequest, h]
  split
  case h_1 hsettling _ => exact absurd hsettling hm
  case h_2 => rfl

section

variable (src : Station) (h : payFields payload = some f) (hm : s.meter = .settling) (ht : s.trip = some tr)

include h hm ht

theorem takePayRequest_fails {r : Result} (hcheck : payCheck s tr f = some r) :
    takePayRequest src payload s = refuse src 15#8 r s := by
  simp only [takePayRequest, h, hm, ht, hcheck]
  rfl

theorem takePayRequest_accepted (hcheck : payCheck s tr f = none) :
    takePayRequest src payload s = if isOnline s then payOnline src tr f s else payOffline src tr f s := by
  simp only [takePayRequest, h, hm, ht, hcheck]

end

/-! The online path (10 R159, R160). -/

/-- The authorization of an accepted PAY REQUEST (10 R160). -/
def acceptedAuth (tr : Trip) (f : PayFields) (s : State) : Auth :=
  { number := s.pay.nextAuth, ref := nextReference s tr, issuer := f.issuer, cls := issuerClass s.tables.unbanked f.issuer
    farePart := f.farePart, tip := f.tip, token := f.token, cancelled := false, count := 0
    timeout := authTimeoutSetting s.tables.unbanked }

/-- The payment controller with that authorization pending (10 R160). -/
def payPending (tr : Trip) (f : PayFields) (s : State) : PaymentState :=
  { s.pay with auth := some (acceptedAuth tr f s), nextAuth := nextNumber s.pay.nextAuth }

theorem payOnline_eq (hs : s.Ready) (src : Station) (tr : Trip) (f : PayFields) :
    payOnline src tr f s =
      offer ⟨.fleetModem, kindAuthRequest, authRequestPayload (acceptedAuth tr f s)⟩
        { s.answered src 15#8 .ok (payReplyData (nextReference s tr) s.pay.nextAuth 0#8) with
          pay := payPending tr f s } := by
  simp only [payOnline, reply_answered _ _ _ _ _ hs]
  rfl

theorem State.Ready.answered_sends (hs : s.Ready) (dest : Station) (kind : Byte) (r : Result) (data : List Byte) :
    s.Sends (s.answered dest kind r data) [] [replyMessage dest kind r data] := by
  rw [← reply_answered dest kind r data s hs]
  exact (State.Sends.refl hs.orderly).replied dest kind r data

/-! The offline path (10 R159, R164, R165). -/

/-- The deferred entry of a PAY REQUEST approved offline (10 R169). -/
def payEntry (tr : Trip) (f : PayFields) (s : State) : DeferredEntry :=
  { ref := nextReference s tr, issuer := f.issuer, cls := issuerClass s.tables.unbanked f.issuer, farePart := f.farePart
    tip := f.tip, token := f.token, time := clockNow s }

/-- The state after a payment approved offline, before the close if one follows (10 R164, R165; 07 R119). -/
def paidOffline (src : Station) (tr : Trip) (f : PayFields) (s : State) : State :=
  let e := payEntry tr f s
  cardPaid 0 e.ref .approvedOffline f.farePart f.tip .cardOffline tr
    (offlineApprove e.ref e.issuer e.cls e.farePart e.tip e.token
      (s.answered src 15#8 .ok (payReplyData (nextReference s tr) 0 1#8)))

theorem payOffline_declined (hs : s.Ready) (ht : s.trip = some tr) (src : Station)
    (h : offlineApproves s (issuerClass s.tables.unbanked f.issuer) (f.farePart + f.tip) = false) :
    payOffline src tr f s =
      offer (payResult 0 (nextReference s tr) .declined f.farePart f.tip tr.remaining)
        (s.answered src 15#8 .ok (payReplyData (nextReference s tr) 0 1#8)) := by
  rw [← (hs.answered_sends src 15#8 .ok (payReplyData (nextReference s tr) 0 1#8)).offlineApproves_eq] at h
  rw [← remainingNow_trip ht]
  simp only [payOffline, reply_answered _ _ _ _ _ hs]
  exact if_neg (Bool.eq_false_iff.mp h)

/-- Offline no capture starts after the approval, so the tender or the close ends it (10 R170). -/
theorem payOffline_approved (hs : s.Ready) (ht : s.trip = some tr) (hoffline : isOnline s = false) (src : Station)
    (h : offlineApproves s (issuerClass s.tables.unbanked f.issuer) (f.farePart + f.tip) = true) :
    payOffline src tr f s =
      if f.farePart < tr.remaining then paidOffline src tr f s else closeTrip (paidOffline src tr f s) := by
  rw [← (hs.answered_sends src 15#8 .ok (payReplyData (nextReference s tr) 0 1#8)).offlineApproves_eq] at h
  simp only [payOffline, reply_answered _ _ _ _ _ hs]
  refine (if_pos h).trans (Eq.trans (captureCheck_offline ?_) (paySucceeds_eq _ _ _ _ _ (by simpa using ht) _))
  rw [← hoffline]
  exact isOnline_congr (by rw [paySucceeds_bare, offlineApprove_bare]; rfl) (by simp [offlineApprove])

theorem paidOffline_signPlace (src : Station) (tr : Trip) (f : PayFields) (s : State) :
    (paidOffline src tr f s).link.signPlace = s.link.signPlace :=
  (cardPaid_signPlace _ _ _ _ _ _ _ _).trans (offlineApprove_signPlace _ _)

theorem paidOffline_sends (hs : s.Ready) (src : Station) (tr : Trip) (f : PayFields) :
    let ref := nextReference s tr
    let paid := tr.withTender .cardOffline f.farePart f.tip
    let prompted := tenderPrompts f.farePart s tr
    ({ offlineHeld (payEntry tr f s) s with trip := some { paid with promptMark := tr.promptMark || prompted } } : State).Sends
      (paidOffline src tr f s) [.offlineApproval]
      (replyMessage src 15#8 .ok (payReplyData ref 0 1#8) :: noticesOf .offlineApproval s.disp ++
        [payResult 0 ref .approvedOffline f.farePart f.tip (tr.remaining - f.farePart)] ++
        if prompted then [⟨.cardTerminal, kindPayPrompt, duePayload s paid⟩] else []) :=
  ((hs.answered_sends src 15#8 .ok (payReplyData (nextReference s tr) 0 1#8)).offlineApproved (payEntry tr f s)
    rfl).cardPaid 0 _ .approvedOffline _ _ .cardOffline tr

/-- Settles O51: the fields by `payFields_iff`, the tests by `takePayRequest_fails`, an approval offline by
`State.Sends.offlineApproved` and `State.Sends.cardPaid`, and no capture by `captureCheck_offline`. -/
theorem payRequestAccepted : Obligations.PayRequestAccepted := by
  have hexec : ∀ {s : State} payload, s.Ready →
      exec (.payRequest .cardTerminal payload) s = .next (takePayRequest .cardTerminal payload s) := fun _ hs =>
    exec_permitted (r := .payRequest) rfl hs rfl
  have haccepted : ∀ {s : State} {payload f tr}, s.Ready → payFields payload = some f → s.meter = .settling →
      s.trip = some tr → payCheck s tr f = none →
      exec (.payRequest .cardTerminal payload) s =
        .next (if isOnline s then payOnline .cardTerminal tr f s else payOffline .cardTerminal tr f s) :=
    fun {s payload f tr} hs hf hm ht hcheck => by
      rw [hexec _ hs, takePayRequest_accepted _ hf hm ht hcheck]
  refine ⟨payFields_iff, fun s payload hs => ?_, fun s tr f => rfl, offlineApproves_iff, ?_, ?_⟩
  · intro answer
    have hrefused := fun r => refuse_answered .cardTerminal 15#8 r s hs
    refine ⟨fun hf => ?_, fun f hf => ⟨fun hm => ?_, fun tr r hm ht hcheck => ?_⟩⟩
    · exact (hexec _ hs).trans (congrArg _ ((takePayRequest_malformed _ hf s).trans (hrefused _)))
    · exact (hexec _ hs).trans (congrArg _ ((takePayRequest_state _ hf hm).trans (hrefused _)))
    · exact (hexec _ hs).trans (congrArg _ ((takePayRequest_fails _ hf hm ht hcheck).trans (hrefused _)))
  · intro s payload f tr hs hf hm ht hcheck ref cls next samePlaces
    have haccept := haccepted hs hf hm ht hcheck
    refine ⟨fun honline => ?_, fun hoffline hdeclined => ?_⟩
    · rw [if_pos honline, payOnline_eq hs] at haccept
      obtain ⟨hsign, hdisplay⟩ := offer_places
        ⟨.fleetModem, kindAuthRequest, authRequestPayload (acceptedAuth tr f s)⟩
        { s.answered .cardTerminal 15#8 .ok (payReplyData (nextReference s tr) s.pay.nextAuth 0#8) with
          pay := payPending tr f s }
      exact ⟨_, haccept, ⟨hdisplay, hsign⟩, ((hs.answered_sends _ _ _ _).pay (payPending tr f s)).offered _⟩
    · rw [if_neg (Bool.eq_false_iff.mp hoffline), payOffline_declined hs ht _ hdeclined] at haccept
      obtain ⟨hsign, hdisplay⟩ := offer_places (payResult 0 (nextReference s tr) .declined f.farePart f.tip tr.remaining)
        (s.answered .cardTerminal 15#8 .ok (payReplyData (nextReference s tr) 0 1#8))
      exact ⟨_, haccept, ⟨hdisplay, hsign⟩, (hs.answered_sends _ _ _ _).offered _⟩
  · intro s payload f tr hs hf hm ht hcheck hoffline ref cls amount happroved tender prompted paid entry left approved messages
    have haccept := haccepted hs hf hm ht hcheck
    rw [if_neg (Bool.eq_false_iff.mp hoffline), payOffline_approved hs ht hoffline _ happroved] at haccept
    have hprompted : tenderPrompts f.farePart s tr = prompted := by simp [tenderPrompts, hm, prompted]
    have hsends := paidOffline_sends hs .cardTerminal tr f
    simp only [hprompted, duePayload_withTender] at hsends
    refine ⟨paidOffline .cardTerminal tr f s, _, haccept, paidOffline_signPlace _ _ _ _, hsends,
      cardPaid_ends _ _ _ _ _ _ _ _⟩

end Sys2Proof.Machine
end

