-- ==== Sys2Proof/Proofs/AuthTimer.lean ====
section
/-! PROOF. AUTH_TIMER_EXPIRY in each of its outcomes and LATE_ENTRY_EXPIRY (10 R163 to R166). -/

namespace Sys2Proof.Machine

variable {s : State} {a : Auth} {tr : Trip}

/-! The expiry of the pending authorization (10 R163). -/

theorem authExpires_none (h : s.pay.auth = none) : authExpires s = s := by simp only [authExpires, h]

theorem authExpires_cancelled (h : s.pay.auth = some a) (hc : a.cancelled = true) :
    authExpires s = joinLate a .cancelled (endAuth s) := by
  simp only [authExpires, h, hc, if_true]

/-- The state at the offline decision: the authorization has ended and AUTH TIMEOUT has occurred (10 R163). -/
def authTimedOut (s : State) : State := raise .authTimeout (endAuth s)

theorem authTimedOut_sends (ho : s.link.orderly) :
    (endAuth s).Sends (authTimedOut s) [.authTimeout] (noticesOf .authTimeout s.disp) :=
  (State.Sends.refl (s := endAuth s) ho).raised .authTimeout

/-- An authorization that is not cancelled is decided offline as it would have been before the timeout (10 R163, R164). -/
theorem authExpires_pending (ho : s.link.orderly) (h : s.pay.auth = some a) (hc : a.cancelled = false) :
    authExpires s =
      if offlineApproves s a.cls (a.farePart + a.tip) then
        captureCheck (paySucceeds a.number a.ref .approvedOffline .cardOffline a.farePart a.tip
          (joinLate a .endedOffline
            (offlineApprove a.ref a.issuer a.cls a.farePart a.tip a.token (authTimedOut s))))
      else payFails a.number a.ref .timeout a.farePart a.tip (joinLate a .endedDeclined (authTimedOut s)) := by
  have hdecision : offlineApproves (raise .authTimeout (endAuth s)) a.cls (a.farePart + a.tip) =
      offlineApproves s a.cls (a.farePart + a.tip) := (authTimedOut_sends ho).offlineApproves_eq _ _
  simp only [authExpires, h, hc, Bool.false_eq_true, if_false, hdecision]
  rfl

/-! Without an offline approval (10 R165, R166). -/

/-- The state after an authorization timed out without an offline approval. -/
def authFailed (a : Auth) (s : State) : State :=
  offer (payResult a.number a.ref .timeout a.farePart a.tip (remainingNow s)) (joinLate a .endedDeclined (authTimedOut s))

theorem authFailed_eq (a : Auth) (s : State) :
    payFails a.number a.ref .timeout a.farePart a.tip (joinLate a .endedDeclined (authTimedOut s)) = authFailed a s := by
  have hremaining : remainingNow (joinLate a .endedDeclined (authTimedOut s)) = remainingNow s := by
    simp [remainingNow, authTimedOut]
  rw [payFails_eq, hremaining, authFailed]

theorem authFailed_sends (ho : s.link.orderly) (a : Auth) :
    (joinLate a .endedDeclined (endAuth s)).Sends (authFailed a s) [.authTimeout]
      (noticesOf .authTimeout s.disp ++ [payResult a.number a.ref .timeout a.farePart a.tip (remainingNow s)]) :=
  ((authTimedOut_sends ho).lateJoined a .endedDeclined).offered _

theorem authFailed_placesFollow (a : Auth) (s : State) : s.PlacesFollow (authFailed a s) :=
  State.PlacesFollow.offered (t := joinLate a .endedDeclined (authTimedOut s))
    (raise_placesFollow .authTimeout (endAuth s)) _

/-! With an offline approval (10 R164 to R166, R169). -/

/-- The deferred entry of an authorization approved offline (10 R169). -/
def authEntry (a : Auth) (s : State) : DeferredEntry :=
  { ref := a.ref, issuer := a.issuer, cls := a.cls, farePart := a.farePart, tip := a.tip, token := a.token
    time := clockNow s }

/-- The state after an authorization timed out and was approved offline, before the close if one follows. -/
def authPaid (a : Auth) (tr : Trip) (s : State) : State :=
  cardPaid a.number a.ref .approvedOffline a.farePart a.tip .cardOffline tr
    (joinLate a .endedOffline (offlineApprove a.ref a.issuer a.cls a.farePart a.tip a.token (authTimedOut s)))

theorem authPaid_signPlace (a : Auth) (tr : Trip) (s : State) : (authPaid a tr s).link.signPlace = s.link.signPlace :=
  calc (authPaid a tr s).link.signPlace
      = (offlineApprove a.ref a.issuer a.cls a.farePart a.tip a.token (authTimedOut s)).link.signPlace :=
        cardPaid_signPlace _ _ _ _ _ _ _ _
    _ = (authTimedOut s).link.signPlace := offlineApprove_signPlace (authEntry a s) _
    _ = s.link.signPlace := raise_signPlace _ _

theorem authPaid_sends (ho : s.link.orderly) (a : Auth) (tr : Trip) :
    let paid := tr.withTender .cardOffline a.farePart a.tip
    let prompted := tenderPrompts a.farePart s tr
    ({ joinLate a .endedOffline (offlineHeld (authEntry a s) (endAuth s)) with
      trip := some { paid with promptMark := tr.promptMark || prompted } } : State).Sends (authPaid a tr s)
      [.authTimeout, .offlineApproval]
      (noticesAll [.authTimeout, .offlineApproval] s.disp ++
        [payResult a.number a.ref .approvedOffline a.farePart a.tip (tr.remaining - a.farePart)] ++
        if prompted then [⟨.cardTerminal, kindPayPrompt, duePayload s paid⟩] else []) := by
  have hnotices : noticesAll [.authTimeout, .offlineApproval] s.disp =
      noticesOf .authTimeout s.disp ++ noticesOf .offlineApproval (s.disp.heard .authTimeout) := by
    simp [noticesAll]
  rw [hnotices]
  exact (((authTimedOut_sends ho).offlineApproved (authEntry a s) rfl).lateJoined a .endedOffline).cardPaid a.number a.ref
    .approvedOffline a.farePart a.tip .cardOffline tr

/-- Settles O54: each outcome by its branch of `authExpires_pending`, as the handling it is. -/
theorem authTimerAndLateList : Obligations.AuthTimerAndLateList := by
  intro s hrun ho
  have hexec : exec .authTimerExpiry s = .next (authExpires s) := congrArg _ (if_pos hrun)
  refine ⟨fun hnone => hexec.trans (congrArg _ (authExpires_none hnone)), fun a ha => ?_, fun i => congrArg _ (if_pos hrun)⟩
  intro joined result
  refine ⟨fun hc => hexec.trans (congrArg _ (authExpires_cancelled ha hc)), fun hc hno => ?_, fun hc happroved tr ht => ?_⟩
  · have hfails := authExpires_pending ho ha hc
    rw [if_neg (Bool.eq_false_iff.mp hno), authFailed_eq] at hfails
    exact ⟨_, hexec.trans (congrArg _ hfails), authFailed_placesFollow a s, authFailed_sends ho a⟩
  · intro prompted paid entry approved
    have hpays := authExpires_pending ho ha hc
    rw [if_pos happroved, paySucceeds_eq (tr := tr) _ _ _ _ _ (by simpa [authTimedOut] using ht)] at hpays
    refine ⟨authPaid a tr s, _, hexec.trans (congrArg _ hpays), authPaid_signPlace a tr s, authPaid_sends ho a tr,
      cardPaid_ends _ _ _ _ _ _ _ _⟩

end Sys2Proof.Machine
end

