-- ==== Sys2Proof/Proofs/AuthResponse.lean ====
section
/-! PROOF. AUTH RESPONSE (10 R162, R165, R167, R168): its fields, the pending authorization that it ends, and the late entry that
it resolves. -/

namespace Sys2Proof.Machine

variable {s : State} {a : Auth} {tr : Trip}

/-! The fields (10 R162). -/

/-- A reference's numbers in the ranges that its five bytes carry (07 R119). -/
structure Reference.InRange (ref : Reference) : Prop where
  shift : 1 ≤ ref.shift ∧ ref.shift ≤ 65535
  trip : 1 ≤ ref.trip ∧ ref.trip ≤ 65535
  index : 1 ≤ ref.index ∧ ref.index ≤ 4

/-- The value of bytes read after a value is that of the bytes written, behind it (03 R34). -/
theorem foldl_beBytes (n v acc : Nat) :
    (beBytes n v).foldl (fun a b => a * 256 + b.toNat) acc = acc * 256 ^ n + v % 256 ^ n := by
  induction n generalizing acc with
  | zero => simp [beBytes, Nat.mod_one]
  | succ n ih =>
    have hbyte : (BitVec.ofNat 8 (v / 256 ^ n)).toNat = v / 256 ^ n % 256 := BitVec.toNat_ofNat _ _
    rw [beBytes, List.foldl_cons, ih, hbyte, Nat.mod_pow_succ]
    ring

theorem beNat_beBytes {n v : Nat} (h : v < 256 ^ n) : beNat (beBytes n v) = v := by
  rw [beNat, foldl_beBytes, Nat.zero_mul, Nat.zero_add, Nat.mod_eq_of_lt h]

theorem authResponse_fields {number : Nat} {ref : Reference} (hn : number ≤ 65535) (href : ref.InRange) (b : Byte) :
    let payload := beBytes 2 number ++ refBytes ref ++ [b]
    payload.length = 8 ∧ fieldAt payload 0 2 = number ∧ referenceAt payload 2 = ref ∧ fieldAt payload 7 1 = b.toNat := by
  obtain ⟨⟨-, hshift⟩, ⟨-, htrip⟩, -, hindex⟩ := href
  refine ⟨rfl, beNat_beBytes (n := 2) (by omega), ?_, fieldAt_byte rfl⟩
  have hreference : referenceAt (beBytes 2 number ++ refBytes ref ++ [b]) 2 =
      ⟨beNat (beBytes 2 ref.shift), beNat (beBytes 2 ref.trip), beNat (beBytes 1 ref.index)⟩ := rfl
  rw [hreference, beNat_beBytes (by omega), beNat_beBytes (by omega), beNat_beBytes (by omega)]

/-- On a Ready controller an AUTH RESPONSE in its ranges goes to the payment controller. -/
theorem exec_authResponse (hs : s.Ready) {number : Nat} {ref : Reference} (hn : 1 ≤ number ∧ number ≤ 65535)
    (href : ref.InRange) {b : Byte} (hb : b.toNat ≤ 1) :
    exec (.authResponse .fleetModem (beBytes 2 number ++ refBytes ref ++ [b])) s =
      .next (authResponseTaken number ref (b.toNat == 1) s) := by
  obtain ⟨hn1, hn⟩ := hn
  obtain ⟨hlength, hnumber, hreference, hanswer⟩ := authResponse_fields hn href b
  obtain ⟨⟨hshift, -⟩, ⟨htrip, -⟩, hindex1, hindex⟩ := href
  have hform : reportFormOk .authResponse (beBytes 2 number ++ refBytes ref ++ [b]) = true := by
    simp only [reportFormOk, hlength, hnumber, hreference, hanswer, referenceInRange, Bool.and_eq_true, decide_eq_true_eq,
      true_and]
    exact ⟨⟨hn1, ⟨⟨hshift, htrip⟩, hindex1⟩, hindex⟩, hb⟩
  rw [exec_report (kind := .authResponse) rfl hs rfl hform, takeReport, hnumber, hreference, hanswer]

/-! The pending authorization (10 R162). -/

theorem authResponseTaken_pending (ha : s.pay.auth = some a) (approved : Bool) :
    authResponseTaken a.number a.ref approved s =
      if a.cancelled then
        if approved then offerVoid a.number a.ref a.farePart a.tip (endAuth s) else endAuth s
      else if approved then paySucceeds a.number a.ref .approved .cardOnline a.farePart a.tip (endAuth s)
      else payFails a.number a.ref .declined a.farePart a.tip (endAuth s) := by
  simp only [authResponseTaken, ha, and_self, if_true]

/-! The late list (10 R167). -/

section

variable {number : Nat} {ref : Reference} (hno : ∀ a, s.pay.auth = some a → ¬(a.number = number ∧ a.ref = ref))

include hno

theorem authResponseTaken_unmatched (h : ∀ e ∈ s.pay.late, ¬(e.number = number ∧ e.ref = ref)) (approved : Bool) :
    authResponseTaken number ref approved s = s := by
  have hfind : s.pay.late.find? (fun e => e.number = number ∧ e.ref = ref) = none :=
    List.find?_eq_none.mpr fun e he => by simpa using h e he
  cases ha : s.pay.auth with
  | none => simp only [authResponseTaken, ha, hfind]
  | some a => simp only [authResponseTaken, ha, hno a ha, if_false, hfind]

/-- The first late entry that matches is taken out of the list and resolved (10 R167). -/
theorem authResponseTaken_late {before after : List LateEntry} {e : LateEntry} (hlate : s.pay.late = before ++ e :: after)
    (he : e.number = number ∧ e.ref = ref) (hbefore : ∀ x ∈ before, ¬(x.number = number ∧ x.ref = ref)) (approved : Bool) :
    authResponseTaken number ref approved s =
      resolveLate e approved { s with pay := { s.pay with late := before ++ after } } := by
  have hfind : s.pay.late.find? (fun e => e.number = number ∧ e.ref = ref) = some e :=
    List.find?_eq_some_iff_append.mpr
      ⟨decide_eq_true he, before, after, hlate, fun x hx => by simpa [imp_iff_not_or] using hbefore x hx⟩
  have herase : s.pay.late.erase e = before ++ after := by
    rw [hlate, List.erase_append_right _ fun hmem => hbefore e hmem he, List.erase_cons_head]
  cases ha : s.pay.auth with
  | none => simp only [authResponseTaken, ha, hfind, herase]
  | some a => simp only [authResponseTaken, ha, hno a ha, if_false, hfind, herase]

end

/-- An approved late entry that ended offline and is still deferred (10 R167). -/
def LateEntry.Queued (e : LateEntry) (s : State) : Prop := e.ending = .endedOffline ∧ ∃ d ∈ s.pay.deferred, d.ref = e.ref

theorem resolveLate_declined (e : LateEntry) (s : State) : resolveLate e false s = s := rfl

theorem resolveLate_approved (e : LateEntry) (s : State) :
    (e.Queued s → resolveLate e true s = resolveDeferred e.ref s) ∧
      (¬e.Queued s → resolveLate e true s = raise .lateVoid (offerVoid e.number e.ref e.farePart e.tip s)) := by
  have hqueued : e.Queued s ↔ e.ending = .endedOffline ∧ s.pay.deferred.any (fun d => d.ref = e.ref) = true := by
    simp [LateEntry.Queued]
  exact ⟨fun h => if_pos (hqueued.mp h), fun h => if_neg (mt hqueued.mpr h)⟩

/-- A shift record with a resolved entry counted (11 R179). -/
def resolvedCounted (r : ShiftRecord) : ShiftRecord := { r with resolvedCount := up16 r.resolvedCount }

/-- The state with a reference's deferred entry resolved, under a capture state (10 R167, 11 R179). -/
def deferredResolved (ref : Reference) (capture : CaptureState) (s : State) : State :=
  { s with
    pay := { s.pay with deferred := s.pay.deferred.filter fun e => e.ref ≠ ref, capture := capture }
    shifts := { s.shifts with record := s.shifts.record.map resolvedCounted } }

theorem resolveDeferred_other {ref : Reference} (h : ∀ n limit, s.pay.capture ≠ .inFlight ref n limit) :
    resolveDeferred ref s = deferredResolved ref s.pay.capture s := by
  refine if_neg ?_
  cases hc : s.pay.capture with
  | inFlight r n limit =>
    have hr : r ≠ ref := fun hr => h n limit (by rw [hc, hr])
    simp [inFlightFor, hr]
  | idle => simp [inFlightFor]
  | waiting n interval => simp [inFlightFor]

/-- A capture in flight for the entry ends, with the check for the next (10 R170, R172). -/
theorem resolveDeferred_inFlight {ref : Reference} {n limit : Nat} (h : s.pay.capture = .inFlight ref n limit) :
    resolveDeferred ref s = captureCheck (deferredResolved ref .idle s) :=
  if_pos (by simp [inFlightFor, h])

/-- A late approval that is no longer deferred: a VOID, counted, and LATE VOID (10 R167, R168). -/
theorem lateVoided_sends (ho : s.link.orderly) (e : LateEntry) :
    ({ s with shifts := { s.shifts with record := s.shifts.record.map voidCounted } } : State).Sends
      (raise .lateVoid (offerVoid e.number e.ref e.farePart e.tip s)) [.lateVoid]
      (voidMessage e.number e.ref e.farePart e.tip :: noticesOf .lateVoid s.disp) :=
  ((State.Sends.refl ho).voided e.number e.ref e.farePart e.tip).raised .lateVoid

theorem lateVoided_placesFollow (ho : s.link.orderly) (e : LateEntry) :
    s.PlacesFollow (raise .lateVoid (offerVoid e.number e.ref e.farePart e.tip s)) := by
  have hvoid := (State.Sends.refl ho).voided e.number e.ref e.farePart e.tip
  have hoffered : s.PlacesFollow (offerVoid e.number e.ref e.farePart e.tip s) :=
    (State.PlacesFollow.refl s).offered (voidMessage e.number e.ref e.farePart e.tip)
  exact hoffered.trans
    (s := { s with shifts := { s.shifts with record := s.shifts.record.map voidCounted } })
    (raise_placesFollow .lateVoid _) hvoid (raise_occurs .lateVoid _ hvoid.orderly).sends

/-- Settles O53: the pending authorization by `authResponseTaken_pending`, a late entry by `authResponseTaken_late` and
`resolveLate_approved`. -/
theorem authResponseEndsPayment : Obligations.AuthResponseEndsPayment := by
  refine ⟨?_, ?_⟩
  · intro s a tr b hs ha ht hb hn1 hn hshift1 hshift htrip1 htrip hindex1 hindex command ended samePlaces
    have hexec := exec_authResponse hs ⟨hn1, hn⟩ ⟨⟨hshift1, hshift⟩, ⟨htrip1, htrip⟩, ⟨hindex1, hindex⟩⟩ hb
    rw [authResponseTaken_pending ha] at hexec
    have hended : (endAuth s).Sends (endAuth s) [] [] := .refl hs.orderly
    refine ⟨?_, ?_, ?_, ?_⟩
    · rintro rfl hc
      rw [hc] at hexec
      have hremaining : remainingNow (endAuth s) = tr.remaining := remainingNow_trip ht
      obtain ⟨hsign, hdisplay⟩ :=
        offer_places (payResult a.number a.ref .declined a.farePart a.tip (remainingNow (endAuth s))) (endAuth s)
      refine ⟨_, hexec, ⟨hdisplay, hsign⟩, ?_⟩
      rw [← hremaining]
      exact hended.offered _
    · rintro rfl hc
      rw [hc] at hexec
      exact hexec
    · rintro rfl hc
      rw [hc] at hexec
      exact ⟨_, hexec, offerVoid_places _ _ _ _ _, hended.voided _ _ _ _⟩
    · rintro rfl hc result paid
      rw [hc] at hexec
      have hpays := hexec.trans
        (congrArg _ (paySucceeds_eq (s := endAuth s) a.number a.ref .approved a.farePart a.tip ht .cardOnline))
      refine ⟨fun hleft => ?_, fun hclosed => ?_⟩
      · intro prompted
        have hprompted : tenderPrompts a.farePart (endAuth s) tr = prompted := by
          change tenderPrompts a.farePart s tr = prompted
          simp [tenderPrompts, hleft, prompted]
        have hpaid := hended.cardPaid a.number a.ref .approved a.farePart a.tip .cardOnline tr
        rw [hprompted] at hpaid
        rw [if_pos hleft] at hpays
        exact ⟨_, hpays, cardPaid_shows _ _ _ _ _ hleft _ _, cardPaid_signPlace _ _ _ _ _ _ _ _, hpaid⟩
      · rw [if_neg (Nat.not_lt.mpr hclosed)] at hpays
        refine ⟨_, hpays, ⟨cardPaid_displayPlace _ _ _ _ _ hclosed _ _, cardPaid_signPlace _ _ _ _ _ _ _ _⟩, ?_⟩
        rw [cardPaid, tenderJoined_closing _ _ _ hclosed]
        exact (hended.offered _).trip (some paid)
  · intro s number ref b hs hb hn1 hn hshift1 hshift htrip1 htrip hindex1 hindex hno command matched
    have hexec := exec_authResponse hs ⟨hn1, hn⟩ ⟨⟨hshift1, hshift⟩, ⟨htrip1, htrip⟩, ⟨hindex1, hindex⟩⟩ hb
    refine ⟨fun h => hexec.trans (congrArg _ (authResponseTaken_unmatched hno h _)), ?_⟩
    intro before e after hlate he hbefore removed queued
    rw [authResponseTaken_late hno hlate he hbefore] at hexec
    obtain ⟨rfl, rfl⟩ := he
    obtain ⟨hqueued, hgone⟩ := resolveLate_approved e { s with pay := removed }
    refine ⟨?_, ?_, ?_⟩
    · rintro rfl
      exact hexec
    · rintro rfl hq
      have hresolves := hexec.trans (congrArg _ (hqueued hq))
      exact ⟨fun h => hresolves.trans (congrArg _ (resolveDeferred_other h)),
        fun n limit h => hresolves.trans (congrArg _ (resolveDeferred_inFlight (n := n) (limit := limit) h))⟩
    · rintro rfl hq
      exact ⟨_, hexec.trans (congrArg _ (hgone hq)), lateVoided_placesFollow (s := { s with pay := removed }) hs.orderly e,
        lateVoided_sends (s := { s with pay := removed }) hs.orderly e⟩

end Sys2Proof.Machine
end

