-- ==== Sys2Proof/Proofs/EmergencyKeeps.lean ====
section
/-! PROOF. What leaves the emergency and its start time alone (08 R130, R131): every operation but the onset, the clear and a
cold start; the onset itself does nothing while an emergency stands. -/

namespace Sys2Proof.Machine

section

variable (s : State) (src st : Station) (payload : List Byte) (arg : Byte)

/-! The sign controller (08). -/

@[simp] theorem signRefreshDue_emergency : (signRefreshDue s).sign.emergency = s.sign.emergency := rfl

@[simp] theorem refreshSecond_emergency : (refreshSecond s).sign.emergency = s.sign.emergency := by
  unfold refreshSecond; split <;> simp

@[simp] theorem brightnessStep_emergency : (brightnessStep s).sign.emergency = s.sign.emergency := by
  unfold brightnessStep; dsimp only; repeat' split
  all_goals simp

@[simp] theorem steppingSecond_emergency : (steppingSecond s).sign.emergency = s.sign.emergency := by
  unfold steppingSecond; split <;> simp

@[simp] theorem signSecond_emergency : (signSecond s).sign.emergency = s.sign.emergency := by simp [signSecond]

@[simp] theorem signMeterChanged_emergency : (signMeterChanged s).sign.emergency = s.sign.emergency := by
  unfold signMeterChanged; split <;> simp

@[simp] theorem lineAsserted_emergency : (lineAsserted s).sign.emergency = s.sign.emergency := by
  unfold lineAsserted; split <;> simp

@[simp] theorem lineReleased_emergency : (lineReleased s).sign.emergency = s.sign.emergency := rfl

@[simp] theorem signStatusTaken_emergency (ambient : Nat) (reported : BitVec 3) :
    (signStatusTaken ambient reported s).sign.emergency = s.sign.emergency := by
  unfold signStatusTaken; dsimp only; split <;> simp

@[simp] theorem signAfterTable_emergency (table : Nat) : (signAfterTable table s).sign.emergency = s.sign.emergency := by
  unfold signAfterTable; split <;> simp

/-! The table store's requests that may tell the sign (03 R37, R38; 08 R127). -/

@[simp] theorem takeTableWrite_emergency : (takeTableWrite src payload s).sign.emergency = s.sign.emergency := by
  unfold takeTableWrite; split <;> simp

@[simp] theorem takeTableClear_emergency : (takeTableClear src payload s).sign.emergency = s.sign.emergency := by
  unfold takeTableClear; dsimp only; repeat' split
  all_goals simp

/-! Changes of meter state (07 R106) and what ends in one. -/

@[simp] theorem setMeter_emergency (m : MeterState) : (setMeter m s).sign.emergency = s.sign.emergency := by
  simp [setMeter]

@[simp] theorem closeTrip_emergency : (closeTrip s).sign.emergency = s.sign.emergency := by
  simp (maxDischargeDepth := 16) [closeTrip, endTrip]

@[simp] theorem recordTender_emergency (kind : TenderKind) (farePart tip : Nat) :
    (recordTender kind farePart tip s).sign.emergency = s.sign.emergency := by
  unfold recordTender; split <;> (try split) <;> simp

@[simp] theorem openTrip_emergency (t key : Nat) : (openTrip t key s).sign.emergency = s.sign.emergency := by
  simp [openTrip]

@[simp] theorem keyHire_emergency : (keyHire src arg s).sign.emergency = s.sign.emergency := by
  unfold keyHire; dsimp only; (repeat' split) <;> simp

@[simp] theorem keyStop_emergency : (keyStop src arg s).sign.emergency = s.sign.emergency := by
  unfold keyStop withNoArgument; dsimp only; (repeat' split) <;> simp

@[simp] theorem keyResume_emergency : (keyResume src arg s).sign.emergency = s.sign.emergency := by
  unfold keyResume withNoArgument; dsimp only; (repeat' split) <;> simp

@[simp] theorem keyTender_emergency (kind : TenderKind) :
    (keyTender kind src s).sign.emergency = s.sign.emergency := by
  unfold keyTender; split <;> (try split) <;> simp

@[simp] theorem keyCash_emergency : (keyCash src arg s).sign.emergency = s.sign.emergency := by
  unfold keyCash withNoArgument; split <;> simp

@[simp] theorem keyUnpaid_emergency : (keyUnpaid src arg s).sign.emergency = s.sign.emergency := by
  unfold keyUnpaid withNoArgument; split <;> simp

@[simp] theorem keyMove_emergency (old new : MeterState) :
    (keyMove old new src arg s).sign.emergency = s.sign.emergency := by
  unfold keyMove withNoArgument; dsimp only; (repeat' split) <;> simp

@[simp] theorem takeKey_emergency : (takeKey src payload s).sign.emergency = s.sign.emergency := by
  unfold takeKey keyOnCall keyCancelCall keyOffDuty keyOnDuty; split <;> (try split) <;> simp

@[simp] theorem takeShiftOpen_emergency : (takeShiftOpen src payload s).sign.emergency = s.sign.emergency := by
  unfold takeShiftOpen; dsimp only; (repeat' split) <;> simp

@[simp] theorem takeShiftClose_emergency : (takeShiftClose src payload s).sign.emergency = s.sign.emergency := by
  unfold takeShiftClose; (repeat' split) <;> simp

@[simp] theorem takeDispatch_emergency : (takeDispatch src payload s).sign.emergency = s.sign.emergency := by
  unfold takeDispatch; (repeat' split) <;> simp

/-! Card payments (10): a paid tender may close the trip. -/

@[simp] theorem paySucceeds_emergency (number : Nat) (ref : Reference) (o : PayOutcome) (kind : TenderKind)
    (farePart tip : Nat) : (paySucceeds number ref o kind farePart tip s).sign.emergency = s.sign.emergency := by
  simp [paySucceeds]

@[simp] theorem authExpires_emergency : (authExpires s).sign.emergency = s.sign.emergency := by
  unfold authExpires; dsimp only; (repeat' split) <;> simp

@[simp] theorem authSecond_emergency : (authSecond s).sign.emergency = s.sign.emergency := by
  unfold authSecond; split <;> (try split) <;> simp

@[simp] theorem paymentSecond_emergency : (paymentSecond s).sign.emergency = s.sign.emergency := by
  simp [paymentSecond]

@[simp] theorem authResponseTaken_emergency (number : Nat) (ref : Reference) (approved : Bool) :
    (authResponseTaken number ref approved s).sign.emergency = s.sign.emergency := by
  unfold authResponseTaken; dsimp only; (repeat' split) <;> simp

@[simp] theorem payOffline_emergency (tr : Trip) (f : PayFields) :
    (payOffline src tr f s).sign.emergency = s.sign.emergency := by
  unfold payOffline; dsimp only; (repeat' split) <;> simp

@[simp] theorem takePayRequest_emergency : (takePayRequest src payload s).sign.emergency = s.sign.emergency := by
  unfold takePayRequest; (repeat' split) <;> simp

/-! The reports (02 R22). -/

@[simp] theorem takeReport_emergency (kind : ReportKind) :
    (takeReport src kind payload s).sign.emergency = s.sign.emergency := by
  unfold takeReport; split <;> simp

/-! The stations and the up lane (01 R8 to R12). -/

@[simp] theorem stationFoundActs_emergency : (stationFoundActs st s).sign.emergency = s.sign.emergency := by
  unfold stationFoundActs; split <;> simp

@[simp] theorem stationAnswers_emergency : (stationAnswers st s).sign.emergency = s.sign.emergency := by
  rw [stationAnswers_eq]; split <;> simp

@[simp] theorem readUpLane_emergency (grant : Option Station) (up : UpFrame) :
    (readUpLane grant up s).sign.emergency = s.sign.emergency := by
  unfold readUpLane; (repeat' split) <;> simp

/-! Fare seconds (04 R52). -/

@[simp] theorem fareSecondOccurs_emergency : (fareSecondOccurs s).sign.emergency = s.sign.emergency := by
  simp [fareSecondOccurs]

@[simp] theorem countTick_emergency : (countTick s).sign.emergency = s.sign.emergency := by
  unfold countTick; split <;> simp

/-! A warm start (07 R124, 08 R136). -/

theorem warmBase_emergency : (warmBase s).sign.emergency = s.sign.emergency := by
  unfold warmBase warmPayment startShownMode startSign startTimebase beginWindow startLink
  dsimp only
  split <;> simp

theorem warmStarts_emergency : (warmStarts s).sign.emergency = s.sign.emergency := by
  have hbroken : (powerBreak (warmBase s)).sign = (warmBase s).sign := by unfold powerBreak; split <;> simp
  simp [warmStarts, startMessages, hbroken, warmBase_emergency]

end

/-! Time while an emergency stands (04 R52, 08 R129): the debounce does nothing then. -/

section

variable {s : State}

theorem tickOccurs_emergency (h : s.sign.emergency ≠ none) : (tickOccurs s).sign.emergency = s.sign.emergency := by
  have hidle : debounceTick (fareTick s) = fareTick s := debounceTick_idle (.inl (by simpa using h))
  simp [tickOccurs, hidle]

theorem countFrame_emergency (h : s.sign.emergency ≠ none) : (countFrame s).sign.emergency = s.sign.emergency := by
  unfold countFrame
  split
  · exact tickOccurs_emergency (s := { s with time := { s.time with divFrames := 0 } }) h
  · rfl

theorem debounceCompletes_idle (h : s.sign.emergency ≠ none ∨ s.sign.debounce = none ∨ s.emgLine = false) :
    debounceCompletes s = s := by
  refine if_neg fun ⟨he, hd, hl⟩ => ?_
  rcases h with h | h | h <;> simp_all

end

end Sys2Proof.Machine
end

