-- ==== Sys2Proof/Proofs/EmergencyClear.lean ====
section
/-! PROOF. What may end an emergency (08 R131): the handling of an EMERGENCY CLEAR of the fleet modem, which a frame may bring,
and a cold start. -/

namespace Sys2Proof.Machine

/-- The EMERGENCY CLEAR of the fleet modem as the dispatcher takes it (02 R18, 08 R131). -/
def clearMessage : Inbound := ⟨.fleetModem, 14#8, []⟩

/-- A frame's two bytes complete an EMERGENCY CLEAR of the fleet modem with a good check (01 R5, R6, R9). -/
def CompletesClear (x : Reception) (up : UpFrame) : Prop :=
  x.station = .fleetModem ∧ up.message.valid = true ∧ (receivedBytes x up).take 4 = [0#8, 4#8, 14#8, 0#8] ∧
    6 ≤ (receivedBytes x up).length ∧ crc16 ((receivedBytes x up).take 6) = 0#16

/-- The commands that may end an emergency, by what the link holds when they come (08 R131). -/
def MayEndEmergency (l : LinkState) (c : Instr) : Prop :=
  c = .coldStart ∨ c = .emergencyClear .fleetModem [] ∨
    ∃ up cal, c = .frame up cal ∧ (clearMessage ∈ l.inbound ∨ ∃ x, l.reception = some x ∧ CompletesClear x up)

/-! The dispatcher (02 R19). -/

/-- EMERGENCY CLEAR has kind 14 alone. -/
theorem classify_emergencyClear {kind : Byte} (h : classify kind = .request .emergencyClear) : kind = 14#8 := by
  refine BitVec.eq_of_toNat_eq ?_
  unfold classify at h
  split at h <;> simp_all

/-- The fleet modem alone may clear an emergency (02 R20). -/
theorem mayRequest_emergencyClear {src : Station} (h : mayRequest src .emergencyClear = true) : src = .fleetModem := by
  cases src
  case fleetModem => rfl
  all_goals exact absurd h (by decide)

/-- An EMERGENCY CLEAR with a payload is refused. -/
theorem takeEmergencyClear_payload (src : Station) {payload : List Byte} (s : State) (h : payload ≠ []) :
    takeEmergencyClear src payload s = refuse src 14#8 .badValue s := if_pos h

/-- Every other request leaves the emergency. -/
theorem takeRequest_emergency (src : Station) {kind : Request} (payload : List Byte) (s : State)
    (h : kind ≠ .emergencyClear ∨ payload ≠ []) :
    (takeRequest src kind payload s).sign.emergency = s.sign.emergency := by
  cases kind
  case emergencyClear =>
    have hpayload : payload ≠ [] := h.resolve_left fun hne => hne rfl
    simp [takeRequest, takeEmergencyClear_payload src s hpayload]
  all_goals simp [takeRequest]

/-- Every message but the fleet modem's EMERGENCY CLEAR leaves the emergency. -/
theorem handleMessage_emergency {m : Inbound} (s : State) (h : m ≠ clearMessage) :
    (handleMessage m s).sign.emergency = s.sign.emergency := by
  obtain ⟨src, kind, payload⟩ := m
  unfold handleMessage
  split
  case h_2 r hr =>
    split
    case isTrue hmay =>
      refine takeRequest_emergency src payload s (Classical.or_iff_not_imp_left.mpr fun hclear hpayload => h ?_)
      obtain rfl := not_not.mp hclear
      obtain rfl := classify_emergencyClear hr
      obtain rfl := mayRequest_emergencyClear hmay
      rw [hpayload]
      rfl
    case isFalse => simp
  all_goals (try split) <;> simp

/-- The dispatcher only takes from the inbound queue. -/
theorem mem_drain_inbound (n : Nat) {m : Inbound} {s : State} (h : m ∈ (drain n s).link.inbound) :
    m ∈ s.link.inbound := by
  induction n generalizing s with
  | zero => exact h
  | succ n ih =>
    unfold drain at h
    split at h
    case h_1 => exact h
    case h_2 first rest hi =>
      split at h
      · exact hi ▸ List.mem_cons_of_mem first (by simpa using ih h)
      · exact h

theorem drain_emergency (n : Nat) {s : State} (h : clearMessage ∉ s.link.inbound) :
    (drain n s).sign.emergency = s.sign.emergency := by
  induction n generalizing s with
  | zero => rfl
  | succ n ih =>
    unfold drain
    split
    case h_1 => rfl
    case h_2 m rest hi =>
      rw [hi, List.mem_cons, not_or] at h
      split
      · rw [ih (by simpa using h.2), handleMessage_emergency _ (Ne.symm h.1)]
      · rfl

theorem dispatchInbound_emergency {s : State} (h : clearMessage ∉ s.link.inbound) :
    (dispatchInbound s).sign.emergency = s.sign.emergency := drain_emergency _ h

/-- Behind messages that wait for an outbound place a message is not handled, so it is handled alone or not at all. -/
theorem deliver_emergency {m : Inbound} {s : State} (hs : s.link.Sound) (h : m ≠ clearMessage) :
    (deliver m s).sign.emergency = s.sign.emergency := by
  unfold deliver
  split
  · by_cases hi : s.link.inbound = []
    · exact dispatchInbound_emergency (s := joinInbound m s) (by simpa [joinInbound, hi] using Ne.symm h)
    · rw [dispatchInbound_idle (joinInbound m s) (.inr (ge_of_eq (hs.taken hi)))]
      rfl
  · rfl

/-! The frame (01 R8, R9). -/

/-- A message that waits after a reception's bytes waited before, or is what the bytes are, with a good check. -/
theorem mem_receptionAdvances_inbound {m : Inbound} {st : Station} {l : List Byte} {s : State}
    (h : m ∈ (receptionAdvances st l s).link.inbound) :
    m ∈ s.link.inbound ∨ (6 + (l.getD 3 0#8).toNat ≤ l.length ∧
      messageGood st (l.take (6 + (l.getD 3 0#8).toNat)) = true ∧
      m = inboundOf st (l.take (6 + (l.getD 3 0#8).toNat))) := by
  have hfails : (stationFailsCheck st (setReception none s)).link.inbound = s.link.inbound := by
    obtain ⟨-, -, -, -, -, hin, -⟩ := LinkState.bare_keeps (stationFailsCheck_bare st (setReception none s))
    exact hin
  unfold receptionAdvances at h
  dsimp only at h
  split at h
  · exact .inl h
  split at h
  · exact .inl (hfails ▸ h)
  split at h
  · exact .inl h
  split at h
  case isTrue hlen hgood =>
    rcases List.mem_append.mp h with h | h
    · exact .inl h
    · exact .inr ⟨Nat.le_of_not_lt hlen, hgood, List.mem_singleton.mp h⟩
  · exact .inl (hfails ▸ h)

/-- The message that the bytes of a reception are, up to their check and without a pad (01 R5). -/
theorem inboundOf_take (st : Station) (l : List Byte) :
    inboundOf st (l.take (6 + (l.getD 3 0#8).toNat)) =
      ⟨st, l.getD 2 0#8, (l.drop 4).take (l.getD 3 0#8).toNat⟩ := by
  generalize hn : (l.getD 3 0#8).toNat = n
  have hget : ∀ i, i < 6 → (l.take (6 + n)).getD i 0#8 = l.getD i 0#8 := fun i hi => by
    simp [List.getD_eq_getElem?_getD, show i < 6 + n by omega]
  have hmin : min n (6 + n - 4) = n := by omega
  simp only [inboundOf, hget 2 (by omega), hget 3 (by omega), hn, List.drop_take, List.take_take, hmin]

/-- Good bytes that are the EMERGENCY CLEAR of the fleet modem: destination 0, source 4, kind 14, length 0, two check bytes. -/
theorem inboundOf_eq_clearMessage {st : Station} {l : List Byte} (hlen : 6 + (l.getD 3 0#8).toNat ≤ l.length)
    (hgood : messageGood st (l.take (6 + (l.getD 3 0#8).toNat)) = true)
    (hm : clearMessage = inboundOf st (l.take (6 + (l.getD 3 0#8).toNat))) :
    st = .fleetModem ∧ l.take 4 = [0#8, 4#8, 14#8, 0#8] ∧ 6 ≤ l.length ∧ crc16 (l.take 6) = 0#16 := by
  obtain ⟨hcrc, hdest, hsrc⟩ := (messageGood_take st l _).mp hgood
  rw [inboundOf_take, clearMessage, Inbound.mk.injEq] at hm
  obtain ⟨rfl, hkind, hpayload⟩ := hm
  have hzero : (l.getD 3 0#8).toNat = 0 := by
    have hcount := congrArg List.length hpayload
    rw [List.length_nil, List.length_take, List.length_drop] at hcount
    omega
  rw [hzero] at hlen hcrc
  refine ⟨rfl, ?_, hlen, hcrc⟩
  have hlast : l.getD 3 0#8 = 0#8 := BitVec.eq_of_toNat_eq hzero
  match l, hlen with
  | dest :: src :: kind :: len :: a :: b :: rest, _ =>
    simp only [List.getD_cons_zero, List.getD_cons_succ] at hdest hsrc hkind hlast
    simp [hdest, hsrc, ← hkind, hlast, stationAddress]

/-- Before a frame completes it, no EMERGENCY CLEAR joins the inbound queue. -/
theorem readUpLane_noClear {grant : Option Station} {up : UpFrame} {s : State} (hi : clearMessage ∉ s.link.inbound)
    (hx : ∀ x, s.link.reception = some x → ¬CompletesClear x up) :
    clearMessage ∉ (readUpLane grant up s).link.inbound := by
  cases hr : s.link.reception with
  | none =>
    have hanswers : ∀ st, (stationAnswers st s).link.inbound = s.link.inbound := fun st => by
      obtain ⟨-, -, -, -, -, hin, -⟩ := LinkState.bare_keeps (stationAnswers_bare st s)
      exact hin
    have hmisses : ∀ st, (stationMisses st s).link.inbound = s.link.inbound := fun st => by
      obtain ⟨-, -, -, -, -, hin, -⟩ := LinkState.bare_keeps (stationMisses_bare st s)
      exact hin
    have hsame : (readUpLane grant up s).link.inbound = s.link.inbound := by
      simp only [readUpLane, hr]
      repeat' split
      · rfl
      · exact hanswers _
      · exact hanswers _
      · exact hmisses _
    rwa [hsame]
  | some x =>
    cases hv : up.message.valid with
    | false =>
      rw [readUpLane_truncated hr hv]
      obtain ⟨-, -, -, -, -, hin, -⟩ := LinkState.bare_keeps (stationTruncates_bare x.station (setReception none s))
      rw [hin]
      exact hi
    | true =>
      rw [readUpLane_receiving hr hv]
      intro h
      obtain ⟨hlen, hgood, hm⟩ := (mem_receptionAdvances_inbound h).resolve_left hi
      obtain ⟨hst, hhead, h6, hcrc⟩ := inboundOf_eq_clearMessage hlen hgood hm
      exact hx x hr ⟨hst, hv, hhead, h6, hcrc⟩

/-- A frame without a waiting or completing EMERGENCY CLEAR leaves the emergency. -/
theorem frameRuns_emergency {up : UpFrame} {s : State} (he : s.sign.emergency ≠ none) (hi : clearMessage ∉ s.link.inbound)
    (hx : ∀ x, s.link.reception = some x → ¬CompletesClear x up) :
    (frameRuns up s).sign.emergency = s.sign.emergency := by
  obtain ⟨-, hrec, hin, -⟩ := linkFrameStarts_keeps s.link
  obtain ⟨-, -, -, drec, -⟩ := dispatchInbound_link { s with link := (linkFrameStarts s.link).2 }
  have hbegun : clearMessage ∉ (linkFrameStarts s.link).2.inbound := by rwa [hin]
  have hread : clearMessage ∉ (frameRead up s).link.inbound :=
    readUpLane_noClear (fun hm => hbegun (mem_drain_inbound _ hm)) fun x hr => hx x (hrec ▸ drec ▸ hr)
  have hkept : (frameRead up s).sign.emergency = s.sign.emergency := by
    rw [frameRead, readUpLane_emergency, dispatchInbound_emergency hbegun]
  have hmixed : clearMessage ∉ (mixEvent (frameSamples s.link.stations up) (frameRead up s)).link.inbound := by
    obtain ⟨-, -, -, -, -, hmin, -⟩ := LinkState.bare_keeps (mixEvent_bare (frameSamples s.link.stations up)
      (frameRead up s))
    rwa [hmin]
  have hdone : (dispatchInbound (mixEvent (frameSamples s.link.stations up) (frameRead up s))).sign.emergency =
      s.sign.emergency := by
    rw [dispatchInbound_emergency hmixed, ← hkept]
    simp
  rw [frameRuns_eq, countFrame_emergency (by rwa [hdone]), hdone]

/-! Every command. -/

/-- The message commands whose message is the EMERGENCY CLEAR of the fleet modem. -/
theorem messageOf_eq_clearMessage {c : Instr} (hw : c.wellFormed = true) (h : messageOf c = some clearMessage) :
    c = .emergencyClear .fleetModem [] := by
  cases c
  case emergencyClear => simpa [messageOf, clearMessage, Request.code] using h
  case unknownKind | controllerKindDiscard =>
    simp only [messageOf, clearMessage, Option.some.injEq, Inbound.mk.injEq] at h
    obtain ⟨rfl, rfl, rfl⟩ := h
    exact absurd hw (by decide)
  all_goals simp [messageOf, clearMessage, keyMessage, Request.code, ReportKind.code] at h

theorem ite_emergency {c : Prop} [Decidable c] {t u : State} {e : Option ClockTime} (ht : t.sign.emergency = e)
    (hu : u.sign.emergency = e) : (if c then t else u).sign.emergency = e := by
  split
  · exact ht
  · exact hu

/-- Every other command leaves an emergency and its start time. -/
theorem exec_emergency {c : Instr} {s t : State} {start : ClockTime} (hs : s.link.Sound) (hw : c.wellFormed = true)
    (he : s.sign.emergency = some start) (hc : ¬MayEndEmergency s.link c) (h : exec c s = .next t) :
    t.sign.emergency = some start := by
  cases hm : messageOf c with
  | some m =>
    have hne : m ≠ clearMessage := fun hclear =>
      hc (.inr (.inl (messageOf_eq_clearMessage hw (hclear ▸ hm))))
    have hsign : (sensed c s).sign = s.sign := by cases c <;> rfl
    rw [exec_deliver c m s hm, Host.Outcome.next.injEq] at h
    subst h
    split
    · rw [deliver_emergency (by simpa using hs) hne, hsign, he]
    · rw [hsign, he]
  | none =>
    have hstands : s.sign.emergency ≠ none := by simp [he]
    cases c <;> simp only [messageOf, reduceCtorEq] at hm
    all_goals obtain rfl := Host.Outcome.next.inj h
    case coldStart => exact absurd (.inl rfl) hc
    case warmStart => rw [warmStarts_emergency, he]
    case mainSupplyLoss => exact he
    all_goals refine ite_emergency ?_ he
    case frame up cal =>
      rw [frameRuns_emergency (s := { s with calLine := cal }) hstands]
      · exact he
      · exact fun hi => hc (.inr (.inr ⟨up, cal, rfl, .inl hi⟩))
      · exact fun x hx hcomplete => hc (.inr (.inr ⟨up, cal, rfl, .inr ⟨x, hx, hcomplete⟩⟩))
    case tick => exact (tickOccurs_emergency (s := { s with time := { s.time with divFrames := 0 } }) hstands).trans he
    case emergencyDebounceComplete => rw [debounceCompletes_idle (.inl hstands), he]
    all_goals simp [he]

/-- Settles O8: a step is the front command, and every command but those named leaves the emergency. -/
theorem emergencyEndsOnlyByClear : Obligations.EmergencyEndsOnlyByClear := by
  intro s t start hs hw he h
  cases hp : s.pending with
  | nil =>
    rw [step_nil s hp, Host.Outcome.next.injEq] at h
    exact .inl (h ▸ he)
  | cons c rest =>
    rw [step_cons s c rest hp] at h
    by_cases hc : MayEndEmergency s.link c
    · exact .inr ⟨c, rest, rfl, hc⟩
    · exact .inl (exec_emergency (s := { s with pending := rest }) hs (hw c (by simp [hp])) he hc h)

end Sys2Proof.Machine
end

