-- ==== Sys2Proof/Proofs/EmergencyOnset.lean ====
section
/-! PROOF. The emergency line and the onset of the emergency (08 R129, R130), and what EMERGENCY CLEAR does (08 R131). -/

namespace Sys2Proof.Machine

/-! The line (08 R129). -/

theorem lineAsserted_starts {s : State} (he : s.sign.emergency = none) (hd : s.sign.debounce = none) :
    lineAsserted s = { s with sign := { s.sign with debounce := some 0 } } := if_pos ⟨he, hd⟩

theorem lineAsserted_idle {s : State} (h : s.sign.emergency ≠ none ∨ s.sign.debounce ≠ none) : lineAsserted s = s :=
  if_neg fun ⟨he, hd⟩ => h.elim (· he) (· hd)

/-! The onset (08 R130). -/

theorem debounceCompletes_begins {s : State} (he : s.sign.emergency = none) (hd : s.sign.debounce.isSome = true)
    (hl : s.emgLine = true) : debounceCompletes s = emergencyBegins s := if_pos ⟨he, hd, hl⟩

/-- The sign controller once the emergency is active: level 31, and the SIGN SET of the emergency entry told. -/
def State.signAlarmed (s : State) : SignState :=
  { s.sign with
    emergency := some ⟨s.time.day, s.time.second⟩, debounce := none, level := 31, refresh := 0
    lastLegend := some (signLegend s.tables.unbanked 6).1.toNat }

/-- The state that raises EMERGENCY at the onset: the emergency stands and the debounce is idle. -/
def State.alarmed (s : State) : State :=
  { s with sign := { s.sign with emergency := some (clockNow s), debounce := none } }

theorem emergencyBegins_eq (s : State) :
    emergencyBegins s =
      placeSign { raise .emergency s.alarmed with sign := { s.alarmed.sign with level := 31 } } := by
  have hsign : (raise .emergency s.alarmed).sign = s.alarmed.sign := by simp
  rw [← hsign]
  rfl

theorem emergencyBegins_emergency (s : State) :
    (emergencyBegins s).sign.emergency = some ⟨s.time.day, s.time.second⟩ := by
  rw [emergencyBegins_eq]
  rfl

theorem emergencyBegins_signs (s : State) : (emergencyBegins s).Signs := placeSign_signs _

theorem emergencyBegins_sends {s : State} (h : s.link.orderly) :
    ({ s with sign := s.signAlarmed } : State).Sends (emergencyBegins s) [.emergency] (noticesAll [.emergency] s.disp) := by
  rw [emergencyBegins_eq]
  exact ((raise_occurs .emergency s.alarmed h).sends.sign { s.alarmed.sign with level := 31 }).signPlaced

/-- EMERGENCY does not enter the notice-pending indicator (07 R123). -/
theorem heard_emergency_indicator (d : DispatcherState) :
    noticeIndicator (d.heard .emergency).headPending = noticeIndicator d.headPending := by
  have hemergency : noticeIndicator Event.emergency.only = false := by decide
  unfold DispatcherState.heard
  split <;> simp [noticeIndicator_or, hemergency]

/-- So the DISPLAY stands at the onset. -/
theorem emergencyBegins_displayPlace (s : State) : (emergencyBegins s).link.displayPlace = s.link.displayPlace := by
  obtain ⟨-, hdisplay⟩ := raise_placesFollow .emergency s.alarmed
  rw [raise_disp, if_pos (heard_emergency_indicator _).symm] at hdisplay
  rw [emergencyBegins_eq, placeSign_displayPlace]
  exact hdisplay

/-- Settles O43: the line's two commands, the onset by the debounce or the command, and the states in which the command does
nothing. -/
theorem emergencyLineAndOnset : Obligations.EmergencyLineAndOnset := by
  refine ⟨fun s => ⟨fun hr => ⟨congrArg _ (if_neg ?_), congrArg _ (if_neg ?_)⟩,
      fun hr => ⟨fun he hd => ?_, fun h => ?_, ?_⟩⟩,
    fun s n hr ho => ⟨fun he hd hl => ?_, fun h => ?_⟩⟩
  · simp [hr]
  · simp [hr]
  · exact congrArg _ ((if_pos hr).trans (lineAsserted_starts (s := { s with emgLine := true }) he hd))
  · exact congrArg _ ((if_pos hr).trans (lineAsserted_idle (s := { s with emgLine := true }) h))
  · exact congrArg _ (if_pos hr)
  · have hbegins := debounceCompletes_begins he (by simp [hd]) hl
    refine ⟨emergencyBegins s, congrArg _ ((if_pos hr).trans hbegins), emergencyBegins_signs s,
      effectiveMode_listens (by simp [emergencyBegins_emergency]), emergencyBegins_displayPlace s,
      (emergencyBegins_sends ho).occurs, fun hn => ?_⟩
    rw [debounceTick_due he hd hl (by omega), hbegins]
  · exact congrArg _ ((if_pos hr).trans (debounceCompletes_idle h))

/-! The clear (08 R131). -/

/-- The sign controller once the emergency is cleared: the debounce starts again with the line asserted, and the meter state's
SIGN SET is told. -/
def State.signCleared (s : State) : SignState :=
  { s.sign with
    emergency := none, debounce := if s.emgLine then some 0 else none, refresh := 0
    lastLegend := some (signLegend s.tables.unbanked s.meter.code.toNat).1.toNat }

theorem emergencyEnds_sends {s t : State} {es : List Event} {ms : List Outbound} (h : s.Sends t es ms) :
    ({ s with sign := s.signCleared } : State).Sends (emergencyEnds t) es ms := by
  obtain ⟨-, -, hline, -, -, htables, -, hmeter, -, hsign, -⟩ := h.keeps
  have hended : emergencyEnds t =
      { placeSign { t with sign := { s.sign with emergency := none } } with sign := s.signCleared } := by
    simp [emergencyEnds, placeSign, commandedSign, State.signCleared, hline, htables, hmeter, hsign]
  rw [hended]
  exact ((h.sign { s.sign with emergency := none }).signPlaced).sign s.signCleared

theorem takeEmergencyClear_inactive {s : State} (src : Station) (h : s.sign.emergency = none) :
    takeEmergencyClear src [] s = refuse src 14#8 .refusedState s := by
  simp [takeEmergencyClear, h, Request.code]

theorem takeEmergencyClear_active {s : State} {start : ClockTime} (src : Station) (h : s.sign.emergency = some start) :
    takeEmergencyClear src [] s =
      emergencyEnds (reply src 14#8 .ok (beBytes 2 start.day ++ beBytes 3 start.second) s) := by
  simp [takeEmergencyClear, h, Request.code, clockBytes]

/-- Settles O44: the two refusals, and the clear after its REPLY. -/
theorem emergencyClearEnds : Obligations.EmergencyClearEnds := by
  intro s hs
  have hexec : ∀ payload, exec (.emergencyClear .fleetModem payload) s =
      .next (takeEmergencyClear .fleetModem payload s) := fun payload =>
    exec_permitted (r := .emergencyClear) rfl hs (by decide)
  refine ⟨fun he => ?_, fun payload hne => ?_, fun start he => ?_⟩
  · rw [hexec, takeEmergencyClear_inactive _ he, refuse_answered _ _ _ _ hs]
  · rw [hexec, takeEmergencyClear_payload _ _ hne, refuse_answered _ _ _ _ hs]
  · rw [hexec, takeEmergencyClear_active _ he]
    have hreplied := (reply_occurs .fleetModem 14#8 .ok (beBytes 2 start.day ++ beBytes 3 start.second) s hs.orderly).sends
    refine ⟨_, rfl, placeSign_signs _, ?_, (emergencyEnds_sends hreplied).occurs⟩
    simp [emergencyEnds, reply]

end Sys2Proof.Machine
end

