-- ==== Sys2Proof/Proofs/SignSets.lean ====
section
/-! PROOF. The refresh of the sign (08 R128), the brightness step (08 R133, R134) and SIGN STATUS (08 R132). -/

namespace Sys2Proof.Machine

/-! The brightness step (08 R133, R134). -/

/-- The state with the stepping count emptied (08 R134). -/
def stepEmptied (s : State) : State := { s with sign := { s.sign with stepping := 0 } }

/-- The sign is steered by the ambient value only while it is PRESENT, with no emergency, and has a value (08 R134). -/
theorem brightnessStep_unsteered {s : State}
    (h : isPresent s .roofSign = false ∨ s.sign.emergency ≠ none ∨ s.sign.ambient = none) :
    brightnessStep s = stepEmptied s := by
  unfold brightnessStep
  dsimp only
  split
  case isTrue hsteered =>
    have hambient : s.sign.ambient = none := by simpa [hsteered] using h
    simp [brightnessTarget, hambient, stepEmptied]
  case isFalse => rfl

section

variable {s : State} {ambient : Nat} (hp : isPresent s .roofSign = true) (he : s.sign.emergency = none)
  (ha : s.sign.ambient = some ambient)

include hp he ha

theorem brightnessStep_unbanded (hb : bandTarget s.tables.unbanked ambient = none) : brightnessStep s = stepEmptied s := by
  simp [brightnessStep, brightnessTarget, hp, he, ha, hb, stepEmptied]

/-- With a band for the ambient value the level steps toward its target, and a changed level is told to the sign (08 R134). -/
theorem brightnessStep_banded {target : Nat} (hb : bandTarget s.tables.unbanked ambient = some target) :
    brightnessStep s =
      if stepToward s.sign.level target = s.sign.level then stepEmptied s
      else placeSign { s with sign := { s.sign with stepping := 0, level := stepToward s.sign.level target } } := by
  simp [brightnessStep, brightnessTarget, hp, he, ha, hb, stepEmptied]

end

/-- Settles O45: the refresh by its definition, and the step by the three places of the level against its target. -/
theorem signRefreshAndBrightness : Obligations.SignRefreshAndBrightness := by
  intro s hr entry placed
  have hexec : exec .brightnessStep s = .next (brightnessStep s) := congrArg _ (if_pos hr)
  rw [hexec]
  refine ⟨congrArg _ (if_pos hr), fun h => congrArg _ (brightnessStep_unsteered h),
    fun ambient hp he ha => ⟨fun hb => congrArg _ (brightnessStep_unbanded hp he ha hb), fun target hb => ?_⟩⟩
  have hcommanded : ∀ level, placeSign { s with sign := { s.sign with stepping := 0, level := level } } =
      placed level { s.sign with stepping := 0 } := fun _ => rfl
  rw [brightnessStep_banded hp he ha hb, hcommanded]
  refine ⟨fun h => ?_, fun h => ?_, fun h => ?_⟩
  · rw [if_pos (by simp [stepToward, h])]
    rfl
  · have hup : stepToward s.sign.level target = s.sign.level + 1 := if_pos h
    rw [hup, if_neg (by omega)]
  · have hdown : stepToward s.sign.level target = s.sign.level - 1 := (if_neg (by omega)).trans (if_pos h)
    rw [hdown, if_neg (by omega)]

/-! The lamps (08 R132). -/

/-- The shift record after one lamp newly failed (11 R179). -/
def lampCounted (r : ShiftRecord) : ShiftRecord := { r with lampFaults := up16 r.lampFaults }

/-- The shift record after n lamps newly failed (11 R179). -/
def lampsCounted (n : Nat) (r : ShiftRecord) : ShiftRecord :=
  { r with lampFaults := if n = 0 then r.lampFaults else min 65535 (r.lampFaults + n) }

/-- The state in which n lamps newly failed, but for the occurrences of LAMP FAULT. -/
def State.lampsFailed (s : State) (n : Nat) : State :=
  { s with shifts := { s.shifts with record := s.shifts.record.map (lampsCounted n) } }

theorem State.lampsFailed_zero (s : State) : s.lampsFailed 0 = s := by
  simp [lampsFailed, show lampsCounted 0 = id from rfl]

theorem State.lampsFailed_succ (s : State) (n : Nat) :
    { s.lampsFailed n with
      shifts := { s.shifts with record := (s.lampsFailed n).shifts.record.map lampCounted } } = s.lampsFailed (n + 1) := by
  have hcounted : lampCounted ∘ lampsCounted n = lampsCounted (n + 1) := by
    funext r
    have hcount : min 65535 ((if n = 0 then r.lampFaults else min 65535 (r.lampFaults + n)) + 1) =
        min 65535 (r.lampFaults + (n + 1)) := by
      split <;> omega
    exact congrArg (fun k => ({ r with lampFaults := k } : ShiftRecord)) hcount
  simp [lampsFailed, hcounted]

/-- A handling in which n lamps newly failed, each with LAMP FAULT and its count in the open shift. -/
def State.FailsLamps (s t : State) (n : Nat) : Prop :=
  (s.lampsFailed n).Sends t (List.replicate n .lampFault) (noticesAll (List.replicate n .lampFault) s.disp)

theorem State.FailsLamps.refl {s : State} (h : s.link.orderly) : s.FailsLamps s 0 := by
  unfold FailsLamps
  rw [s.lampsFailed_zero]
  exact .refl h

/-- One lamp more. -/
theorem State.FailsLamps.lamp {s t : State} {n : Nat} (h : s.FailsLamps t n) : s.FailsLamps (lampNewlyFailed t) (n + 1) := by
  have hnotices : noticesAll (List.replicate n .lampFault ++ [.lampFault]) s.disp =
      noticesAll (List.replicate n .lampFault) s.disp ++
        noticesOf .lampFault (s.disp.heardAll (List.replicate n .lampFault)) := by
    rw [noticesAll_append]
    exact congrArg _ (List.append_nil _)
  have hlamp := (h.raised .lampFault).shift lampCounted fun _ _ _ => rfl
  unfold FailsLamps
  rw [List.replicate_succ', hnotices, ← lampsFailed_succ]
  exact hlamp

theorem State.FailsLamps.checked {s t : State} {n : Nat} (h : s.FailsLamps t n) (held reported : BitVec 3) (lamp : Nat) :
    s.FailsLamps (checkLamp held reported lamp t)
      (n + if reported.getLsbD lamp && !held.getLsbD lamp then 1 else 0) := by
  unfold checkLamp
  split
  · exact h.lamp
  · exact h

/-! SIGN STATUS (08 R132). -/

/-- The lamps that a report newly finds failed, in the order of the members. -/
def newlyFailed (held reported : BitVec 3) : Nat :=
  (List.range 3).countP fun i => reported.getLsbD i && !held.getLsbD i

/-- The three lamps of a report. -/
def checkLamps (held reported : BitVec 3) (s : State) : State :=
  checkLamp held reported 2 (checkLamp held reported 1 (checkLamp held reported 0 s))

theorem checkLamps_failsLamps {s : State} (h : s.link.orderly) (held reported : BitVec 3) :
    s.FailsLamps (checkLamps held reported s) (newlyFailed held reported) := by
  have hchecked := (((State.FailsLamps.refl h).checked held reported 0).checked held reported 1).checked held reported 2
  have hcount : newlyFailed held reported =
      0 + (if reported.getLsbD 0 && !held.getLsbD 0 then 1 else 0) +
        (if reported.getLsbD 1 && !held.getLsbD 1 then 1 else 0) +
        (if reported.getLsbD 2 && !held.getLsbD 2 then 1 else 0) := by
    simp only [newlyFailed, List.range_succ, List.range_zero, List.nil_append, List.countP_append, List.countP_singleton,
      Nat.zero_add]
  rw [hcount]
  exact hchecked

/-- A lamp that is held is not newly failed. -/
theorem checkLamps_same (held : BitVec 3) (s : State) : checkLamps held held s = s := by
  simp [checkLamps, checkLamp]

theorem checkLamps_signPlace (held reported : BitVec 3) (s : State) :
    (checkLamps held reported s).link.signPlace = s.link.signPlace := by
  have hlamp : ∀ lamp t, (checkLamp held reported lamp t).link.signPlace = t.link.signPlace := fun lamp t => by
    unfold checkLamp lampNewlyFailed
    split <;> simp
  simp only [checkLamps, hlamp]

/-- The state with the light that a SIGN STATUS reports (08 R133). -/
def State.lit (s : State) (ambient : Nat) : State := { s with sign := { s.sign with ambient := some ambient } }

/-- The state with the lamp faults that a SIGN STATUS reports, but for the DISPLAY (08 R132). -/
def lampsReported (reported : BitVec 3) (s : State) : State :=
  { s with sign := { s.sign with lampFaults := reported } }

theorem signStatusTaken_eq (ambient : Nat) (reported : BitVec 3) (s : State) :
    signStatusTaken ambient reported s =
      if s.sign.lampFaults = reported then
        lampsReported reported (checkLamps s.sign.lampFaults reported (s.lit ambient))
      else placeDisplay (lampsReported reported (checkLamps s.sign.lampFaults reported (s.lit ambient))) := rfl

section

variable (ambient : Nat) (reported : BitVec 3) (s : State)

theorem signStatusTaken_sends {s : State} (h : s.link.orderly) :
    ({ s with
      sign := { s.sign with ambient := some ambient, lampFaults := reported }
      shifts := { s.shifts with
        record := s.shifts.record.map (lampsCounted (newlyFailed s.sign.lampFaults reported)) } } : State).Sends
      (signStatusTaken ambient reported s) (List.replicate (newlyFailed s.sign.lampFaults reported) .lampFault)
      (noticesAll (List.replicate (newlyFailed s.sign.lampFaults reported) .lampFault) s.disp) := by
  have hsign : (checkLamps s.sign.lampFaults reported (s.lit ambient)).sign = (s.lit ambient).sign := by simp [checkLamps]
  have hset : lampsReported reported (checkLamps s.sign.lampFaults reported (s.lit ambient)) =
      { checkLamps s.sign.lampFaults reported (s.lit ambient) with
        sign := { (s.lit ambient).sign with lampFaults := reported } } := by
    rw [lampsReported, hsign]
  have hreported := (checkLamps_failsLamps (s := s.lit ambient) h s.sign.lampFaults reported).sign
    { (s.lit ambient).sign with lampFaults := reported }
  rw [signStatusTaken_eq, hset]
  split
  · exact hreported
  · exact hreported.display

theorem signStatusTaken_signPlace : (signStatusTaken ambient reported s).link.signPlace = s.link.signPlace := by
  rw [signStatusTaken_eq]
  split <;> exact checkLamps_signPlace s.sign.lampFaults reported (s.lit ambient)

variable {reported}

/-- A report of the set held newly finds no lamp failed, so the DISPLAY stands. -/
theorem signStatusTaken_same (h : s.sign.lampFaults = reported) :
    (signStatusTaken ambient reported s).link.displayPlace = s.link.displayPlace := by
  rw [signStatusTaken_eq, if_pos h, h, checkLamps_same]
  rfl

theorem signStatusTaken_shows (h : s.sign.lampFaults ≠ reported) : (signStatusTaken ambient reported s).Shows := by
  rw [signStatusTaken_eq, if_neg h]
  exact placeDisplay_shows _

end

/-- On a Ready controller a SIGN STATUS of the right form is handled by the sign controller. -/
theorem exec_signStatus {s : State} (hs : s.Ready) (ambient : Byte) {lamps : Byte} (hl : lamps.toNat ≤ 7) :
    exec (.signStatus .roofSign [ambient, lamps]) s = .next (signStatusTaken ambient.toNat (lamps.setWidth 3) s) := by
  have hambient : fieldAt [ambient, lamps] 0 1 = ambient.toNat := fieldAt_byte rfl
  have hlamps : fieldAt [ambient, lamps] 1 1 = lamps.toNat := fieldAt_byte rfl
  have hform : reportFormOk .signStatus [ambient, lamps] = true := by simp [reportFormOk, hlamps, hl]
  rw [exec_report (kind := .signStatus) rfl hs rfl hform, takeReport, hambient, hlamps, BitVec.ofNat_toNat]

/-- On a Ready controller a SIGN STATUS of the wrong form is discarded with LINK CHECK (02 R22). -/
theorem exec_signStatus_malformed {payload : List Byte} {s : State} (hs : s.Ready)
    (h : reportFormOk .signStatus payload = false) :
    exec (.signStatus .roofSign payload) s = .next (raise .linkCheck s) := by
  rw [exec_message _ _ s rfl hs, handleMessage_badReport _ .signStatus _ rfl (.inr h)]
  rfl

/-- Settles O46: the form, the three lamps in order, and the set held against the set reported. -/
theorem signStatusRecordsLamps : Obligations.SignStatusRecordsLamps := by
  intro s hs
  constructor
  · intro payload hbad
    have hform : reportFormOk .signStatus payload = false := by
      rcases hbad with hlen | ⟨a, l, rfl, hl⟩
      · simp [reportFormOk, hlen]
      · have hfield : fieldAt [a, l] 1 1 = l.toNat := fieldAt_byte rfl
        simp [reportFormOk, hfield, hl]
    exact ⟨_, exec_signStatus_malformed hs hform, raise_occurs _ s hs.orderly, raise_placesFollow _ s⟩
  · intro ambient lamps hl reported newly raised
    have hsends := signStatusTaken_sends ambient.toNat reported hs.orderly
    refine ⟨_, exec_signStatus hs ambient hl, hsends.occurs, signStatusTaken_signPlace _ _ s, ?_⟩
    split
    case isTrue h => exact signStatusTaken_same ambient.toNat s h.symm
    case isFalse h => exact signStatusTaken_shows ambient.toNat s (Ne.symm h)

end Sys2Proof.Machine
end

