-- ==== Sys2Proof/Proofs/TalkFloor.lean ====
section
/-! PROOF. The talk floor (09 R144 to R147), the intercom status (09 R149), and the commands that change the floor. -/

namespace Sys2Proof.Machine

/-! The intercom status (09 R149). -/

theorem floorCode_eq (floor : Option FloorHold) :
    floorCode floor =
      if floor.map (·.party) = some .driver then 1#8 else if floor.map (·.party) = some .passengerA then 2#8
      else if floor.map (·.party) = some .passengerB then 3#8 else 0#8 := by
  rcases floor with _ | ⟨p, n⟩
  · rfl
  · cases p <;> rfl

theorem waitingByte_eq (ic : IntercomState) :
    waitingByte ic = (if ic.waitA then 1#8 else 0#8) ||| (if ic.waitB then 2#8 else 0#8) := by
  unfold waitingByte
  cases ic.waitA <;> cases ic.waitB <;> rfl

theorem shownModeOf_code (floor : Option FloorHold) (openFlag : Bool) :
    (shownModeOf floor openFlag).code =
      if floor.map (·.party) = some .driver then 1#8 else if floor.map (·.party) ≠ none then 2#8
      else if openFlag then 3#8 else 0#8 := by
  rcases floor with _ | ⟨p, n⟩
  · cases openFlag <;> rfl
  · cases p <;> rfl

/-- The 13 bytes: floor holder, waiting set, displayed mode, open flag, PIN entry and the four clip counters (09 R149). -/
theorem intercomStatus_eq (ic : IntercomState) (openFlag : Bool) :
    let party := ic.floor.map (·.party)
    intercomStatus ic openFlag =
      [if party = some .driver then 1#8 else if party = some .passengerA then 2#8
        else if party = some .passengerB then 3#8 else 0#8,
       (if ic.waitA then 1#8 else 0#8) ||| (if ic.waitB then 2#8 else 0#8),
       if party = some .driver then 1#8 else if party ≠ none then 2#8 else if openFlag then 3#8 else 0#8,
       if openFlag then 1#8 else 0#8, if ic.pin ≠ none then 1#8 else 0#8] ++
      beBytes 2 ic.clipCounts.x0 ++ beBytes 2 ic.clipCounts.x1 ++ beBytes 2 ic.clipCounts.x2 ++
        beBytes 2 ic.clipCounts.x3 := by
  have hpin : boolByte ic.pin.isSome = if ic.pin ≠ none then 1#8 else 0#8 := by cases ic.pin <;> rfl
  simp only [intercomStatus, floorCode_eq, waitingByte_eq, shownModeOf_code, hpin]
  simp [Four.toList, boolByte]

/-! A request and a release of the floor (09 R145, R146). -/

theorem requestFloor_free {ic : IntercomState} (hf : ic.floor = none) (p : Party) :
    requestFloor p ic = { ic with floor := some ⟨p, 0⟩ } := by
  simp [requestFloor, grantFloor, hf]

section

variable {ic : IntercomState} {p : Party} {h : FloorHold} (hf : ic.floor = some h)

include hf

theorem requestFloor_held (hp : h.party = p) : requestFloor p ic = ic := by
  simp [requestFloor, hf, hp]

/-- The driver preempts a passenger, who then waits; a passenger who finds another holder waits. -/
theorem requestFloor_other (hp : h.party ≠ p) :
    requestFloor p ic =
      { ic with
        floor := if p = .driver then some ⟨.driver, 0⟩ else ic.floor
        waitA := ic.waitA || decide (p = .passengerA) || decide (p = .driver ∧ h.party = .passengerA)
        waitB := ic.waitB || decide (p = .passengerB) || decide (p = .driver ∧ h.party = .passengerB) } := by
  rw [requestFloor, hf]
  dsimp only
  rw [if_neg hp]
  cases p with
  | driver =>
    cases hh : h.party with
    | driver => exact absurd hh hp
    | passengerA => simp [grantFloor, joinWaiting]
    | passengerB => simp [grantFloor, joinWaiting]
  | passengerA => simp [joinWaiting, hf]
  | passengerB => simp [joinWaiting, hf]

theorem releaseFloor_held (hp : h.party = p) : releaseFloor p ic = passFloor ic := by
  simp [releaseFloor, hf, hp]

end

theorem leaveWaiting_eq (p : Party) (ic : IntercomState) :
    leaveWaiting p ic = { ic with waitA := ic.waitA && p != .passengerA, waitB := ic.waitB && p != .passengerB } := by
  have hA : (Party.driver != .passengerA) = true := rfl
  have hB : (Party.driver != .passengerB) = true := rfl
  cases p <;> simp [leaveWaiting, hA, hB]

theorem releaseFloor_other {ic : IntercomState} {p : Party} {h : FloorHold}
    (hf : ic.floor = none ∨ (ic.floor = some h ∧ h.party ≠ p)) : releaseFloor p ic = leaveWaiting p ic := by
  rcases hf with hf | ⟨hf, hp⟩
  · simp [releaseFloor, hf]
  · simp [releaseFloor, hf, hp]

/-- A request leaves the displayed mode to be recomputed. -/
theorem requestFloor_shownMode (p : Party) (ic : IntercomState) : (requestFloor p ic).shownMode = ic.shownMode := by
  unfold requestFloor grantFloor joinWaiting
  repeat' split
  all_goals rfl

/-! A change of the floor as a handling (09 R140, R144). -/

/-- From s to t the mixer became `after` with its displayed mode recomputed, the messages were offered, and a DISPLAY was placed
exactly when the displayed mode changed (09 R140). -/
def State.FloorBecomes (s t : State) (after : IntercomState) (first : List Outbound) : Prop :=
  ({ s with intercom := { after with shownMode := shownModeOf after.floor (openFlagNow s) } } : State).Occurs t first [] ∧
    t.link.signPlace = s.link.signPlace ∧
    if shownModeOf after.floor (openFlagNow s) = s.intercom.shownMode then t.link.displayPlace = s.link.displayPlace
    else t.Shows

/-- A change of the floor writes the DISPLAY place exactly when it changes the displayed mode. -/
theorem changeFloor_displayPlace {f : IntercomState → IntercomState} {s : State}
    (hf : (f s.intercom).shownMode = s.intercom.shownMode) :
    if shownModeOf (f s.intercom).floor (openFlagNow s) = s.intercom.shownMode then
      (changeFloor f s).link.displayPlace = s.link.displayPlace
    else (changeFloor f s).Shows := by
  have hopen : openFlagNow { s with intercom := f s.intercom } = openFlagNow s := rfl
  unfold changeFloor updateShownMode
  dsimp only
  rw [hopen, hf]
  split
  · rfl
  · exact placeDisplay_shows _

section

variable {s : State} {f : IntercomState → IntercomState}

theorem changeFloor_floorBecomes (hs : s.Ready) (hf : (f s.intercom).shownMode = s.intercom.shownMode) :
    s.FloorBecomes (changeFloor f s) (f s.intercom) [] := by
  have hset := (State.Sends.refl hs.orderly).intercom (f s.intercom)
  exact ⟨State.Sends.occurs (ms := []) hset.shownMode, (changeFloor_link f s).1, changeFloor_displayPlace hf⟩

/-- A talk key answers the intercom status and then changes the floor (09 R149, log 25). -/
theorem keyTalk_floorBecomes (hs : s.Ready) (hf : (f s.intercom).shownMode = s.intercom.shownMode) (src : Station) :
    s.FloorBecomes (keyTalk f src s) (f s.intercom)
      [replyMessage src keyCode .ok (intercomStatus (f s.intercom) (openFlagNow s))] := by
  rw [keyTalk, reply_answered _ _ _ _ _ hs]
  have hreply := reply_occurs src keyCode .ok (intercomStatus (f s.intercom) (openFlagNow s)) s hs.orderly
  rw [reply_answered _ _ _ _ _ hs] at hreply
  have hset := hreply.sends.intercom (f s.intercom)
  exact ⟨State.Sends.occurs hset.shownMode, (changeFloor_link f _).1,
    changeFloor_displayPlace (s := s.answered _ _ _ _) hf⟩

end

/-! The commands. -/

section

variable {s : State} (hs : s.Ready)

include hs

theorem exec_talkDownKey :
    exec (.talkDownKey .meterHead [0#8]) s = .next (keyTalk (requestFloor .driver) .meterHead s) :=
  exec_key (c := .talkDownKey .meterHead [0#8]) (code := 14#8) rfl hs

theorem exec_talkUpKey : exec (.talkUpKey .meterHead [0#8]) s = .next (keyTalk (releaseFloor .driver) .meterHead s) :=
  exec_key (c := .talkUpKey .meterHead [0#8]) (code := 15#8) rfl hs

theorem exec_talkDownReport {src : Station} (hsrc : src = .passengerA ∨ src = .passengerB) :
    exec (.talkDownReport src []) s =
      .next (if isPresent s src then changeFloor (requestFloor (partyOf src)) s else s) := by
  rcases hsrc with rfl | rfl <;> exact exec_report (kind := .talkDown) rfl hs rfl rfl

theorem exec_talkUpReport {src : Station} (hsrc : src = .passengerA ∨ src = .passengerB) :
    exec (.talkUpReport src []) s = .next (changeFloor (releaseFloor (partyOf src)) s) := by
  rcases hsrc with rfl | rfl <;> exact exec_report (kind := .talkUp) rfl hs rfl rfl

theorem exec_talkHoldExpiry : exec .talkHoldExpiry s = .next (holdExpires s) := congrArg _ (if_pos hs.running)

end

/-- Settles O47: the status by `intercomStatus_eq`, the floor by the cases of its holder, and each command as one change of the
floor. -/
theorem talkFloor : Obligations.TalkFloor := by
  refine ⟨intercomStatus_eq, fun ic p h => ⟨fun hf => requestFloor_free hf p, requestFloor_held, requestFloor_other,
    fun hf hp => releaseFloor_held hf hp, fun hf => (releaseFloor_other hf).trans (leaveWaiting_eq p ic)⟩, fun s hs =>
    ⟨fun c after first hc => ?_, fun st hst hp => ?_, fun hfree => ?_⟩⟩
  · show ∃ t, exec c s = .next t ∧ s.FloorBecomes t after first
    simp only [List.mem_append, List.mem_cons, List.not_mem_nil, or_false, List.mem_ite_nil_right, Prod.mk.injEq] at hc
    have hdown : ∀ p, (requestFloor p s.intercom).shownMode = s.intercom.shownMode :=
      fun p => requestFloor_shownMode p s.intercom
    have hup : ∀ p, (releaseFloor p s.intercom).shownMode = s.intercom.shownMode :=
      fun p => releaseFloor_shownMode p s.intercom
    rcases hc with (((hkey | hkey | hreport | hreport) | ⟨hp, hreport⟩) | ⟨hp, hreport⟩) | ⟨hheld, hexpiry⟩
    · obtain ⟨rfl, rfl, rfl⟩ := hkey
      exact ⟨_, exec_talkDownKey hs, keyTalk_floorBecomes hs (hdown _) _⟩
    · obtain ⟨rfl, rfl, rfl⟩ := hkey
      exact ⟨_, exec_talkUpKey hs, keyTalk_floorBecomes hs (hup _) _⟩
    · obtain ⟨rfl, rfl, rfl⟩ := hreport
      exact ⟨_, exec_talkUpReport hs (.inl rfl), changeFloor_floorBecomes hs (hup _)⟩
    · obtain ⟨rfl, rfl, rfl⟩ := hreport
      exact ⟨_, exec_talkUpReport hs (.inr rfl), changeFloor_floorBecomes hs (hup _)⟩
    · obtain ⟨rfl, rfl, rfl⟩ := hreport
      exact ⟨_, (exec_talkDownReport hs (.inl rfl)).trans (congrArg _ (if_pos hp)), changeFloor_floorBecomes hs (hdown _)⟩
    · obtain ⟨rfl, rfl, rfl⟩ := hreport
      exact ⟨_, (exec_talkDownReport hs (.inr rfl)).trans (congrArg _ (if_pos hp)), changeFloor_floorBecomes hs (hdown _)⟩
    · obtain ⟨rfl, rfl, rfl⟩ := hexpiry
      obtain ⟨x, hx⟩ := Option.isSome_iff_exists.mp hheld
      obtain ⟨-, -, hmode⟩ := passFloor_leaves s.intercom
      have hpassed : holdExpires s = changeFloor passFloor s := by simp [holdExpires, hx]
      exact ⟨_, (exec_talkHoldExpiry hs).trans (congrArg _ hpassed), changeFloor_floorBecomes hs hmode⟩
  · rw [exec_talkDownReport hs hst, hp, if_neg Bool.false_ne_true]
  · rw [exec_talkHoldExpiry hs, holdExpires, hfree]

end Sys2Proof.Machine
end

