-- ==== Sys2Proof/Proofs/OpenAndPin.lean ====
section
/-! PROOF. OPEN TOGGLE (09 R150), CALL (09 R151) and PIN entry (09 R152). -/

namespace Sys2Proof.Machine

variable {s : State}

/-! OPEN TOGGLE (09 R150). -/

/-- A recomputed displayed mode leaves a DISPLAY that shows the values that stand, or places one. -/
theorem updateShownMode_shows (h : s.Shows) : (updateShownMode s).Shows := by
  unfold updateShownMode
  dsimp only
  split
  · exact h
  · exact placeDisplay_shows _

/-- The open flag set to the other value: the trip record, a DISPLAY, and the displayed mode (09 R150). -/
theorem setOpenFlag_other {v : Bool} (h : openFlagNow s ≠ v) :
    setOpenFlag v s = updateShownMode (placeDisplay (withTrip (fun tr => { tr with openFlag := v }) s)) := if_neg h

/-- In a trip OPEN TOGGLE answers the status of the flag to be set, and sets it. -/
theorem keyOpenToggle_inTrip (h : inTrip s = true) (src : Station) :
    keyOpenToggle src 0#8 s =
      setOpenFlag (!openFlagNow s) (reply src keyCode .ok (intercomStatus s.intercom (!openFlagNow s)) s) := if_pos h

theorem keyOpenToggle_refused (h : inTrip s = false) (src : Station) :
    keyOpenToggle src 0#8 s = refuse src keyCode .refusedState s := if_neg (Bool.eq_false_iff.mp h)

theorem inTrip_iff : inTrip s = true ↔ s.meter = .hired ∨ s.meter = .settling := by simp [inTrip]

section

variable (hs : s.Ready)

include hs

theorem exec_openToggle : exec (.openToggle .meterHead [0#8]) s = .next (keyOpenToggle .meterHead 0#8 s) :=
  exec_key (c := .openToggle .meterHead [0#8]) (code := 16#8) rfl hs

/-- The OPEN TOGGLE of an open trip as a handling. -/
theorem keyOpenToggle_toggles {tr : Trip} (h : inTrip s = true) (ht : s.trip = some tr) (src : Station) :
    (keyOpenToggle src 0#8 s).Shows ∧ (keyOpenToggle src 0#8 s).link.signPlace = s.link.signPlace ∧
      ({ s with
        trip := some { tr with openFlag := !tr.openFlag }
        intercom := { s.intercom with shownMode := shownModeOf s.intercom.floor (!tr.openFlag) } } : State).Occurs
        (keyOpenToggle src 0#8 s) [replyMessage src keyCode .ok (intercomStatus s.intercom (!tr.openFlag))] [] := by
  have hopen : openFlagNow s = tr.openFlag := by simp [openFlagNow, ht]
  have hreply := reply_occurs src keyCode .ok (intercomStatus s.intercom (!tr.openFlag)) s hs.orderly
  have hother : openFlagNow (reply src keyCode .ok (intercomStatus s.intercom (!tr.openFlag)) s) ≠ !tr.openFlag := by
    simp [openFlagNow, ht]
  rw [keyOpenToggle_inTrip h, hopen, setOpenFlag_other hother]
  refine ⟨updateShownMode_shows (placeDisplay_shows _), ?_,
    (hreply.withTrip ht fun x => { x with openFlag := !tr.openFlag }).display.shownMode⟩
  simp [updateShownMode_signPlace, reply]

/-! PIN entry (09 R152). -/

theorem exec_pinState {b : Byte} (hb : b.toNat ≤ 1) :
    exec (.pinState .cardTerminal [b]) s = .next (pinStateTaken (b.toNat == 1) s) := by
  have hfield : fieldAt [b] 0 1 = b.toNat := fieldAt_byte rfl
  have hform : reportFormOk .pinState [b] = true := by simp [reportFormOk, hfield, hb]
  rw [exec_report (kind := .pinState) rfl hs rfl hform, takeReport, hfield]

/-! CALL (09 R151). -/

theorem exec_call {src : Station} (hsrc : src = .passengerA ∨ src = .passengerB) :
    exec (.call src []) s = .next (callTaken s) := by
  rcases hsrc with rfl | rfl <;> exact exec_report (kind := .call) rfl hs rfl rfl

end

/-- Settles O48: OPEN TOGGLE by `keyOpenToggle_toggles`, CALL as one occurrence, and PIN entry by `pinStateTaken`. -/
theorem openToggleCallAndPin : Obligations.OpenToggleCallAndPin := by
  intro s hs
  refine ⟨fun tr hm ht => ?_, fun hhired hsettling => ?_, fun st hst => ?_, fun hp => ?_, fun hp => ?_, ?_, ?_⟩
  · obtain ⟨hshows, hsign, hoccurs⟩ := keyOpenToggle_toggles hs (inTrip_iff.mpr hm) ht .meterHead
    have hflag : ∀ x y : Byte, (if (!tr.openFlag) = true then x else y) = if tr.openFlag then y else x := by
      cases tr.openFlag <;> exact fun _ _ => rfl
    simp only [intercomStatus_eq, hflag] at hoccurs
    exact ⟨_, exec_openToggle hs, hshows, hsign, hoccurs⟩
  · have hout : inTrip s = false := Bool.eq_false_iff.mpr fun h => (inTrip_iff.mp h).elim hhired hsettling
    rw [exec_openToggle hs, keyOpenToggle_refused hout, refuse_answered _ _ _ _ hs]
    rfl
  · exact ⟨_, exec_call hs hst, raise_placesFollow .passengerCall (withTrip _ s),
      raise_occurs .passengerCall (withTrip _ s) hs.orderly⟩
  · exact (exec_pinState hs (by decide)).trans (congrArg _ (if_pos hp))
  · exact (exec_pinState hs (by decide)).trans (congrArg _ (if_neg (Bool.eq_false_iff.mp hp)))
  · exact exec_pinState hs (by decide)
  · exact congrArg _ (if_pos hs.running)

end Sys2Proof.Machine
end

