-- ==== Sys2Proof/Proofs/Privacy.lean ====
section
/-! PROOF. The forced zeros (09 R141) at a frame: what the mix of a frame reads of the up line, and that the emergency and PIN
entry stand at that mix as at the frame's start (log 4). -/

namespace Sys2Proof.Machine

variable {s : State}

/-! The forced zeros (09 R141). -/

/-- Outside an emergency only the modem reaches the modem's voice-out. -/
theorem mixGain_voiceOut (h : s.sign.emergency = none) {i : Nat} (hi : i < 3) : mixGain s i 3 = 0 := by
  have hmode : effectiveMode s ≠ 4 := mt (effectiveMode_eq_four s).mp (by simp [h])
  exact if_pos (.inl ⟨hmode, rfl, hi⟩)

/-- While PIN entry is ON no passenger microphone reaches the driver speaker. -/
theorem mixGain_pinEntry (h : s.intercom.pin.isSome = true) {i : Nat} (hi : i = 1 ∨ i = 2) : mixGain s i 0 = 0 :=
  if_pos (.inr ⟨h, rfl, hi⟩)

variable {x y : Four Sample}

theorem mixOutput_voiceOut (h : s.sign.emergency = none) (h3 : x.x3 = y.x3) : mixOutput s x 3 = mixOutput s y 3 := by
  have hcabin : ∀ i, i < 3 → mixGain s i 3 = 0 := fun _ => mixGain_voiceOut h
  simp [mixOutput, mixSum, hcabin, h3]

theorem mixOutput_pinEntry (h : s.intercom.pin.isSome = true) (h0 : x.x0 = y.x0) (h3 : x.x3 = y.x3) :
    mixOutput s x 0 = mixOutput s y 0 := by
  simp [mixOutput, mixSum, mixGain_pinEntry h, h0, h3]

/-! What a frame's mix reads of the up line. -/

/-- The dispatcher leaves the outputs of the mix. -/
theorem drain_mixed (n : Nat) (s : State) : (drain n s).link.mixed = s.link.mixed := by
  induction n generalizing s with
  | zero => rfl
  | succ n ih =>
    unfold drain
    repeat' split
    · rfl
    · simp [ih]
    · rfl

/-- A frame ends with the outputs of its mix (09 R138). -/
theorem frameRuns_mixed (up : UpFrame) (s : State) :
    let x := frameSamples s.link.stations up
    let read := frameRead up s
    (frameRuns up s).link.mixed =
      some ⟨mixOutput read x 0, mixOutput read x 1, mixOutput read x 2, mixOutput read x 3⟩ := by
  intro x read
  obtain ⟨-, -, -, -, -, -, -, hcount, -⟩ := LinkState.bare_keeps (countFrame_bare (dispatchInbound (mixEvent x read)))
  obtain ⟨-, -, -, -, -, -, -, hmix, -⟩ := LinkState.bare_keeps (mixEvent_bare x read)
  rw [frameRuns_eq, hcount, dispatchInbound, drain_mixed, hmix]

/-- The up lane is read from the answer and the message lane alone (01 R8, R9). -/
theorem frameRead_congr {up up' : UpFrame} (ha : up'.answer = up.answer) (hm : up'.message = up.message) (s : State) :
    frameRead up' s = frameRead up s := by
  simp only [frameRead, readUpLane, ha, hm]

/-! The emergency at a frame's mix. -/

/-- No message begins an emergency (08 R129, R130). -/
theorem handleMessage_noEmergency (m : Inbound) (h : s.sign.emergency = none) :
    (handleMessage m s).sign.emergency = none := by
  by_cases hm : m = clearMessage
  · have hrefused : handleMessage clearMessage s = refuse .fleetModem 14#8 .refusedState s :=
      (handleMessage_permitted clearMessage .emergencyClear s rfl rfl).trans (takeEmergencyClear_inactive .fleetModem h)
    rw [hm, hrefused]
    simpa using h
  · rw [handleMessage_emergency s hm, h]

theorem drain_noEmergency (n : Nat) (h : s.sign.emergency = none) : (drain n s).sign.emergency = none := by
  induction n generalizing s with
  | zero => exact h
  | succ n ih =>
    unfold drain
    repeat' split
    · exact h
    · exact ih (handleMessage_noEmergency _ h)
    · exact h

theorem frameRead_noEmergency (up : UpFrame) (h : s.sign.emergency = none) :
    (frameRead up s).sign.emergency = none := by
  rw [frameRead, readUpLane_emergency]
  exact drain_noEmergency _ h

/-! PIN entry at a frame's mix (09 R152). -/

theorem releaseFloor_pin (p : Party) (ic : IntercomState) : (releaseFloor p ic).pin = ic.pin := by
  obtain ⟨hpass, -⟩ := passFloor_leaves ic
  unfold releaseFloor
  repeat' split
  · exact hpass
  all_goals rw [leaveWaiting_eq]

/-- The loss of any station but the terminal leaves PIN entry. -/
theorem stationLostActs_pin {st : Station} (h : st ≠ .cardTerminal) (s : State) :
    (stationLostActs st s).intercom.pin = s.intercom.pin := by
  have hpassenger : ∀ p, (passengerLost p s).intercom.pin = s.intercom.pin := fun p => by
    rw [passengerLost, changeFloor_intercom]
    exact releaseFloor_pin p s.intercom
  cases st
  case cardTerminal => exact absurd rfl h
  case passengerA | passengerB => exact hpassenger _
  all_goals rfl

/-- A miss leaves PIN entry unless it is the terminal's eighth. -/
theorem stationMisses_pin {st : Station} (h : st = .cardTerminal → (s.link.stations.get st).misses < 7) :
    (stationMisses st s).intercom.pin = s.intercom.pin := by
  rw [stationMisses_eq]
  split
  case isTrue hlost =>
    obtain ⟨heighth, -⟩ := hlost
    have hother : st ≠ .cardTerminal := fun hst => Nat.not_le.mpr (h hst) (Nat.le_of_succ_le_succ heighth)
    rw [stationLostActs_pin hother]
    simp
  case isFalse => simp

theorem stationTruncates_pin {st : Station} (h : st = .cardTerminal → (s.link.stations.get st).misses < 7) :
    (stationTruncates st s).intercom.pin = s.intercom.pin := by
  have hmisses := stationMisses_pin (s := setRecord st (s.link.stations.get st).truncated s)
    fun hst => by
      rw [setRecord, StationTable.get_set]
      exact h hst
  rw [stationTruncates_eq]
  simpa using hmisses

/-- An up lane without message bytes leaves PIN entry while the terminal is not lost. -/
theorem readUpLane_pin {up : UpFrame} (grant : Option Station) (hv : up.message.valid = false)
    (h : (s.link.stations.get .cardTerminal).misses < 7) :
    (readUpLane grant up s).intercom.pin = s.intercom.pin := by
  cases hr : s.link.reception with
  | some r =>
    rw [readUpLane_truncated hr hv]
    exact stationTruncates_pin (s := setReception none s) fun hst => hst ▸ h
  | none =>
    cases grant with
    | none => rw [readUpLane_none up hr]
    | some st =>
      by_cases ha : up.answer = ⟨true, Config.idleCode⟩
      · rw [readUpLane_answered hr (.inr ha)]
        simp
      · rw [readUpLane_missed hr hv ha]
        exact stationMisses_pin fun hst => hst ▸ h

theorem frameRead_pin {up : UpFrame} (hi : s.link.inbound = []) (hv : up.message.valid = false)
    (h : (s.link.stations.get .cardTerminal).misses < 7) : (frameRead up s).intercom.pin = s.intercom.pin := by
  obtain ⟨hst, -⟩ := linkFrameStarts_keeps s.link
  rw [frameRead_empty up s hi]
  exact readUpLane_pin (s := { s with link := (linkFrameStarts s.link).2 }) _ hv (by rwa [hst])

/-- Settles O49: both frames make their mix in one state, `frameRead`, where the forced zeros stand, and their mixes differ in the
silenced samples alone. -/
theorem cabinAudioStaysPrivate : Obligations.CabinAudioStaysPrivate := by
  intro s t u up up' cal hrun ha hm hmodem ht hu
  rw [exec_frame _ _ _ hrun, Host.Outcome.next.injEq] at ht hu
  have hmixed := frameRuns_mixed up { s with calLine := cal }
  have hmixed' := frameRuns_mixed up' { s with calLine := cal }
  rw [ht] at hmixed
  rw [hu, frameRead_congr ha hm] at hmixed'
  have h3 : (frameSamples s.link.stations up).x3 = (frameSamples s.link.stations up').x3 := by
    simp only [frameSamples, hmodem]
  rw [hmixed, hmixed']
  refine ⟨fun he => ?_, fun hpin hi hv hmisses hdriver => ?_⟩
  · have hread : (frameRead up { s with calLine := cal }).sign.emergency = none := frameRead_noEmergency up he
    exact congrArg some (mixOutput_voiceOut hread h3)
  · have hread : (frameRead up { s with calLine := cal }).intercom.pin.isSome = true := by
      rw [frameRead_pin (s := { s with calLine := cal }) hi hv hmisses]
      exact hpin
    have h0 : (frameSamples s.link.stations up).x0 = (frameSamples s.link.stations up').x0 := by
      simp only [frameSamples, hdriver]
    exact congrArg some (mixOutput_pinEntry hread h0 h3)

end Sys2Proof.Machine
end

