-- ==== Sys2Proof/Proofs/PayCancel.lean ====
section
/-! PROOF. PAY CANCEL (10 R165, R173): its refusals, and the mark on the pending authorization. -/

namespace Sys2Proof.Machine

variable {s : State} {a : Auth} {tr : Trip} {payload : List Byte}

theorem takePayCancel_payload (h : payload ≠ []) (src : Station) (s : State) :
    takePayCancel src payload s = refuse src 16#8 .badValue s := if_pos h

/-- Without an authorization that can still be cancelled PAY CANCEL finds none (10 R173). -/
theorem takePayCancel_notFound (h : s.pay.auth = none ∨ ∃ a, s.pay.auth = some a ∧ a.cancelled = true) (src : Station) :
    takePayCancel src [] s = refuse src 16#8 .notFound s := by
  rcases h with hnone | ⟨a, ha, hc⟩
  · simp only [takePayCancel, hnone]
    rfl
  · simp only [takePayCancel, ha, hc]
    rfl

/-- The payment controller with the pending authorization marked (10 R173). -/
def cancelMarked (a : Auth) (s : State) : PaymentState := { s.pay with auth := some { a with cancelled := true } }

theorem takePayCancel_marks (hs : s.Ready) (ha : s.pay.auth = some a) (hc : a.cancelled = false) (ht : s.trip = some tr)
    (src : Station) :
    takePayCancel src [] s =
      offer (payResult a.number a.ref .declined a.farePart a.tip tr.remaining)
        { s.answered src 16#8 .ok (beBytes 2 a.number) with pay := cancelMarked a s } := by
  simp only [takePayCancel, ha, hc, reply_answered _ _ _ _ _ hs, payFails_eq, ← remainingNow_trip ht]
  rfl

/-- Settles O52: the refusals by `takePayCancel_payload` and `takePayCancel_notFound`, the mark by `takePayCancel_marks`, as the
handling it is. -/
theorem payCancelMarks : Obligations.PayCancelMarks := by
  intro s hs
  have hexec : ∀ payload, exec (.payCancel .cardTerminal payload) s = .next (takePayCancel .cardTerminal payload s) :=
    fun _ => exec_permitted (r := .payCancel) rfl hs rfl
  have hrefused := fun r => refuse_answered .cardTerminal 16#8 r s hs
  refine ⟨fun payload hp => ?_, fun hno => ?_, fun a tr ha hc ht => ?_⟩
  · exact (hexec _).trans (congrArg _ ((takePayCancel_payload hp _ s).trans (hrefused _)))
  · exact (hexec _).trans (congrArg _ ((takePayCancel_notFound hno _).trans (hrefused _)))
  · have hmarks := (hexec []).trans (congrArg _ (takePayCancel_marks hs ha hc ht _))
    obtain ⟨hsign, hdisplay⟩ := offer_places (payResult a.number a.ref .declined a.farePart a.tip tr.remaining)
      { s.answered .cardTerminal 16#8 .ok (beBytes 2 a.number) with pay := cancelMarked a s }
    exact ⟨_, hmarks, hdisplay, hsign, ((hs.answered_sends _ _ _ _).pay (cancelMarked a s)).offered _⟩

end Sys2Proof.Machine
end

