-- ==== Sys2Proof/Proofs/Captures.lean ====
section
/-! PROOF. The capture state (10 R161, R170, R172): the check that starts a capture, the end of a capture in flight and of a wait,
and MODEM STATUS. -/

namespace Sys2Proof.Machine

variable {s : State} {e : DeferredEntry} {rest : List DeferredEntry}

/-! The check that starts a capture (10 R170). -/

/-- The CAPTURE of a deferred entry (10 R170). -/
def captureMessage (e : DeferredEntry) : Outbound := ⟨.fleetModem, kindCapture, capturePayload e⟩

/-- The capture state while a deferred entry's capture begins (10 R170). -/
def captureBegun (e : DeferredEntry) (s : State) : CaptureState := .inFlight e.ref 0 (authTimeoutSetting s.tables.unbanked)

theorem captureCheck_busy (h : s.pay.capture ≠ .idle) : captureCheck s = s := by
  unfold captureCheck
  split
  case h_1 hidle _ => exact absurd hidle h
  case h_2 => rfl

theorem captureCheck_head (hc : s.pay.capture = .idle) (ho : isOnline s = true) (hd : s.pay.deferred = e :: rest) :
    captureCheck s = setCapture (captureBegun e s) (offer (captureMessage e) s) := by
  simp only [captureCheck, hc, hd]
  exact if_pos ho

/-- An offer and a change of the capture state come in any order. -/
theorem setCapture_offer (c : CaptureState) (m : Outbound) (s : State) :
    setCapture c (offer m s) = offer m (setCapture c s) := by
  by_cases hroom : s.link.outbound.length < Config.outboundCap
  · exact (congrArg (setCapture c) (if_pos hroom)).trans (if_pos hroom).symm
  · exact (congrArg (setCapture c) (if_neg hroom)).trans (if_neg hroom).symm

/-- With a free place the CAPTURE joins the tail of the outbound queue (01 R14, 10 R170). -/
theorem captureCheck_starts (hroom : s.link.outbound.length < Config.outboundCap) (hc : s.pay.capture = .idle)
    (ho : isOnline s = true) (hd : s.pay.deferred = e :: rest) :
    captureCheck s =
      { s with
        link := { s.link with outbound := s.link.outbound ++ [captureMessage e] }
        pay := { s.pay with capture := captureBegun e s } } := by
  rw [captureCheck_head hc ho hd, setCapture_offer]
  exact if_pos hroom

/-! The end of a capture in flight and of a wait (10 R172). -/

theorem captureExpires_inFlight {ref : Reference} {n limit : Nat} (h : s.pay.capture = .inFlight ref n limit) :
    captureExpires s = setCapture (.waiting 0 (retrySetting s.tables.unbanked)) s := by
  simp only [captureExpires, h]

theorem captureExpires_other (h : ∀ ref n limit, s.pay.capture ≠ .inFlight ref n limit) : captureExpires s = s := by
  unfold captureExpires
  split
  case h_1 hflight => exact absurd hflight (h _ _ _)
  case h_2 => rfl

theorem captureWaitEnds_waiting {n interval : Nat} (h : s.pay.capture = .waiting n interval) :
    captureWaitEnds s = captureCheck (setCapture .idle s) := by
  simp only [captureWaitEnds, h]

theorem captureWaitEnds_other (h : ∀ n interval, s.pay.capture ≠ .waiting n interval) : captureWaitEnds s = s := by
  unfold captureWaitEnds
  split
  case h_1 hwait => exact absurd hwait (h _ _)
  case h_2 => rfl

/-! MODEM STATUS (10 R161). -/

/-- The state with the bearer at a level. -/
def bearerSet (up : Bool) (s : State) : State := { s with pay := { s.pay with bearerUp := up } }

theorem bearerSet_same (s : State) : bearerSet s.pay.bearerUp s = s := rfl

theorem isOnline_of_bearerDown (h : s.pay.bearerUp = false) : isOnline s = false := by
  rw [isOnline, h, Bool.and_false]

/-- Online begins with the bearer's UP while the modem is PRESENT (10 R161). -/
theorem modemStatusTaken_begins (hp : isPresent s .fleetModem = true) (hb : s.pay.bearerUp = false) :
    modemStatusTaken true s = onlineBegins (bearerSet true s) := by
  have hbefore : isOnline s = false := isOnline_of_bearerDown hb
  have hafter : isOnline (bearerSet true s) = true := (Bool.and_true _).trans hp
  refine if_pos ?_
  rw [hbefore]
  exact hafter

/-- A MODEM STATUS that does not make the controller online sets the bearer alone (10 R161). -/
theorem modemStatusTaken_sets {up : Bool} (h : isOnline s = true ∨ isOnline (bearerSet up s) = false) :
    modemStatusTaken up s = bearerSet up s := by
  refine if_neg fun hbegins => ?_
  obtain ⟨hbefore, hafter⟩ := Bool.and_eq_true_iff.mp hbegins
  rcases h with honline | hoffline
  · exact absurd hbefore (by simp [honline])
  · exact Bool.eq_false_iff.mp hoffline hafter

theorem modemStatusTaken_down (s : State) : modemStatusTaken false s = bearerSet false s :=
  modemStatusTaken_sets (.inr (isOnline_of_bearerDown rfl))

theorem modemStatusTaken_absent (hp : isPresent s .fleetModem = false) : modemStatusTaken true s = bearerSet true s :=
  modemStatusTaken_sets (.inr (isOnline_of_absent (s := bearerSet true s) (of_decide_eq_false hp)))

/-- The bearer reported UP again changes nothing. -/
theorem modemStatusTaken_stillUp (hb : s.pay.bearerUp = true) : modemStatusTaken true s = s := by
  have hsame : bearerSet true s = s := hb ▸ bearerSet_same s
  have honce : isOnline s = true ∨ isOnline (bearerSet true s) = false := by
    rw [hsame]
    exact Bool.eq_false_or_eq_true _
  exact (modemStatusTaken_sets honce).trans hsame

/-- A capture in flight goes on, whether online begins or not (10 R161, R172). -/
theorem modemStatusTaken_inFlight (hb : s.pay.bearerUp = false) {ref : Reference} {n limit : Nat}
    (h : s.pay.capture = .inFlight ref n limit) : modemStatusTaken true s = bearerSet true s := by
  by_cases hp : isPresent s .fleetModem = true
  · exact (modemStatusTaken_begins hp hb).trans (onlineBegins_inFlight (s := bearerSet true s) h)
  · exact modemStatusTaken_absent (Bool.eq_false_iff.mpr hp)

theorem exec_modemStatus (hs : s.Ready) {b : Byte} (hb : b.toNat ≤ 1) :
    exec (.modemStatus .fleetModem [b]) s = .next (modemStatusTaken (b.toNat == 1) s) := by
  have hfield : fieldAt [b] 0 1 = b.toNat := fieldAt_byte rfl
  have hform : reportFormOk .modemStatus [b] = true := by simp [reportFormOk, hfield, hb]
  rw [exec_report (kind := .modemStatus) rfl hs rfl hform, takeReport, hfield]

/-- Settles O55: each command by the move it is, and the check that follows a wait's end by `captureCheck_starts`,
`captureCheck_offline` and `captureCheck_empty`. -/
theorem captureStateMoves : Obligations.CaptureStateMoves := by
  refine ⟨fun s => ⟨fun h => ?_, fun e rest hc ho hd => ?_⟩, fun s hs => ?_⟩
  · rcases h with hbusy | hoffline | hempty
    · exact captureCheck_busy hbusy
    · exact captureCheck_offline hoffline
    · exact captureCheck_empty hempty
  · exact (captureCheck_head hc ho hd).trans (setCapture_offer _ _ _)
  have hexpiry : exec .captureExpiry s = .next (captureExpires s) := congrArg _ (if_pos hs.running)
  have hwaitEnd : exec .captureWaitEnd s = .next (captureWaitEnds s) := congrArg _ (if_pos hs.running)
  have hup : exec (.modemStatus .fleetModem [1#8]) s = .next (modemStatusTaken true s) := exec_modemStatus hs (by decide)
  have hdown : exec (.modemStatus .fleetModem [0#8]) s = .next (modemStatusTaken false s) := exec_modemStatus hs (by decide)
  refine ⟨fun ref n limit h => ⟨?_, ?_⟩, fun n interval h => ⟨?_, fun hno => ?_⟩, fun h => ⟨?_, ?_⟩, ?_, ?_, ?_, fun hb => ?_⟩
  · exact hexpiry.trans (congrArg _ (captureExpires_inFlight h))
  · exact hwaitEnd.trans (congrArg _ (captureWaitEnds_other (by simp [h])))
  · exact hexpiry.trans (congrArg _ (captureExpires_other (by simp [h])))
  · have hcheck : captureCheck (setCapture .idle s) = setCapture .idle s :=
      hno.elim (captureCheck_offline (s := setCapture .idle s)) (captureCheck_empty (s := setCapture .idle s))
    exact hwaitEnd.trans (congrArg _ ((captureWaitEnds_waiting h).trans hcheck))
  · exact hexpiry.trans (congrArg _ (captureExpires_other (by simp [h])))
  · exact hwaitEnd.trans (congrArg _ (captureWaitEnds_other (by simp [h])))
  · intro e rest n interval hd hp capture started
    have hstarts := captureCheck_starts (s := setCapture .idle (bearerSet true s)) hs.room rfl ((Bool.and_true _).trans hp) hd
    refine ⟨fun hc hb => ?_, fun hc hb => ?_⟩
    · have hsame : bearerSet true s = s := hb ▸ bearerSet_same s
      have hends := (captureWaitEnds_waiting hc).trans (congrArg (captureCheck ∘ setCapture .idle) hsame.symm)
      exact hwaitEnd.trans (congrArg _ (hends.trans hstarts))
    · have hidle : onlineBegins (bearerSet true s) = captureCheck (setCapture .idle (bearerSet true s)) :=
        onlineBegins_idle (hc.symm.imp_right fun hwait => ⟨n, interval, hwait⟩)
      exact hup.trans (congrArg _ ((modemStatusTaken_begins hp hb).trans (hidle.trans hstarts)))
  · intro hb up
    refine ⟨fun hp => ?_, fun ref n limit h => ?_, fun hp hd hc => ?_⟩
    · exact hup.trans (congrArg _ (modemStatusTaken_absent hp))
    · exact hup.trans (congrArg _ (modemStatusTaken_inFlight hb h))
    · have hends : onlineBegins (bearerSet true s) = setCapture .idle (bearerSet true s) :=
        (onlineBegins_idle (s := bearerSet true s) hc).trans (captureCheck_empty hd)
      exact hup.trans (congrArg _ ((modemStatusTaken_begins hp hb).trans hends))
  · exact hdown.trans (congrArg _ (modemStatusTaken_down s))
  · exact hup.trans (congrArg _ (modemStatusTaken_stillUp hb))

end Sys2Proof.Machine
end

