-- ==== Sys2Proof/Proofs/CaptureResponse.lean ====
section
/-! PROOF. CAPTURE RESPONSE (10 R170, R171; 11 R183): its fields, the check that follows it as a handling, the mark in the journal,
and the head of the deferred queue resolved. -/

namespace Sys2Proof.Machine

variable {s t : State} {es : List Event} {ms : List Outbound} {ref : Reference} {e : DeferredEntry}
  {rest : List DeferredEntry}

/-! The fields (10 R171). -/

theorem captureResponse_fields (href : ref.InRange) (b : Byte) :
    let payload := refBytes ref ++ [b]
    payload.length = 6 ∧ referenceAt payload 0 = ref ∧ fieldAt payload 5 1 = b.toNat := by
  obtain ⟨⟨-, hshift⟩, ⟨-, htrip⟩, -, hindex⟩ := href
  refine ⟨rfl, ?_, fieldAt_byte rfl⟩
  have hreference : referenceAt (refBytes ref ++ [b]) 0 =
      ⟨beNat (beBytes 2 ref.shift), beNat (beBytes 2 ref.trip), beNat (beBytes 1 ref.index)⟩ := rfl
  rw [hreference, beNat_beBytes (by omega), beNat_beBytes (by omega), beNat_beBytes (by omega)]

theorem Reference.InRange.inRange (href : ref.InRange) : referenceInRange ref = true := by
  obtain ⟨⟨hshift, -⟩, ⟨htrip, -⟩, hindex1, hindex⟩ := href
  simp [referenceInRange, hshift, htrip, hindex1, hindex]

/-- On a Ready controller a CAPTURE RESPONSE in its ranges goes to the payment controller. -/
theorem exec_captureResponse (hs : s.Ready) (href : ref.InRange) {b : Byte} (hb : b.toNat ≤ 1) :
    exec (.captureResponse .fleetModem (refBytes ref ++ [b])) s =
      .next (captureResponseTaken ref (b.toNat == 1) s) := by
  obtain ⟨hlength, hreference, hanswer⟩ := captureResponse_fields href b
  have hform : reportFormOk .captureResponse (refBytes ref ++ [b]) = true := by
    simp [reportFormOk, hlength, hreference, hanswer, href.inRange, hb]
  rw [exec_report (kind := .captureResponse) rfl hs rfl hform, takeReport, hreference, hanswer]

/-! The check that starts a capture, as a handling (10 R170). -/

/-- The deferred entry whose capture a check starts when the capture state is IDLE (10 R170). -/
def captureDue (s : State) : Option DeferredEntry := if isOnline s then s.pay.deferred.head? else none

/-- The payment controller after a check with the capture state IDLE (10 R170). -/
def captureChecked (s : State) : PaymentState :=
  { s.pay with
    capture :=
      match captureDue s with
      | none => .idle
      | some e => captureBegun e s }

theorem captureDue_some (h : captureDue s = some e) : isOnline s = true ∧ ∃ rest, s.pay.deferred = e :: rest := by
  obtain ⟨honline, hhead⟩ := Option.ite_none_right_eq_some.mp h
  exact ⟨honline, List.head?_eq_some_iff.mp hhead⟩

theorem captureCheck_notDue (h : captureDue s = none) : captureCheck s = s := by
  by_cases honline : isOnline s = true
  · exact captureCheck_empty (List.head?_eq_none_iff.mp ((if_pos honline).symm.trans h))
  · exact captureCheck_offline (Bool.eq_false_iff.mpr honline)

theorem captureChecked_notDue (hc : s.pay.capture = .idle) (h : captureDue s = none) : captureChecked s = s.pay := by
  simp only [captureChecked, h, ← hc]

theorem captureChecked_due (h : captureDue s = some e) : captureChecked s = { s.pay with capture := captureBegun e s } := by
  simp only [captureChecked, h]

/-- With a free place the check is the CAPTURE, if one is due, at the tail of the outbound queue, and the capture state. -/
theorem captureCheck_ready (hroom : s.link.outbound.length < Config.outboundCap) (hc : s.pay.capture = .idle) :
    captureCheck s =
      { s with
        link := { s.link with outbound := s.link.outbound ++ (captureDue s).toList.map captureMessage }
        pay := captureChecked s } := by
  cases hdue : captureDue s with
  | none =>
    rw [captureCheck_notDue hdue, captureChecked_notDue hc hdue, Option.toList_none, List.map_nil, List.append_nil]
  | some e =>
    obtain ⟨honline, rest, hd⟩ := captureDue_some hdue
    rw [captureCheck_starts hroom hc honline hd, captureChecked_due hdue]
    rfl

/-- Being online and the entry due do not depend on the messages and events of a handling. -/
theorem State.Sends.captureDue_eq (h : s.Sends t es ms) : captureDue t = captureDue s := by
  obtain ⟨hstations, -⟩ := h.link.keeps
  have honline : isOnline t = isOnline s := by simp only [isOnline, isPresent, hstations, h.pay_eq]
  rw [captureDue, captureDue, honline, h.pay_eq]

theorem State.Sends.captureChecked (h : s.Sends t es ms) (hc : s.pay.capture = .idle) :
    ({ s with pay := Machine.captureChecked s } : State).Sends (captureCheck t) es
      (ms ++ (captureDue s).toList.map captureMessage) := by
  obtain ⟨-, -, -, -, -, htables, -⟩ := h.keeps
  have hdue := h.captureDue_eq
  cases hs : captureDue s with
  | none =>
    rw [captureCheck_notDue (hdue.trans hs), captureChecked_notDue hc hs]
    simpa using h
  | some e =>
    obtain ⟨honline, rest, hd⟩ := captureDue_some (hdue.trans hs)
    have hbegins := (h.offered (captureMessage e)).setCapture (captureBegun e s)
    have hbegun : captureBegun e t = captureBegun e s := by rw [captureBegun, htables, captureBegun]
    rw [captureCheck_head (h.pay_eq ▸ hc) honline hd, hbegun, captureChecked_due hs]
    exact hbegins

theorem State.PlacesFollow.captureChecked (k : s.PlacesFollow t) : s.PlacesFollow (captureCheck t) := by
  unfold captureCheck
  split
  case h_1 =>
    split
    case isTrue => exact k.offered _
    case isFalse => exact k
  case h_2 => exact k

/-! The mark in the journal (11 R183). -/

/-- A journal entry with its CARD OFFLINE tender of an index marked (11 R183). -/
def JournalEntry.markTenders (index : Nat) (x : JournalEntry) : JournalEntry :=
  { x with trip := { x.trip with tenders := x.trip.tenders.map (markTender index) } }

/-- The place of the newest journal entry with a reference's shift and trip numbers (11 R183). -/
def newestOf (ref : Reference) (l : List JournalEntry) : Option Nat :=
  l.findIdx? fun x => x.trip.shiftNumber = ref.shift ∧ x.trip.tripNumber = ref.trip

/-- The mark changes the entry at the newest place of the reference, and no other. -/
theorem markJournal_eq_mapIdx (ref : Reference) (l : List JournalEntry) :
    markJournal ref l = l.mapIdx fun j x => if newestOf ref l = some j then x.markTenders ref.index else x := by
  induction l with
  | nil => rfl
  | cons x xs ih =>
    rw [List.mapIdx_cons]
    by_cases hx : x.trip.shiftNumber = ref.shift ∧ x.trip.tripNumber = ref.trip
    · have hnewest : newestOf ref (x :: xs) = some 0 := by simp [newestOf, List.findIdx?_cons, hx]
      have hrest : (xs.mapIdx fun j y => if some 0 = some (j + 1) then y.markTenders ref.index else y) = xs := by
        simp [List.mapIdx_eq_iff]
      rw [hnewest, hrest]
      exact if_pos hx
    · have hnewest : newestOf ref (x :: xs) = (newestOf ref xs).map (· + 1) := by
        simp [newestOf, List.findIdx?_cons, hx]
      have hlater : ∀ j, (newestOf ref xs).map (· + 1) = some (j + 1) ↔ newestOf ref xs = some j := by simp
      have hfirst : (newestOf ref xs).map (· + 1) ≠ some 0 := by simp
      rw [hnewest, if_neg hfirst]
      simp only [hlater, ← ih]
      exact if_neg hx

/-- The journal does not enter the counts of occurrences. -/
theorem State.Sends.markDeclined (h : s.Sends t es ms) (ref : Reference) :
    (shiftMarkDeclined ref s).Sends (shiftMarkDeclined ref t) es ms :=
  ⟨by
    have k := h.keeps
    apply State.ext' <;> simp [k, shiftMarkDeclined, State.shiftsCounted], h.link⟩

/-! The head of the deferred queue resolved (10 R171). -/

theorem captureResponseTaken_empty (h : s.pay.deferred = []) (accepted : Bool) : captureResponseTaken ref accepted s = s := by
  simp only [captureResponseTaken, h]

theorem captureResponseTaken_other (h : s.pay.deferred = e :: rest) (href : e.ref ≠ ref) (accepted : Bool) :
    captureResponseTaken ref accepted s = s := by
  simp only [captureResponseTaken, h]
  exact if_neg href

/-- The state once the head of the deferred queue has left it and the capture state is IDLE (10 R171). -/
def headRemoved (rest : List DeferredEntry) (s : State) : State :=
  { s with pay := { s.pay with deferred := rest, capture := .idle } }

theorem captureResponseTaken_accepted (h : s.pay.deferred = e :: rest) :
    captureResponseTaken e.ref true s = captureCheck (shiftResolved (headRemoved rest s)) := by
  simp only [captureResponseTaken, h, if_true]
  rfl

theorem captureResponseTaken_declined (h : s.pay.deferred = e :: rest) :
    captureResponseTaken e.ref false s =
      captureCheck (shiftMarkDeclined e.ref (shiftDeclined (e.farePart + e.tip)
        (raise .captureDeclined (headRemoved rest s)))) := by
  simp only [captureResponseTaken, h, if_true]
  rfl

/-- A shift record with a declined capture counted (11 R179). -/
def declinedCounted (amount : Nat) (r : ShiftRecord) : ShiftRecord :=
  { r with declinedCount := up16 r.declinedCount, declinedAmount := up32 r.declinedAmount amount }

/-- The state with the head declined, but for the occurrence and the next capture (10 R171, 11 R179, R183). -/
def headDeclined (e : DeferredEntry) (rest : List DeferredEntry) (s : State) : State :=
  { headRemoved rest s with
    shifts :=
      { s.shifts with
        journal := markJournal e.ref s.shifts.journal
        record := s.shifts.record.map (declinedCounted (e.farePart + e.tip)) } }

theorem captureDeclined_sends (ho : s.link.orderly) (e : DeferredEntry) (rest : List DeferredEntry) :
    (headDeclined e rest s).Sends
      (shiftMarkDeclined e.ref (shiftDeclined (e.farePart + e.tip) (raise .captureDeclined (headRemoved rest s))))
      [.captureDeclined] (noticesOf .captureDeclined s.disp) := by
  have hraised : (headRemoved rest s).Sends (raise .captureDeclined (headRemoved rest s)) [.captureDeclined]
      (noticesOf .captureDeclined s.disp) := (State.Sends.refl (s := headRemoved rest s) ho).raised .captureDeclined
  exact (hraised.shift (declinedCounted (e.farePart + e.tip)) fun _ _ _ => rfl).markDeclined e.ref

theorem captureDeclined_placesFollow (e : DeferredEntry) (rest : List DeferredEntry) (s : State) :
    s.PlacesFollow
      (shiftMarkDeclined e.ref (shiftDeclined (e.farePart + e.tip) (raise .captureDeclined (headRemoved rest s)))) :=
  raise_placesFollow .captureDeclined (headRemoved rest s)

/-- Settles O56: the head accepted by `captureCheck_ready`, declined by `captureDeclined_sends` with the mark of
`markJournal_eq_mapIdx` and the check of `State.Sends.captureChecked`. -/
theorem captureResponseResolves : Obligations.CaptureResponseResolves := by
  intro s ref hs hshift1 hshift htrip1 htrip hindex1 hindex command
  have hexec : ∀ {b : Byte}, b.toNat ≤ 1 → exec (command b) s = .next (captureResponseTaken ref (b.toNat == 1) s) :=
    exec_captureResponse hs ⟨⟨hshift1, hshift⟩, ⟨htrip1, htrip⟩, ⟨hindex1, hindex⟩⟩
  refine ⟨fun hempty b hb => (hexec hb).trans (congrArg _ (captureResponseTaken_empty hempty _)), ?_⟩
  intro e rest hd
  refine ⟨fun hother b hb => (hexec hb).trans (congrArg _ (captureResponseTaken_other hd hother _)), ?_⟩
  rintro rfl next captures pay newest marked
  refine ⟨?_, ?_⟩
  · have haccepted := (hexec (b := 1#8) (by decide)).trans (congrArg _ (captureResponseTaken_accepted hd))
    exact haccepted.trans (congrArg _ (captureCheck_ready (s := shiftResolved (headRemoved rest s)) hs.room rfl))
  · have hdeclined := (hexec (b := 0#8) (by decide)).trans (congrArg _ (captureResponseTaken_declined hd))
    have hsends := (captureDeclined_sends hs.orderly e rest).captureChecked rfl
    simp only [headDeclined, markJournal_eq_mapIdx] at hsends
    exact ⟨_, hdeclined, (captureDeclined_placesFollow e rest s).captureChecked, hsends⟩

end Sys2Proof.Machine
end

