-- ==== Sys2Proof/Proofs/RecordPages.lean ====
section
/-! PROOF. The encoded forms of the records of the shift accounting unit (11 R177, R181, R187, R191) and their pages (11 R184). -/

namespace Sys2Proof.Machine

/-! The lengths of fields. -/

@[simp] theorem length_beBytes (n v : Nat) : (beBytes n v).length = n := by
  induction n with
  | zero => rfl
  | succ n ih => rw [beBytes, List.length_cons, ih]

@[simp] theorem length_signedBytes (n : Nat) (v : Int) : (signedBytes n v).length = n := length_beBytes n _

@[simp] theorem length_clockBytes (t : ClockTime) : (clockBytes t).length = 5 := by simp [clockBytes]

@[simp] theorem length_periodBytes (p : Period) : (periodBytes p).length = 10 := by simp [periodBytes]

@[simp] theorem length_tenderBytes (t : Tender) : (tenderBytes t).length = 9 := by simp [tenderBytes]

/-- A list of any length takes the same bytes: what its members leave of the slots is filled with 0 (11 R181). -/
theorem length_slotsOf {α : Type} {enc : α → List Byte} {width : Nat} (henc : ∀ a, (enc a).length = width) (slots : Nat)
    (l : List α) : (slotsOf enc width slots l).length = slots * width := by
  have hmembers : ((l.take slots).flatMap enc).length = (l.take slots).length * width := by
    simp [List.length_flatMap, henc]
  have hfit : (l.take slots).length ≤ slots := List.length_take_le slots l
  rw [slotsOf, List.length_append, List.length_replicate, hmembers, ← Nat.add_mul, Nat.add_sub_cancel' hfit]

/-! The lengths of records. -/

theorem length_shiftBytes (r : ShiftRecord) : (shiftBytes r).length = 119 := by
  have hexceptions : (r.exceptions.toList.flatMap (beBytes 2)).length = 8 := by simp [Four.toList]
  unfold shiftBytes
  simp only [List.length_append, length_beBytes, length_signedBytes, length_clockBytes, hexceptions]

theorem length_reportBytes (r : Report) : (reportBytes r).length = 135 := by simp [reportBytes, length_shiftBytes]

theorem length_snapshotBytes (x : Snapshot) : (snapshotBytes x).length = 124 := by simp [snapshotBytes, length_shiftBytes]

theorem length_journalBytes (e : JournalEntry) : (journalBytes e).length = 146 := by
  have hperiods := length_slotsOf length_periodBytes 4 e.trip.periods
  have hpresses := length_slotsOf (length_beBytes 1) 8 e.trip.pressCounts
  have htenders := length_slotsOf length_tenderBytes 4 e.trip.tenders
  unfold journalBytes
  simp only [List.length_append, List.length_singleton, length_beBytes, length_signedBytes, length_clockBytes, hperiods,
    hpresses, htenders]

/-! Pages (11 R184). -/

/-- The first n pages hold the first 44n bytes. -/
theorem pages_join_take (l : List Byte) (n : Nat) :
    (List.range n).flatMap (pageOf l) = l.take (Config.pageBytes * n) := by
  induction n with
  | zero => rfl
  | succ n ih => rw [List.range_succ, List.flatMap_append, ih, List.flatMap_singleton, pageOf, Nat.mul_succ, List.take_add]

theorem le_pageCount (bytes : Nat) : bytes ≤ Config.pageBytes * pageCount bytes := by
  rw [pageCount, Config.pageBytes]
  omega

/-- Settles O57: the pages by `pages_join_take` with as many as reach the record's end, the lengths by those of the fields. -/
theorem pagesJoinToRecord : Obligations.PagesJoinToRecord := by
  refine ⟨fun l => ⟨?_, fun p => List.length_take_le _ _⟩, length_shiftBytes, length_reportBytes, length_snapshotBytes,
    length_journalBytes, rfl, rfl, rfl, rfl⟩
  rw [pages_join_take, List.take_of_length_le (le_pageCount l.length)]

end Sys2Proof.Machine
end

