-- ==== Sys2Proof/Proofs/ReleaseAndSnapshot.lean ====
section
/-! PROOF. REPORT RELEASE (11 R190) and the three snapshot requests (11 R192, R193): what each answers, and the part of the shift
accounting unit that it sets. -/

namespace Sys2Proof.Machine

theorem mayRequest_snapshots {src : Station} (h : src = .meterHead ∨ src = .fleetModem) :
    mayRequest src .snapshotTake = true ∧ mayRequest src .snapshotRead = true ∧ mayRequest src .snapshotRelease = true := by
  rcases h with rfl | rfl
  all_goals decide

/-- The shift accounting unit after a shift record has been copied into the snapshot area (11 R192). -/
def snapshotTaken (taker : Station) (r : ShiftRecord) (s : State) : ShiftState :=
  { s.shifts with snapshot := some ⟨r, clockNow s, taker⟩ }

theorem takerCode_eq (st : Station) : takerCode st = if st = .meterHead then 0#8 else 1#8 := by
  cases st <;> rfl

section

variable {s : State} (hs : s.Ready) (src : Station)

include hs

/-! REPORT RELEASE (11 R190). -/

theorem takeReportRelease_length {payload : List Byte} (h : payload.length ≠ 2) :
    takeReportRelease src payload s = s.answered src 20#8 .badValue [] :=
  (if_pos h).trans (refuse_answered _ _ _ _ hs)

theorem takeReportRelease_empty (h : s.shifts.reports = []) (hi lo : Byte) :
    takeReportRelease src [hi, lo] s = s.answered src 20#8 .notFound (beBytes 2 0) := by
  rw [← reply_answered _ _ _ _ _ hs]
  simp only [takeReportRelease, h]
  rfl

/-- The oldest report alone can be released: its number decides (11 R190). -/
theorem takeReportRelease_oldest {r : Report} {rest : List Report} (h : s.shifts.reports = r :: rest) (hi lo : Byte) :
    takeReportRelease src [hi, lo] s =
      if r.record.number = hi.toNat * 256 + lo.toNat then
        { s.answered src 20#8 .ok (beBytes 1 rest.length) with shifts := { s.shifts with reports := rest } }
      else s.answered src 20#8 .notFound (beBytes 2 r.record.number) := by
  have hnumber : beNat [hi, lo] = hi.toNat * 256 + lo.toNat := by simp [beNat]
  simp only [takeReportRelease, h, hnumber, reply_answered _ _ _ _ _ hs]
  rfl

/-! SNAPSHOT TAKE (11 R192). -/

theorem takeSnapshotTake_payload {payload : List Byte} (h : payload ≠ []) :
    takeSnapshotTake src payload s = s.answered src 21#8 .badValue [] :=
  (if_pos h).trans (refuse_answered _ _ _ _ hs)

theorem takeSnapshotTake_closed (h : s.shifts.record = none) :
    takeSnapshotTake src [] s = s.answered src 21#8 .refusedState [] := by
  rw [← refuse_answered _ _ _ _ hs]
  simp only [takeSnapshotTake, h]
  rfl

theorem takeSnapshotTake_open {r : ShiftRecord} (h : s.shifts.record = some r) :
    takeSnapshotTake src [] s =
      { s.answered src 21#8 .ok (beBytes 2 r.number ++ clockBytes (clockNow s) ++ [3#8]) with
        shifts := snapshotTaken src r s } := by
  simp only [takeSnapshotTake, h, reply_answered _ _ _ _ _ hs]
  rfl

/-! SNAPSHOT READ (11 R193). -/

theorem takeSnapshotRead_badValue {payload : List Byte} (h : payload.length ≠ 1 ∨ 2 < fieldAt payload 0 1) :
    takeSnapshotRead src payload s = s.answered src 22#8 .badValue [] :=
  (if_pos h).trans (refuse_answered _ _ _ _ hs)

omit hs in
/-- A SNAPSHOT READ of one of a snapshot's three pages passes the test of its form (11 R193). -/
theorem takeSnapshotRead_page {p : Byte} (hp : p.toNat ≤ 2) :
    takeSnapshotRead src [p] s =
      s.shifts.snapshot.elim (refuse src 22#8 .notFound s) fun x => reply src 22#8 .ok
        (beBytes 2 x.record.number ++ [takerCode x.taker] ++ [p] ++ [3#8] ++ pageOf (snapshotBytes x) p.toNat) s := by
  have hfield : fieldAt [p] 0 1 = p.toNat := fieldAt_byte rfl
  have hpage : beBytes 1 p.toNat = [p] := by simp [beBytes]
  have hform : ¬([p].length ≠ 1 ∨ 2 < p.toNat) := by simpa using hp
  simp only [takeSnapshotRead, hfield, hpage, if_neg hform]
  cases s.shifts.snapshot <;> rfl

theorem takeSnapshotRead_empty (h : s.shifts.snapshot = none) {p : Byte} (hp : p.toNat ≤ 2) :
    takeSnapshotRead src [p] s = s.answered src 22#8 .notFound [] := by
  rw [takeSnapshotRead_page src hp, h, Option.elim_none, refuse_answered _ _ _ _ hs]

theorem takeSnapshotRead_held {x : Snapshot} (h : s.shifts.snapshot = some x) {p : Byte} (hp : p.toNat ≤ 2) :
    takeSnapshotRead src [p] s = s.answered src 22#8 .ok
      (beBytes 2 x.record.number ++ [takerCode x.taker] ++ [p] ++ [3#8] ++ pageOf (snapshotBytes x) p.toNat) := by
  rw [takeSnapshotRead_page src hp, h, Option.elim_some, reply_answered _ _ _ _ _ hs]

/-! SNAPSHOT RELEASE (11 R193). -/

theorem takeSnapshotRelease_payload {payload : List Byte} (h : payload ≠ []) :
    takeSnapshotRelease src payload s = s.answered src 23#8 .badValue [] :=
  (if_pos h).trans (refuse_answered _ _ _ _ hs)

theorem takeSnapshotRelease_empty (h : s.shifts.snapshot = none) :
    takeSnapshotRelease src [] s = s.answered src 23#8 .notFound [] := by
  rw [← refuse_answered _ _ _ _ hs]
  simp only [takeSnapshotRelease, h]
  rfl

theorem takeSnapshotRelease_held {x : Snapshot} (h : s.shifts.snapshot = some x) :
    takeSnapshotRelease src [] s =
      { s.answered src 23#8 .ok (beBytes 2 x.record.number) with shifts := { s.shifts with snapshot := none } } := by
  simp only [takeSnapshotRelease, h, reply_answered _ _ _ _ _ hs]
  rfl

end

/-- Settles O58: each request, permitted to its station, by the equations of its owner. -/
theorem reportReleaseAndSnapshot : Obligations.ReportReleaseAndSnapshot := by
  refine ⟨fun s hs => ?_, fun s src hs hsrc => ?_⟩
  · have hrelease : ∀ {payload t}, takeReportRelease .fleetModem payload s = t →
        exec (.reportRelease .fleetModem payload) s = .next t := fun ht => ht ▸ exec_permitted (r := .reportRelease) rfl hs rfl
    refine ⟨fun payload h => hrelease (takeReportRelease_length hs _ h), ?_⟩
    intro hi lo number
    refine ⟨fun h => hrelease (takeReportRelease_empty hs _ h hi lo), fun r rest h => ?_⟩
    have holdest := takeReportRelease_oldest hs .fleetModem h hi lo
    exact ⟨fun hother => hrelease (holdest.trans (if_neg hother)), fun heq => hrelease (holdest.trans (if_pos heq))⟩
  · obtain ⟨hmayTake, hmayRead, hmayRelease⟩ := mayRequest_snapshots hsrc
    have htake : ∀ {payload t}, takeSnapshotTake src payload s = t → exec (.snapshotTake src payload) s = .next t :=
      fun ht => ht ▸ exec_permitted (r := .snapshotTake) rfl hs hmayTake
    have hread : ∀ {payload t}, takeSnapshotRead src payload s = t → exec (.snapshotRead src payload) s = .next t :=
      fun ht => ht ▸ exec_permitted (r := .snapshotRead) rfl hs hmayRead
    have hrelease : ∀ {payload t}, takeSnapshotRelease src payload s = t → exec (.snapshotRelease src payload) s = .next t :=
      fun ht => ht ▸ exec_permitted (r := .snapshotRelease) rfl hs hmayRelease
    refine ⟨fun payload h => ⟨htake (takeSnapshotTake_payload hs _ h), hrelease (takeSnapshotRelease_payload hs _ h)⟩,
      fun payload h => hread (takeSnapshotRead_badValue hs _ (h.imp_right ?_)),
      fun h => htake (takeSnapshotTake_closed hs _ h), fun r h => htake (takeSnapshotTake_open hs _ h),
      fun h => ⟨hrelease (takeSnapshotRelease_empty hs _ h), fun p hp => hread (takeSnapshotRead_empty hs _ h hp)⟩,
      fun x h => ⟨hrelease (takeSnapshotRelease_held hs _ h), fun p hp => hread ?_⟩⟩
    · rintro ⟨p, rfl, hp⟩
      exact hp.trans_eq (fieldAt_byte rfl).symm
    · rw [takeSnapshotRead_held hs _ h hp, takerCode_eq]
      rfl

end Sys2Proof.Machine
end

section
/-! PROOF. The step of the machine: the front command, or the idle step (log 1). -/

namespace Sys2Proof.Machine

/-- Settles O1: a queue with a front command by `step_cons`, an empty one by `step_nil`. -/
theorem stepRunsFrontCommand : Obligations.StepRunsFrontCommand := fun s =>
  ⟨step_cons s, step_nil s⟩

end Sys2Proof.Machine
end
